-- ==== Sys2Proof/Word.lean ====
section
/-! DEFINITION. The word types of the device and nothing else. -/
namespace Sys2Proof

/-- One byte of a scratchpad, a column, a message or an image. -/
abbrev Byte := BitVec 8

/-- A register of control space: every register is 64 bits wide (R10). Device addresses have the same width (R273). -/
abbrev Word := BitVec 64

/-- An FP32 bit pattern (R90). -/
abbrev F32 := BitVec 32

end Sys2Proof
end

