-- ==== Sys2Proof/Syntax.lean ====
section
/-! DEFINITION. The commands: one constructor of `Instr` for each row of spec/opcode_table.json. The table gives the rows
no operands, so the operands are the model's (log 2): the index of the tile, partition, module, queue or waiting item that
the step concerns, and what the surroundings supply (R3, R4). -/
namespace Sys2Proof

/-- The two arrays of a tile (R9). -/
inductive Side where
  | a | b
  deriving DecidableEq, Repr

/-- The four neighbour directions, in the order of R352 and R357. -/
inductive Dir where
  | north | east | south | west
  deriving DecidableEq, Repr

/-- The supplies of R421, in their rising order (R423). -/
inductive Rail where
  | vaon | vana | vpp | vdr | vsram | vcore | vio
  deriving DecidableEq, Repr

/-- A unit of a tile that may be power-gated (R428). -/
inductive GatedUnit where
  | arrayA | arrayB | vector
  deriving DecidableEq, Repr

/-- The path a register write or an SPDM request comes by (R455, R515, R530). -/
inductive Via where
  | i3c | varmlink
  deriving DecidableEq, Repr

/-- A firmware slot whose signature verifies, as the ROM finds it in the firmware flash (R450, R451). -/
structure Firmware where
  version : Nat
  svn : Nat
  digest : List Byte
  deriving DecidableEq, Repr

/-- A bad physical column found by a self-test (R148, R462). -/
structure BadColumn where
  tile : Nat
  side : Side
  col : Nat
  deriving DecidableEq, Repr

/-- What the tests of boot step 5 find (R462, R463): tiles with another failing block, bad array columns, columns with an
uncorrectable codeword or a lost mat. -/
structure TestFindings where
  badTiles : List Nat
  badColumns : List BadColumn
  unusable : List Nat
  deriving DecidableEq, Repr

/-- What sweep verification finds (R521, R522): scratchpads that fail, columns that fail, columns with a mat first found lost. -/
structure SweepFindings where
  spFail : List Nat
  colFail : List Nat
  lostMats : List Nat
  deriving DecidableEq, Repr

/-- The header fields of a received Varmlink message that its effect reads (R399, R400, R402). -/
structure MsgHead where
  module : Nat
  tag : Nat
  srcStack : Nat
  srcTile : Nat
  host : Bool
  pnum : Nat
  addr : Word
  aux : Word
  deriving DecidableEq, Repr

/-- The commands, in the order of spec/opcode_table.json. -/
inductive Instr where
  | powerOnReset
  | rstNAssert
  | resetRelease (straps : Nat) (fw0 fw1 : Option Firmware)
  | bootSelftest (pass : Bool)
  | siteRecordSubmit (flashAnswers : Bool)
  | moduleTrainDone (m : Nat) (repaired : Nat)
  | trainingTimeout (m : Nat)
  | bootTest (found : TestFindings)
  | bootReady
  | ledgerCompact
  | coldResetWrite
  | coldReset
  | unbindReset
  | railOrderBreach (first second : Rail)
  | railExcursion (rail : Rail) (reading : Nat)
  | railRecovery (failedCores : List Nat)
  | pwrGoodLoss
  | refclkLoss
  | imageLoad (served : Option (List Byte))
  | cachedImageLoad
  | imageData (tag handle offset : Nat) (data : List Byte)
  | imageReadTimeout (p : Nat)
  | applyPass
  | quiesceEnd (p : Nat)
  | sweep (p : Nat) (change : Nat)
  | sweepVerification (p : Nat) (found : SweepFindings)
  | sectionLoad (p : Nat)
  | partitionStart (p : Nat) (change : Nat)
  | pllLock (r : Nat)
  | tileWake (t : Nat)
  | unitGateReopen (t : Nat) (u : GatedUnit)
  | class1IdleGate (p : Nat)
  | startGrant
  | onRampComplete (t : Nat) (x : Side)
  | offRampComplete (t : Nat) (x : Side)
  | outputPositionIssue (t : Nat) (x : Side)
  | slotReload (t : Nat) (x : Side)
  | movingFront (t : Nat) (x : Side)
  | stoppedReload (t : Nat) (x : Side)
  | psumOut (t : Nat) (x : Side) (j : Nat)
  | rescaleRetry (t : Nat) (x : Side)
  | drainComplete (t : Nat) (x : Side)
  | columnCheckFail (t : Nat) (x : Side) (c : Nat)
  | columnRequalifyDone (t : Nat) (x : Side) (bad : List Nat)
  | gangParityMismatch (t : Nat) (x : Side) (d : Dir)
  | neighbourParityMismatch (t : Nat) (d : Dir)
  | linkRetestDone (t : Nat) (d : Dir) (pass : Bool)
  | pairBlockFill (t : Nat)
  | fusedPairPeriod (t : Nat)
  | take (t : Nat)
  | workContextArrival (t : Nat)
  | done (t : Nat)
  | reportMerge (t : Nat)
  | completionRecordWrite (p : Nat)
  | itinLoop (t : Nat)
  | branch (t : Nat)
  | ckpt (t : Nat)
  | checkpointCommit (p : Nat)
  | sync (t : Nat)
  | single (t : Nat)
  | paired (t : Nat)
  | elem (t : Nat)
  | softmax (t : Nat)
  | add (t : Nat)
  | sub (t : Nat)
  | mul (t : Nat)
  | mad (t : Nat)
  | div (t : Nat)
  | min (t : Nat)
  | max (t : Nat)
  | abs (t : Nat)
  | neg (t : Nat)
  | scale2 (t : Nat)
  | select (t : Nat)
  | func (t : Nat)
  | dfunc (t : Nat)
  | rsum (t : Nat)
  | rmax (t : Nat)
  | rmin (t : Nat)
  | rmaxi (t : Nat)
  | rmini (t : Nat)
  | jadd (t : Nat)
  | conv (t : Nat)
  | junct (t : Nat)
  | stepComplete (t : Nat) (n : Nat)
  | launch (t : Nat)
  | relay (t : Nat)
  | halo (t : Nat)
  | wbuf (t : Nat)
  | swing (t : Nat)
  | shadowStart (t q : Nat)
  | base (t q : Nat)
  | strmLoop (t q : Nat)
  | xfer (t q : Nat)
  | fptEntryRead (t q : Nat)
  | tend (t q : Nat)
  | signal (t q : Nat)
  | wait (t q : Nat)
  | transferComplete (t q n : Nat)
  | columnBurst (t burst : Nat) (errors : List (List Nat))
  | queueSafePoint (t q : Nat)
  | semaphoreTake (t i : Nat)
  | semaphoreMessage (n : Nat)
  | semaphoreRelease (t : Nat)
  | relayBlockSend (t : Nat)
  | relayBeatArrival (t : Nat)
  | relaySlotRelease (t : Nat)
  | haloDirection (t : Nat) (d : Dir)
  | neighbourEngineSafePoint (t : Nat)
  | roadWrite (t q n : Nat)
  | roadReadRequest (t q n : Nat)
  | roadBeatCrcFail (t : Nat) (d : Dir)
  | roadLinkRetrain (t : Nat) (d : Dir)
  | roadRetrainDone (t : Nat) (d : Dir) (pass : Bool) (wires : Nat)
  | gatherFlush (t : Nat)
  | spPatrolScrub (t line : Nat) (cells : List (Nat × Nat))
  | dsPatrolScrub (t codeword : Nat) (errors : List Nat)
  | refreshRow (t : Nat)
  | refreshForce (t : Nat)
  | sensorSample (compute holeile : List (Option Int))
  | controlPeriod (power class0Power : Nat)
  | telemetrySample (iVcore : Nat) (rails : List Nat)
  | pwShapeWrite (v : Word)
  | tileCoreFailure (t : Nat) (block : Nat)
  | partitionSafePoint (p : Nat)
  | coreRetestDone (t : Nat) (pass : Bool)
  | hold (p : Nat)
  | holdRelease (p : Nat)
  | ptFptInval (p : Nat)
  | ptFpResume (p : Nat) (v : Word)
  | ptCplHeadWrite (p : Nat) (v : Word)
  | hlLossPop (v : Word)
  | registerWrite (via : Via) (offset : Nat) (v : Word)
  | i3cOffsetWrite (offset : Nat)
  | setdasa (static dynamic : Nat)
  | entdaa (dynamic : Nat)
  | getNonce
  | takeOwnership
  | slotProgram
  | slotRevoke
  | counterRaise
  | debugUnlock
  | debugLock
  | debugFuse
  | zeroiseClear
  | zeroiseDecommission
  | nonceExpiry
  | getVersion (via : Via) (request : List Byte)
  | getCapabilities (via : Via) (request : List Byte)
  | negotiateAlgorithms (via : Via) (request : List Byte)
  | getDigests (via : Via) (request : List Byte)
  | getCertificate (via : Via) (slot offset length : Nat)
  | challenge (via : Via) (slot : Nat) (request : List Byte)
  | getMeasurements (via : Via) (index : Nat) (signed : Bool) (request : List Byte)
  | spdmUnsupported (via : Via) (code : Nat)
  | flitReceive (m : Nat) (flit : List Byte)
  | nak (m ack : Nat)
  | flitAckTimeout (m fseq : Nat)
  | moduleRetrain (m : Nat)
  | moduleRetrainDone (m : Nat) (pass : Bool)
  | read (h : MsgHead) (len : Nat)
  | write (h : MsgHead) (data : List Byte)
  | atomicSignal (h : MsgHead)
  | atomicRelease (h : MsgHead)
  | mcast (h : MsgHead) (data : List Byte)
  | doorbell (h : MsgHead)
  | readDataCompletion (tag status : Nat) (data : List Byte)
  | writeAcknowledgement (tag status : Nat)
  | remoteTimeout (tag : Nat)
  | bypass (tdi : Bool)
  | idcode
  | samplePreload (pins load : List Bool)
  | extest (pins load : List Bool)
  | tapReset
  | coreInstrumentAccess (addr : Word) (data : Option (List Byte)) (len : Nat)
  | vectorUnitSafePoint (t : Nat)
  | shellFailure (t : Nat)
  | ledgerReplayDone
  deriving DecidableEq, Repr

end Sys2Proof
end

