-- ==== Sys2Proof/Config.lean ====
section
/-! DEFINITION. What one part of the device fixes and the manual does not give, and the free values. Each constant is
opaque: nothing in Lean can evaluate it, so a statement about it holds whatever it is (log 11). -/
namespace Sys2Proof

/-- Free value: a byte the manual leaves open, drawn with the counter `State.free` (log 11). -/
opaque Config.freeByte : Nat → Byte

/-- Free value: a natural number the manual leaves open (a control-loop level or share, R435), drawn with `State.free` (log 17). -/
opaque Config.freeNat : Nat → Nat

/-- What the scratchpad's SEC-DED code makes of three or more wrong bits in one codeword, by their positions: it sees them, or the data read
differ in the bits given (R283, log 32). -/
opaque Config.secded : List Nat → Option Nat

/-- The DRBG's output bytes (R504): the n-th block drawn (log 10). -/
opaque Config.drbg : Nat → Nat → Byte

/-- The device identification that IDCODE shifts out; the manual gives no value (R511, log 12). -/
opaque Config.idcode : BitVec 32

/-- The length of the boundary register; the manual gives none (R511, log 12). -/
opaque Config.boundaryLength : Nat

/-- The public key that the maker programs into key slot 0 (R506, log 10). -/
opaque Config.makerKey : List Byte

/-- KEYID of the device identity key, SHA-384 of its public key (R505, R509, log 10). -/
opaque Config.identityKeyId : List Byte

/-- The ROM and enclave-ROM digest and versions of measurement 1 (R517, log 10). -/
opaque Config.romDigest : List Byte

/-- The public part of the alias certificate for firmware of a given digest (R505, R516, log 10). -/
opaque Config.certChain : List Byte → List Byte

/-- A signature by the alias key derived for firmware of a given digest over a message (R505, R516, log 10). -/
opaque Config.aliasSign : List Byte → List Byte → List Byte

/-- The SPDM response bytes of GET_VERSION, GET_CAPABILITIES and NEGOTIATE_ALGORITHMS beyond what the manual fixes (R515, log 13). -/
opaque Config.spdmBody : Nat → List Byte → List Byte

/-- The element bits of an MX block whose scale is 0xFF, by format, values and index; R102 leaves them open (log 18). -/
opaque Config.nanBlockCode : Nat → List F32 → Nat → Nat

end Sys2Proof
end

