-- ==== Sys2Proof/Machine/Bits.lean ====
section
/-! DEFINITION. Bit fields, byte order, saturation and the two CRCs. Every multi-byte field of the device is little-endian
(R39, R304, R399, R458); only signatures are big-endian (R63, R509). -/
namespace Sys2Proof.Machine

/-- The `len` bits of `x` from bit `lo` upward. -/
def bits (x lo len : Nat) : Nat := x / 2 ^ lo % 2 ^ len

/-- Bit `i` of `x`. -/
def bitOf (x i : Nat) : Bool := x / 2 ^ i % 2 == 1

def boolNat (b : Bool) : Nat := if b then 1 else 0

/-- A little-endian number. -/
def leNat : List Byte → Nat
  | [] => 0
  | b :: bs => b.toNat + 256 * leNat bs

/-- A big-endian number. -/
def beNat (bs : List Byte) : Nat := leNat bs.reverse

/-- `n` bytes of `x`, little-endian. -/
def leBytes : Nat → Nat → List Byte
  | 0, _ => []
  | n + 1, x => BitVec.ofNat 8 x :: leBytes n (x / 256)

/-- `len` bytes of `bs` from `off`. -/
def slice (bs : List Byte) (off len : Nat) : List Byte := (bs.drop off).take len

/-- The little-endian field of `len` bytes at `off`. -/
def fieldAt (bs : List Byte) (off len : Nat) : Nat := leNat (slice bs off len)

/-- One byte, 0 beyond the end. -/
def byteAt (bs : List Byte) (off : Nat) : Nat := (bs.getD off 0).toNat

/-- Every byte of the `len` bytes at `off` is zero (R39). -/
def zeroAt (bs : List Byte) (off len : Nat) : Bool := (slice bs off len).all (· == 0)

/-- A counter of `w` bits that saturates. -/
def satTo (w x : Nat) : Nat := if x < 2 ^ w then x else 2 ^ w - 1

/-- A signed number of `w` bits. -/
def signedOf (w x : Nat) : Int := if x % 2 ^ w < 2 ^ (w - 1) then (x % 2 ^ w : Int) else (x % 2 ^ w : Int) - 2 ^ w

/-- The `w`-bit two's complement code of an integer. -/
def codeOfInt (w : Nat) (i : Int) : Nat := (i % (2 ^ w : Int)).toNat

/-- ⌈a / b⌉. -/
def ceilDiv (a b : Nat) : Nat := (a + b - 1) / b

/-- ⌈log2 n⌉, 0 for n ≤ 1. -/
def clog2 (n : Nat) : Nat := if n ≤ 1 then 0 else Nat.log2 (n - 1) + 1

/-- `a` rounded up to a multiple of `b`. -/
def roundUp (a b : Nat) : Nat := ceilDiv a b * b

/-- The list with element `i` replaced by its image. -/
def updateAt {α : Type} (l : List α) (i : Nat) (f : α → α) : List α := l.modify i f

/-- The first element that `p` holds of is changed. -/
def modifyFirst {α : Type} (p : α → Bool) (f : α → α) (l : List α) : List α :=
  match l.findIdx? p with
  | some i => l.modify i f
  | none => l

/-- Append unless already there: a collection with no order. -/
def insertNew {α : Type} [DecidableEq α] (l : List α) (x : α) : List α := if x ∈ l then l else l ++ [x]

/-- One step of the reflected CRC-32 register. -/
def crc32Bit (c : Nat) : Nat := if c % 2 == 1 then (c / 2) ^^^ 0xEDB88320 else c / 2

def crc32Byte (c b : Nat) : Nat :=
  (List.range 8).foldl (fun r _ => crc32Bit r) (c ^^^ b)

/-- CRC-32 of IEEE 802.3 (R458, R475). -/
def crc32 (bs : List Byte) : Nat :=
  (bs.foldl (fun c b => crc32Byte c b.toNat) 0xFFFFFFFF) ^^^ 0xFFFFFFFF

def crc64Bit (c : Nat) : Nat :=
  if c / 2 ^ 63 % 2 == 1 then (c * 2 % 2 ^ 64) ^^^ 0x42F0E1EBA9EA3693 else c * 2 % 2 ^ 64

def crc64Byte (c b : Nat) : Nat :=
  (List.range 8).foldl (fun r _ => crc64Bit r) (c ^^^ (b * 2 ^ 56))

/-- CRC-64 of a flit: polynomial 0x42F0_E1EB_A9EA_3693, initial value all ones, result inverted (R398). DEDUCED: the
polynomial is written most significant bit first and the manual names no reflection, so none is applied (log 14). -/
def crc64 (bs : List Byte) : Nat :=
  (bs.foldl (fun c b => crc64Byte c b.toNat) (2 ^ 64 - 1)) ^^^ (2 ^ 64 - 1)

end Sys2Proof.Machine
end

