-- ==== Sys2Proof/Machine/Ecc.lean ====
section
/-! DEFINITION. Where a byte lies: banks, lines, rows, codewords and cells of a scratchpad (R275, R276, R282, R283), banks, bursts, rows,
mats and symbols of a column (R285, R290, R291), and the Reed–Solomon code of deep store (R290). -/
namespace Sys2Proof.Machine

/-- The bank of a scratchpad offset, 0 to 31 (R276). -/
def spBankOf (a : Nat) : Nat := ((bits a 5 5 ^^^ bits a 10 5) ^^^ bits a 15 5) ^^^ (bits a 20 1 * 16)

/-- The line within the bank, 0 to 2,047 (R275, R276). -/
def spLineOf (a : Nat) : Nat := bits a 10 11

/-- The physical row of the bank, which holds lines 4r to 4r + 3 (R282). -/
def spRowOf (a : Nat) : Nat := spLineOf a / 4

/-- The codeword of the row that protects a byte: 8 bytes each, 16 to a row (R282). -/
def spCodewordOf (a : Nat) : Nat := (32 * (spLineOf a % 4) + bits a 0 5) / 8

/-- The offset of a line of a bank, under the address hash (R276). -/
def spOffsetOf (bank line : Nat) : Nat := 1024 * line + 32 * (bank ^^^ spBankOf (1024 * line))

/-- A cell of a scratchpad row: bank, row and cell number, 1,152 cells to a row (R282). -/
structure SpCell where
  bank : Nat
  row : Nat
  cell : Nat
  deriving DecidableEq, Repr

/-- Bit j of codeword c is stored in cell 16j + c (R282). -/
def spCellOf (a j : Nat) : SpCell := ⟨spBankOf a, spRowOf a, 16 * j + spCodewordOf a⟩

/-- The codeword of a cell, and the bit of it (R282). -/
def SpCell.codeword (c : SpCell) : Nat := c.cell % 16
def SpCell.bit (c : SpCell) : Nat := c.cell / 16

/-- A cell belongs to the codeword that protects offset `a`. -/
def SpCell.protects (c : SpCell) (a : Nat) : Bool := c.bank == spBankOf a && c.row == spRowOf a && c.codeword == spCodewordOf a

/-- The codewords, each by the offset of its first byte, that a range of offsets touches. -/
def spWords (off len : Nat) : List Nat :=
  if len == 0 then [] else (List.range ((off + len - 1) / 8 - off / 8 + 1)).map (fun i => 8 * (off / 8 + i))

/-- What the SEC-DED code makes of the wrong bits of one codeword, as it is read (R283). -/
inductive Secded where
  | clean
  | corrected
  | detected
  /-- three or more wrong bits that it does not see: the data differ in the given bits -/
  | missed (x : Nat)
  deriving DecidableEq, Repr

/-- One wrong bit is corrected, two are detected. Of three or more the manual promises nothing: what the code makes of such a pattern is a
free function of it (R282, R283; log 32). -/
def secded (wrong : List Nat) : Secded :=
  match wrong with
  | [] => .clean
  | [_] => .corrected
  | [_, _] => .detected
  | _ => match Config.secded wrong with
    | none => .detected
    | some x => .missed (x % 2 ^ 64)

/-- Bank, burst within the row's 2 KiB, and row of a column offset (R285). -/
def colBankOf (a : Nat) : Nat := bits a 9 4
def colBurstOf (a : Nat) : Nat := bits a 13 2
def colRowOf (a : Nat) : Nat := bits a 15 10

/-- Symbols of a codeword: 64 of data and 8 of check (R290). -/
def rsSymbols : Nat := 72

/-- The mat that holds a symbol: 18 mats of 4 symbols of every codeword of a row (R291). -/
def matOf (symbol : Nat) : Nat := symbol / 4

/-- The symbols that the loss of a mat makes wrong in every codeword of its row (R291). -/
def matSymbols (m : Nat) : List Nat := (List.range rsSymbols).filter (fun i => matOf i == m)

/-- The symbols that a burst of `n` adjacent bits from bit `b` of a codeword spans (R291). -/
def burstSymbols (b n : Nat) : List Nat := (List.range rsSymbols).filter (fun i => decide (b < 8 * i + 8) && decide (8 * i < b + n))

/-- How many of a codeword's symbols are wrong. -/
def wrongSymbols (l : List Nat) : Nat := ((List.range rsSymbols).filter l.contains).length

/-- One step of multiplication in GF(2^8): times α, modulo x^8 + x^4 + x^3 + x^2 + 1 (R290). -/
def gfTimesAlpha (x : Nat) : Nat := if bitOf x 7 then (2 * x) % 256 ^^^ 0x1D else 2 * x

/-- The product in GF(2^8) (R290). -/
def gfMul (x y : Nat) : Nat :=
  (((List.range 8).foldl (fun (p : Nat × Nat) i => (if bitOf y i then p.1 ^^^ p.2 else p.1, gfTimesAlpha p.2)) (0, x))).1

/-- α^n. -/
def gfAlpha (n : Nat) : Nat := (List.range n).foldl (fun x _ => gfTimesAlpha x) 1

/-- The generator with roots α^0 to α^7, without its leading 1, lowest coefficient first (R290). -/
def rsGenerator : List Nat :=
  ((List.range 8).foldl (fun (g : List Nat) i =>
    List.zipWith (· ^^^ ·) (0 :: g) (g.map (gfMul (gfAlpha i)) ++ [0])) [1]).take 8

/-- The 8 check symbols of 64 data symbols: the remainder of the data polynomial, its first symbol the highest coefficient, highest
coefficient last (R290; order of symbols: DESIGN CHOICE, log 32). -/
def rsCheck (data : List Nat) : List Nat :=
  data.foldl (fun (r : List Nat) d =>
    let top := r.getD 7 0 ^^^ d
    List.zipWith (· ^^^ ·) (0 :: r.take 7) (rsGenerator.map (gfMul top))) (List.replicate 8 0)

/-- A codeword's value at α^i, zero for every i below 8 when no symbol is wrong (R290). -/
def rsSyndrome (word : List Nat) (i : Nat) : Nat := word.foldl (fun acc d => gfMul acc (gfAlpha i) ^^^ d) 0

end Sys2Proof.Machine
end

