-- ==== Sys2Proof/Machine/Program.lean ====
section
/-! DEFINITION. What a composition image carries, decoded: partition records (R46), gangs (R53), reservations (R54), link
quotas (R56), stream programs (R57, R304, R308), function tables (R59, R251), wires (R60) and itineraries (R372 to R377). -/
namespace Sys2Proof.Machine

/-- A PART section (R46). -/
structure PartRec where
  pnum : Nat
  cls : Nat
  discipline : Nat
  ovf : Nat
  lead : Nat
  ntiles : Nat
  floorShare : Nat
  itinEntry : Nat
  reqRing : Nat
  cplRing : Nat
  ringLog2 : Nat
  spillBase : Nat
  spillSize : Nat
  /-- the tiles whose TILEMAP bit is set, ascending -/
  tiles : List Nat
  deriving DecidableEq, Repr

/-- A GANG record (R53). -/
structure Gang where
  x0 : Nat
  y0 : Nat
  w : Nat
  h : Nat
  sides : Nat
  deriving DecidableEq, Repr

/-- A ROADRES record (R54). -/
structure RoadRes where
  src : Nat
  dst : Nat
  slots : Nat
  deriving DecidableEq, Repr

/-- A LINKRES record (R56). -/
structure LinkRes where
  modules : Nat
  share : Nat
  deriving DecidableEq, Repr

/-- A stream instruction (R308). -/
inductive StreamInstr where
  | base (dest : Bool) (psel : Nat) (offset : Nat)
  | loop (last : Nat) (csel : Nat) (count : Nat) (sstr dstr : Int)
  | xfer (tr : Nat) (esize : Bool) (tpitch : Nat) (len : Nat)
  | tend
  | signal (link : Nat)
  | wait (sem : Nat)
  deriving DecidableEq, Repr

/-- A stream program (R57). -/
structure StreamProg where
  id : Nat
  instrs : List StreamInstr
  deriving DecidableEq, Repr

/-- A stream descriptor (R304). -/
structure Desc where
  prog : Nat
  queue : Nat
  dest : Nat
  src : Nat
  ringq : Nat
  outst : Nat
  prio : Bool
  wb : Bool
  wbr : Bool
  six : Bool
  ringBase : Nat
  slot : Nat
  deriving DecidableEq, Repr

/-- A function of a FUNCTAB section: DOMAIN and the two tables of coefficients (R59, R251). -/
structure FuncDef where
  id : Nat
  domain : List Byte
  value : List Byte
  deriv : List Byte
  deriving DecidableEq, Repr

/-- A wire of a SEMWIRE section (R60). A PTILE or a CTILE with bit 15 set names a tile of another stack (R415). -/
structure Wire where
  link : Nat
  ptile : Nat
  psem : Nat
  init : Nat
  /-- (CTILE, CSEM) of each consumer entry -/
  cons : List (Nat × Nat)
  deriving DecidableEq, Repr

/-- A DIM word (R374). -/
inductive Dim where
  | const (n : Nat)
  | sh (r : Nat)
  deriving DecidableEq, Repr

/-- The body of an OPER step (R375). -/
structure Oper where
  mode : Nat
  array : Nat
  form : Nat
  taps : Nat
  fmtMov : Nat
  fmtSta : Nat
  conv : Nat
  acc : Nat
  rootA : Bool
  rootB : Bool
  hasCin : Bool
  mask : Bool
  order : Nat
  serp : Bool
  dimM : Dim
  dimN : Dim
  dimK : Dim
  maxM : Nat
  maxN : Nat
  maxK : Nat
  tm : Nat
  tn : Nat
  tk : Nat
  winBase : Nat
  winSize : Nat
  outA : Nat
  outB : Nat
  pitchA : Nat
  pitchB : Nat
  auxA : Nat
  cin : Nat
  maskK : Nat
  maskN : Nat
  func : Nat
  causal : Nat
  kb : Nat
  scale : Nat
  causalOff : Int
  fused : Nat
  auxB : Nat
  deriving DecidableEq, Repr

/-- The body of a VEC step (R373). -/
structure Vec where
  vop : Nat
  conv : Nat
  ring : Nat
  func : Nat
  rows : Dim
  cols : Dim
  maxR : Nat
  maxC : Nat
  srcA : Nat
  srcB : Nat
  srcC : Nat
  dst : Nat
  pitch : Nat
  imm : Nat
  dstAux : Nat
  deriving DecidableEq, Repr

/-- The body of a JUNCT step (R373). -/
structure Junct where
  nr : Nat
  present : Nat
  conv : Nat
  count : Dim
  max : Nat
  dst : Nat
  srcs : List Nat
  dstAux : Nat
  deriving DecidableEq, Repr

/-- The source of one parameter of a LAUNCH step (R377). -/
structure PSource where
  kind : Nat
  n : Nat
  idx : Nat
  stride : Int
  value : Nat
  deriving DecidableEq, Repr

/-- A relay descriptor (R352). -/
structure RelayDesc where
  inDir : Nat
  outDir : Nat
  loc : Bool
  hsem : Nat
  inLink : Nat
  outLink : Nat
  nblk : Nat
  nslot : Nat
  base : Nat
  blen : Nat
  deriving DecidableEq, Repr

/-- One direction of a halo descriptor (R357). -/
structure HaloEntry where
  sbase : Nat
  dbase : Nat
  spitch : Nat
  dpitch : Nat
  lines : Nat
  len : Nat
  link : Nat
  deriving DecidableEq, Repr

/-- The target of a step (R372). -/
inductive Target where
  | all
  | gang (i : Nat)
  | one (t : Nat)
  | listed
  deriving DecidableEq, Repr

/-- What a step does (R373). -/
inductive StepBody where
  | take
  | done
  | loop (count : Dim) (last : Nat) (order : Nat)
  | branch (cond n target value : Nat)
  | ckpt (addr : Nat)
  | sync
  | oper (b : Oper)
  | vec (b : Vec)
  | junct (b : Junct)
  | launch (d : Desc) (ps : List PSource)
  | relay (es : List (Nat × RelayDesc))
  | halo (es : List (Nat × List HaloEntry))
  | wbuf (base size : Nat)
  | swing
  deriving DecidableEq, Repr

/-- An itinerary step (R372). -/
structure ItinStep where
  /-- semaphore taken before issue -/
  wsem : Option Nat
  tgt : Target
  /-- wire signalled or released at completion -/
  dlink : Option Nat
  fbk : Bool
  raw : Bool
  wbc : Bool
  ifmtA : Nat
  ifmtB : Nat
  ifmtC : Nat
  body : StepBody
  deriving DecidableEq, Repr

/-- The composition of one partition, as its sections give it. -/
structure Comp where
  part : PartRec
  gangs : List Gang
  roads : List RoadRes
  links : List LinkRes
  progs : List StreamProg
  funcs : List FuncDef
  wires : List Wire
  itin : List ItinStep
  deriving DecidableEq, Repr

end Sys2Proof.Machine
end

