-- ==== Sys2Proof/Machine/Fp.lean ====
section
/-! DEFINITION. Exact binary values and FP32 and A20 arithmetic. A finite value is a sign, a magnitude and a power of two;
every operation is computed exactly and rounded once at the end (R90, R92, R94, R250). -/
namespace Sys2Proof.Machine

/-- A value of a floating format: not a number, an infinity, or (−1)^neg × m × 2^e (m = 0 is a zero of that sign). -/
inductive FVal where
  | nan
  | inf (neg : Bool)
  | fin (neg : Bool) (m : Nat) (e : Int)
  deriving DecidableEq, Repr

def FVal.isFin : FVal → Bool
  | .fin _ _ _ => true
  | _ => false

def FVal.isNan : FVal → Bool
  | .nan => true
  | _ => false

def FVal.isZero : FVal → Bool
  | .fin _ m _ => m == 0
  | _ => false

/-- The value of an integer; integers have one zero. -/
def FVal.ofInt (i : Int) : FVal := .fin (i < 0) i.natAbs 0

/-- The value times 2^k, exactly. -/
def FVal.scale (v : FVal) (k : Int) : FVal :=
  match v with
  | .fin s m e => .fin s m (e + k)
  | v => v

def FVal.negate : FVal → FVal
  | .nan => .nan
  | .inf s => .inf (!s)
  | .fin s m e => .fin (!s) m e

/-- The exact product under IEEE 754: infinity times zero is not a number (R101, R170). -/
def FVal.mul : FVal → FVal → FVal
  | .nan, _ => .nan
  | _, .nan => .nan
  | .inf s, .inf t => .inf (s != t)
  | .inf s, .fin t m _ => if m == 0 then .nan else .inf (s != t)
  | .fin s m _, .inf t => if m == 0 then .nan else .inf (s != t)
  | .fin s m e, .fin t n f => .fin (s != t) (m * n) (e + f)

/-- The exact sum of two finite values; an exact zero is negative only when both operands are (round to nearest). -/
def addFin (s : Bool) (m : Nat) (e : Int) (t : Bool) (n : Nat) (f : Int) : FVal :=
  let g : Int := if e ≤ f then e else f
  let a : Int := (m * 2 ^ (e - g).toNat : Nat)
  let b : Int := (n * 2 ^ (f - g).toNat : Nat)
  let r : Int := (if s then -a else a) + (if t then -b else b)
  if r = 0 then .fin (s && t) 0 g else .fin (r < 0) r.natAbs g

/-- The exact sum under IEEE 754: opposite infinities give not a number (R170). -/
def FVal.add : FVal → FVal → FVal
  | .nan, _ => .nan
  | _, .nan => .nan
  | .inf s, .inf t => if s == t then .inf s else .nan
  | .inf s, .fin _ _ _ => .inf s
  | .fin _ _ _, .inf t => .inf t
  | .fin s m e, .fin t n f => addFin s m e t n f

/-- `m / 2^k` rounded to nearest, ties to even. -/
def rneShift (m k : Nat) : Nat :=
  let q := m / 2 ^ k
  let r := m % 2 ^ k
  if 2 * r > 2 ^ k then q + 1
  else if 2 * r = 2 ^ k then q + q % 2
  else q

/-- The unit exponent at which magnitude m × 2^e (m > 0) is rounded in a format of `fb` fraction bits whose least
subnormal is 2^emin. -/
def unitExp (fb : Nat) (emin : Int) (m : Nat) (e : Int) : Int :=
  let q : Int := (Nat.log2 m : Int) + e - fb
  if q < emin then emin else q

/-- The magnitude code that m × 2^e rounds to, to nearest with ties to the even code, on the format's grid extended
upward without end (R106, R108). Codes count grid magnitudes from zero. -/
def roundMag (fb : Nat) (emin : Int) (m : Nat) (e : Int) : Nat :=
  if m = 0 then 0 else
    let q := unitExp fb emin m e
    let n := if e ≥ q then m * 2 ^ (e - q).toNat else rneShift m (q - e).toNat
    (q - emin).toNat * 2 ^ fb + n

/-- The same with stochastic rounding by the 16-bit random value `u` (R109). -/
def roundMagSr (fb : Nat) (emin : Int) (m : Nat) (e : Int) (u : Nat) : Nat :=
  if m = 0 then 0 else
    let q := unitExp fb emin m e
    if e ≥ q then (q - emin).toNat * 2 ^ fb + m * 2 ^ (e - q).toNat
    else
      let k := (q - e).toNat
      let lo := m / 2 ^ k
      let r := (m % 2 ^ k) * 65536 / 2 ^ k
      (q - emin).toNat * 2 ^ fb + (if r + u ≥ 65536 then lo + 1 else lo)

/-- The magnitude of a code: (mantissa, exponent). -/
def magOf (fb : Nat) (emin : Int) (c : Nat) : Nat × Int :=
  if c < 2 ^ fb then (c, emin) else (2 ^ fb + c % 2 ^ fb, emin + (c / 2 ^ fb : Nat) - 1)

/-- The canonical quiet NaN of FP32 (R107). -/
def nan32 : F32 := 0x7FC00000#32
/-- −0.0, the identity of round-to-nearest addition (R166). -/
def negZero32 : F32 := 0x80000000#32
def posZero32 : F32 := 0#32

/-- The value of an FP32 pattern (R90). -/
def F32.val (x : F32) : FVal :=
  let n := x.toNat
  let s := n / 2 ^ 31 == 1
  let c := n % 2 ^ 31
  if c ≥ 0x7F800000 then (if c = 0x7F800000 then .inf s else .nan)
  else
    let (m, e) := magOf 23 (-149) c
    .fin s m e

/-- A value rounded to FP32, to nearest with ties to even; every NaN is the canonical one (R107, R250). -/
def rne32 (v : FVal) : F32 :=
  match v with
  | .nan => nan32
  | .inf s => BitVec.ofNat 32 ((if s then 2 ^ 31 else 0) + 0x7F800000)
  | .fin s m e =>
    let c := roundMag 23 (-149) m e
    BitVec.ofNat 32 ((if s then 2 ^ 31 else 0) + (if c ≥ 0x7F800000 then 0x7F800000 else c))

def F32.isFin (x : F32) : Bool := x.toNat % 2 ^ 31 < 0x7F800000
def F32.isInf (x : F32) : Bool := x.toNat % 2 ^ 31 == 0x7F800000
def F32.isNan (x : F32) : Bool := x.toNat % 2 ^ 31 > 0x7F800000
def F32.isZero (x : F32) : Bool := x.toNat % 2 ^ 31 == 0
def F32.neg? (x : F32) : Bool := x.toNat / 2 ^ 31 == 1

def fadd (x y : F32) : F32 := rne32 ((F32.val x).add (F32.val y))
def fsub (x y : F32) : F32 := rne32 ((F32.val x).add (F32.val y).negate)
def fmul (x y : F32) : F32 := rne32 ((F32.val x).mul (F32.val y))

/-- The multiplication by 2^k with one rounding. -/
def fscale (x : F32) (k : Int) : F32 := rne32 ((F32.val x).scale k)

/-- The quotient with enough bits, its last one sticky, to round once. -/
def FVal.div : FVal → FVal → FVal
  | .nan, _ => .nan
  | _, .nan => .nan
  | .inf _, .inf _ => .nan
  | .inf s, .fin t _ _ => .inf (s != t)
  | .fin s _ _, .inf t => .fin (s != t) 0 0
  | .fin s m e, .fin t n f =>
    if n == 0 then (if m == 0 then .nan else .inf (s != t))
    else
      let k := 64 + Nat.log2 (n + 1)
      let q := m * 2 ^ k / n
      let sticky := if m * 2 ^ k % n == 0 then 0 else 1
      .fin (s != t) (2 * q + sticky) (e - f - k - 1)

def fdiv (x y : F32) : F32 := rne32 ((F32.val x).div (F32.val y))

/-- |a|; a NaN result is the canonical quiet NaN (R250). -/
def fabs (x : F32) : F32 := if F32.isNan x then nan32 else BitVec.ofNat 32 (x.toNat % 2 ^ 31)
def fneg (x : F32) : F32 := if F32.isNan x then nan32 else x ^^^ negZero32

/-- The place of a pattern that is not a NaN in the order −∞ … −0, +0 … +∞ (R197). -/
def orderKey (x : F32) : Int :=
  if F32.neg? x then - (x.toNat % 2 ^ 31 : Nat) - 1 else (x.toNat % 2 ^ 31 : Nat)

/-- `a` ranks at or above `b` for maximum: NaN above +∞, +0 above −0 (R197). -/
def maxGe (a b : F32) : Bool :=
  if F32.isNan a then true else if F32.isNan b then false else decide (orderKey b ≤ orderKey a)

/-- `a` ranks at or below `b` for minimum: NaN below −∞, −0 below +0 (R197). -/
def minLe (a b : F32) : Bool :=
  if F32.isNan a then true else if F32.isNan b then false else decide (orderKey a ≤ orderKey b)

def canon (x : F32) : F32 := if F32.isNan x then nan32 else x

def fmax (a b : F32) : F32 := canon (if maxGe a b then a else b)
def fmin (a b : F32) : F32 := canon (if minLe a b then a else b)

/-- The A20 format of the narrow lane: 12 fraction bits, exponents 1 to 126 with bias 63, no subnormals (R92). A value is
rounded to nearest with ties to even on the 13-bit significand; below 2^-62 it is flushed to a zero of its sign, and the
second component says so (R94). -/
def roundA20 (v : FVal) : FVal × Bool :=
  match v with
  | .fin s m e =>
    if m = 0 then (v, false)
    else
      let q : Int := (Nat.log2 m : Int) + e - 12
      let n := if e ≥ q then m * 2 ^ (e - q).toNat else rneShift m (q - e).toNat
      let top : Int := (Nat.log2 n : Int) + q
      if top > 63 then (.inf s, false)
      else if top < -62 then (.fin s 0 0, true)
      else (.fin s n q, false)
  | v => (v, false)

/-- The 20 bits of an A20 value (R92). -/
def a20Bits (v : FVal) : BitVec 20 :=
  match v with
  | .nan => 0x7F800#20
  | .inf s => BitVec.ofNat 20 ((if s then 2 ^ 19 else 0) + 127 * 2 ^ 12)
  | .fin s m e =>
    let sg := if s then 2 ^ 19 else 0
    if m = 0 then BitVec.ofNat 20 sg
    else
      let l := Nat.log2 m
      let f := if l ≥ 12 then m / 2 ^ (l - 12) else m * 2 ^ (12 - l)
      BitVec.ofNat 20 (sg + ((l : Int) + e + 63).toNat * 2 ^ 12 + f % 2 ^ 12)

end Sys2Proof.Machine
end

