-- ==== Sys2Proof/Machine/Operands.lean ====
section
/-! DEFINITION. Every operand form: the element encodings of R90, the format codes of R95, the operand pairs of R96, the
packings of R99 and R123, and the widening of R581. -/
namespace Sys2Proof.Machine

/-- A floating element encoding: fraction bits, exponent bits, bias and specials (R90). -/
structure ElemFormat where
  eb : Nat
  fb : Nat
  bias : Nat
  /-- the greatest magnitude code that is a finite number -/
  maxCode : Nat
  hasInf : Bool
  hasNan : Bool
  deriving DecidableEq, Repr

def fp16Format : ElemFormat := ⟨5, 10, 15, 0x7BFF, true, true⟩
def bf16Format : ElemFormat := ⟨8, 7, 127, 0x7F7F, true, true⟩
def e4m3Format : ElemFormat := ⟨4, 3, 7, 0x7E, false, true⟩
def e5m2Format : ElemFormat := ⟨5, 2, 15, 0x7B, true, true⟩
def e2m3Format : ElemFormat := ⟨2, 3, 1, 0x1F, false, false⟩
def e3m2Format : ElemFormat := ⟨3, 2, 3, 0x1F, false, false⟩
def e2m1Format : ElemFormat := ⟨2, 1, 1, 0x7, false, false⟩
def fp32Format : ElemFormat := ⟨8, 23, 127, 0x7F7FFFFF, true, true⟩

namespace ElemFormat

def width (f : ElemFormat) : Nat := 1 + f.eb + f.fb
/-- The exponent of the least subnormal. -/
def emin (f : ElemFormat) : Int := 1 - (f.bias : Int) - f.fb
/-- The magnitude code of infinity, in a format that has one. -/
def infCode (f : ElemFormat) : Nat := (2 ^ f.eb - 1) * 2 ^ f.fb

/-- The value of an element code (R90). -/
def value (f : ElemFormat) (code : Nat) : FVal :=
  let s := bitOf code (f.eb + f.fb)
  let c := code % 2 ^ (f.eb + f.fb)
  if c > f.maxCode then (if f.hasInf && c == f.infCode then .inf s else .nan)
  else
    let (m, e) := magOf f.fb f.emin c
    .fin s m e

end ElemFormat

/-- FMT codes by name (R95). -/
def fmtFP32 : Nat := 0x0
def fmtINT8 : Nat := 0xB
def fmtINT32 : Nat := 0xC
def fmtBF16X2 : Nat := 0xD

/-- The floating element encoding of a format code, none for the integers and BF16X2 (R95). -/
def elemFormat (fmt : Nat) : Option ElemFormat :=
  match fmt with
  | 0x0 => some fp32Format
  | 0x1 => some fp16Format
  | 0x2 => some bf16Format
  | 0x3 => some e4m3Format
  | 0x4 => some e5m2Format
  | 0x5 => some e4m3Format
  | 0x6 => some e5m2Format
  | 0x7 => some e2m3Format
  | 0x8 => some e3m2Format
  | 0x9 => some e2m1Format
  | _ => none

/-- Bits of one stored element (R90, R95). A BF16X2 plane holds 16-bit elements. -/
def fmtBits (fmt : Nat) : Nat :=
  match fmt with
  | 0x0 => 32
  | 0x1 => 16
  | 0x2 => 16
  | 0x3 => 8
  | 0x4 => 8
  | 0x5 => 8
  | 0x6 => 8
  | 0x7 => 6
  | 0x8 => 6
  | 0x9 => 4
  | 0xA => 8
  | 0xB => 8
  | 0xC => 32
  | 0xD => 16
  | _ => 8

/-- The format stores blocks of 32 with an E8M0 scale (R91, R95). -/
def isMx (fmt : Nat) : Bool := decide (0x5 ≤ fmt ∧ fmt ≤ 0xA)

/-- The value of one stored element. An MXINT8 element counts units of 2^-6 (R90). -/
def elemValue (fmt code : Nat) : FVal :=
  match elemFormat fmt with
  | some f => f.value code
  | none =>
    if fmt == 0xA then (FVal.ofInt (signedOf 8 code)).scale (-6)
    else if fmt == 0xB then FVal.ofInt (signedOf 8 code)
    else if fmt == 0xC then FVal.ofInt (signedOf 32 code)
    else bf16Format.value code

/-- The operand groups of R96. -/
inductive Group where
  | wide | bf16x3 | narrowFloat | mxInteger | plainInteger
  deriving DecidableEq, Repr

/-- The group of a pair of operand formats, none when the pair is undefined (R96). -/
def pairGroup (f g : Nat) : Option Group :=
  let wide (x : Nat) := x == 0x1 || x == 0x2
  let narrow (x : Nat) := decide (0x3 ≤ x ∧ x ≤ 0x9)
  if wide f && wide g then some .wide
  else if f == 0xD && g == 0xD then some .bf16x3
  else if narrow f && narrow g then some .narrowFloat
  else if f == 0xA && g == 0xA then some .mxInteger
  else if f == 0xB && g == 0xB then some .plainInteger
  else none

/-- m, the multiply-accumulates per cell per cycle of a pair (R96). -/
def macRate (f g : Nat) : Nat :=
  match pairGroup f g with
  | some .wide => 1
  | some .bf16x3 => 1
  | some .narrowFloat => if f == 0x9 && g == 0x9 then 4 else 2
  | some _ => 2
  | none => 1

/-- The tap counts allowed to a pair (R127). -/
def maxTaps (f g : Nat) : Nat :=
  match pairGroup f g with
  | some .wide => 4
  | some .narrowFloat => if isMx f || isMx g then 1 else 2
  | _ => 1

/-- b, the tap count rounded up to a power of two (R124). -/
def beatOf (w : Nat) : Nat := if w == 3 then 4 else w

/-- Element `i` of a 16-bit lane or tap word that holds `m` elements of format `fmt` (R123). DEDUCED: where MXFP4 meets a
wider format each element of the pair takes an 8-bit half of the word (log 15). -/
def wordElem (fmt m word i : Nat) : Nat :=
  let w := fmtBits fmt
  if m == 1 then word % 2 ^ 16
  else if w == 6 then bits word (6 * i) 6
  else if w == 4 && m == 2 then bits word (8 * i) 4
  else bits word (w * i) w

/-- Element `i` of a packed plane (R99): bytes from `bs`, `fmtBits` wide, packed little-endian with no gaps. -/
def packedElem (fmt : Nat) (bs : List Byte) (i : Nat) : Nat :=
  let w := fmtBits fmt
  let lo := w * i
  let n := leNat (slice bs (lo / 8) (w / 8 + 2))
  bits n (lo % 8) w

/-- Bytes of `n` packed elements. -/
def packedBytes (fmt n : Nat) : Nat := ceilDiv (fmtBits fmt * n) 8

/-- An element of a VEC operand widened to FP32 exactly (R581). -/
def widen (fmt code : Nat) : F32 :=
  if fmt == 0 then BitVec.ofNat 32 code else rne32 (elemValue fmt code)

/-- The scale of an MX block: 2^(c − 127), not a number for 0xFF (R91, R101). -/
def scaleExp (c : Nat) : Int := (c : Int) - 127

/-- The comparison of SELECT with +0: 0 less, 1 less or equal, 2 equal; a NaN makes every comparison false (R249, R373). -/
def selectHolds (code : Nat) (c : F32) : Bool :=
  if F32.isNan c then false
  else
    let zero := F32.isZero c
    let less := F32.neg? c && !zero
    match code with
    | 0 => less
    | 1 => less || zero
    | 2 => zero
    | _ => false

end Sys2Proof.Machine
end

