-- ==== Sys2Proof/Machine/Convert.lean ====
section
/-! DEFINITION. Output conversion: the conversion byte (R105), special values (R106, R107), rounding (R108 to R111), MX
blocks (R102 to R104), BF16X2 (R113) and the exponent histogram (R119 to R122). -/
namespace Sys2Proof.Machine

/-- Output roles (R105). -/
structure ConvByte where
  fmt : Nat
  sat : Bool
  sr : Bool
  role : Nat
  deriving DecidableEq, Repr

def convByte (b : Nat) : ConvByte := ⟨bits b 0 4, bitOf b 4, bitOf b 5, bits b 6 2⟩

/-- A conversion byte that R105 defines, in a partition of the exact-integer class or not. -/
def ConvByte.defined (c : ConvByte) (exactInt : Bool) : Bool :=
  decide (c.fmt < 0xE) && c.role != 3 && (!c.sr || c.role != 0) && (c.fmt != fmtINT32 || exactInt)

/-- R110's mixing function, modulo 2^64. -/
def srMix (z : Word) : Word :=
  let z := z + 0x9E3779B97F4A7C15#64
  let z := (z ^^^ (z >>> 30)) * 0xBF58476D1CE4E5B9#64
  let z := (z ^^^ (z >>> 27)) * 0x94D049BB133111EB#64
  z ^^^ (z >>> 31)

/-- The 16-bit random value of an output element (R110). -/
def srRandom (workId : Word) (step pass idx : Nat) : Nat :=
  let k := srMix workId
  let k := srMix (k + BitVec.ofNat 64 (step * 2 ^ 32) + BitVec.ofNat 64 pass)
  (srMix (k + BitVec.ofNat 64 idx)).toNat / 2 ^ 48

/-- How a converted element counts (R120). -/
structure ElemClass where
  zero : Bool := false
  subn : Bool := false
  inf : Bool := false
  nan : Bool := false
  ovf : Bool := false
  flush : Bool := false
  deriving DecidableEq, Repr

/-- The histogram block: 70 words (R121). -/
abbrev Hist := List Nat

def histZero : Hist := List.replicate 70 0

def satAdd32 (a b : Nat) : Nat := satTo 32 (a + b)

/-- Saturating addition of word `i` (R121). -/
def histBump (h : Hist) (i : Nat) (n : Nat) : Hist := updateAt h i (satAdd32 · n)

/-- Counting one converted element by its FP32 value and its class (R119, R120). -/
def histCount (h : Hist) (x : F32) (c : ElemClass) : Hist :=
  let h := histBump h (bits x.toNat 23 8 / 4) 1
  let h := histBump h 64 (boolNat c.zero)
  let h := histBump h 65 (boolNat c.subn)
  let h := histBump h 66 (boolNat c.inf)
  let h := histBump h 67 (boolNat c.nan)
  let h := histBump h 68 (boolNat c.ovf)
  histBump h 69 (boolNat c.flush)

/-- The saturating word-by-word sum of two blocks (R262). -/
def histMerge (a b : Hist) : Hist := List.zipWith satAdd32 a b

/-- The magnitude code of |x| on a grid: nearest even, or stochastic with `u` (R108, R109). -/
def gridRound (fb : Nat) (emin : Int) (sr : Bool) (u m : Nat) (e : Int) : Nat :=
  if sr then roundMagSr fb emin m e u else roundMag fb emin m e

/-- The canonical NaN code of a floating format (R107). -/
def nanCode (fmt : Nat) : Nat :=
  match fmt with
  | 0x0 => 0x7FC00000
  | 0x1 => 0x7E00
  | 0x2 => 0x7FC0
  | 0x3 => 0x7F
  | 0x5 => 0x7F
  | _ => 0x7E

/-- The class of a result magnitude code in a floating format, for an FP32 input `x`. -/
def floatClass (f : ElemFormat) (x : F32) (mag : Nat) (ovf : Bool) : ElemClass :=
  let isNan := decide (mag > f.maxCode) && !(f.hasInf && mag == f.infCode)
  let small := decide (mag < 2 ^ f.fb)
  { zero := mag == 0, subn := mag != 0 && small, inf := f.hasInf && mag == f.infCode, nan := isNan,
    ovf := ovf && F32.isFin x, flush := F32.isFin x && !F32.isZero x && small }

/-- Conversion of one value to a non-MX floating format (R106 to R109). `x` is the value in FP32, `v` the value itself. -/
def convFloat (f : ElemFormat) (fmt : Nat) (sat sr : Bool) (u : Nat) (v : FVal) (x : F32) : Nat × ElemClass :=
  let w := f.eb + f.fb
  let pack (s : Bool) (mag : Nat) (ovf : Bool) : Nat × ElemClass :=
    ((if s && !(decide (mag > f.maxCode) && !(f.hasInf && mag == f.infCode)) then 2 ^ w else 0) + mag, floatClass f x mag ovf)
  match v with
  | .nan => pack false (nanCode fmt) false
  | .inf s => if f.hasInf then pack s f.infCode false
    else if sat then pack s f.maxCode false else pack false (nanCode fmt) false
  | .fin s m e =>
    let c := gridRound f.fb f.emin sr u m e
    if c > f.maxCode then
      (if sat then pack s f.maxCode true
       else if f.hasInf then pack s f.infCode true else pack false (nanCode fmt) true)
    else pack s c false

/-- Conversion to INT8: to an integer, saturating (R106). -/
def convInt8 (sr : Bool) (u : Nat) (v : FVal) (x : F32) : Nat × ElemClass :=
  let cls (z o : Bool) : ElemClass :=
    { zero := z, ovf := o, flush := z && F32.isFin x && !F32.isZero x }
  match v with
  | .nan => (0, { zero := true, ovf := true })
  | .inf s => (if s then 0x80 else 0x7F, {})
  | .fin s m e =>
    let c := gridRound 60 0 sr u m e
    if s then (if c > 128 then (0x80, cls false true) else (codeOfInt 8 (-(c : Int)), cls (c == 0) false))
    else if c > 127 then (0x7F, cls false true) else (c, cls (c == 0) false)

/-- The BF16X2 planes of a value (R113): (hi, lo). -/
def splitX2 (v : FVal) : Nat × Nat :=
  match v with
  | .nan => (0x7FC0, 0x7FC0)
  | .inf s => ((if s then 0x8000 else 0) + 0x7F80, 0)
  | .fin s m e =>
    let c := roundMag 7 (-133) m e
    let c := if c > 0x7F7F then 0x7F7F else c
    let (hm, he) := magOf 7 (-133) c
    let hi := (if s then 0x8000 else 0) + c
    match addFin s m e (!s) hm he with
    | .fin t n f =>
      (hi, (if t then 0x8000 else 0) + roundMag 7 (-133) n f)
    | _ => (hi, 0)

/-- The class of an FP32 value written as it stands, or as BF16X2 (R119, R120). -/
def fp32Class (x : F32) : ElemClass := floatClass fp32Format x (x.toNat % 2 ^ 31) false

/-- emax of R102. -/
def mxEmax (fmt : Nat) : Int :=
  match fmt with
  | 0x5 => 8
  | 0x6 => 15
  | 0x7 => 2
  | 0x8 => 4
  | 0x9 => 2
  | _ => 0

/-- The element format of an MX code has no NaN code (R103). -/
def mxNoNan (fmt : Nat) : Bool := decide (0x7 ≤ fmt)

/-- The unbiased exponent of a non-zero finite value, exact also for subnormals. -/
def exponentOf (m : Nat) (e : Int) : Int := (Nat.log2 m : Int) + e

/-- The greatest exponent among the finite non-zero values of a block, none when all are zero. -/
def blockExp : List FVal → Option Int
  | [] => none
  | x :: xs =>
    match x with
    | .fin _ m e =>
      if m = 0 then blockExp xs
      else match blockExp xs with
        | none => some (exponentOf m e)
        | some k => some (if k < exponentOf m e then exponentOf m e else k)
    | _ => blockExp xs

/-- One element of an MX block at scale 2^X (R102 to R104), saturating whatever SAT says. -/
def mxElem (fmt : Nat) (sat sr : Bool) (u : Nat) (X : Int) (v : FVal) (x : F32) : Nat × ElemClass :=
  let cls (z sb o : Bool) : ElemClass :=
    { zero := z, subn := sb, ovf := o && F32.isFin x, flush := F32.isFin x && !F32.isZero x && (z || sb) }
  match elemFormat fmt with
  | none =>
    match v with
    | .fin s m e =>
      let c := gridRound 60 (-6) sr u m (e - X)
      let q := if c > 127 then 127 else c
      (codeOfInt 8 (if s then -(q : Int) else q), cls (q == 0) false (decide (c > 127)))
    | _ => (0, {})
  | some f =>
    let w := f.eb + f.fb
    match v with
    | .nan => (nanCode fmt, { nan := true })
    | .inf s =>
      if f.hasInf then ((if s then 2 ^ w else 0) + f.infCode, { inf := true })
      else if sat then ((if s then 2 ^ w else 0) + f.maxCode, {})
      else (nanCode fmt, { nan := true })
    | .fin s m e =>
      let c := gridRound f.fb f.emin sr u m (e - X)
      let q := if c > f.maxCode then f.maxCode else c
      ((if s then 2 ^ w else 0) + q, cls (q == 0) (q != 0 && decide (q < 2 ^ f.fb)) (decide (c > f.maxCode)))

/-- The largest finite FP32 value of a sign (R104). -/
def maxFin32 (neg : Bool) : FVal := F32.val (BitVec.ofNat 32 ((if neg then 2 ^ 31 else 0) + 0x7F7FFFFF))

/-- A converted MX block: scale byte, and code and class of each element (R102 to R104). `us` holds the elements' random
values. The element bits of a block with scale 0xFF are not stated: free values of the block's own (log 18). -/
def mxBlock (fmt : Nat) (sat sr : Bool) (us : List Nat) (vs : List FVal) : Nat × List (Nat × ElemClass) :=
  let xs := vs.map rne32
  let ys := if mxNoNan fmt && sat then vs.map (fun v => match v with | .inf s => maxFin32 s | v => v) else vs
  if mxNoNan fmt && ys.any (fun v => !v.isFin) then
    (0xFF, (List.range xs.length).map (fun i => (Config.nanBlockCode fmt xs i % 2 ^ fmtBits fmt, { nan := true })))
  else
    let X : Int := match blockExp ys with
      | none => -127
      | some k =>
        let d := k - mxEmax fmt
        if d < -127 then -127 else if d > 127 then 127 else d
    let codes := List.zipWith (fun (p : FVal × F32) u => mxElem fmt sat sr u X p.1 p.2) (List.zip ys xs) us
    ((X + 127).toNat, codes)

/-- Conversion of one value to a format that is neither MX nor BF16X2: its code and class (R106). An INT32 value goes to FP32 under R108 or
R109; an FP32 value is exact there (R581). -/
def convPlain (c : ConvByte) (u : Nat) (v : FVal) : Nat × ElemClass :=
  let x := rne32 v
  if c.fmt == fmtFP32 then (if c.sr then convFloat fp32Format c.fmt c.sat true u v x else (x.toNat, fp32Class x))
  else if c.fmt == fmtINT8 then convInt8 c.sr u v x
  else match elemFormat c.fmt with
    | some f => convFloat f c.fmt c.sat c.sr u v x
    | none => (x.toNat, {})

end Sys2Proof.Machine
end

