-- ==== Sys2Proof/Machine/Reduce.lean ====
section
/-! DEFINITION. The canonical order of summation (R161 to R180), its retries, the root, junction adds (R189, R190), row
sums (R256) and maxima and minima with index (R197, R198). An accumulator keeps the segment sums of its present granule,
exact as the narrow lane left them, so that a retry can sum the granule again at its new offset. -/
namespace Sys2Proof.Machine

/-- One addend of the wide lane: a segment's exact narrow sum, or one product of the wide group, with the exponent of its
fold at offset 0 (R165). -/
structure Item where
  v : FVal
  s : Int
  /-- one of its products is not a number (R170, R171) -/
  np : Bool
  deriving DecidableEq, Repr

/-- What one chunk gives one output, in order: addends, the end of a granule, and the end of the reduction. -/
inductive Feed where
  | item (i : Item)
  | close (last : Bool)
  deriving DecidableEq, Repr

/-- How an operator step accumulates (R163, R175, R181). -/
structure AccPlan where
  depth : Nat
  /-- INT format: exact modulo 2^32 -/
  int : Bool
  /-- no retry: WRAP policy -/
  wrap : Bool
  /-- the wide lane takes products, not folds (R133, R163) -/
  wide : Bool
  deriving DecidableEq, Repr

/-- The state of one output element's reduction: part of its window slot (R182). -/
structure Acc where
  /-- binary-counter stack, one entry per level 0 to D -/
  stack : List (Option F32)
  /-- running sum of the granule, or the INT32 sum -/
  run : BitVec 32
  /-- granule number -/
  g : Nat
  /-- rescale offset in units of −64 -/
  o : Nat
  /-- addends of the present granule -/
  items : List Item
  /-- stack and offset as the present granule found them -/
  stack0 : List (Option F32)
  o0 : Nat
  /-- a retry is owed (R177) -/
  flag : Bool
  /-- what stands behind the overflow (R177, R178) -/
  rest : List Feed
  /-- nan_seen (R171) -/
  nan : Bool
  /-- every product so far was finite (R180) -/
  fin : Bool
  /-- the root once the reduction has ended; absent when nothing was summed (R169) -/
  root : Option (Option (BitVec 32))
  deriving DecidableEq, Repr

def Acc.start (p : AccPlan) : Acc :=
  { stack := List.replicate (p.depth + 1) none, run := if p.int then 0 else negZero32, g := 0, o := 0, items := [],
    stack0 := List.replicate (p.depth + 1) none, o0 := 0, flag := false, rest := [], nan := false, fin := true, root := none }

/-- An FP32 addition with its overflow event: finite operands, infinite result (R172). -/
def addEvent (x y : F32) : F32 × Bool :=
  let z := fadd x y
  (z, F32.isFin x && F32.isFin y && F32.isInf z)

/-- `absent + x` and `x + absent` give x with no addition (R163, R167). -/
def addOpt (x y : Option F32) : Option F32 × Bool :=
  match x, y with
  | none, y => (y, false)
  | x, none => (x, false)
  | some a, some b =>
    let (z, o) := addEvent a b
    (some z, o)

/-- The fold: one multiplication by 2^(s − 64·o) rounded once, then one addition into the wide lane (R165). A product of the wide
group is rounded once likewise, but it is no fold, and R172 names no product among the overflow events (log 19). -/
def foldAdd (wide : Bool) (w : F32) (i : Item) (o : Nat) : F32 × Bool :=
  let f := rne32 (i.v.scale (i.s - 64 * (o : Int)))
  let ev := !wide && i.v.isFin && F32.isInf f
  let (z, ev2) := addEvent w f
  (z, ev || ev2)

/-- The merge of granule sum `s` into the stack: binary counter on the granule number (R163). -/
def mergeStack : List (Option F32) → Nat → Option F32 → List (Option F32) × Bool
  | [], _, _ => ([], false)
  | [_], _, s => ([s], false)
  | e :: es, g, s =>
    if g % 2 == 1 then
      let (s, ev) := addOpt e s
      let (es, ev2) := mergeStack es (g / 2) s
      (none :: es, ev || ev2)
    else (s :: es, false)

/-- The remaining entries folded, lowest level first (R163). -/
def finalizeStack : List (Option F32) → Option F32 → Option F32 × Bool
  | [], r => (r, false)
  | e :: es, r =>
    let (r, ev) := addOpt e r
    let (r, ev2) := finalizeStack es r
    (r, ev || ev2)

/-- Each present entry times 2^−64 with one rounding (R173). -/
def rescaleStack (st : List (Option F32)) : List (Option F32) := st.map (Option.map (fscale · (-64)))

/-- The retry rule: no retry at offset −128, after a NaN product, or under WRAP (R163, R175). -/
def Acc.mayRetry (p : AccPlan) (a : Acc) : Bool := !p.wrap && decide (a.o < 2) && !a.nan

/-- A NaN product stands among the addends that remain of the present granule. -/
def nanAhead : List Feed → Bool
  | [] => false
  | .close _ :: _ => false
  | .item i :: fs => i.np || nanAhead fs

/-- One addend. A NaN product ends retries of its granule: the offset goes back to what the granule found (R163, R171). -/
def Acc.item (p : AccPlan) (a : Acc) (i : Item) (ahead : List Feed) : Acc :=
  if p.int then
    match i.v with
    | .fin s m e => { a with run := BitVec.ofInt 32 (a.run.toInt + (if s then -((m * 2 ^ e.toNat : Nat) : Int) else ((m * 2 ^ e.toNat : Nat) : Int))) }
    | _ => a
  else
    let a := if i.np && !a.nan then { a with nan := true, o := a.o0, stack := a.stack0 } else a
    let (w, ev) := foldAdd p.wide a.run i a.o
    let a := { a with run := w, items := a.items ++ [i], fin := a.fin && i.v.isFin }
    if ev && a.mayRetry p && !nanAhead ahead then { a with flag := true } else a

/-- A granule's end, and at the last one the end of the reduction (R163). -/
def Acc.close (p : AccPlan) (a : Acc) (last : Bool) : Acc :=
  if p.int then (if last then { a with root := some (some a.run) } else a)
  else
    let (st, ev) := mergeStack a.stack a.g (some a.run)
    let (r, ev2) := if last then finalizeStack st none else (none, false)
    if (ev || ev2) && a.mayRetry p then { a with flag := true, rest := [.close last] }
    else
      { a with
        stack := st, g := a.g + 1, items := [], run := negZero32, stack0 := st, o0 := a.o,
        nan := a.nan || st.any (fun e => match e with | some x => F32.isNan x | none => false),
        root := if last then some r else none }

/-- A chunk's addends and ends, one after another; what stands behind an overflow, in its own chunk or in a later one of the weight set
that finishes its positions, waits for the retry (R177). -/
def Acc.feed (p : AccPlan) : Acc → List Feed → Acc
  | a, [] => a
  | a, f :: fs =>
    if a.flag then { a with rest := a.rest ++ f :: fs }
    else match f with
      | .item i => (a.item p i fs).feed p fs
      | .close last => (a.close p last).feed p fs

/-- A rescale retry of the present granule: entries rescaled, the granule summed again at the next offset (R172, R173). -/
def Acc.retry (p : AccPlan) (a : Acc) : Acc :=
  if !a.flag then a
  else
    { a with flag := false, o := a.o + 1, stack := rescaleStack a.stack, items := [], run := negZero32, rest := [] }.feed p
      (a.items.map Feed.item ++ a.rest)

/-- The whole canonical order over one output's addends (R161, R163): every retry runs as soon as it is owed. -/
def Acc.settle (p : AccPlan) : Nat → Acc → Acc
  | 0, a => a
  | n + 1, a => if a.flag then Acc.settle p n (a.retry p) else a

/-- The root with its offset removed: one multiplication by 2^(−o) (R174). -/
def Acc.rootValue (p : AccPlan) (a : Acc) : Option (BitVec 32) :=
  match a.root with
  | none => none
  | some none => none
  | some (some x) => if p.int then some x else if a.o == 0 then some x else some (fscale x (64 * (a.o : Int)))

/-- The output before conversion: the root plus the accumulate input; +0.0 or 0 where both are absent (R169). -/
def outputValue (int : Bool) (root cin : Option (BitVec 32)) : BitVec 32 :=
  match root, cin with
  | none, none => 0
  | none, some c => c
  | some r, none => r
  | some r, some c => if int then r + c else fadd r c

/-- RESCALE_INF: a root with its offset removed is not finite although every product of its reduction was (R180). -/
def rescaleInf (int fin : Bool) (root : Option (BitVec 32)) : Bool :=
  match root with
  | some x => !int && fin && !F32.isFin x
  | none => false

/-- D = ⌈log2 G⌉ with G = ⌈K / 256⌉ (R162). -/
def treeDepth (k : Nat) : Nat := clog2 (ceilDiv k 256)

/-- The narrow lane over one segment: from negative zero, the products one at a time (R164); the count of flushes (R176). -/
def narrowSum (int : Bool) : List FVal → FVal × Nat → FVal × Nat
  | [], r => r
  | p :: ps, (n, fl) =>
    if int then narrowSum int ps (n.add p, fl)
    else
      let (r, f) := roundA20 (n.add p)
      narrowSum int ps (r, fl + boolNat f)

/-- Two root records joined (R189). -/
def junctionAdd (int : Bool) (x y : Option (BitVec 32)) : Option (BitVec 32) :=
  match x, y with
  | none, y => y
  | x, none => x
  | some a, some b => some (if int then a + b else fadd a b)

/-- One level of a junction tree: siblings added left + right (R190). -/
def junctionLevel (int : Bool) : List (Option (BitVec 32)) → List (Option (BitVec 32))
  | x :: y :: zs => junctionAdd int x y :: junctionLevel int zs
  | [x] => [x]
  | [] => []

/-- A junction tree of at most 2^n leaves (R190). -/
def junctionTree (int : Bool) : Nat → List (Option (BitVec 32)) → Option (BitVec 32)
  | 0, xs => xs.headD none
  | n + 1, xs => junctionTree int n (junctionLevel int xs)

/-- The sum of one granule of a row, from −0.0 in index order (R256). -/
def rowGranule (xs : List F32) : F32 := xs.foldl fadd negZero32

/-- The granules of a row. -/
def chunks256 : Nat → List F32 → List (List F32)
  | 0, _ => []
  | n + 1, xs => if xs.isEmpty then [] else xs.take 256 :: chunks256 n (xs.drop 256)

/-- The granule sums merged in order. -/
def mergeAll : List F32 → Nat → List (Option F32) → List (Option F32)
  | [], _, st => st
  | s :: ss, g, st => mergeAll ss (g + 1) (mergeStack st g (some s)).1

/-- RSUM of a row (R256). -/
def rsum (xs : List F32) : F32 :=
  if xs.isEmpty then 0
  else
    let gs := (chunks256 (ceilDiv xs.length 256) xs).map rowGranule
    let st := mergeAll gs 0 (List.replicate (treeDepth xs.length + 1) none)
    (finalizeStack st none).1.getD 0

/-- Maximum or minimum of a row with the lowest index that wins (R197); the value of an empty row is not defined. -/
def rowBest (better : F32 → F32 → Bool) : List F32 → Nat → Option (F32 × Nat) → Option (F32 × Nat)
  | [], _, best => best
  | x :: xs, i, none => rowBest better xs (i + 1) (some (x, i))
  | x :: xs, i, some (b, j) => rowBest better xs (i + 1) (if better b x then some (b, j) else some (x, i))

def rmaxRow (xs : List F32) : Option (F32 × Nat) := (rowBest maxGe xs 0 none).map (fun p => (canon p.1, p.2))
def rminRow (xs : List F32) : Option (F32 × Nat) := (rowBest minLe xs 0 none).map (fun p => (canon p.1, p.2))

end Sys2Proof.Machine
end

