-- ==== Sys2Proof/Machine/Function.lean ====
section
/-! DEFINITION. Function tables: segment selection and evaluation (R251 to R255), the element-wise operations of the vector
unit on FP32 and INT32 (R249, R250, R581), and the online softmax of fused pairs (R267). -/
namespace Sys2Proof.Machine

/-- A segment and its coordinate, an edge that gives +0, or not a number. -/
inductive Segment where
  | seg (i : Nat) (t : F32)
  | zero
  | nan
  deriving DecidableEq, Repr

/-- Edge behaviour of R253: 0 EXTEND, 1 CLAMP, 2 ZERO. -/
def edgeSeg (code : Nat) (hi : Bool) (extend : F32) : Segment :=
  match code with
  | 0 => .seg (if hi then 255 else 0) extend
  | 1 => if hi then .seg 255 0x3F800000#32 else .seg 0 0
  | _ => .zero

/-- ⌊v⌋ of a finite value. -/
def floorVal (s : Bool) (m : Nat) (e : Int) : Int :=
  let n : Int := if s then -(m : Int) else m
  if e ≥ 0 then n * (2 ^ e.toNat : Nat) else n / ((2 ^ (-e).toNat : Nat) : Int)

/-- u − i for an integer i, rounded once (exact inside a segment; R252, R253). -/
def subInt (u : F32) (i : Int) : F32 := rne32 ((F32.val u).add (FVal.ofInt (-i)))

/-- Segment choice in LINEAR mode (R252). -/
def linearSeg (dom : List Byte) (x : F32) : Segment :=
  let edge := byteAt dom 1
  let d := fsub x (BitVec.ofNat 32 (fieldAt dom 4 4))
  let u := fscale d (signedOf 8 (byteAt dom 2))
  match F32.val u with
  | .nan => .nan
  | .inf s => edgeSeg (if s then bits edge 0 2 else bits edge 2 2) (!s) u
  | .fin s m e =>
    let i := floorVal s m e
    if i < 0 then edgeSeg (bits edge 0 2) false u
    else if i > 255 then edgeSeg (bits edge 2 2) true (subInt u 255)
    else .seg i.toNat (subInt u i)

/-- Segment choice in OCTAVE mode (R252); EXTEND acts as CLAMP (R253). -/
def octaveSeg (dom : List Byte) (x0 : F32) : Segment :=
  let edge := byteAt dom 1
  let ebase := byteAt dom 2
  let fb := byteAt dom 3
  let x := if byteAt dom 4 == 0 then x0 else BitVec.ofNat 32 (x0.toNat % 2 ^ 31)
  let e := bits x.toNat 23 8
  let f := bits x.toNat 0 23
  let clamp (c : Nat) := if c == 0 then 1 else c
  if F32.isNan x0 then .nan
  else if F32.neg? x || e == 0 || decide (e < ebase) then edgeSeg (clamp (bits edge 0 2)) false 0
  else
    let j := (e - ebase) * 2 ^ fb + f / 2 ^ (23 - fb)
    if j > 255 then edgeSeg (clamp (bits edge 2 2)) true 0
    else .seg j (rne32 (.fin false (f % 2 ^ (23 - fb)) (-(23 - fb : Nat))))

/-- Coefficient `k` of segment `i` (R59). -/
def coeff (table : List Byte) (i k : Nat) : F32 := BitVec.ofNat 32 (fieldAt table (16 * i + 4 * k) 4)

/-- Horner evaluation with six roundings (R254). -/
def horner (table : List Byte) (i : Nat) (t : F32) : F32 :=
  let a := fmul (coeff table i 3) t
  let a := fadd (coeff table i 2) a
  let a := fmul a t
  let a := fadd (coeff table i 1) a
  let a := fmul a t
  fadd (coeff table i 0) a

/-- FUNC, or DFUNC with `deriv` (R252 to R255). -/
def funcEval (f : FuncDef) (deriv : Bool) (x : F32) : F32 :=
  let octave := byteAt f.domain 0 == 1
  let table := if deriv then f.deriv else f.value
  match (if octave then octaveSeg f.domain x else linearSeg f.domain x) with
  | .nan => nan32
  | .zero => 0
  | .seg i t =>
    let v := horner table i t
    if octave && byteAt f.domain 4 == 2 && F32.neg? x then fneg v else v

/-- The DOMAIN fields are those R251 allows. -/
def domainOk (d : List Byte) : Bool :=
  let edge := byteAt d 1
  decide (bits edge 0 2 ≤ 2) && decide (bits edge 2 2 ≤ 2) && bits edge 4 4 == 0 &&
  (if byteAt d 0 == 0 then
    decide (-16 ≤ signedOf 8 (byteAt d 2)) && decide (signedOf 8 (byteAt d 2) ≤ 16) && byteAt d 3 == 0
   else if byteAt d 0 == 1 then
    decide (1 ≤ byteAt d 2) && decide (byteAt d 2 ≤ 254) && decide (byteAt d 3 ≤ 5) && decide (byteAt d 4 ≤ 2) && zeroAt d 5 3
   else false)

/-- The element-wise FP32 operations in VOP order (R249, R373). `func` serves FUNC and DFUNC. -/
def vecOp (vop imm : Nat) (func : Bool → F32 → F32) (a b c : F32) : F32 :=
  match vop with
  | 0 => fadd a b
  | 1 => fsub a b
  | 2 => fmul a b
  | 3 => fadd (fmul a b) c
  | 4 => fdiv a b
  | 5 => fmin a b
  | 6 => fmax a b
  | 7 => fabs a
  | 8 => fneg a
  | 9 => fscale a (signedOf 32 imm)
  | 10 => canon (if selectHolds imm c then a else b)
  | 11 => func false a
  | 12 => func true a
  | 18 => fadd a b
  | _ => canon a

/-- The element-wise INT32 operations (R581). -/
def vecOpInt (vop imm : Nat) (a b c : BitVec 32) : BitVec 32 :=
  match vop with
  | 0 => a + b
  | 1 => a - b
  | 2 => a * b
  | 5 => if a.toInt ≤ b.toInt then a else b
  | 6 => if b.toInt ≤ a.toInt then a else b
  | 7 => if a.toInt < 0 then -a else a
  | 8 => -a
  | 10 =>
    let holds := match imm with
      | 0 => decide (c.toInt < 0)
      | 1 => decide (c.toInt ≤ 0)
      | 2 => decide (c.toInt = 0)
      | _ => false
    if holds then a else b
  | 18 => a + b
  | _ => a

/-- The row state of an online softmax (R267, R270). -/
structure SoftRow where
  m : F32
  l : F32
  alpha : F32
  o : List F32
  deriving DecidableEq, Repr

def negInf32 : F32 := 0xFF800000#32
def one32 : F32 := 0x3F800000#32

def SoftRow.start (dh : Nat) : SoftRow := ⟨negInf32, 0, one32, List.replicate dh 0⟩

/-- Two values compare equal: the zeros do (R267). -/
def feq (a b : F32) : Bool := a == b || (a.toNat % 2 ^ 31 == 0 && b.toNat % 2 ^ 31 == 0)

/-- One key block of one row: the new m, l and α, and the row of p; none when every key is excluded (R267). -/
def softBlock (exp : F32 → F32) (r : SoftRow) (s : List F32) (excluded : List Bool) : Option (SoftRow × List F32) :=
  if excluded.all id then none
  else
    let s := List.zipWith (fun x (e : Bool) => if e then negInf32 else x) s excluded
    let mb := match rmaxRow s with
      | some (v, _) => v
      | none => negInf32
    let mNew := fmax r.m mb
    let alpha := if feq r.m mNew then one32 else if r.m == negInf32 then 0 else exp (fsub r.m mNew)
    let p := s.map (fun x => if x == negInf32 then 0 else exp (fsub x mNew))
    let l := fadd (fmul r.l alpha) (rsum p)
    some ({ r with m := mNew, l := l, alpha := alpha }, p)

/-- The O update of one row with array B's root record of the block (R267). -/
def softUpdate (r : SoftRow) (alpha : F32) (root : List F32) : SoftRow :=
  { r with o := List.zipWith (fun o x => fadd (fmul o alpha) x) r.o root }

/-- The row's output: O / l, +0 where l is +0 (R267). -/
def softOutput (r : SoftRow) : List F32 := r.o.map (fun o => if r.l == 0 then 0 else fdiv o r.l)

end Sys2Proof.Machine
end

