-- ==== Sys2Proof/Machine/State.lean ====
section
/-! DEFINITION. The state of the device: every register, memory, queue, fuse and pin the manual gives it, the waiting
commands, and the state right after a power-on reset. -/
namespace Sys2Proof.Machine

/-- No rule of the manual faults the device: every failure it describes is an effect on the state. -/
inductive Fault where
  deriving DecidableEq, Repr

/-- Why the model does not answer. -/
inductive Refusal where
  /-- A command that has no meaning yet; safe. -/
  | notModelled (mnemonic : String)
  deriving DecidableEq, Repr

/-- Which supply failed, and what stops the clocks (R426, R446, R566, R568). -/
inductive StopCause where
  | rail (r : Rail)
  | thermal
  | refclk
  | pwrGood
  deriving DecidableEq, Repr

/-- Pins and supplies (R421, R423, R566 to R570). -/
structure Pins where
  rstN : Bool
  pwrGood : Bool
  refclk : Bool
  /-- the internal reset is held (R567) -/
  resetHeld : Bool
  straps : Nat
  thermAlert : Bool
  /-- causes that hold every region clock stopped -/
  stops : List StopCause
  /-- clocks stay stopped until a power-on reset (R492, R568) -/
  dead : Bool
  deriving DecidableEq, Repr

/-- STATE of GL_BOOT_STATE (R456). -/
inductive BootState where
  | reset | rom | selftest | waitSite | ledger | train | test | ready | stopped
  deriving DecidableEq, Repr

/-- The accepted site record (R458). -/
structure Site where
  stackId : Nat
  slot : Nat
  package : Nat
  vcoreSet : Nat
  envelope : Nat
  floorLim : Nat
  slewLim : Nat
  coolTin : Nat
  coolFlow : Nat
  coolDp : Nat
  lgSize : Nat
  lgErase : Nat
  lgPage : Nat
  lgMhz : Nat
  lgTprog : Nat
  lgTerase : Nat
  /-- LINKMAP bytes -/
  linkmap : List Byte
  deriving DecidableEq, Repr

/-- Bring-up (R448 to R465). -/
structure Boot where
  state : BootState
  stop : Nat
  siteErr : Nat
  fwSlot : Nat
  fresh : Bool
  torn : Bool
  vcoreMin : Nat
  replayEnded : Bool
  /-- the 336 bytes of GL_SITE_WIN (R457) -/
  window : List Byte
  site : Option Site
  fw : Option Firmware
  /-- the capability report once published (R537) -/
  report : List Byte
  orderFault : Bool
  coldWaiting : Bool
  testDone : Bool
  i3cOffset : Nat
  i3cAddr : Option Nat
  deriving DecidableEq, Repr

/-- The payload of a ledger record (R467); byte layouts are not given (log 9). -/
inductive LedgerBody where
  | half (epoch : Nat)
  | faultTile (t : Nat)
  | faultColumn (t : Nat) (x : Side) (c : Nat)
  | faultUnusable (t : Nat)
  | counter (id value : Nat)
  | image (imageId : Nat) (bytes : List Byte)
  | evict (imageId : Nat)
  | health (seq code count detail : Nat)
  | boot (count fwVersion : Nat) (site : List Byte)
  deriving DecidableEq, Repr

/-- A ledger record as it stands in the flash (R466). -/
structure LedgerRecord where
  offset : Nat
  rseq : Nat
  body : LedgerBody
  macOk : Bool
  commit : Bool
  len : Nat
  deriving DecidableEq, Repr

/-- One half of the ledger flash: its records in order of offset, and the end of its last byte that is not 0xFF (R468). -/
structure LedgerHalf where
  records : List LedgerRecord
  written : Nat
  deriving DecidableEq, Repr

/-- A cached image (R72). -/
structure CachedImage where
  imageId : Nat
  bytes : List Byte
  deriving DecidableEq, Repr

/-- The ledger: the flash, and what replay read from it (R466 to R473). -/
structure Ledger where
  half0 : LedgerHalf
  half1 : LedgerHalf
  /-- half in use -/
  cur : Nat
  epoch : Nat
  rseq : Nat
  pos : Nat
  faults : List LedgerBody
  counter0 : Nat
  counter1 : Nat
  cache : List CachedImage
  /-- the health history: HEALTH records -/
  health : List LedgerBody
  bootCount : Nat
  /-- the flash does not answer (R470) -/
  dead : Bool
  /-- appends that wait for a compaction or for the flash (R470, R472) -/
  waiting : List LedgerBody
  deriving DecidableEq, Repr

/-- A flit sent and not acknowledged (R410, R411). -/
structure SentFlit where
  fseq : Nat
  resends : Nat
  /-- TAG of the READ or WRITE it carries, none for the other messages -/
  tag : Option Nat
  /-- tile whose work it belongs to: that of a READ, WRITE or ATOMIC (R412, R491) -/
  src : Option Nat
  /-- its 256 bytes (R398) -/
  bytes : List Byte
  deriving DecidableEq, Repr

/-- A link module (R410 to R412). -/
structure Module where
  state : Nat
  /-- a running module retrains (R412) -/
  retraining : Bool
  half : Bool
  repaired : Nat
  replays : Nat
  crcErr : Nat
  retrains : Nat
  nextSend : Nat
  nextRecv : Nat
  nakPending : Bool
  sent : List SentFlit
  /-- credits for requests, completions and management (R399, R410) -/
  credits : List Nat
  /-- flits taken from each channel's buffer and not yet returned as credit, below 8 (R399, R410) -/
  taken : List Nat
  deriving DecidableEq, Repr

/-- What waits for a COMPLETION by TAG: a queue's transfer or the loader (R399, R413). -/
inductive TagUse where
  | xfer (t q n : Nat)
  | image
  deriving DecidableEq, Repr

/-- What the device sends at its ports. -/
inductive Sent where
  /-- a MGMT notice or message to the host: its AUX and payload (R402, R444) -/
  | mgmt (aux : Nat) (payload : List Byte)
  /-- an image read of the steward (R66) -/
  | imageRead (tag handle offset len : Nat)
  /-- a COMPLETION of SUB 0 or 1 with its ADDR (R402, R405) -/
  | completion (sub addr tag status : Nat) (data : List Byte)
  /-- a control response (R402, R403, R527) -/
  | control (tag status : Nat) (data : List Byte)
  /-- READ, WRITE and ATOMIC messages of a tile, which SRCTILE names (R399, R400) -/
  | readReq (module srcTile tag : Nat) (addr : Nat) (len : Nat)
  | writeReq (module srcTile tag : Nat) (addr : Nat) (data : List Byte)
  | atomic (module srcTile : Nat) (stack tile link entry : Nat) (release tagged : Bool)
  | workDone (lead pnum seq : Nat) (workId : Word)
  | nak (module fseq : Nat)
  | resend (module fseq : Nat)
  | ack (module fseq : Nat)
  /-- CRV: 8 flit credits of a channel go back (R399, R410) -/
  | credit (module ch : Nat)
  | spdm (via : Via) (body : List Byte)
  | alert (thermal : Bool)
  deriving DecidableEq, Repr

/-- A message that waits for credit or for room in the replay buffer: who sends it, its destination stack (64: the host), its channel and
its flits (R406, R408, R410). -/
structure Waiting where
  src : Nat
  dest : Nat
  ch : Nat
  flits : Nat
  msg : Sent
  deriving DecidableEq, Repr

/-- Varmlink as a whole. -/
structure Link where
  modules : Tab Module
  dropUndef : Nat
  dropTarget : Nat
  dropAtomic : Nat
  dropLate : Nat
  nextTag : Nat
  tags : List (Nat × TagUse)
  /-- answers that wait to be sent, oldest first -/
  waiting : List Waiting
  spdmVersion : Bool
  spdmCaps : Bool
  spdmAlgs : Bool
  deriving DecidableEq, Repr

/-- Where the re-binding of one partition stands (R73, R78). -/
inductive Phase where
  | quiesce
  /-- killed; its drain runs -/
  | kill
  | swept
  | verified
  | loaded
  deriving DecidableEq, Repr

/-- One partition that is being re-bound, or killed and swept outside a load. -/
structure Rebind where
  pnum : Nat
  phase : Phase
  /-- new composition, none where the partition stays unbound (R75) -/
  comp : Option Comp
  /-- old tiles and new tiles, all of them swept -/
  tiles : List Nat
  /-- it belongs to the load in progress -/
  ofLoad : Bool
  /-- it is part of an unbind or zeroisation of every tile (R523) -/
  all : Bool
  deriving DecidableEq, Repr

/-- A section of the image being loaded (R42). -/
structure Section where
  type : Nat
  pnum : Nat
  offset : Nat
  len : Nat
  hash : List Byte
  deriving DecidableEq, Repr

/-- An outstanding image read (R66). -/
structure ImageRead where
  tag : Nat
  pnum : Nat
  offset : Nat
  len : Nat
  deriving DecidableEq, Repr

/-- A load in progress (R66 to R69). -/
structure Load where
  handle : Nat
  length : Nat
  cached : Bool
  delta : Bool
  imageId : Nat
  rollback : Nat
  cacheFlag : Bool
  /-- the bytes of the verify pass, kept for the image cache (R72) -/
  image : List Byte
  headDigest : List Byte
  sections : List Section
  /-- the compositions that the verify pass decoded, and the REBIND records: PNUM and MODE -/
  comps : List Comp
  named : List (Nat × Nat)
  /-- reads of the second pass not yet issued, and issued and unanswered -/
  todo : List ImageRead
  reads : List ImageRead
  /-- bytes received in the second pass, by offset -/
  received : List (Nat × List Byte)
  applied : Bool
  failCode : Nat
  failSection : Nat
  deriving DecidableEq, Repr

/-- The loader and the global registers (R532 to R536). -/
structure Loader where
  imgSrc : Word
  state : Nat
  code : Nat
  sectionIx : Nat
  lastReject : Nat
  stretch : Nat
  failmap : Nat
  compId : Word
  dbDrop : Nat
  dbPnum : Nat
  cur : Option Load
  rebinds : List Rebind
  /-- measurement 4's chain (R517) -/
  chain : List Byte
  deriving DecidableEq, Repr

/-- Sensor state (R293, R445); readings in units of 0.1 °C, none where a sensor gives no valid one. -/
structure Sensors where
  compute : List (Option Int)
  holeile : List (Option Int)
  /-- sensors whose columns refresh every 16 ms (R294) -/
  hot : List Bool
  deriving DecidableEq, Repr

/-- What one control period of the open sample found (R435, R440, R443): power in units of 0.01 W, ballast in W. -/
structure Period where
  power : Nat
  ballast : Nat
  shortfall : Bool
  capHit : Bool
  deriving DecidableEq, Repr

/-- The cap level and the hold level of a tile (R435). -/
structure Level where
  cap : Nat
  hold : Nat
  deriving DecidableEq, Repr

/-- The power loop (R433 to R445). -/
structure Power where
  floor : Nat
  slew : Nat
  cap : Nat
  clamped : Bool
  cap1 : Nat
  cap2 : Nat
  ballast : Nat
  shortfall : Bool
  capHit : Bool
  thermShed : Bool
  slewExc : Nat
  pllOn : List Nat
  locking : List Nat
  wheel : Nat
  /-- reference of the loop, in units of 0.01 W (R435) -/
  ref : Nat
  pAvg : Nat
  seq : Nat
  /-- the control periods of the open sample, oldest first (R443) -/
  periods : List Period
  /-- levels of eligible tiles; 64 and 0 where none is listed (R436) -/
  levels : Tab Level
  /-- the newest sample (R547) -/
  tel : List Byte
  /-- notices waiting to be sent, oldest first (R444) -/
  notices : List (List Byte)
  sensors : Sensors
  deriving DecidableEq, Repr

/-- A listed loss (R490). -/
structure Loss where
  tile : Nat
  whole : Bool
  offset : Nat
  pnum : Nat
  unbound : Bool
  deriving DecidableEq, Repr

/-- The tests that a gang parity mismatch has started and that have not ended, by key, and whether one has failed (R213). -/
structure ParityTest where
  left : List Nat
  failed : Bool
  deriving DecidableEq, Repr

/-- Health (R490 to R495). -/
structure Health where
  fault : Nat
  losses : List Loss
  ovf : Bool
  /-- events of the open sample by code: how many, and the latest DETAIL (R494) -/
  events : Tab (Nat × Nat)
  parity : List ParityTest
  deriving DecidableEq, Repr

/-- The enclave's mailbox and volatile state (R508 to R514, R523, R551 to R554). -/
structure Enclave where
  cmd : Option (Nat × List Byte)
  busy : Bool
  done : Bool
  reject : Bool
  everUnlocked : Bool
  core : Bool
  steward : Bool
  result : Nat
  rlen : Nat
  lastCmd : Nat
  data : List Byte
  sweepPnum : Nat
  sweepResult : Nat
  sweepFailed : Nat
  sweepAll : Bool
  sweepSeq : Nat
  nonce : Option (List Byte)
  loadedSince : Bool
  deriving DecidableEq, Repr

/-- State of a key slot (R506). -/
inductive SlotState where
  | empty
  | set
  | revoked
  deriving DecidableEq, Repr

/-- A key slot: state, purposes and the 97-byte public key (R506). -/
structure KeySlot where
  state : SlotState
  purposes : Nat
  key : List Byte
  deriving DecidableEq, Repr

/-- Fuses: they outlive every reset. -/
structure Fuses where
  slot0 : KeySlot
  slot1 : KeySlot
  slot2 : KeySlot
  slot3 : KeySlot
  debugFused : Bool
  /-- a DECOMMISSION has disabled the UDS (R514) -/
  udsDisabled : Bool
  /-- KEYID of the device identity key (R505, R509, log 10) -/
  identityKeyId : List Byte
  deriving DecidableEq, Repr

/-- JTAG (R511, R572). -/
structure Jtag where
  /-- the instruction register: IDCODE 0, BYPASS 1, SAMPLE/PRELOAD 2, EXTEST 3 -/
  ir : Nat
  bypassBit : Bool
  boundary : List Bool
  driven : Option (List Bool)
  tdo : List Bool
  deriving DecidableEq, Repr

/-- A semaphore (R337). -/
structure Sem where
  count : Nat
  tag : Bool
  deriving DecidableEq, Repr

/-- Who takes a semaphore (R339). -/
inductive Taker where
  | seq
  | queue (q : Nat)
  /-- the neighbour engine for a halo direction, or for a relay's OUT_LINK: 4 + LINK -/
  | nbr (d : Nat)
  deriving DecidableEq, Repr

/-- A signal or release on its way, or waiting to be sent (R343, R484). -/
structure SemMsg where
  /-- home partition of the wire -/
  pnum : Nat
  link : Nat
  release : Bool
  /-- consumer entry index concerned -/
  entry : Nat
  tagged : Bool
  /-- the tile it goes to -/
  dest : Nat
  /-- no longer held back under R484: it waits for credit only -/
  letGo : Bool
  deriving DecidableEq, Repr

/-- The outcome of a transfer or step: status, step and tile at which it arose (R370, R382). -/
structure Status where
  code : Nat
  step : Nat
  tile : Nat
  deriving DecidableEq, Repr

/-- A report of a tile (R370). -/
structure Report where
  status : Status
  /-- RESCALE_64, RESCALE_128, RESCALE_INF, NFLUSH, RETRY_SETS, SPILLS (R180) -/
  counters : List Nat
  hist : Hist
  deriving DecidableEq, Repr

/-- A work context (R369). -/
structure WorkCtx where
  workId : Word
  opsel : Nat
  sh : List Nat
  args : List Nat
  failed : Nat
  deriving DecidableEq, Repr

/-- A loop of the itinerary in progress (R373). -/
structure LoopFrame where
  step : Nat
  last : Nat
  /-- iterations done -/
  iter : Nat
  count : Nat
  desc : Bool
  deriving DecidableEq, Repr

/-- The unit that runs a step (R368). -/
inductive StepUnit where
  | array (x : Side)
  | pair
  | vector
  | queue (q : Nat)
  | engine
  | none
  deriving DecidableEq, Repr

/-- A step the tile has issued and not completed. -/
structure StepRun where
  id : Nat
  step : Nat
  pass : Nat
  rank : Nat
  unit : StepUnit
  dlink : Option Nat
  finished : Bool
  wbc : Bool
  /-- met in skip mode: the unit only passes the ring that the step names (R386) -/
  skip : Bool
  deriving DecidableEq, Repr

/-- Where the sequencer waits (R368). -/
inductive SeqHold where
  | run
  | wsem
  | granted
  | context
  | sync
  | drain
  | report
  | record
  | swing
  deriving DecidableEq, Repr

/-- A tile sequencer (R367 to R370, R386). -/
structure Seq where
  running : Bool
  pc : Nat
  lastStep : Nat
  loops : List LoopFrame
  hold : SeqHold
  issued : List StepRun
  nextId : Nat
  /-- the first id of the work item: steps from it on count at DONE and CKPT (R368) -/
  workFrom : Nat
  passes : Tab Nat
  ctx : WorkCtx
  inWork : Bool
  /-- ranks this tile still runs of the present step, its own first (R390) -/
  ranks : List Nat
  skip : Option Status
  busy : Bool
  rep : Report
  /-- levels of the merge tree already merged, and whether this tile has contributed (R370) -/
  merged : Nat
  contributed : Bool
  deriving DecidableEq, Repr

/-- A tap of words and scales: the words of cells (r, c) at 32r + c (R140, R307). -/
structure TapFill where
  words : List Nat
  scales : List Nat
  deriving DecidableEq, Repr

/-- How a pass's taps load (R142, R143). -/
inductive LoadKind where
  | none
  | moving
  | stopped
  deriving DecidableEq, Repr

/-- One weight set's run of output positions (R124, R145), or one block of a paired step (R233) or of a fused pair (R269). -/
structure Pass where
  /-- output tile, and reduction of BF16×3: 0 hl, 1 lh, 2 hh (R114) -/
  slot : Nat
  part : Nat
  k0 : Nat
  kEnd : Nat
  /-- the reduction ends with this chunk -/
  last : Bool
  n0 : Nat
  ncols : Nat
  q0 : Nat
  nq : Nat
  /-- rows and columns of the whole output tile, of which the slot holds one gang column's -/
  tileRows : Nat
  tileCols : Nat
  tap : Nat
  loads : Nat
  kind : LoadKind
  /-- pair block or key block that the pass reads, counted from 0 -/
  block : Nat
  deriving DecidableEq, Repr

/-- A partial sum on its way to the PDU (R134). -/
structure Flight where
  slot : Nat
  /-- gang column whose bottom tile receives it (R200) -/
  col : Nat
  /-- first tap that its vectors name (R141) -/
  tap : Nat
  part : Nat
  q : Nat
  j : Nat
  block : Nat
  feeds : List Feed
  /-- the weight set's column chunk and chunk, for a retry (R177) -/
  n0 : Nat
  ncols : Nat
  k0 : Nat
  deriving DecidableEq, Repr

/-- A window slot: an output tile in progress, in the window of one gang column's bottom tile (R182 to R184, R200). -/
structure Slot where
  key : Nat
  /-- gang column -/
  col : Nat
  accs : Tab Acc
  /-- outputs not yet written -/
  left : Nat
  stamp : Nat
  /-- place in the tile's share of the spill area, none while it is resident -/
  spilled : Option Nat
  deriving DecidableEq, Repr

/-- A weight set that output positions have used, kept for a retry: the tap fills of every tile of the logical array (R144, R177). -/
structure KeptSet where
  slot : Nat
  n0 : Nat
  k0 : Nat
  nq : Nat
  tap : Nat
  fills : List (Nat × List TapFill)
  deriving DecidableEq, Repr

/-- A retry that the PDU has flagged: the column chunk and the chunk that overflowed (R177). -/
structure RetryMark where
  slot : Nat
  n0 : Nat
  ncols : Nat
  k0 : Nat
  deriving DecidableEq, Repr

/-- A root that waits for the other reductions of BF16×3 (R114): its offset, whether every product of its reduction was finite, and
whether it counts in RESCALE_INF (R180). -/
structure PartRoot where
  root : Option (BitVec 32)
  o : Nat
  fin : Bool
  inf : Bool
  deriving DecidableEq, Repr

/-- What a job's roots become. -/
inductive JobRole where
  | single
  | pairA
  | pairB
  | fusedA
  | fusedB
  deriving DecidableEq, Repr

/-- An operator step at work in a logical array, held at the array's north-west tile (R145, R200, R376). -/
structure Job where
  /-- each tile of the logical array with its issued step -/
  runs : List (Nat × Nat)
  step : Nat
  pass : Nat
  workId : Word
  role : JobRole
  oper : Oper
  form : Nat
  gx : Nat
  gy : Nat
  gw : Nat
  gh : Nat
  /-- output rows, output columns and reduction length of this array -/
  m : Nat
  n : Nat
  k : Nat
  /-- logical columns of the array (R151, R201, R230) -/
  width : Nat
  /-- scratchpad offset of the accumulate input (R375) -/
  cin : Option Nat
  /-- CIN counts from the working buffer of each tile that reads it: the partition's DISCIPLINE, none without WBC (R322, R323) -/
  cinWb : Option Nat
  plan : AccPlan
  /-- weight sets to come, the present one first -/
  passes : List Pass
  loaded : Nat
  q : Nat
  flights : List Flight
  slots : List Slot
  stamp : Nat
  retries : List RetryMark
  /-- weight sets of the output tiles in progress, oldest first (R144) -/
  kept : List KeptSet
  parts : Tab (List PartRoot)
  /-- values that wait for their MX block, by block -/
  staged : Tab (List (Option (BitVec 32)))
  deriving DecidableEq, Repr

/-- An array (R123, R130, R150, R155). -/
structure Arr where
  form : Nat
  suspect : Bool
  /-- suspect columns of this tile's array, under re-qualification (R150, R153, R213) -/
  requal : List Nat
  busy : Bool
  /-- column steps enabled -/
  ramp : Nat
  /-- 0 steady, 1 rising, 2 falling -/
  ramping : Nat
  /-- a ramp waits for its start grant (R430) -/
  waiting : Bool
  gated : Bool
  opening : Bool
  detours : List Nat
  impaired : Bool
  /-- words in the lanes, in the order they present them: L words to a vector (R130, R305) -/
  lanes : List Nat
  scales : List Nat
  front : List TapFill
  taps : Tab TapFill
  job : Option Job
  /-- cycle of the last vector issued and the earliest of the next one, counted on the array's own clock (R138, R142, R143) -/
  lastIssue : Nat
  nextIssue : Nat
  deriving DecidableEq, Repr

/-- A fused-pair step at work (R264 to R270). -/
structure Fused where
  run : Nat
  oper : Oper
  m : Nat
  n : Nat
  dh : Nat
  period : Nat
  blocks : Nat
  /-- S, P, α and R of the blocks in the pipeline: by block, row by row; a row of P or α that its block leaves out is none -/
  s : Tab (Tab F32)
  p : Tab (List (Option (List Nat)))
  alphas : Tab (List (Option F32))
  r : Tab (Tab F32)
  rows : List SoftRow
  deriving DecidableEq, Repr

/-- State of a queue (R325). -/
inductive QState where
  | idle
  | run
  | last
  | halt
  | stop
  | error
  deriving DecidableEq, Repr

/-- A launch: descriptor, parameters, the step that made it and the rank it serves. -/
structure Launch where
  desc : Desc
  params : List Nat
  prog : StreamProg
  run : Nat
  step : Nat
  rank : Nat
  deriving DecidableEq, Repr

/-- A loop of a stream program in progress. -/
structure SLoop where
  first : Nat
  last : Nat
  iter : Nat
  count : Nat
  sstr : Int
  dstr : Int
  deriving DecidableEq, Repr

/-- The path of a transfer (R317). -/
inductive XPath where
  | near
  | road (t : Nat) (isWrite : Bool)
  | remote (isWrite : Bool)
  deriving DecidableEq, Repr

/-- A transfer that is outstanding (R311). -/
structure Xfer where
  seq : Nat
  instr : Nat
  src : Nat
  dst : Nat
  len : Nat
  tr : Nat
  esize : Bool
  tpitch : Nat
  path : XPath
  /-- answered by the other end -/
  answered : Bool
  status : Nat
  data : List Byte
  /-- bytes already delivered to lanes, rows or taps -/
  done : Nat
  /-- the far page that it writes for the first time (R297) -/
  page : Option Nat
  /-- remote units not yet sent: offset and length (R401) -/
  unsent : List (Nat × Nat)
  /-- remote units sent and not yet answered: TAG, offset and length (R413) -/
  sent : List (Nat × Nat × Nat)
  deriving DecidableEq, Repr

/-- A stream queue and its ring (R302 to R330). -/
structure Queue where
  state : QState
  busy : Bool
  cur : Option Launch
  shadow : Option Launch
  rearm : Bool
  pc : Nat
  srcReg : Nat
  dstReg : Nat
  loops : List SLoop
  issuedN : Nat
  out : List Xfer
  waiting : Bool
  /-- the remainder runs unexecuted (R386) -/
  remainder : Bool
  full : Nat
  free : Nat
  ringBase : Nat
  ringSlot : Nat
  prodN : Nat
  consN : Nat
  prodHeld : Bool
  consHeld : Bool
  status : Nat
  posSeq : Nat
  posInstr : Nat
  posValid : Bool
  stall : Nat
  slow : Nat
  slowLink : Nat
  /-- far page whose entry is being read (R298) -/
  fptWait : Option Nat
  /-- the entry that the translation in flight has read, by far page (R298) -/
  fptGot : Option (Nat × Word)
  deriving DecidableEq, Repr

/-- A relay step at work (R352 to R356). -/
structure RelayRun where
  run : Nat
  desc : RelayDesc
  inLink : Nat
  outLink : Nat
  /-- full semaphore of this tile whose signals the step counts: HSEM, or that of IN_LINK (R354, R355) -/
  csem : Nat
  /-- signals and local releases counted for this step's blocks -/
  signals : Nat
  localRel : Nat
  sent : Nat
  landed : Nat
  beat : Nat
  released : Nat
  credit : Bool
  /-- the block `sent` is on its way beat by beat -/
  sending : Bool
  /-- who receives the blocks: tile, BASE and NSLOT there -/
  dests : List (Nat × Nat × Nat)
  /-- over the roads, not over the neighbour port (R364) -/
  byRoad : Bool
  /-- the step is skipped: takes and signals only (R386) -/
  dry : Bool
  /-- the entry of a lost head, which runs beside the tile's own (R364) -/
  taken : Bool
  /-- every block has moved: the step has completed, and slots still wait for their releases (R356) -/
  ended : Bool
  deriving DecidableEq, Repr

/-- A halo step at work (R357, R358). -/
structure HaloRun where
  run : Nat
  /-- tile whose entry runs: another than this one when it runs a lost rank (R364) -/
  home : Nat
  /-- directions left: 0 north, 1 east, 2 south, 3 west -/
  left : List (Nat × HaloEntry)
  credits : List Nat
  /-- the step is skipped: takes and signals only (R386) -/
  dry : Bool
  deriving DecidableEq, Repr

/-- The neighbour engine (R350, R361). -/
structure Engine where
  /-- relay steps at work, and those that wait for their last releases, oldest first -/
  relays : List RelayRun
  /-- signals and local releases of relay wires, by full semaphore, that no step has counted yet (R354, R356) -/
  heard : Tab Nat
  rels : Tab Nat
  halo : Option HaloRun
  /-- steps that wait for the engine -/
  steps : List (StepRun × Nat × StepBody)
  busy : Bool
  linkDown : List Nat
  /-- directions stopped by a parity mismatch, under re-test (R363) -/
  stopped : List Nat
  blk : Nat
  deriving DecidableEq, Repr

/-- An entry of the gather buffer: a line of 32 B and the bytes written to it (R280). -/
structure GatherEntry where
  line : Nat
  bytes : List (Option Byte)
  deriving DecidableEq, Repr

/-- A tile. -/
structure Tile where
  good : Bool
  usable : Bool
  /-- partition the tile is bound to; `access` is false while it counts as unbound (R81) -/
  bound : Option Nat
  access : Bool
  fenced : Bool
  /-- a check has fired in the core; the fence follows (R284, R477) -/
  fired : Bool
  /-- power switches closed, or closing (R428, R429) -/
  powered : Bool
  waking : Bool
  a : Arr
  b : Arr
  vgated : Bool
  vopening : Bool
  vbusy : Bool
  pairRows : List (List Byte)
  pairNow : Option (Nat × List (List Byte))
  fusedRun : Option Fused
  seq : Seq
  wbBase : Nat
  wbSize : Nat
  swung : Bool
  gather : List GatherEntry
  fptCache : List (Nat × Word)
  sems : Tab Sem
  semOvf : Nat
  waits : List (Nat × Taker)
  /-- lags by wire (link) and consumer entry (R342) -/
  lags : Tab (List Nat)
  /-- releases made at this tile and not yet applied or sent -/
  releases : List SemMsg
  /-- crossing signals and releases held (R484) -/
  held : List SemMsg
  xtake : Tab Nat
  xtag : Nat
  queues : Tab Queue
  nbr : Engine
  spCe : Nat
  dsCe : Nat
  dsLast : Nat
  hotRefresh : Bool
  refreshRow : Nat
  /-- telemetry sample of the last core failure, and the block that failed in the failure under re-test (R479, R480) -/
  failSeq : Option Nat
  failBlock : Nat
  /-- corrected scratchpad and column errors of the open sample (R494) -/
  spCeOpen : Nat
  dsCeOpen : Nat
  deriving DecidableEq, Repr

/-- STATE of PT_STATE (R539). -/
inductive PState where
  | unbound
  | starting
  | running
  | quiesce
  | held
  | recovering
  | killing
  deriving DecidableEq, Repr

/-- A fault record of the fault list (R331). -/
structure FpFault where
  tile : Nat
  queue : Nat
  cause : Nat
  page : Nat
  deriving DecidableEq, Repr

/-- The state a replay starts from (R388, R390). -/
structure ReplayPoint where
  step : Nat
  atTake : Bool
  loops : List LoopFrame
  passes : Tab Nat
  rep : Report
  skip : Option Status
  deriving DecidableEq, Repr

/-- A partition. -/
structure Part where
  state : PState
  comp : Option Comp
  lead : Nat
  /-- tiles of the partition now -/
  tiles : List Nat
  /-- tiles lost for good, whose ranks others run (R390) -/
  lost : List Nat
  inWork : Bool
  replays : Nat
  reqHead : Nat
  cplTail : Nat
  cplHead : Nat
  tail : Nat
  hold : Bool
  holdBusy : Bool
  remoteMask : Nat
  fptBase : Nat
  fptLen : Nat
  faults : List FpFault
  workId : Word
  point : ReplayPoint
  ckptHalf : Nat
  /-- tiles under re-test in a recovery (R479) -/
  retest : List Nat
  /-- the recovery waits for its safe points -/
  draining : Bool
  idle : Bool
  /-- the wires in force: the image's, with a lost tile's ends moved to the tile that took its rank (R364, R390) -/
  wires : List Wire
  /-- redirections of R364: (link named, tile that names it, link meant) -/
  redirects : List (Nat × Nat × Nat)
  report : Option Report
  deriving DecidableEq, Repr

/-- A report on its way over the roads (R370). -/
structure ReportMsg where
  pnum : Nat
  dest : Nat
  rep : Report
  deriving DecidableEq, Repr

/-- The tile grid, the roads and the memories. -/
structure Fabric where
  /-- scratchpads and columns by device address bits [57:0] (R273) -/
  mem : List Host.Cell
  /-- scratchpad cells that hold a wrong bit, by tile (R282, R283) -/
  flips : List (Nat × SpCell)
  tiles : Tab Tile
  parts : Tab Part
  semMsgs : List SemMsg
  contexts : List (Nat × WorkCtx)
  reports : List ReportMsg
  deadRouters : List Nat
  deadLinks : List (Nat × Nat)
  deadNbr : List (Nat × Nat)
  retraining : List (Nat × Nat)
  /-- failures in a row of a link, by 4 × router + direction -/
  crcFails : Tab Nat
  /-- links whose receiver has sent a NAK: the sender holds the dropped beats in its replay buffer until they have crossed (R28, R475) -/
  resending : List (Nat × Nat)
  repaired : Tab Nat
  /-- lost codewords: (tile, offset / 64); columns lost whole, with the codewords written whole since; columns that answer
  every access with DS_UNCORR (R463, R488, R489) -/
  lostWords : List (Nat × Nat)
  lostColumns : List Nat
  restored : List (Nat × Nat)
  deadColumns : List Nat
  deriving DecidableEq, Repr

/-- The device. -/
structure State where
  /-- waiting commands, first in first out -/
  pending : List Instr
  /-- counter behind the free values (log 11) -/
  free : Nat
  pins : Pins
  boot : Boot
  led : Ledger
  link : Link
  load : Loader
  pow : Power
  hl : Health
  se : Enclave
  fuse : Fuses
  jtag : Jtag
  fab : Fabric
  /-- what the device has sent, oldest first -/
  out : List Sent
  deriving DecidableEq, Repr

def Sem.init : Sem := ⟨0, false⟩

def WorkCtx.init : WorkCtx := { workId := 0, opsel := 0, sh := List.replicate 8 0, args := List.replicate 8 0, failed := 0 }

/-- Status OK, with STEP and TILE 0xFFFF (R381). -/
def Status.ok : Status := ⟨0, 0xFFFF, 0xFFFF⟩

def Report.init : Report := { status := Status.ok, counters := List.replicate 6 0, hist := histZero }

def Seq.init : Seq :=
  { running := false, pc := 0, lastStep := 0, loops := [], hold := .run, issued := [], nextId := 0, workFrom := 0, passes := [],
    ctx := WorkCtx.init, inWork := false, ranks := [], skip := none, busy := false, rep := Report.init, merged := 0,
    contributed := false }

def Arr.init : Arr :=
  { form := 0, suspect := false, requal := [], busy := false, ramp := 0, ramping := 0, waiting := false, gated := true, opening := false,
    detours := [], impaired := false, lanes := [], scales := [], front := [], taps := [], job := none, lastIssue := 0,
    nextIssue := 0 }

/-- A queue at reset: FREE reads 3 (R328). -/
def Queue.init : Queue :=
  { state := .idle, busy := false, cur := none, shadow := none, rearm := false, pc := 0, srcReg := 0, dstReg := 0, loops := [],
    issuedN := 0, out := [], waiting := false, remainder := false, full := 0, free := 3, ringBase := 0,
    ringSlot := 0, prodN := 0, consN := 0, prodHeld := false, consHeld := false, status := 0, posSeq := 0, posInstr := 0,
    posValid := false, stall := 0, slow := 0, slowLink := 0, fptWait := none, fptGot := none }

def Engine.init : Engine :=
  { relays := [], heard := [], rels := [], halo := none, steps := [], busy := false, linkDown := [], stopped := [], blk := 0 }

/-- A tile at reset: unpowered, unbound, every register 0 (R428, R544 to R546). -/
def Tile.init : Tile :=
  { good := false, usable := false, bound := none, access := false, fenced := false, fired := false, powered := false, waking := false,
    a := Arr.init, b := Arr.init, vgated := true, vopening := false, vbusy := false, pairRows := [], pairNow := none,
    fusedRun := none, seq := Seq.init, wbBase := 0, wbSize := 0, swung := false, gather := [], fptCache := [], sems := [],
    semOvf := 0, waits := [], lags := [], releases := [], held := [], xtake := [], xtag := 0, queues := [], nbr := Engine.init,
    spCe := 0, dsCe := 0, dsLast := 0, hotRefresh := true, refreshRow := 0, failSeq := none,
    failBlock := 0, spCeOpen := 0, dsCeOpen := 0 }

def ReplayPoint.init : ReplayPoint :=
  { step := 0, atTake := false, loops := [], passes := [], rep := Report.init, skip := none }

def Part.init : Part :=
  { state := .unbound, comp := none, lead := 0, tiles := [], lost := [], inWork := false, replays := 0, reqHead := 0,
    cplTail := 0, cplHead := 0, tail := 0, hold := false, holdBusy := false, remoteMask := 0, fptBase := 0, fptLen := 0, faults := [], workId := 0, point := ReplayPoint.init, ckptHalf := 0, retest := [], draining := false,
    idle := true, wires := [], redirects := [], report := none }

/-- A module at reset: OFF, with full credit (R399, R412). -/
def Module.init : Module :=
  { state := 0, retraining := false, half := false, repaired := 0, replays := 0, crcErr := 0, retrains := 0, nextSend := 0, nextRecv := 0,
    nakPending := false, sent := [], credits := [32, 192, 32], taken := [0, 0, 0] }

def Pins.init : Pins :=
  { rstN := false, pwrGood := true, refclk := true, resetHeld := true, straps := 0,
    thermAlert := false, stops := [], dead := false }

/-- GL_BOOT_STATE and the site window at reset (R456, R457). -/
def Boot.init : Boot :=
  { state := .reset, stop := 0, siteErr := 0, fwSlot := 0, fresh := false, torn := false, vcoreMin := 0, replayEnded := false,
    window := List.replicate 336 0, site := none, fw := none, report := [], orderFault := false, coldWaiting := false,
    testDone := false, i3cOffset := 0, i3cAddr := none }

/-- A blank ledger flash, and nothing replayed (R448, R470). -/
def Ledger.init : Ledger :=
  { half0 := ⟨[], 0⟩, half1 := ⟨[], 0⟩, cur := 0, epoch := 0, rseq := 0, pos := 0, faults := [], counter0 := 0, counter1 := 0,
    cache := [], health := [], bootCount := 0, dead := false, waiting := [] }

def Link.init : Link :=
  { modules := [], dropUndef := 0, dropTarget := 0, dropAtomic := 0, dropLate := 0, nextTag := 0, tags := [], waiting := [],
    spdmVersion := false, spdmCaps := false, spdmAlgs := false }

def Loader.init : Loader :=
  { imgSrc := 0, state := 0, code := 0, sectionIx := 0, lastReject := 0, stretch := 0, failmap := 0, compId := 0, dbDrop := 0,
    dbPnum := 0, cur := none, rebinds := [], chain := List.replicate 48 0 }

def Sensors.init : Sensors :=
  { compute := List.replicate 128 none, holeile := List.replicate 128 none, hot := List.replicate 128 false }

/-- PW_SHAPE, PW_STATE, PW_REGION and PW_TEL at reset (R441, R442, R547, R548). -/
def Power.init : Power :=
  { floor := 0, slew := 5, cap := 0, clamped := false, cap1 := 64, cap2 := 64, ballast := 0, shortfall := false,
    capHit := false, thermShed := false, slewExc := 0, pllOn := [], locking := [], wheel := 0, ref := 0, pAvg := 0, seq := 0,
    periods := [], levels := [], tel := List.replicate 64 0, notices := [], sensors := Sensors.init }

def Health.init : Health := { fault := 0, losses := [], ovf := false, events := [], parity := [] }

/-- The mailbox at reset (R551 to R554). -/
def Enclave.init : Enclave :=
  { cmd := none, busy := false, done := false, reject := false, everUnlocked := false, core := false, steward := false,
    result := 0, rlen := 0, lastCmd := 0, data := List.replicate 512 0, sweepPnum := 0, sweepResult := 0, sweepFailed := 0,
    sweepAll := false, sweepSeq := 0, nonce := none, loadedSince := false }

def KeySlot.init : KeySlot := ⟨.empty, 0, []⟩

/-- Slot 0 is programmed at manufacture (R506); its key is a constant of the part (log 10). -/
def Fuses.init : Fuses :=
  { slot0 := ⟨.set, 1, Config.makerKey⟩, slot1 := KeySlot.init, slot2 := KeySlot.init, slot3 := KeySlot.init, debugFused := false,
    udsDisabled := false, identityKeyId := Config.identityKeyId }

def Jtag.init : Jtag := { ir := 0, bypassBit := false, boundary := [], driven := none, tdo := [] }

def Fabric.init : Fabric :=
  { mem := [], flips := [], tiles := [], parts := [], semMsgs := [], contexts := [], reports := [], deadRouters := [], deadLinks := [],
    deadNbr := [], retraining := [], crcFails := [], resending := [], repaired := [], lostWords := [], lostColumns := [], restored := [], deadColumns := [] }

/-- The device right after a power-on reset of a part with blank flash and fuses (R448). -/
def State.reset : State :=
  { pending := [], free := 0, pins := Pins.init, boot := Boot.init, led := Ledger.init, link := Link.init, load := Loader.init,
    pow := Power.init, hl := Health.init, se := Enclave.init, fuse := Fuses.init, jtag := Jtag.init, fab := Fabric.init,
    out := [] }

end Sys2Proof.Machine
end

