-- ==== Sys2Proof/Machine/Flit.lean ====
section
/-! DEFINITION. How a message that the device sends is laid out in 256 B flits: header, extension, payload and CRC (R398 to R402). -/
namespace Sys2Proof.Machine

/-- A payload of `n` bytes, padded with zeros. -/
def padTo (n : Nat) (bs : List Byte) : List Byte := bs.take n ++ List.replicate (n - bs.length) 0

/-- What a message's flits carry: the fields of the header and of the head's extension, and its data (R399, R400, R402). -/
structure MsgForm where
  mtype : Nat
  sub : Nat
  tag : Nat
  addr : Nat
  len : Nat
  status : Nat
  pnum : Nat
  aux : Nat
  data : List Byte
  deriving DecidableEq, Repr

/-- A message as the table of R402 lays it out; MGMT forms that R402 leaves to the subtype are the model's (log 2). -/
def Sent.form (m : Sent) : Option MsgForm :=
  match m with
  | .readReq _ _ tag addr len => some ⟨0, 0, tag, addr, len, 0, 0, 0, []⟩
  | .writeReq _ _ tag addr data => some ⟨1, 0, tag, addr, data.length, 0, 0, 0, data⟩
  | .atomic _ _ stack tile link entry release tagged =>
    some ⟨2, boolNat release, 0, stack * 2 ^ 58 + 3 * 2 ^ 56 + tile * 2 ^ 16 + link, 0, 0, 0, if release then entry * 2 ^ 8 else boolNat tagged, []⟩
  | .completion sub addr tag status data => some ⟨5, sub, tag, addr, data.length, status, 0, 0, data⟩
  | .workDone _ pnum seq _ => some ⟨5, 2, 0, 0, 0, 0, pnum, seq, []⟩
  | .control tag status data => some ⟨6, 2, tag, 0, data.length, status, 0, 0, data⟩
  | .imageRead tag handle offset len => some ⟨6, 3, tag, handle, len, 0, 0, offset, []⟩
  | .mgmt aux payload => some ⟨6, 5, 0, 0, payload.length, 0, 0, aux, payload⟩
  | .spdm _ body => some ⟨6, 6, 0, 0, body.length, 0, 0, 0, body⟩
  | .nak _ _ | .resend _ _ | .ack _ _ | .credit _ _ | .alert _ => none

/-- The first four bytes of a header: FSEQ, FKIND and CH, then ACK; the device returns credits beside its flits (R399). -/
def flitHead (fseq kind ch ack : Nat) : List Byte := leBytes 2 (fseq + kind * 2 ^ 12 + ch * 2 ^ 14) ++ leBytes 2 ack

/-- 248 bytes, zeros where nothing stands, and the CRC over them (R398). -/
def sealFlit (bs : List Byte) : List Byte := padTo 248 bs ++ leBytes 8 (crc64 (padTo 248 bs))

/-- Flit `i` of a message that `src` of stack `stack` sends: the head, with 216 B of data, then bodies of 232 B (R399, R400). -/
def MsgForm.flit (f : MsgForm) (stack src ch fseq ack i : Nat) : List Byte :=
  let mid := leBytes 1 (f.mtype + f.sub * 2 ^ 4) ++ leBytes 1 stack ++ leBytes 2 f.tag
  if i == 0 then
    sealFlit (flitHead fseq 1 ch ack ++ mid ++ leBytes 8 f.addr ++ leBytes 2 f.len ++ leBytes 1 f.status ++ leBytes 1 f.pnum
      ++ leBytes 2 src ++ leBytes 2 0 ++ leBytes 8 f.aux ++ f.data.take 216)
  else
    let part := (f.data.drop (216 + 232 * (i - 1))).take 232
    sealFlit (flitHead fseq 2 ch ack ++ mid ++ leBytes 4 (216 + 232 * (i - 1)) ++ leBytes 1 part.length ++ leBytes 3 0 ++ part)

end Sys2Proof.Machine
end

