-- ==== Sys2Proof/Machine/Memory.lean ====
section
/-! DEFINITION. Scratchpads and columns as one list of (address, byte) pairs in canonical form, device addresses (R273,
R274), and the loss of codewords (R488, R489). The key of a byte is bits [57:0] of its device address: space, tile, offset. -/
namespace Sys2Proof.Machine

/-- What a byte that is not listed reads as (DESIGN CHOICE, log 5). -/
def memDefault : Byte := 0

/-- Addresses strictly rising, and no entry equal to what an unlisted address reads as. -/
def Memory.wf : List Host.Cell → Bool
  | [] => true
  | [(_, b)] => b != memDefault
  | (j, b) :: (k, c) :: r => decide (j < k) && b != memDefault && Memory.wf ((k, c) :: r)

/-- One byte. -/
def memRead : List Host.Cell → Nat → Byte
  | [], _ => memDefault
  | (j, b) :: r, k => if j = k then b else if k < j then memDefault else memRead r k

/-- `n` bytes upward from `k`. -/
def memReads (mem : List Host.Cell) (k : Nat) : Nat → List Byte
  | 0 => []
  | n + 1 => memRead mem k :: memReads mem (k + 1) n

/-- One byte written; writing the default removes the entry. -/
def memWrite : List Host.Cell → Nat → Byte → List Host.Cell
  | [], k, v => if v = memDefault then [] else [(k, v)]
  | (j, b) :: r, k, v =>
    if k < j then (if v = memDefault then (j, b) :: r else (k, v) :: (j, b) :: r)
    else if k = j then (if v = memDefault then r else (k, v) :: r)
    else (j, b) :: memWrite r k v

/-- Bytes written upward from `k`. -/
def memWrites (mem : List Host.Cell) (k : Nat) : List Byte → List Host.Cell
  | [] => mem
  | v :: vs => memWrites (memWrite mem k v) (k + 1) vs

/-- The bytes `lo` to `hi` − 1 cleared to zero. -/
def memClear (mem : List Host.Cell) (lo hi : Nat) : List Host.Cell :=
  mem.filter (fun c => decide (c.1 < lo) || decide (hi ≤ c.1))

def spSize : Nat := 0x200000
def colSize : Nat := 0x2000000

/-- Key of byte `off` of tile `t`'s scratchpad (space 0, R273). -/
def spKey (t off : Nat) : Nat := t * spSize + off
/-- Key of byte `off` of column `t` (space 1, R273). -/
def colKey (t off : Nat) : Nat := 2 ^ 56 + t * colSize + off

/-- The space-0 and space-1 base addresses of a tile on a stack (R273, R403). -/
def spBase (stack t : Nat) : Nat := stack * 2 ^ 58 + t * 2 ^ 21
def colBase (stack t : Nat) : Nat := stack * 2 ^ 58 + 2 ^ 56 + t * 2 ^ 25

/-- A device address taken apart (R273, R403). -/
structure DevAddr where
  stack : Nat
  space : Nat
  tile : Nat
  off : Nat
  deriving DecidableEq, Repr

def devAddr (a : Nat) : DevAddr :=
  let sp := bits a 56 2
  { stack := bits a 58 6, space := sp,
    tile := if sp == 0 then bits a 21 9 else if sp == 1 then bits a 25 9 else 0,
    off := if sp == 0 then bits a 0 21 else if sp == 1 then bits a 0 25 else bits a 0 56 }

/-- Status codes (R382, R407, R579). -/
def stOk : Nat := 0x00
def stOversize : Nat := 0x01
def stWindowFull : Nat := 0x02
def stUpstream : Nat := 0x03
def stAddrRsv : Nat := 0x04
def stSpace : Nat := 0x05
def stPortLen : Nat := 0x06
def stPartition : Nat := 0x07
def stUnbound : Nat := 0x08
def stDsUncorr : Nat := 0x09
def stTileFenced : Nat := 0x0D

/-- The check of R274 on a whole range in space 0 or 1: reserved bits, then the end of the tile or column. -/
def rangeStatus (a len : Nat) : Nat :=
  let d := devAddr a
  if d.space == 0 then
    (if bits a 30 26 != 0 then stAddrRsv else if d.off + len > spSize then stSpace else stOk)
  else if d.space == 1 then
    (if bits a 34 22 != 0 then stAddrRsv else if d.off + len > colSize then stSpace else stOk)
  else stSpace

/-- The 64 B codewords that a range touches. -/
def wordsOf (off len : Nat) : List Nat :=
  if len == 0 then [] else (List.range ((off + len - 1) / 64 - off / 64 + 1)).map (· + off / 64)

/-- A codeword of column `t` is lost (R463, R488, R489). -/
def Fabric.isLost (f : Fabric) (t w : Nat) : Bool :=
  f.deadColumns.contains t || f.lostWords.contains (t, w) || (f.lostColumns.contains t && !f.restored.contains (t, w))

/-- A read of a column's bytes: DS_UNCORR when a codeword of the range is lost (R489). -/
def Fabric.colRead (f : Fabric) (t off len : Nat) : Nat × List Byte :=
  if (wordsOf off len).any (f.isLost t) then (stDsUncorr, [])
  else (stOk, memReads f.mem (colKey t off) len)

/-- A codeword of a usable column is whole again (R489). -/
def Fabric.restoreWord (f : Fabric) (t w : Nat) : Fabric :=
  { f with
    lostWords := f.lostWords.filter (· != (t, w)),
    restored := if f.lostColumns.contains t then insertNew f.restored (t, w) else f.restored }

/-- The part of a write that falls in codeword `w`. -/
def Fabric.colWriteWord (f : Fabric) (t off : Nat) (data : List Byte) (w : Nat) : Nat × Fabric :=
  let lo := if off > w * 64 then off else w * 64
  let hi := if off + data.length < w * 64 + 64 then off + data.length else w * 64 + 64
  let piece := slice data (lo - off) (hi - lo)
  if f.deadColumns.contains t then (stDsUncorr, f)
  else if f.isLost t w then
    (if hi - lo == 64 then (stOk, ({ f with mem := memWrites f.mem (colKey t lo) piece } : Fabric).restoreWord t w)
     else (stDsUncorr, f))
  else (stOk, { f with mem := memWrites f.mem (colKey t lo) piece })

/-- A write to a column, codeword by codeword: a lost codeword takes only a whole write (R489). -/
def Fabric.colWrite (f : Fabric) (t off : Nat) (data : List Byte) : Nat × Fabric :=
  (wordsOf off data.length).foldl (fun (r : Nat × Fabric) w =>
    let (st, g) := r.2.colWriteWord t off data w
    (if r.1 == stOk then st else r.1, g)) (stOk, f)

/-- A read of a scratchpad's bytes. An access that runs past the scratchpad's end does nothing (R274). -/
def Fabric.spRead (f : Fabric) (t off len : Nat) : List Byte :=
  if off + len ≤ spSize then memReads f.mem (spKey t off) len else List.replicate len 0

/-- A write to a scratchpad: its codewords get fresh check bits (R283). An access that runs past the scratchpad's end does nothing (R274). -/
def Fabric.spWrite (f : Fabric) (t off : Nat) (data : List Byte) : Fabric :=
  if off + data.length ≤ spSize then
    { f with
      mem := memWrites f.mem (spKey t off) data,
      flips := f.flips.filter (fun e => !(e.1 == t && (spWords off data.length).any e.2.protects)) }
  else f

/-- The wrong bits of the codeword that protects offset `a`. -/
def Fabric.wrongBits (f : Fabric) (t a : Nat) : List Nat := (f.flips.filter (fun e => e.1 == t && e.2.protects a)).map (·.2.bit)

/-- The codeword is whole again. -/
def Fabric.mendWord (f : Fabric) (t a : Nat) : Fabric := { f with flips := f.flips.filter (fun e => !(e.1 == t && e.2.protects a)) }

/-- One codeword of a scratchpad is read. A corrected one is written back and counted; a detected error fires the core's check; one that
the code misses leaves wrong data (R283, R284). -/
def Fabric.readWord (f : Fabric) (t a : Nat) : Fabric × Bool :=
  let upd (f : Fabric) (g : Tile → Tile) : Fabric := { f with tiles := tabSet f.tiles t (g (tabGet Tile.init f.tiles t)) }
  match secded (f.wrongBits t a) with
  | .clean => (f, true)
  | .corrected => (upd (f.mendWord t a) (fun x => { x with spCe := satTo 32 (x.spCe + 1), spCeOpen := x.spCeOpen + 1 }), true)
  | .detected => (upd f (fun x => { x with fired := true }), false)
  | .missed x => ((f.mendWord t a).spWrite t a (leBytes 8 (leNat (f.spRead t a 8) ^^^ x)), true)

/-- Codewords of a scratchpad are read; whether all of them gave data (R284). -/
def Fabric.readWords (f : Fabric) (t : Nat) (ws : List Nat) : Fabric × Bool :=
  if !f.flips.any (fun e => e.1 == t) then (f, true)
  else ws.foldl (fun r a => let w := r.1.readWord t a; (w.1, r.2 && w.2)) (f, true)

/-- The check of a read of a range (R284). -/
def Fabric.spCheck (f : Fabric) (t off len : Nat) : Fabric × Bool := f.readWords t (spWords off len)

/-- The codewords that a write covers only in part, which it reads first (R283). -/
def partialWords (off len : Nat) : List Nat := (spWords off len).filter (fun a => decide (a < off) || decide (off + len < a + 8))

/-- A write by a requester other than a PDU or the vector unit: a codeword written in part is read first, and an error detected there drops
the write, and its requester is answered TILE_FENCED (R283, R284). -/
def Fabric.spStore (f : Fabric) (t off : Nat) (data : List Byte) : Nat × Fabric :=
  let r := f.readWords t (partialWords off data.length)
  if r.2 then (stOk, r.1.spWrite t off data) else (stTileFenced, r.1)

/-- A local read in space 0 or 1 whose range has been checked. -/
def Fabric.localRead (f : Fabric) (d : DevAddr) (len : Nat) : Nat × List Byte :=
  if d.space == 0 then (stOk, f.spRead d.tile d.off len) else f.colRead d.tile d.off len

def Fabric.localWrite (f : Fabric) (d : DevAddr) (data : List Byte) : Nat × Fabric :=
  if d.space == 0 then f.spStore d.tile d.off data else f.colWrite d.tile d.off data

/-- A requester's read: the codewords of a scratchpad are checked, and a detected error gives no data (R284). -/
def Fabric.checkedRead (f : Fabric) (d : DevAddr) (len : Nat) : Fabric × Nat × List Byte :=
  if d.space == 0 then
    let r := f.spCheck d.tile d.off len
    if r.2 then (r.1, stOk, r.1.spRead d.tile d.off len) else (r.1, stTileFenced, [])
  else (f, f.colRead d.tile d.off len)

/-- The sweep of one tile: scratchpad zeroed and column row-cleared, lost codewords with it (R489, R518). -/
def Fabric.clearTile (f : Fabric) (t : Nat) : Fabric :=
  { f with
    mem := memClear (memClear f.mem (spKey t 0) (spKey (t + 1) 0)) (colKey t 0) (colKey (t + 1) 0),
    flips := f.flips.filter (fun e => e.1 != t),
    lostWords := f.lostWords.filter (fun p => p.1 != t),
    lostColumns := f.lostColumns.filter (· != t),
    restored := f.restored.filter (fun p => p.1 != t) }

/-- The scratchpad of a tile whose core has lost its power (log 5). -/
def Fabric.clearPad (f : Fabric) (t : Nat) : Fabric :=
  { f with mem := memClear f.mem (spKey t 0) (spKey (t + 1) 0), flips := f.flips.filter (fun e => e.1 != t) }

/-- A column is lost whole (R488). -/
def Fabric.loseColumn (f : Fabric) (t : Nat) : Fabric :=
  { f with lostColumns := insertNew f.lostColumns t, restored := f.restored.filter (fun p => p.1 != t) }

end Sys2Proof.Machine
end

