-- ==== Sys2Proof/Machine/Ops.lean ====
section
/-! DEFINITION. The named operations every family uses: one part of the state read or replaced, geometry of the grid (R9,
R23, R24, R29), messages and notices (R402, R408, R444), health events (R494), and the lists of waiting things. -/
namespace Sys2Proof.Machine

def State.tile (s : State) (t : Nat) : Tile := tabGet Tile.init s.fab.tiles t
def State.part (s : State) (p : Nat) : Part := tabGet Part.init s.fab.parts p
def Fabric.tile (f : Fabric) (t : Nat) : Tile := tabGet Tile.init f.tiles t
def Fabric.part (f : Fabric) (p : Nat) : Part := tabGet Part.init f.parts p
def Fabric.setTile (f : Fabric) (t : Nat) (x : Tile) : Fabric := { f with tiles := tabSet f.tiles t x }
def Fabric.setPart (f : Fabric) (p : Nat) (x : Part) : Fabric := { f with parts := tabSet f.parts p x }
def State.setFab (s : State) (f : Fabric) : State := { s with fab := f }
def State.updFab (s : State) (g : Fabric → Fabric) : State := { s with fab := g s.fab }
def State.setTile (s : State) (t : Nat) (x : Tile) : State := s.setFab (s.fab.setTile t x)
def State.updTile (s : State) (t : Nat) (g : Tile → Tile) : State := s.setTile t (g (s.tile t))
def State.setPart (s : State) (p : Nat) (x : Part) : State := s.setFab (s.fab.setPart p x)
def State.updPart (s : State) (p : Nat) (g : Part → Part) : State := s.setPart p (g (s.part p))

def Tile.arr (t : Tile) (x : Side) : Arr :=
  match x with
  | .a => t.a
  | .b => t.b

def Tile.setArr (t : Tile) (x : Side) (a : Arr) : Tile :=
  match x with
  | .a => { t with a := a }
  | .b => { t with b := a }

def Tile.updArr (t : Tile) (x : Side) (g : Arr → Arr) : Tile := t.setArr x (g (t.arr x))
def Tile.queue (t : Tile) (q : Nat) : Queue := tabGet Queue.init t.queues q
def Tile.setQueue (t : Tile) (q : Nat) (x : Queue) : Tile := { t with queues := tabSet t.queues q x }
def Tile.sem (t : Tile) (i : Nat) : Sem := tabGet Sem.init t.sems i
def Tile.setSem (t : Tile) (i : Nat) (x : Sem) : Tile := { t with sems := tabSet t.sems i x }
def Tile.updSeq (t : Tile) (g : Seq → Seq) : Tile := { t with seq := g t.seq }

def Link.module (l : Link) (m : Nat) : Module := tabGet Module.init l.modules m
def State.module (s : State) (m : Nat) : Module := s.link.module m
def State.setModule (s : State) (m : Nat) (x : Module) : State :=
  { s with link := { s.link with modules := tabSet s.link.modules m x } }

def sideNat (x : Side) : Nat :=
  match x with
  | .a => 0
  | .b => 1

/-- The other array of a tile. -/
def otherSide (x : Side) : Side :=
  match x with
  | .a => .b
  | .b => .a

def dirNat (d : Dir) : Nat :=
  match d with
  | .north => 0
  | .east => 1
  | .south => 2
  | .west => 3

def opposite (d : Nat) : Nat := (d + 2) % 4

/-- Grid coordinates of tile `t` (R9). -/
def tileX (t : Nat) : Nat := t % 32
def tileY (t : Nat) : Nat := t / 32
def tileAt (x y : Nat) : Nat := y * 32 + x

/-- The neighbour in direction 0 north, 1 east, 2 south, 3 west; none at the grid's edge (R23). -/
def neighbour (t d : Nat) : Option Nat :=
  match d with
  | 0 => if tileY t == 0 then none else some (t - 32)
  | 1 => if tileX t == 31 then none else some (t + 1)
  | 2 => if tileY t == 15 then none else some (t + 32)
  | _ => if tileX t == 0 then none else some (t - 1)

/-- The clock region of a tile (R24). -/
def regionOf (t : Nat) : Nat := tileY t / 4 * 4 + tileX t / 8

/-- `n` steps from `a` toward `b`, both ends listed. -/
def between (a b : Nat) : List Nat :=
  if a ≤ b then (List.range (b - a + 1)).map (· + a) else (List.range (a - b + 1)).map (a - ·)

/-- Regions, as a 4 × 4 grid, that the dimension-ordered path from region `a` to region `b` crosses (R24, R29). -/
def regionPath (a b : Nat) : List Nat :=
  ((between (a % 4) (b % 4)).map (fun x => a / 4 * 4 + x)) ++ (between (a / 4) (b / 4)).map (fun y => y * 4 + b % 4)

/-- The routers of the dimension-ordered path: first along x, then along y (R29). -/
def pathOf (t u : Nat) : List Nat :=
  ((between (tileX t) (tileX u)).map (fun x => tileAt x (tileY t)))
    ++ ((between (tileY t) (tileY u)).drop 1).map (fun y => tileAt (tileX u) y)

/-- The direction of the link from router `t` to its neighbour `u`. -/
def linkDir (t u : Nat) : Nat := if u == t + 1 then 1 else if t == u + 1 then 3 else if u == t + 32 then 2 else 0

/-- The links of a path, each as (router, direction). -/
def pathLinks : List Nat → List (Nat × Nat)
  | t :: u :: r => (t, linkDir t u) :: pathLinks (u :: r)
  | _ => []

/-- A dead router or link lies on the path (R486). A link is dead in both directions. -/
def Fabric.pathDead (f : Fabric) (t u : Nat) : Bool :=
  let p := pathOf t u
  p.any f.deadRouters.contains ||
    (pathLinks p).any (fun l => f.deadLinks.contains l ||
      (match neighbour l.1 l.2 with
       | some v => f.deadLinks.contains (v, opposite l.2)
       | none => false))

/-- No link of the path from `t` to `u` retrains: beats that wait for one are not lost (R28, R475). -/
def Fabric.roadOpen (f : Fabric) (t u : Nat) : Bool := (pathLinks (pathOf t u)).all (fun l => !f.retraining.contains l)

/-- Beats have crossed every link of the path from `t` to `u`: what its replay buffers held has been resent, and no failure in a row is left
(R28, R475). -/
def Fabric.crossed (f : Fabric) (t u : Nat) : Fabric :=
  let ls := pathLinks (pathOf t u)
  { f with
    resending := f.resending.filter (fun l => !ls.contains l), crcFails := f.crcFails.filter (fun e => !ls.any (fun l => 4 * l.1 + l.2 == e.1)) }

/-- The two routers beside module `m` (R15). -/
def moduleTiles (m : Nat) : List Nat :=
  let x := if m < 8 then 0 else 31
  [tileAt x (2 * (m % 8)), tileAt x (2 * (m % 8) + 1)]

/-- The stack ID of the accepted site record (R458). -/
def State.stackId (s : State) : Nat :=
  match s.boot.site with
  | some r => r.stackId
  | none => 0

/-- LINKMAP's modules toward a stack, or toward the host at index 64 (R458). -/
def linkModules (site : Site) (dest : Nat) : List Nat :=
  (List.range 16).filter (bitOf (fieldAt site.linkmap (4 * dest) 2))

/-- The modules toward `dest` that are UP, ascending (R408). -/
def State.upModules (s : State) (dest : Nat) : List Nat :=
  match s.boot.site with
  | some r => (linkModules r dest).filter (fun m => (s.module m).state == 2)
  | none => []

/-- The module that a message of tile `t` takes: L[t mod n], none without a route (R408). -/
def State.routeFor (s : State) (t dest : Nat) : Option Nat :=
  let l := s.upModules dest
  if l.isEmpty then none else l[t % l.length]?

/-- The steward's tile number in messages (R400). -/
def stewardTile : Nat := 0x200

/-- Credits of a channel: 0 express, 1 normal, 2 management (R410). -/
def Module.credit (m : Module) (ch : Nat) : Nat := m.credits.getD ch 0

/-- `n` flits leave on a channel, flit `i` with its FSEQ and ACK in it: credit is used and the flits wait for their acknowledgement (R398,
R399, R410, R411). -/
def Module.emit (m : Module) (ch n : Nat) (tag src : Option Nat) (flit : Nat → Nat → Nat → List Byte) : Module :=
  { m with
    credits := updateAt m.credits ch (· - n),
    sent := m.sent ++ (List.range n).map (fun i =>
      let fseq := (m.nextSend + i) % 4096
      ⟨fseq, 0, tag, src, flit fseq ((m.nextRecv + 4095) % 4096) i⟩),
    nextSend := (m.nextSend + n) % 4096 }

/-- A module has credit and replay space for `n` flits (R410, R411). -/
def Module.room (m : Module) (ch n : Nat) : Bool := !m.retraining && decide (n ≤ m.credit ch) && decide (m.sent.length + n ≤ 256)

/-- Flits of a message with `n` data bytes: 216 in the head, 232 in each body flit (R400). -/
def flitsOf (n : Nat) : Nat := 1 + ceilDiv (n - 216) 232

/-- A READ, a WRITE or an ATOMIC belongs to the work of the tile that sends it; its answer or its loss is that work's (R412, R491). -/
def Sent.ofWork : Sent → Bool
  | .readReq _ _ _ _ _ | .writeReq _ _ _ _ _ | .atomic _ _ _ _ _ _ _ _ => true
  | _ => false

/-- A message leaves over the module that R408 chooses, if it has room; the answer says whether it left. -/
def State.emit (s : State) (src dest ch n : Nat) (tag : Option Nat) (msg : Sent) : State × Bool :=
  match s.routeFor src dest with
  | none => (s, false)
  | some m =>
    if (s.module m).room ch n then
      let flit (fseq ack i : Nat) : List Byte := (msg.form.map (fun f => f.flit s.stackId src ch fseq ack i)).getD []
      ({ s.setModule m ((s.module m).emit ch n tag (if msg.ofWork then some src else none) flit) with out := s.out ++ [msg] }, true)
    else (s, false)

/-- A TAG that no outstanding message carries. -/
def Link.freshTag (l : Link) : Nat :=
  (((List.range (l.tags.length + 1)).map (fun i => (l.nextTag + i) % 2 ^ 16)).find? (fun k => !l.tags.any (·.1 == k))).getD l.nextTag

/-- A TAG is taken for a message. -/
def Link.useTag (l : Link) (tag : Nat) (u : TagUse) : Link := { l with nextTag := (tag + 1) % 2 ^ 16, tags := l.tags ++ [(tag, u)] }

/-- One waiting answer: it leaves if there is room, goes if no route is left, and otherwise stays (R408, R410). -/
def State.trySend (s : State) (w : Waiting) : State :=
  if (s.routeFor w.src w.dest).isNone then s
  else
    let (s', left) := s.emit w.src w.dest w.ch w.flits none w.msg
    if left then s' else { s with link := { s.link with waiting := s.link.waiting ++ [w] } }

/-- Waiting answers leave in order while there is room. -/
def State.flushWaiting (s : State) : State :=
  s.link.waiting.foldl State.trySend { s with link := { s.link with waiting := [] } }

/-- An answer is sent, after those that already wait. -/
def State.send (s : State) (src dest ch flits : Nat) (msg : Sent) : State :=
  State.flushWaiting { s with link := { s.link with waiting := s.link.waiting ++ [⟨src, dest, ch, flits, msg⟩] } }

/-- The payload of a queued notice carries its AUX in its first 8 bytes (the model's own packing, log 2). -/
def noticeSent (bs : List Byte) : Sent := .mgmt (leNat (bs.take 8)) (bs.drop 8)

/-- Waiting notices leave while the management channel has credit (R444). -/
def State.flushNotices : Nat → State → State
  | 0, s => s
  | n + 1, s =>
    match s.pow.notices with
    | [] => s
    | x :: xs =>
      let (s', sent) := s.emit stewardTile 64 2 1 none (noticeSent x)
      if sent then State.flushNotices n { s' with pow := { s'.pow with notices := xs } } else s

/-- A notice to the host: up to 16 wait, and beyond that the oldest is dropped (R444). -/
def State.notice (s : State) (aux : Nat) (payload : List Byte) : State :=
  let q := s.pow.notices ++ [leBytes 8 aux ++ payload]
  State.flushNotices 17 { s with pow := { s.pow with notices := if q.length > 16 then q.drop (q.length - 16) else q } }

/-- GL_IMG_STATUS (R535). -/
def Loader.word (l : Loader) : Nat :=
  l.state + l.code * 2 ^ 8 + l.sectionIx % 2 ^ 16 * 2 ^ 16 + l.lastReject * 2 ^ 32 + l.stretch * 2 ^ 48

/-- The management message that carries a load's final status (R66; its form is the model's, log 13). -/
def State.loadMessage (s : State) : State := s.notice 5 (padTo 64 (leBytes 8 s.load.word))

/-- Health event codes (R494). -/
def evRecovered : Nat := 0x0001
def evTransient : Nat := 0x0002
def evDetour : Nat := 0x0003
def evGangImpaired : Nat := 0x0004
def evDsLoss : Nat := 0x0005
def evRouteLoss : Nat := 0x0006
def evModule : Nat := 0x0007
def evRail : Nat := 0x0008
def evThermal : Nat := 0x0009
def evSensor : Nat := 0x000A
def evLedger : Nat := 0x000B
def evPartitionLost : Nat := 0x000C
def evCeRate : Nat := 0x000D
def evDebugUnlock : Nat := 0x000E

/-- A bit of HL_FAULT set, and FAULT_N with it (R495). -/
def State.raiseFault (s : State) (bit : Nat) : State :=
  { s with hl := { s.hl with fault := s.hl.fault ||| 2 ^ bit } }

/-- Each half of the ledger flash, in bytes: LG_SIZE names the whole flash (R458, R466). -/
def Ledger.half (l : Ledger) (h : Nat) : LedgerHalf := if h == 0 then l.half0 else l.half1
def Ledger.setHalf (l : Ledger) (h : Nat) (x : LedgerHalf) : Ledger :=
  if h == 0 then { l with half0 := x } else { l with half1 := x }

/-- Bytes from a record with a payload of `n` bytes to the next 64 B boundary: the head of 16 B, the payload in whole units of 16 B,
the MAC and COMMIT (R466). -/
def recordLen (n : Nat) : Nat := roundUp (16 + roundUp n 16 + 48 + 16) 64

/-- Payload bytes of a record body (log 9). -/
def LedgerBody.size : LedgerBody → Nat
  | .image _ bytes => 16 + bytes.length
  | .health _ _ _ _ => 64
  | .boot _ _ site => 16 + site.length
  | _ => 16

/-- The append position from which appends wait for a compaction: 31 MiB (R472). -/
def ledgerFull : Nat := 0x1F00000

/-- A record programmed, read back and committed at the append position; it waits while the flash does not answer, or for a
compaction (R466, R470, R472). -/
def Ledger.append (l : Ledger) (b : LedgerBody) : Ledger :=
  if l.dead || decide (ledgerFull ≤ l.pos) then { l with waiting := l.waiting ++ [b] }
  else
    let n := recordLen b.size
    let h := l.half l.cur
    let r : LedgerRecord := { offset := l.pos, rseq := l.rseq + 1, body := b, macOk := true, commit := true, len := n }
    { l.setHalf l.cur { records := h.records ++ [r], written := l.pos + n } with rseq := l.rseq + 1, pos := l.pos + n }

/-- A health event: counted in the open sample, whose HEALTH record holds all events of its code, and sent as a notice (R467,
R494). -/
def State.health (s : State) (code detail : Nat) : State :=
  let n := satTo 16 ((tabGet (0, 0) s.hl.events code).1 + 1)
  let s := { s with hl := { s.hl with events := tabSet s.hl.events code (n, detail) } }
  s.notice 3 (padTo 64 (leBytes 4 s.pow.seq ++ leBytes 2 code ++ leBytes 2 n ++ leBytes 48 detail))

/-- A HEALTH record joins the ledger and its history. -/
def Ledger.addHealth (l : Ledger) (b : LedgerBody) : Ledger := { l.append b with health := l.health ++ [b] }

/-- The HEALTH records of the open sample, one for each code (R467). -/
def State.closeHealth (s : State) : State :=
  { s with
    led := s.hl.events.foldl (fun l e => l.addHealth (.health s.pow.seq e.1 e.2.1 e.2.2)) s.led, hl := { s.hl with events := [] } }

/-- The itinerary of a partition. -/
def Part.itin (p : Part) : List ItinStep :=
  match p.comp with
  | some c => c.itin
  | none => []

def Part.cls (p : Part) : Nat :=
  match p.comp with
  | some c => c.part.cls
  | none => 0

def Part.exactInt (p : Part) : Bool :=
  match p.comp with
  | some c => c.part.ovf == 1
  | none => false

/-- The channel on which a tile sends: express for class 0, normal otherwise (R409; DEDUCED, log 39). -/
def State.channel (s : State) (t : Nat) : Nat :=
  match (s.tile t).bound with
  | some p => if (s.part p).cls == 0 then 0 else 1
  | none => 1

/-- The steward runs: out of reset, with its clock and its supply (R427, R566, R568). -/
def State.stewardRuns (s : State) : Bool := !s.pins.resetHeld && !s.pins.dead && s.pins.refclk

/-- The partition is bound: it holds tiles (R539). -/
def Part.isBound (p : Part) : Bool := p.state != .unbound

/-- The partition a tile is bound to. -/
def State.partOf (s : State) (t : Nat) : Option Nat := (s.tile t).bound

/-- Every partition number that is bound, ascending. -/
def State.boundParts (s : State) : List Nat := (List.range 64).filter (fun p => (s.part p).isBound)

/-- Every region on the dimension-ordered path between two tiles has its PLL running (R27, R29). -/
def State.pathRuns (s : State) (t u : Nat) : Bool := (regionPath (regionOf t) (regionOf u)).all s.pow.pllOn.contains

/-- A column's port serves accesses: its tile is bound, or was lost from a partition that still reaches its column (R19, R479,
R483). -/
def State.columnServed (s : State) (t : Nat) : Bool :=
  let x := s.tile t
  x.access || (match x.bound with
    | some p => (s.part p).isBound && (s.part p).state != .killing && (s.part p).lost.contains t
    | none => false)

/-- A tile works: bound, reached, no check of its core has fired, its clocks run (R426, R477). -/
def State.tileRuns (s : State) (t : Nat) : Bool :=
  let x := s.tile t
  x.access && !x.fenced && !x.fired && x.powered && !x.waking && s.pins.stops.isEmpty && s.pow.pllOn.contains (regionOf t)

/-- The loops of a stream program after instruction `pc`: a loop whose last instruction this was turns or ends (R309). -/
def loopNext : List SLoop → Nat → List SLoop × Nat
  | [], pc => ([], pc + 1)
  | l :: ls, pc =>
    if pc == l.last then
      (if l.iter + 1 < l.count then ({ l with iter := l.iter + 1 } :: ls, l.first) else loopNext ls pc)
    else (l :: ls, pc + 1)

/-- The stream goes on to its next instruction. -/
def Queue.advance (u : Queue) : Queue :=
  let (ls, pc) := loopNext u.loops u.pc
  { u with loops := ls, pc := pc, waiting := false }

/-- A step's run is marked finished, whichever unit ran it. -/
def Tile.finishRun (x : Tile) (id : Nat) : Tile :=
  { x with seq := { x.seq with issued := x.seq.issued.map (fun r => if r.id == id then { r with finished := true } else r) } }

/-- The form of the array's present or last operator step in lanes: 32, 16 or 8 (R136). -/
def lanesOf (form : Nat) : Nat := if form == 0 then 32 else if form == 1 then 16 else 8

/-- Replace one element of a list of waiting things by none. -/
def dropAt {α : Type} (l : List α) (n : Nat) : List α := l.eraseIdx n

/-- The step an array must run next: its first issued step that has not finished; PAIRED and fused steps hold both arrays
(R246). -/
def Tile.arrayHead (x : Tile) (side : Side) : Option StepRun :=
  x.seq.issued.find? (fun r => !r.finished && (r.unit == .array side || r.unit == .pair))

end Sys2Proof.Machine
end

