-- ==== Sys2Proof/Machine/Semaphores.lean ====
section
/-! DEFINITION. Semaphores, wires, signals and releases (R337 to R349, R415, R416), skip mode (R386), and the commands
SEMAPHORE_TAKE, SEMAPHORE_MESSAGE and SEMAPHORE_RELEASE. -/
namespace Sys2Proof.Machine

/-- The status that a report keeps: the lowest step, then the lowest tile; UPSTREAM only when no other arose (R387). -/
def worse (a b : Status) : Status :=
  if a.code == stOk then b
  else if b.code == stOk then a
  else if a.code == stUpstream && b.code != stUpstream then b
  else if b.code == stUpstream && a.code != stUpstream then a
  else if decide (b.step < a.step) || (b.step == a.step && decide (b.tile < a.tile)) then b else a

/-- A tile enters skip mode with a status; in skip mode already, only its report may change (R386, R387). -/
def Tile.enterSkip (x : Tile) (st : Status) : Tile :=
  { x with seq := { x.seq with
      skip := if x.seq.skip.isSome then x.seq.skip else some st,
      rep := { x.seq.rep with status := worse x.seq.rep.status st } } }

def Tile.inSkip (x : Tile) : Bool := x.seq.skip.isSome

/-- A tile number in a wire names a tile of another stack (R60, R415). -/
def farTile (t : Nat) : Bool := decide (2 ^ 15 ≤ t)

/-- Wire LINK as tile `t` names it: its producer or a consumer is `t` (R61). After a loss, R364's redirections apply. -/
def State.wireOf (s : State) (t link : Nat) : Option (Nat × Wire) :=
  ((List.range 64).flatMap (fun p =>
      let link' := match (s.part p).redirects.find? (fun r => r.1 == link && r.2.1 == t) with
        | some r => r.2.2
        | none => link
      ((s.part p).wires.filter (fun w => w.link == link' && (w.ptile == t || w.cons.any (fun c => c.1 == t)))).map (fun w => (p, w)))).head?

/-- A wire crosses a partition boundary: its tiles do not all lie in one partition of this stack (R484). -/
def State.crosses (s : State) (w : Wire) : Bool :=
  let ts := w.ptile :: w.cons.map (·.1)
  ts.any farTile || ts.any (fun t => s.partOf t != s.partOf w.ptile)

/-- Semaphore `i` of tile `t` belongs to a crossing wire (R484). -/
def State.crossingSem (s : State) (t i : Nat) : Bool :=
  (List.range 64).any (fun p => (s.part p).wires.any (fun w =>
    ((w.ptile == t && w.psem == i) || w.cons.any (fun c => c.1 == t && c.2 == i)) && s.crosses w))

/-- Add `n` to a semaphore; beyond 0xFFFF it saturates and sets its bit of TL_SEM_OVF (R339, R340, R344). -/
def Tile.incSem (x : Tile) (i n : Nat) (tagged : Bool) : Tile :=
  let m := x.sem i
  let x := x.setSem i ⟨satTo 16 (m.count + n), m.tag || tagged⟩
  if m.count + n < 2 ^ 16 then x else { x with semOvf := x.semOvf ||| 2 ^ i }

/-- A relay step that still counts signals of a full semaphore, and one that still counts local releases. -/
def RelayRun.hears (r : RelayRun) (csem : Nat) : Bool := r.csem == csem && decide (r.signals < r.desc.nblk)
def RelayRun.frees (r : RelayRun) (csem : Nat) : Bool := r.csem == csem && (!r.desc.loc || decide (r.localRel < r.desc.nblk))

/-- The engine counts a signal of a relay wire, for the step at work or for the next one that names the wire (R354, R355; DEDUCED, log 22). -/
def Engine.hear (e : Engine) (csem : Nat) : Engine :=
  if e.relays.any (·.hears csem) then { e with relays := modifyFirst (·.hears csem) (fun r => { r with signals := r.signals + 1 }) e.relays }
  else { e with heard := tabSet e.heard csem (tabGet 0 e.heard csem + 1) }

/-- The engine takes a local consumer's own release of a relay wire (R356). -/
def Engine.free (e : Engine) (csem : Nat) : Engine :=
  if e.relays.any (·.frees csem) then { e with relays := modifyFirst (·.frees csem) (fun r => { r with localRel := r.localRel + 1 }) e.relays }
  else { e with rels := tabSet e.rels csem (tabGet 0 e.rels csem + 1) }

/-- Every block of the step has arrived and gone on (R355). -/
def RelayRun.moved (r : RelayRun) : Bool := (r.dests.isEmpty || r.sent == r.desc.nblk) && r.signals == r.desc.nblk

/-- Relay steps whose blocks have all moved complete; they leave the engine with their last release (R355, R356). -/
def Tile.settleRelays (x : Tile) : Tile :=
  let done := x.nbr.relays.filter (fun r => !r.ended && r.moved)
  let left := (x.nbr.relays.map (fun r => { r with ended := r.ended || r.moved })).filter (fun r => !(r.ended && r.released == r.desc.nblk))
  done.foldl (fun y r => y.finishRun r.run) { x with nbr := { x.nbr with relays := left } }

/-- The full semaphore of tile `t` in a wire. -/
def Wire.csemAt (w : Wire) (t : Nat) : Option Nat := (w.cons.find? (fun c => c.1 == t)).map (·.2)

/-- Full semaphore `sem` of tile `t` belongs to a wire that a relay entry counts there: HSEM of a head, a lost one's included, or the
semaphore of IN_LINK (R354, R355, R364). -/
def State.relaySem (s : State) (t sem : Nat) : Bool :=
  match s.partOf t with
  | none => false
  | some p => (s.part p).itin.any (fun st => match st.body with
    | .relay es => es.any (fun e =>
        if e.2.inDir == 0 then (e.1 == t || (s.part p).lost.contains e.1) && e.2.hsem == sem
        else e.1 == t && (match s.wireOf t e.2.inLink with
          | some (_, w) => w.csemAt t == some sem
          | none => false))
    | _ => false)

/-- A signal reaches a consumer: CSEM grows (R341). -/
def Tile.applySignal (x : Tile) (csem : Nat) (tagged : Bool) : Tile := x.incSem csem 1 tagged

/-- A release reaches the producer: its consumer's lag grows, and PSEM advances while every lag is at least 1 (R342). A tag
comes only from the loss of a module (R491). -/
def Tile.applyRelease (x : Tile) (w : Wire) (entry : Nat) (tagged : Bool) : Tile :=
  let lags := tabGet (List.replicate w.cons.length 0) x.lags w.link
  let lags := updateAt lags entry (· + 1)
  if lags.all (fun n => decide (1 ≤ n)) then
    { x with lags := tabSet x.lags w.link (lags.map (· - 1)) }.incSem w.psem 1 tagged
  else { x with lags := tabSet x.lags w.link lags }

/-- A semaphore message is applied at its tile (R343). -/
def State.applySem (s : State) (m : SemMsg) : State :=
  match (s.part m.pnum).wires.find? (fun w => w.link == m.link) with
  | none => s
  | some w =>
    if m.release then s.updTile m.dest (fun x => x.applyRelease w m.entry m.tagged)
    else match w.cons[m.entry]? with
      | some c =>
        let s' := s.updTile m.dest (fun x => x.applySignal c.2 m.tagged)
        if s.relaySem m.dest c.2 then s'.updTile m.dest (fun x => { x with nbr := x.nbr.hear c.2 }) else s'
      | none => s

/-- Status codes of remote transfers (R407). -/
def stNoRoute : Nat := 0x0A
def stLinkDown : Nat := 0x0B
def stRemoteTimeout : Nat := 0x0C

/-- A signal or release leaves tile `t`: within the tile it is applied, within the stack it travels the roads, to another
stack it leaves as an ATOMIC, which waits for credit in the tile (R343, R416). -/
def State.sendSem (s : State) (t : Nat) (m : SemMsg) : State :=
  if m.dest == t then s.applySem m
  else if !farTile m.dest then s.updFab (fun f => { f with semMsgs := f.semMsgs ++ [m] })
  else
    let stack := bits m.dest 9 6
    match s.routeFor t stack with
    | none => s.updTile t (fun x => x.enterSkip ⟨stNoRoute, x.seq.lastStep, t⟩)
    | some md =>
      let (s', sent) := s.emit t stack (s.channel t) 1 none (.atomic md t stack (bits m.dest 0 9) m.link m.entry m.release m.tagged)
      if sent then s' else s.updTile t (fun x => { x with releases := x.releases ++ [{ m with letGo := true }] })

/-- A tile's signals, releases and takes belong to the work item in progress; those after its DONE too while the completion record still
waits for room (R395, R484). -/
def State.inItem (s : State) (t : Nat) : Bool :=
  (s.tile t).seq.inWork || (s.tile t).bound.any (fun p => (s.part p).inWork && (s.part p).report.isSome)

/-- Signals and releases of crossing wires are held while a work item is in progress (R484). -/
def State.sendOrHold (s : State) (t : Nat) (w : Wire) (m : SemMsg) : State :=
  if s.crosses w && s.inItem t then s.updTile t (fun x => { x with held := x.held ++ [m] })
  else s.sendSem t m

/-- A wire is signalled at its producer tile; in skip mode the signal is tagged (R341, R386). -/
def State.signalWire (s : State) (t : Nat) (p : Nat) (w : Wire) : State :=
  let tagged := (s.tile t).inSkip
  (List.range w.cons.length).foldl (fun s e =>
    match w.cons[e]? with
    | some c => s.sendOrHold t w ⟨p, w.link, false, e, tagged, c.1, false⟩
    | none => s) s

/-- The release of a wire by the consumer with a full semaphore: at a remote producer its index stands in PSEM (R415). -/
def Wire.releaseMsg (w : Wire) (p t csem : Nat) : SemMsg :=
  let e := (w.cons.findIdx? (fun c => c.1 == t && c.2 == csem)).getD 0
  ⟨p, w.link, true, if farTile w.ptile then w.psem else e, false, w.ptile, false⟩

/-- A release made by a local consumer at tile `t`. That of a relay's wire is taken by the engine and not passed on (R342, R356). -/
def State.releaseWire (s : State) (t : Nat) (p : Nat) (w : Wire) : State :=
  let csem := (w.csemAt t).getD 0
  if s.relaySem t csem then s.updTile t (fun x => { x with nbr := x.nbr.free csem })
  else s.updTile t (fun x => { x with releases := x.releases ++ [w.releaseMsg p t csem] })

/-- A DLINK made at completion: the producer signals, a consumer releases; a tile that is both signals (R372). -/
def State.makeLink (s : State) (t link : Nat) : State :=
  match s.wireOf t link with
  | none => s
  | some (p, w) => if w.ptile == t then s.signalWire t p w else s.releaseWire t p w

/-- Held crossing signals and releases of a partition's tiles leave at a commit or a completion record; releases made before
it and not yet carried out belong to it too (R484). -/
def State.sendHeld (s : State) (tiles : List Nat) : State :=
  tiles.foldl (fun s t =>
    let hs := (s.tile t).held
    let s := s.updTile t (fun x => { x with held := [], releases := x.releases.map (fun m => { m with letGo := true }) })
    hs.foldl (fun s m => s.sendSem t m) s) s

/-- The iterations of a LOOP of a stream program (R308). -/
def Launch.loopCount (l : Launch) (csel count : Nat) : Nat := if csel < 8 then l.params.getD csel 0 % 2 ^ 32 else count

/-- Instructions `i` to `stop`, run once through, hold an XFER; a loop of no iterations is passed over. -/
def Launch.issues (l : Launch) : Nat → Nat → Nat → Bool
  | 0, _, _ => false
  | n + 1, i, stop =>
    if stop < i then false
    else match l.prog.instrs[i]? with
      | none => false
      | some (.xfer ..) => true
      | some (.loop last csel count _ _) => l.issues n (if l.loopCount csel count == 0 then last + 1 else i + 1) stop
      | some _ => l.issues n (i + 1) stop

/-- The stream has a transfer still to issue, after the instruction it stands at or in a further iteration of an open loop. -/
def Queue.issuesMore (u : Queue) (l : Launch) : Bool :=
  let n := l.prog.instrs.length
  l.issues (n + 1) u.pc n || u.loops.any (fun f => decide (f.iter + 1 < f.count) && l.issues (n + 1) f.first f.last)

/-- The stream has issued its last transfer: LAST; once it has ended, nothing is outstanding and no launch waits: IDLE (R325, R372). -/
def Tile.settleQueue (x : Tile) (q : Nat) : Tile :=
  let u := x.queue q
  match u.cur with
  | none => x
  | some l =>
    if decide (l.prog.instrs.length ≤ u.pc) && u.out.isEmpty && (u.state == .run || u.state == .last || u.state == .error) then
      let x := x.finishRun l.run
      if u.state == .error then x.setQueue q { u with cur := none }
      else if u.shadow.isSome then x.setQueue q { u with state := .last }
      else x.setQueue q { u with state := .idle, cur := none, remainder := false }
    else if u.state == .run && !u.issuesMore l then x.setQueue q { u with state := .last }
    else x

/-- The step at which a take stands: the sequencer's own step, the launch whose stream waits, or the neighbour engine's step
(R381). -/
def Tile.takerStep (x : Tile) (who : Taker) : Nat :=
  let stepOf (run : Nat) : Nat := ((x.seq.issued.find? (fun r => r.id == run)).map (·.step)).getD x.seq.lastStep
  match who with
  | .seq => x.seq.pc
  | .queue q => ((x.queue q).cur.map (·.step)).getD x.seq.lastStep
  | .nbr d => if 4 ≤ d then ((x.nbr.relays.find? (fun r => r.outLink + 4 == d)).map (fun r => stepOf r.run)).getD x.seq.lastStep
    else (x.nbr.halo.map (fun h => stepOf h.run)).getD x.seq.lastStep

/-- The taker of a granted semaphore goes on, with the tag it received; a tile in skip mode already does not change (R338, R386, R395). -/
def Tile.granted (x : Tile) (t : Nat) (who : Taker) (tag : Bool) : Tile :=
  let x := if tag && !x.inSkip then x.enterSkip ⟨stUpstream, x.takerStep who, t⟩ else x
  match who with
  | .seq => x.updSeq (fun q => { q with hold := .granted })
  | .queue q =>
    let u := x.queue q
    (x.setQueue q { u.advance with remainder := u.remainder || tag }).settleQueue q
  | .nbr d =>
    if 4 ≤ d then
      { x with nbr := { x.nbr with
          relays := modifyFirst (fun r => r.outLink + 4 == d && !r.ended && !r.credit) (fun r => { r with credit := true }) x.nbr.relays } }
    else
      match x.nbr.halo with
      | some h => { x with nbr := { x.nbr with halo := some { h with credits := insertNew h.credits d } } }
      | none => x

/-- SEMAPHORE_TAKE: the take that began first on semaphore `i` is granted once the count is at least 1 (R338, R339). -/
def execSemaphoreTake (t i : Nat) (s : State) : Host.Outcome State Fault Refusal :=
  let x := s.tile t
  match x.waits.find? (fun w => w.1 == i) with
  | none => .next s
  | some w =>
    let m := x.sem i
    if s.tileRuns t && decide (1 ≤ m.count) then
      let x := { x with waits := x.waits.erase w }.setSem i ⟨m.count - 1, false⟩
      let x := if s.crossingSem t i && s.inItem t then
          { x with
            xtake := tabSet x.xtake i (satTo 16 (tabGet 0 x.xtake i + 1)),
            xtag := if m.tag then x.xtag ||| 2 ^ i else x.xtag }
        else x
      .next (s.setTile t (x.granted t w.2 m.tag))
    else .next s

/-- The tile that a message on the roads comes from: its wire's producer, or the consumer that released. -/
def State.senderOf (s : State) (m : SemMsg) : Nat :=
  match (s.part m.pnum).wires.find? (fun w => w.link == m.link) with
  | some w => if m.release then ((w.cons[m.entry]?).map (·.1)).getD m.dest else w.ptile
  | none => m.dest

/-- SEMAPHORE_MESSAGE: a signal or release arrives over the roads and is applied; a beat toward an unbound tile or a stopped
region is dropped without an answer (R27, R343). It waits while a link of its path retrains (R475). -/
def execSemaphoreMessage (n : Nat) (s : State) : Host.Outcome State Fault Refusal :=
  match s.fab.semMsgs[n]? with
  | none => .next s
  | some m =>
    if !s.pins.stops.isEmpty || !s.fab.roadOpen (s.senderOf m) m.dest then .next s else
    let s := s.updFab (fun f => { (f.crossed (s.senderOf m) m.dest) with semMsgs := dropAt f.semMsgs n })
    let x := s.tile m.dest
    .next (if x.access && s.pathRuns (s.senderOf m) m.dest then s.applySem m else s)

/-- SEMAPHORE_RELEASE: the oldest release made at tile `t` adds to its consumer's lag, or leaves toward the producer (R342). -/
def execSemaphoreRelease (t : Nat) (s : State) : Host.Outcome State Fault Refusal :=
  let x := s.tile t
  match x.releases with
  | [] => .next s
  | m :: ms =>
    if !s.tileRuns t then .next s
    else
      let s := s.setTile t { x with releases := ms }
      match (s.part m.pnum).wires.find? (fun w => w.link == m.link) with
      | some w => .next (if m.letGo then s.sendSem t m else s.sendOrHold t w m)
      | none => .next s

end Sys2Proof.Machine
end

