-- ==== Sys2Proof/Machine/Sequencer.lean ====
section
/-! DEFINITION. The tile sequencer: which step a tile is at, the gate every step passes before it issues (R367, R368, R371,
R390), loops and branches, SYNC, WBUF and SWING, and the completion of steps. -/
namespace Sys2Proof.Machine

/-- Tiles of a gang, ascending (R53). -/
def Gang.tiles (g : Gang) : List Nat :=
  (List.range g.h).flatMap (fun j => (List.range g.w).map (fun i => tileAt (g.x0 + i) (g.y0 + j)))

/-- The steps that every tile runs once (R367). -/
def StepBody.isControl (b : StepBody) : Bool :=
  match b with
  | .take => true
  | .done => true
  | .loop _ _ _ => true
  | .branch _ _ _ _ => true
  | .ckpt _ => true
  | .sync => false
  | .oper _ => false
  | .vec _ => false
  | .junct _ => false
  | .launch _ _ => false
  | .relay _ => false
  | .halo _ => false
  | .wbuf _ _ => false
  | .swing => false

/-- The target tiles of a step, ascending; a control step's are every tile of the partition (R371, R372). -/
def stepTargets (c : Comp) (st : ItinStep) : List Nat :=
  if st.body.isControl || st.body == .sync then c.part.tiles
  else match st.tgt with
    | .all => c.part.tiles
    | .gang i => (c.gangs[i]?).elim [] Gang.tiles
    | .one t => [t]
    | .listed =>
      match st.body with
      | .relay es => c.part.tiles.filter (fun t => es.any (fun e => e.1 == t))
      | .halo es => c.part.tiles.filter (fun t => es.any (fun e => e.1 == t))
      | _ => []

/-- The next element of an ascending list above `t`, wrapping around. -/
def nextAfter (ts : List Nat) (t : Nat) : Option Nat :=
  match ts.find? (fun u => decide (t < u)) with
  | some u => some u
  | none => ts.head?

/-- The tile that runs the rank of target `t` (R390). -/
def rankOwner (p : Part) (targets : List Nat) (t : Nat) : Option Nat :=
  if !p.lost.contains t then some t
  else
    let live := targets.filter (fun u => !p.lost.contains u)
    if live.isEmpty then nextAfter p.tiles ((targets.filter p.lost.contains).headD t) else nextAfter live t

/-- The ranks among a step's targets that tile `t` has, its own first (R371, R390). -/
def ownedRanks (p : Part) (st : ItinStep) (t : Nat) : List Nat :=
  match p.comp with
  | none => []
  | some c =>
    let ts := stepTargets c st
    let rs := (List.range ts.length).filter (fun r => rankOwner p ts (ts.getD r 0) == some t)
    rs.filter (fun r => ts.getD r 0 == t) ++ rs.filter (fun r => ts.getD r 0 != t)

/-- The ranks of a step that tile `t` runs: a control step runs once on every tile (R371, R390). -/
def ranksOf (p : Part) (st : ItinStep) (t : Nat) : List Nat :=
  if st.body.isControl then (if p.comp.isSome then [0] else []) else ownedRanks p st t

/-- The end of a step: loops whose last step this was turn or end (R373). -/
def seqNext : List LoopFrame → Nat → List LoopFrame × Nat
  | [], pc => ([], pc + 1)
  | f :: fs, pc =>
    if pc == f.last then
      (if f.iter + 1 < f.count then ({ f with iter := f.iter + 1 } :: fs, f.step + 1) else seqNext fs pc)
    else (f :: fs, pc + 1)

/-- The sequencer leaves its present step. -/
def Seq.advance (q : Seq) : Seq :=
  let (ls, pc) := seqNext q.loops q.pc
  { q with loops := ls, pc := pc, hold := .run, ranks := [] }

/-- The partition of a bound tile, with its composition. -/
def State.partAt (s : State) (t : Nat) : Option (Nat × Part) :=
  match s.partOf t with
  | some p => some (p, s.part p)
  | none => none

/-- The step a tile is at, the steps that do not concern it passed over in one cycle each (R367). -/
def seqSettle (p : Part) (t : Nat) : Nat → Seq → Seq
  | 0, q => q
  | n + 1, q =>
    match p.itin[q.pc]? with
    | none => q
    | some st =>
      if q.hold == .run && q.ranks.isEmpty then
        (match ranksOf p st t with
         | [] => seqSettle p t n q.advance
         | rs => { q with ranks := rs })
      else q

/-- The clocks and the power of a tile's core are on and it is not fenced: what stands in its arrays goes on, also after a kill has
unbound the tile for access (R81, R157, R426, R477). -/
def State.coreRuns (s : State) (t : Nat) : Bool :=
  let x := s.tile t
  !x.fenced && !x.fired && x.powered && !x.waking && s.pins.stops.isEmpty && s.pow.pllOn.contains (regionOf t)

/-- A tile's units start work: its partition runs, neither held, recovering, nor killed (R157, R271, R362, R496). -/
def State.working (s : State) (t : Nat) : Bool :=
  s.tileRuns t && (match s.partAt t with
    | some (_, p) => p.state == .running || p.state == .quiesce
    | none => false)

/-- An array of a tile may admit work: its partition runs. While a column of the other array is re-qualified, this one keeps running
(R149, R157, R496). -/
def State.admits (s : State) (t : Nat) (x : Side) : Bool :=
  s.working t || (s.tileRuns t && !((s.tile t).arr (otherSide x)).requal.isEmpty && (match s.partAt t with
    | some (_, p) => p.state == .recovering
    | none => false))

/-- A tile's sequencer is at work (R367, R392). -/
def State.seqRuns (s : State) (t : Nat) : Bool := s.tileRuns t && (s.tile t).seq.running

/-- The gate every step passes: its sequencer stands at it, and its WSEM take has been granted (R368). The first call begins
the take; a call that does not fit the tile's present step changes nothing (log 3). -/
def State.stepGate (s : State) (t : Nat) (sel : StepBody → Bool) (go : State → Part → ItinStep → State) : State :=
  match s.partAt t with
  | none => s
  | some (_, p) =>
    let q := seqSettle p t (p.itin.length + 1) (s.tile t).seq
    match p.itin[q.pc]? with
    | none => s
    | some st =>
      if !s.seqRuns t || !sel st.body then s
      else
        let s1 := s.updTile t (fun x => { x with seq := q })
        match q.hold, st.wsem with
        | .run, none => go s1 p st
        | .run, some i => s1.updTile t (fun x => { x with waits := x.waits ++ [(i, .seq)], seq := { x.seq with hold := .wsem } })
        | .granted, _ => go s1 p st
        | _, _ => s

/-- The wire of a step's DLINK at a rank: the named identifier plus the rank where the step has several targets (R371). -/
def linkAt (c : Part) (st : ItinStep) (rank : Nat) : Option Nat :=
  match st.dlink, c.comp with
  | some l, some k => some (if (stepTargets k st).length ≤ 1 then l else l + rank)
  | l, _ => l

/-- One gather-buffer entry written to its line; a codeword gathered whole needs no read (R280, R283). -/
def Fabric.gatherWrite (f : Fabric) (t : Nat) (e : GatherEntry) : Fabric :=
  (List.range e.bytes.length).foldl (fun f i =>
    match e.bytes.getD i none with
    | some b =>
      if ((e.bytes.drop (i / 8 * 8)).take 8).all Option.isSome then f.spWrite t (32 * e.line + i) [b] else (f.spStore t (32 * e.line + i) [b]).2
    | none => f) f

/-- Every gather-buffer entry is written before a signal leaves (R280). -/
def State.gatherAll (s : State) (t : Nat) : State :=
  let es := (s.tile t).gather
  let f := es.foldl (fun f e => f.gatherWrite t e) s.fab
  (s.setFab f).updTile t (fun x => { x with gather := [] })

/-- A control step has completed on tile `t`: after every gathered write it makes the DLINK of every rank the tile has (R280, R371, R372). -/
def State.controlLinks (s : State) (t : Nat) (p : Part) (st : ItinStep) : State :=
  ((ownedRanks p st t).filterMap (linkAt p st)).foldl (fun s l => (s.gatherAll t).makeLink t l) s

/-- The step has entered its unit: it is listed among the tile's issued steps and the sequencer goes on, to the next rank it
runs or to the next step; PASS counts the runs of the step within the work item (R110, R390). -/
def Tile.issue (x : Tile) (p : Part) (st : ItinStep) (u : StepUnit) (finished : Bool) : Tile :=
  let q := x.seq
  let rank := q.ranks.headD 0
  let run : StepRun :=
    { id := q.nextId, step := q.pc, pass := tabGet 0 q.passes q.pc, rank := rank, unit := u, dlink := linkAt p st rank,
      finished := finished, wbc := st.wbc, skip := x.inSkip }
  let q := { q with issued := q.issued ++ [run], nextId := q.nextId + 1, lastStep := q.pc, hold := .run }
  match q.ranks.drop 1 with
  | [] => { x with seq := { q with passes := tabUpd 0 q.passes q.pc (· + 1) }.advance }
  | rs => { x with seq := { q with ranks := rs } }

/-- The sequencer leaves its present rank without an issued step; the last rank ends the step, and PASS counts its run (R110, R390). -/
def Tile.passStep (x : Tile) : Tile :=
  let q := { x.seq with lastStep := x.seq.pc, hold := .run }
  match q.ranks.drop 1 with
  | [] => { x with seq := { q with passes := tabUpd 0 q.passes q.pc (· + 1) }.advance }
  | rs => { x with seq := { q with ranks := rs } }

/-- Steps issued to a unit and not finished: the one at work and at most 4 in its step queue (R368). -/
def Tile.unitLoad (x : Tile) (u : StepUnit) : Nat := (x.seq.issued.filter (fun r => r.unit == u && !r.finished)).length

def Tile.unitRoom (x : Tile) (u : StepUnit) : Bool := decide (x.unitLoad u < 5)

/-- The value of a DIM word, and whether it exceeds its maximum (R374, R384). -/
def dimValue (c : WorkCtx) : Dim → Nat
  | .const n => n
  | .sh r => c.sh.getD r 0

/-- The value of a loop index, counted in the order that ORDER sets (R377). -/
def LoopFrame.index (f : LoopFrame) : Nat := if f.desc then f.count - 1 - f.iter else f.iter

/-- The loop frame that a LOOP step opens (R373). -/
def openLoop (q : Seq) (count last order : Nat) : LoopFrame :=
  let desc := match order with
    | 0 => false
    | 1 => true
    | _ => match q.loops.head? with
      | some f => f.iter % 2 == 1
      | none => false
  { step := q.pc, last := last, iter := 0, count := count, desc := desc }

/-- ITIN_LOOP: a LOOP step opens its loop; a count of 0 skips its body (R373, R385). -/
def execItinLoop (t : Nat) (s : State) : Host.Outcome State Fault Refusal :=
  .next (s.stepGate t (fun b => match b with | .loop _ _ _ => true | _ => false) (fun s p st =>
    match st.body with
    | .loop count last order =>
      (s.controlLinks t p st).updTile t (fun x => x.updSeq (fun q =>
        let n := dimValue q.ctx count
        if n == 0 then { { q with lastStep := q.pc, pc := last } with ranks := [] }.advance
        else { q with lastStep := q.pc, loops := openLoop q n last order :: q.loops, pc := q.pc + 1, hold := .run, ranks := [] }))
    | _ => s))

/-- The condition of a BRANCH step (R373). -/
def branchHolds (c : WorkCtx) (cond n value : Nat) : Bool :=
  match cond with
  | 0 => true
  | 1 => c.opsel == value
  | 2 => c.sh.getD n 0 == value
  | _ => c.sh.getD n 0 == 0

/-- BRANCH: the sequencer moves to TARGET when the condition holds (R373). -/
def execBranch (t : Nat) (s : State) : Host.Outcome State Fault Refusal :=
  .next (s.stepGate t (fun b => match b with | .branch _ _ _ _ => true | _ => false) (fun s p st =>
    match st.body with
    | .branch cond n target value =>
      (s.controlLinks t p st).updTile t (fun x => x.updSeq (fun q =>
        if branchHolds q.ctx cond n value then { q with lastStep := q.pc, pc := target, hold := .run, ranks := [] }
        else { q with lastStep := q.pc }.advance))
    | _ => s))

/-- A step that a tile in skip mode meets: it does not run, and its DLINK is made with a tag (R386). -/
def State.skipStep (s : State) (t : Nat) (p : Part) (st : ItinStep) : State := s.updTile t (fun x => x.issue p st .none true)

/-- WBUF: the working buffer of the tile; the compute half starts at BASE (R323, R373). -/
def execWbuf (t : Nat) (s : State) : Host.Outcome State Fault Refusal :=
  .next (s.stepGate t (fun b => match b with | .wbuf _ _ => true | _ => false) (fun s p st =>
    if (s.tile t).inSkip then s.skipStep t p st
    else match st.body with
      | .wbuf base size => s.updTile t (fun x => { x with wbBase := base, wbSize := size, swung := false }.issue p st .none true)
      | _ => s))

/-- A queue runs a stream that reads or writes the working buffer (R322, R323). -/
def Queue.usesWb (q : Queue) (wb wbr : Bool) : Bool :=
  (q.state == .run || q.state == .last || q.state == .halt) &&
    (match q.cur with
     | some l => (wb && l.desc.wb) || (wbr && l.desc.wbr)
     | none => false)

def Tile.wbActive (x : Tile) (wb wbr : Bool) : Bool := (List.range 8).any (fun q => (x.queue q).usesWb wb wbr)

/-- SWING: the halves are exchanged once every WB and WBR stream is IDLE and every step with WBC has drained; until then the
sequencer is held (R323). -/
def execSwing (t : Nat) (s : State) : Host.Outcome State Fault Refusal :=
  .next (s.stepGate t (fun b => match b with | .swing => true | _ => false) (fun s p st =>
    let x := s.tile t
    if x.inSkip then s.skipStep t p st
    else if x.wbActive true true || x.seq.issued.any (fun r => r.wbc && !r.finished) then s
    else s.updTile t (fun x => { x with swung := !x.swung }.issue p st .none true)))

/-- What the tile sequencer and the vector unit's scalar path read: gathered bytes ahead of the bank's (R281). No command of the table reads
on that path; every other requester sees the bank alone. -/
def State.scalarRead (s : State) (t off n : Nat) : List Byte :=
  List.zipWith (fun b i => (((s.tile t).gather.find? (fun e => e.line == (off + i) / 32)).bind
    (fun e => e.bytes.getD ((off + i) % 32) none)).getD b) (s.fab.spRead t off n) (List.range n)

/-- A step that completes as it is met: its gathered writes land, its DLINK is made, and the sequencer goes on (R280, R368, R385). -/
def State.completeNow (s : State) (t : Nat) (p : Part) (st : ItinStep) : State :=
  let s' := s.updTile t Tile.passStep
  match linkAt p st ((s.tile t).seq.ranks.headD 0) with
  | some l => (s'.gatherAll t).makeLink t l
  | none => s'

/-- SYNC: the take has been granted; the link is made before the sequencer goes on (R368, R372, R373). -/
def execSync (t : Nat) (s : State) : Host.Outcome State Fault Refusal :=
  .next (s.stepGate t (fun b => match b with | .sync => true | _ => false) (fun s p st => s.completeNow t p st))

/-- GATHER_FLUSH: the oldest entry, having stood for 16 cycles, is written to its bank (R280). -/
def execGatherFlush (t : Nat) (s : State) : Host.Outcome State Fault Refusal :=
  match (s.tile t).gather with
  | [] => .next s
  | e :: es =>
    if s.tileRuns t then .next ((s.setFab (s.fab.gatherWrite t e)).updTile t (fun x => { x with gather := es }))
    else .next s

end Sys2Proof.Machine
end

