-- ==== Sys2Proof/Machine/Output.lean ====
section
/-! DEFINITION. Where results go: the conversion stage (R260, R261), the planes of an output (R98, R113, R373, R580), the
counting of every converted element (R119 to R122), and the gather buffer's small writes (R280). -/
namespace Sys2Proof.Machine

/-- What the random values of an output depend on (R110). -/
structure SrKey where
  workId : Word
  step : Nat
  pass : Nat
  deriving DecidableEq, Repr

def SrKey.at (k : SrKey) (idx : Nat) : Nat := srRandom k.workId k.step k.pass idx

/-- An output plane: base, row pitch, second plane, conversion, and whether results are written unconverted (R372, R373). -/
structure OutPlane where
  base : Nat
  pitch : Nat
  aux : Nat
  conv : ConvByte
  raw : Bool
  /-- INT32 results (R581) -/
  int : Bool
  /-- elements of a row, for the scale plane and the index IDX -/
  cols : Nat
  deriving DecidableEq, Repr

/-- A result as an exact value: INT32 or FP32. -/
def resultVal (int : Bool) (x : BitVec 32) : FVal := if int then FVal.ofInt x.toInt else F32.val x

/-- Bits packed little-endian, `w` each. -/
def packCodes (w : Nat) (codes : List Nat) : List Byte :=
  leBytes (ceilDiv (w * codes.length) 8) (codes.reverse.foldl (fun n c => n * 2 ^ w + c % 2 ^ w) 0)

/-- One result that is no MX element: raw, a NaN in its canonical form (R107), or converted and counted: element (r, j) of the plane. -/
def putPlain (f : Fabric) (h : Hist) (t : Nat) (o : OutPlane) (k : SrKey) (r j : Nat) (x : BitVec 32) : Fabric × Hist :=
  let off := o.base + r * o.pitch
  if o.raw then (f.spWrite t (off + 4 * j) (leBytes 4 (if o.int then x else canon x).toNat), h)
  else if o.conv.fmt == fmtINT32 then (f.spWrite t (off + 4 * j) (leBytes 4 x.toNat), h)
  else
    let v := resultVal o.int x
    if o.conv.fmt == fmtBF16X2 then
      let (hi, lo) := splitX2 v
      let f := f.spWrite t (off + 2 * j) (leBytes 2 hi)
      let y := rne32 v
      (f.spWrite t (o.aux + r * o.pitch + 2 * j) (leBytes 2 lo), histCount h y (fp32Class y))
    else
      let e := fmtBits o.conv.fmt / 8
      let (c, cls) := convPlain o.conv (k.at (r * o.cols + j)) v
      (f.spWrite t (off + e * j) (leBytes e c), histCount h (rne32 v) cls)

/-- One MX block of row `r`, block `b`: elements, padding as zero codes, and the scale byte (R98, R261). -/
def putBlock (f : Fabric) (h : Hist) (t : Nat) (o : OutPlane) (k : SrKey) (r b : Nat) (xs : List (BitVec 32)) : Fabric × Hist :=
  let w := fmtBits o.conv.fmt
  let vs := xs.map (resultVal o.int)
  let us := (List.range xs.length).map (fun i => k.at (r * o.cols + 32 * b + i))
  let padded := vs ++ List.replicate (32 - xs.length) (FVal.fin false 0 0)
  let (sc, codes) := mxBlock o.conv.fmt o.conv.sat o.conv.sr (us ++ List.replicate (32 - xs.length) 0) padded
  let kept := (codes.take xs.length).map (·.1) ++ List.replicate (32 - xs.length) 0
  let f := f.spWrite t (o.base + r * o.pitch + 4 * w * b) (packCodes w kept)
  let f := f.spWrite t (o.aux + r * ceilDiv o.cols 32 + b) [BitVec.ofNat 8 sc]
  (f, (List.zip vs codes).foldl (fun h p => histCount h (rne32 p.1) p.2.2) h)

/-- A whole row of results written and counted. -/
def putRow (f : Fabric) (h : Hist) (t : Nat) (o : OutPlane) (k : SrKey) (r : Nat) (xs : List (BitVec 32)) : Fabric × Hist :=
  if !o.raw && isMx o.conv.fmt then
    (List.range (ceilDiv xs.length 32)).foldl (fun (a : Fabric × Hist) b => putBlock a.1 a.2 t o k r b (slice32 xs b)) (f, h)
  else
    (List.range xs.length).foldl (fun (a : Fabric × Hist) j => putPlain a.1 a.2 t o k r j (xs.getD j 0)) (f, h)
where
  /-- The values of block `b` of a row. -/
  slice32 (xs : List (BitVec 32)) (b : Nat) : List (BitVec 32) := (xs.drop (32 * b)).take 32

/-- A small write goes to the gather buffer: it merges into its line's entry, the oldest of 8 entries makes room, and a full
entry is written (R280). -/
def State.gatherPut (s : State) (t off : Nat) (bs : List Byte) : State :=
  let line := off / 32
  let x := s.tile t
  let blank : GatherEntry := ⟨line, List.replicate 32 none⟩
  let put (e : GatherEntry) : GatherEntry :=
    { e with bytes := (List.range 32).map (fun i =>
        if off % 32 ≤ i && decide (i < off % 32 + bs.length) then bs[i - off % 32]? else e.bytes.getD i none) }
  let hit := x.gather.find? (fun e => e.line == line)
  let e := put (hit.getD blank)
  let others := x.gather.filter (fun g => g.line != line)
  if e.bytes.all Option.isSome then
    (s.setFab (s.fab.gatherWrite t e)).updTile t (fun x => { x with gather := others })
  else if hit.isSome then
    s.updTile t (fun x => { x with gather := x.gather.map (fun g => if g.line == line then e else g) })
  else if others.length < 8 then s.updTile t (fun x => { x with gather := others ++ [e] })
  else match others with
    | [] => s
    | g :: gs => (s.setFab (s.fab.gatherWrite t g)).updTile t (fun x => { x with gather := gs ++ [e] })

/-- A small write that may end in the next line. -/
def State.smallWrite (s : State) (t off : Nat) (bs : List Byte) : State :=
  let n := 32 - off % 32
  let s := s.gatherPut t off (bs.take n)
  if bs.length ≤ n then s else s.gatherPut t (off + n) (bs.drop n)

end Sys2Proof.Machine
end

