-- ==== Sys2Proof/Machine/Vector.lean ====
section
/-! DEFINITION. The vector unit: VEC steps (R248 to R258, R373, R581) and JUNCT steps (R259). A step computes when it enters
the unit (log 4); it completes at STEP_COMPLETE. -/
namespace Sys2Proof.Machine

/-- The start of what a step with WBC reads from: the compute half, or the single buffer under DISCIPLINE 0 (R322, R323). -/
def Tile.computeBase (x : Tile) (discipline : Nat) : Nat :=
  if discipline == 0 then x.wbBase else if x.swung then x.wbBase + x.wbSize / 2 else x.wbBase

/-- The start of what a WB stream writes to: the load half (R322, R323). -/
def Tile.loadBase (x : Tile) (discipline : Nat) : Nat :=
  if discipline == 0 then x.wbBase else if x.swung then x.wbBase else x.wbBase + x.wbSize / 2

def Part.discipline (p : Part) : Nat :=
  match p.comp with
  | some c => c.part.discipline
  | none => 0

/-- A row of `n` elements of a format at a scratchpad offset, each as FP32, or as its 32 bits when INT32 (R581). -/
def State.operandRow (s : State) (t off fmt n : Nat) : List (BitVec 32) :=
  let bs := s.fab.spRead t off (packedBytes fmt n)
  (List.range n).map (fun i =>
    let c := packedElem fmt bs i
    if fmt == fmtINT32 then BitVec.ofNat 32 c else widen fmt c)

/-- How a step's shape turns out (R385). -/
inductive Shape where
  | run
  | empty
  | oversize
  deriving DecidableEq, Repr

/-- The checks of R384 and R385 on (value, maximum) pairs, and on the dimensions that make a step empty when 0. -/
def shapeOf (bounded : List (Nat × Nat)) (zero : List Nat) : Shape :=
  if bounded.any (fun p => decide (p.2 < p.1)) then .oversize else if zero.any (· == 0) then .empty else .run

/-- A step that enters no unit because of its shape: empty it completes at once with its DLINK untagged, oversize the tile enters skip mode
(R385). -/
def State.shapeStop (s : State) (t : Nat) (p : Part) (st : ItinStep) (sh : Shape) : State :=
  match sh with
  | .oversize => (s.updTile t (fun x => x.enterSkip ⟨stOversize, x.seq.pc, t⟩)).updTile t (fun x => x.issue p st .none true)
  | _ => s.completeNow t p st

/-- The ring that a step names as the source of operand A (R314, R373). -/
def Vec.ringOf (v : Vec) : Option Nat := if v.ring < 8 then some v.ring else none

/-- A skipped step takes and releases the tile of the ring it names (R386). -/
def Tile.passRing (x : Tile) (q : Nat) : Tile :=
  let u := x.queue q
  x.setQueue q { u with full := u.full - 1, free := u.free + 1, consN := u.consN + 1 }

/-- The function of a FUNC identifier in the partition's tables (R59). -/
def Part.func (p : Part) (id : Nat) : Bool → F32 → F32 :=
  match p.comp with
  | none => fun _ x => x
  | some c => match c.funcs.find? (fun f => f.id == id) with
    | some f => funcEval f
    | none => fun _ x => x

/-- VOP codes of the row reductions (R373). -/
def isReduction (vop : Nat) : Bool := decide (13 ≤ vop ∧ vop ≤ 17)

/-- One result of a row reduction: value and index (R256, R258). The value of an empty row is +0.0 (R256). -/
def reduceRow (vop : Nat) (xs : List F32) : F32 × Nat :=
  match vop with
  | 13 => (rsum xs, 0)
  | 14 => (rmaxRow xs).getD (0, 0)
  | 16 => (rmaxRow xs).getD (0, 0)
  | _ => (rminRow xs).getD (0, 0)

/-- The output plane of a step with one conversion byte (R372, R373). -/
def outPlane (base pitch aux conv cols : Nat) (raw int : Bool) : OutPlane :=
  { base := base, pitch := pitch, aux := aux, conv := convByte conv, raw := raw, int := int, cols := cols }

def Tile.setHist (x : Tile) (h : Hist) : Tile := x.updSeq (fun q => { q with rep := { q.rep with hist := h } })

/-- What a VEC step computes and writes: element-wise rows at DST with PITCH, or one dense row of results (R249, R258). -/
def State.runVec (s : State) (t : Nat) (p : Part) (st : ItinStep) (run : StepRun) (v : Vec) : State :=
  let x := s.tile t
  let rows := dimValue x.seq.ctx v.rows
  let cols := dimValue x.seq.ctx v.cols
  let base := if st.wbc then x.computeBase p.discipline else 0
  let srcA := match v.ringOf with
    | some q => (x.queue q).ringBase + (x.queue q).consN % 3 * (x.queue q).ringSlot + v.srcA
    | none => base + v.srcA
  let int := st.ifmtA == fmtINT32
  let key : SrKey := ⟨x.seq.ctx.workId, run.step, run.pass⟩
  let rowA (r : Nat) := s.operandRow t (srcA + r * v.pitch) st.ifmtA cols
  if isReduction v.vop then
    let rs := (List.range rows).map (fun r => reduceRow v.vop (rowA r))
    let o := outPlane v.dst 0 v.dstAux v.conv rows st.raw false
    let small := o.raw || o.conv.fmt == fmtFP32
    let (f, h) := if small then (s.fab, s.tile t |>.seq.rep.hist) else putRow s.fab x.seq.rep.hist t o key 0 (rs.map (·.1))
    let h := if small && !o.raw then rs.foldl (fun h r => histCount h r.1 (fp32Class r.1)) h else h
    let s := (s.setFab f).updTile t (fun x => x.setHist h)
    let s := if small then (List.range rows).foldl (fun s r => s.smallWrite t (v.dst + 4 * r) (leBytes 4 (rs.getD r (0, 0)).1.toNat)) s else s
    if v.vop == 16 || v.vop == 17 then
      (List.range rows).foldl (fun s r => s.smallWrite t (v.dstAux + 4 * r) (leBytes 4 (rs.getD r (0, 0)).2)) s
    else s
  else
    let o := outPlane v.dst v.pitch v.dstAux v.conv cols st.raw int
    let fn := p.func v.func
    let (f, h) := (List.range rows).foldl (fun (a : Fabric × Hist) r =>
      let as := rowA r
      let bs := s.operandRow t (base + v.srcB + r * v.pitch) st.ifmtB cols
      let cs := s.operandRow t (base + v.srcC + r * v.pitch) st.ifmtC cols
      let out := (List.range cols).map (fun i =>
        if int then vecOpInt v.vop v.imm (as.getD i 0) (bs.getD i 0) (cs.getD i 0)
        else vecOp v.vop v.imm fn (as.getD i 0) (bs.getD i 0) (cs.getD i 0))
      putRow a.1 a.2 t o key r out) (s.fab, x.seq.rep.hist)
    (s.setFab f).updTile t (fun x => x.setHist h)

/-- JUNCT: the junction tree over NR leaves, element by element; an absent leaf passes its partner through, and with no leaf
present every element is +0.0 or 0 (R190, R259, R373). -/
def State.runJunct (s : State) (t : Nat) (p : Part) (st : ItinStep) (run : StepRun) (j : Junct) : State :=
  let x := s.tile t
  let n := dimValue x.seq.ctx j.count
  let base := if st.wbc then x.computeBase p.discipline else 0
  let int := st.ifmtA == fmtINT32
  let leaves := (List.range j.nr).map (fun i =>
    if bitOf j.present i then some (s.operandRow t (base + j.srcs.getD i 0) st.ifmtA n) else none)
  let out := (List.range n).map (fun i => (junctionTree int 3 (leaves.map (Option.map (fun l => l.getD i 0)))).getD 0)
  let o := outPlane j.dst 0 j.dstAux j.conv n st.raw int
  let key : SrKey := ⟨x.seq.ctx.workId, run.step, run.pass⟩
  let (f, h) := putRow s.fab x.seq.rep.hist t o key 0 out
  (s.setFab f).updTile t (fun x => x.setHist h)

/-- The first step in the vector unit: it begins when the one before it has completed (R248, R249). -/
def Tile.vectorHead (x : Tile) : Option StepRun := x.seq.issued.find? (fun r => r.unit == .vector)

/-- The ring that a step takes its operand A from holds a tile, or it names none (R313, R314). -/
def Tile.ringFull (x : Tile) (v : Vec) : Bool :=
  match v.ringOf with
  | some q => decide (1 ≤ (x.queue q).full)
  | none => true

/-- The step gives its ring's tile back (R313). -/
def Tile.passRingOf (x : Tile) (v : Vec) : Tile :=
  match v.ringOf with
  | some q => x.passRing q
  | none => x

/-- How many operands a VEC operation reads (R249, R373). -/
def vopOperands (vop : Nat) : Nat := if vop == 3 || vop == 10 then 3 else if vop ≤ 6 || vop == 18 then 2 else 1

/-- The ranges of its scratchpad that a VEC step reads, row by row of each operand. -/
def State.vecReads (s : State) (t : Nat) (p : Part) (st : ItinStep) (v : Vec) : List (Nat × Nat) :=
  let x := s.tile t
  let cols := dimValue x.seq.ctx v.cols
  let base := if st.wbc then x.computeBase p.discipline else 0
  let srcA := match v.ringOf with
    | some q => (x.queue q).ringBase + (x.queue q).consN % 3 * (x.queue q).ringSlot + v.srcA
    | none => base + v.srcA
  (List.range (dimValue x.seq.ctx v.rows)).flatMap (fun r =>
    ([(srcA, st.ifmtA), (base + v.srcB, st.ifmtB), (base + v.srcC, st.ifmtC)].take (vopOperands v.vop)).map
      (fun o => (o.1 + r * v.pitch, packedBytes o.2 cols)))

/-- The ranges that a JUNCT step reads: its present leaves. -/
def State.junctReads (s : State) (t : Nat) (p : Part) (st : ItinStep) (j : Junct) : List (Nat × Nat) :=
  let x := s.tile t
  let base := if st.wbc then x.computeBase p.discipline else 0
  ((List.range j.nr).filter (bitOf j.present)).map
    (fun i => (base + j.srcs.getD i 0, packedBytes st.ifmtA (dimValue x.seq.ctx j.count)))

/-- A unit of the tile reads ranges of its scratchpad: the codewords are checked, and a range that runs past the end ends the tile's work
item with SPACE (R274, R284). Whether all of them gave data. -/
def State.padReads (s : State) (t step : Nat) (rs : List (Nat × Nat)) : State × Bool :=
  let r := (rs.filter (fun e => decide (e.1 + e.2 ≤ spSize))).foldl (fun (a : Fabric × Bool) e =>
    let c := a.1.spCheck t e.1 e.2
    (c.1, a.2 && c.2)) (s.fab, true)
  let s := s.setFab r.1
  (if rs.any (fun e => decide (spSize < e.1 + e.2)) then s.updTile t (fun x => x.enterSkip ⟨stSpace, step, t⟩) else s, r.2)

/-- The vector unit begins the step at its head: it waits for the ring that the step names and for its gate; a skipped step only passes the
ring (R248, R249, R271, R314, R386, R428). -/
def State.vectorStart (s : State) (t : Nat) : State :=
  let x := s.tile t
  match x.vectorHead, s.partAt t with
  | some r, some (_, p) =>
    if r.finished || x.vbusy || !s.working t then s
    else match p.itin[r.step]? with
      | none => s
      | some st =>
        match st.body with
        | .vec v =>
          if !x.ringFull v then s
          else if r.skip then s.updTile t (fun x => (x.passRingOf v).finishRun r.id)
          else if x.vgated then s.updTile t (fun x => { x with vopening := true })
          else
            let c := s.padReads t r.step (s.vecReads t p st v)
            if c.2 then (c.1.runVec t p st r v).updTile t (fun x => (x.passRingOf v).finishRun r.id) else c.1
        | .junct j =>
          if x.vgated then s.updTile t (fun x => { x with vopening := true })
          else
            let c := s.padReads t r.step (s.junctReads t p st j)
            if c.2 then (c.1.runJunct t p st r j).updTile t (fun x => x.finishRun r.id) else c.1
        | _ => s
  | _, _ => s

/-- The vector unit has the step at work and at most 4 in its step queue (R368). -/
def Tile.vectorRoom (x : Tile) : Bool := decide ((x.seq.issued.filter (fun r => r.unit == .vector)).length < 5)

/-- A step with nothing to run enters the vector unit's queue for its ring alone: no DLINK (R313, R385). -/
def Tile.issueRing (x : Tile) (st : ItinStep) : Tile :=
  { x with seq := { x.seq with
      issued := x.seq.issued ++ [⟨x.seq.nextId, x.seq.pc, tabGet 0 x.seq.passes x.seq.pc, x.seq.ranks.headD 0, .vector, none, false, st.wbc, true⟩],
      nextId := x.seq.nextId + 1 } }

/-- A VEC step of one operation: its gate, skip mode, its shape, and its entry into the unit, which runs its steps in order (R249, R368,
R385, R386). A step that names a ring and does not run still passes the ring's tile in its turn. -/
def State.vecStep (s : State) (t vop : Nat) : State :=
  s.stepGate t (fun b => match b with | .vec v => v.vop == vop | _ => false) (fun s1 p st =>
    match st.body with
    | .vec v =>
      let x := s1.tile t
      let r := dimValue x.seq.ctx v.rows
      let c := dimValue x.seq.ctx v.cols
      let sh := shapeOf [(r, v.maxR), (c, v.maxC)] [r, c]
      let ring := v.ringOf.isSome
      if x.inSkip && !ring then s1.skipStep t p st
      else if sh != .run && !ring then s1.shapeStop t p st sh
      else if !x.vectorRoom then s
      else if x.inSkip || sh == .run then (s1.updTile t (fun x => x.issue p st .vector false)).vectorStart t
      else match sh with
        | .oversize => (s1.updTile t (fun x => (x.enterSkip ⟨stOversize, x.seq.pc, t⟩).issue p st .vector false)).vectorStart t
        | _ => ((s1.updTile t (fun x => x.issueRing st)).vectorStart t).completeNow t p st
    | _ => s)

/-- ADD: a + b, element by element (R249, R250). -/
def execAdd (t : Nat) (s : State) : Host.Outcome State Fault Refusal := .next (s.vecStep t 0)

/-- SUB: a − b (R249, R250). -/
def execSub (t : Nat) (s : State) : Host.Outcome State Fault Refusal := .next (s.vecStep t 1)

/-- MUL: a × b (R249, R250). -/
def execMul (t : Nat) (s : State) : Host.Outcome State Fault Refusal := .next (s.vecStep t 2)

/-- MAD: (a × b) + c with two roundings (R249, R250). -/
def execMad (t : Nat) (s : State) : Host.Outcome State Fault Refusal := .next (s.vecStep t 3)

/-- DIV: a / b, correctly rounded (R249). -/
def execDiv (t : Nat) (s : State) : Host.Outcome State Fault Refusal := .next (s.vecStep t 4)

/-- MIN: the element-wise minimum under the order of R197 (R249). -/
def execMin (t : Nat) (s : State) : Host.Outcome State Fault Refusal := .next (s.vecStep t 5)

/-- MAX: the element-wise maximum under the order of R197 (R249). -/
def execMax (t : Nat) (s : State) : Host.Outcome State Fault Refusal := .next (s.vecStep t 6)

/-- ABS: |a| (R249). -/
def execAbs (t : Nat) (s : State) : Host.Outcome State Fault Refusal := .next (s.vecStep t 7)

/-- NEG: −a (R249). -/
def execNeg (t : Nat) (s : State) : Host.Outcome State Fault Refusal := .next (s.vecStep t 8)

/-- SCALE2: a × 2^n with n from IMM (R249, R373). -/
def execScale2 (t : Nat) (s : State) : Host.Outcome State Fault Refusal := .next (s.vecStep t 9)

/-- SELECT: a where c compared with +0 holds, otherwise b (R249). -/
def execSelect (t : Nat) (s : State) : Host.Outcome State Fault Refusal := .next (s.vecStep t 10)

/-- FUNC: the value table of FUNC (R252 to R254). -/
def execFunc (t : Nat) (s : State) : Host.Outcome State Fault Refusal := .next (s.vecStep t 11)

/-- DFUNC: the derivative table of FUNC, on the same segment and t (R255). -/
def execDfunc (t : Nat) (s : State) : Host.Outcome State Fault Refusal := .next (s.vecStep t 12)

/-- RSUM: the sum of each row in the canonical granule order (R256). -/
def execRsum (t : Nat) (s : State) : Host.Outcome State Fault Refusal := .next (s.vecStep t 13)

/-- RMAX: the maximum of each row (R258). -/
def execRmax (t : Nat) (s : State) : Host.Outcome State Fault Refusal := .next (s.vecStep t 14)

/-- RMIN: the minimum of each row (R258). -/
def execRmin (t : Nat) (s : State) : Host.Outcome State Fault Refusal := .next (s.vecStep t 15)

/-- RMAXI: the maximum of each row and the index of the winner (R197, R258). -/
def execRmaxi (t : Nat) (s : State) : Host.Outcome State Fault Refusal := .next (s.vecStep t 16)

/-- RMINI: the minimum of each row and the index of the winner (R197, R258). -/
def execRmini (t : Nat) (s : State) : Host.Outcome State Fault Refusal := .next (s.vecStep t 17)

/-- JADD: two root records added element by element (R189, R259). -/
def execJadd (t : Nat) (s : State) : Host.Outcome State Fault Refusal := .next (s.vecStep t 18)

/-- CONV: conversion through the conversion stage (R260). -/
def execConv (t : Nat) (s : State) : Host.Outcome State Fault Refusal := .next (s.vecStep t 19)

/-- JUNCT (R259, R368, R373). -/
def execJunct (t : Nat) (s : State) : Host.Outcome State Fault Refusal :=
  .next (s.stepGate t (fun b => match b with | .junct _ => true | _ => false) (fun s1 p st =>
    match st.body with
    | .junct j =>
      let x := s1.tile t
      let n := dimValue x.seq.ctx j.count
      let sh := shapeOf [(n, j.max)] [n]
      if x.inSkip then s1.skipStep t p st
      else if sh != .run then s1.shapeStop t p st sh
      else if !x.vectorRoom then s
      else (s1.updTile t (fun x => x.issue p st .vector false)).vectorStart t
    | _ => s))

/-- STEP_COMPLETE: the `n`-th issued step has finished; its gathered results are in the scratchpad, the tile makes its DLINK and forgets the
step, and the vector unit begins its next one (R249, R260, R280, R372). -/
def execStepComplete (t n : Nat) (s : State) : Host.Outcome State Fault Refusal :=
  let s := s.updTile t Tile.settleRelays
  match (s.tile t).seq.issued[n]? with
  | none => .next s
  | some r =>
    if !r.finished || !s.tileRuns t then .next s
    else
      let s := s.updTile t (fun x => x.updSeq (fun q => { q with issued := dropAt q.issued n }))
      let s := if r.unit == .vector || r.dlink.isSome then s.gatherAll t else s
      match r.dlink with
      | some l => .next ((s.makeLink t l).vectorStart t)
      | none => .next (s.vectorStart t)

end Sys2Proof.Machine
end

