-- ==== Sys2Proof/Machine/Products.lean ====
section
/-! DEFINITION. Which product goes where: forms and columns (R136, R137, R151, R201), the words and scales that meet in a
column (R123 to R126, R135, R307), what one output position gives each column in the canonical order (R161 to R166), the
weight sets of a walk (R145, R376), of a paired step (R233) and of a fused pair (R264, R269), and the array's own times
(R132, R133, R138, R142, R143, R205, R206). -/
namespace Sys2Proof.Machine

/-- Slices of a form (R136). -/
def slicesOf (form : Nat) : Nat := if form == 0 then 1 else if form == 1 then 2 else 4

def Oper.beat (o : Oper) : Nat := beatOf o.taps
def Oper.rate (o : Oper) : Nat := macRate o.fmtMov o.fmtSta

/-- Rows of one logical column: a slice's rows, or 32 for each gang row (R136, R201). -/
def Job.rows (j : Job) : Nat := lanesOf j.form * j.gh

/-- Df, the reduction indices of one chunk (R125, R201). -/
def Job.chunk (j : Job) : Nat := j.rows * j.oper.beat * j.oper.rate

/-- The tiles of a logical array. -/
def Job.tiles (j : Job) : List Nat := j.runs.map (·.1)

/-- The good physical columns of gang column `gx`: those that no tile of it detours (R151, R214). -/
def Fabric.goodColumns (f : Fabric) (x : Side) (gx gy gh : Nat) : List Nat :=
  (List.range 32).filter (fun c => !(List.range gh).any (fun j => ((f.tile (tileAt gx (gy + j))).arr x).detours.contains c))

/-- The good columns of every gang column of an array, west to east. -/
def Fabric.columns (f : Fabric) (x : Side) (gx gy gw gh : Nat) : List (List Nat) :=
  (List.range gw).map (fun i => f.goodColumns x (gx + i) gy gh)

/-- W, the logical columns of an array (R151, R201). -/
def widthOf (slices : Nat) (cols : List (List Nat)) : Nat := (cols.map (fun c => slices * c.length)).sum

/-- Gang column, slice and physical column of a logical column (R137, R151, R201). -/
def placeOf (slices : Nat) : Nat → List (List Nat) → Nat → Nat × Nat × Nat
  | _, [], _ => (0, 0, 0)
  | i, c :: cs, j =>
    if j < slices * c.length then (i, j / c.length, c.getD (j % c.length) 0)
    else placeOf slices (i + 1) cs (j - slices * c.length)

/-- One tile's vectors of an output position, and their scale bytes (R124, R135). -/
structure Vectors where
  words : List Nat
  scales : List Nat
  deriving DecidableEq, Repr

/-- The exact product of two elements; integers have one zero (R94). -/
def mulElems (fa a fb b : Nat) : FVal :=
  match pairGroup fa fb with
  | some .mxInteger => FVal.ofInt (signedOf 8 a * signedOf 8 b)
  | some .plainInteger => FVal.ofInt (signedOf 8 a * signedOf 8 b)
  | _ => (elemValue fa a).mul (elemValue fb b)

/-- What a column multiplies in one output position: the lane words by row and tap, its own tap words, and both operands'
scale codes by segment of rows. -/
structure ColumnOperands where
  lane : List (List Nat)
  tap : List (List Nat)
  laneScale : List Nat
  tapScale : List Nat
  deriving DecidableEq, Repr

/-- The products of a column at chunk offset δ: row δ / (b m), tap δ / m mod b, element δ mod m (R125); none at an absent tap
(R126). -/
def productAt (o : Oper) (c : ColumnOperands) (d : Nat) : Option FVal :=
  let m := o.rate
  let b := o.beat
  let r := d / (b * m)
  let s := d / m % b
  if o.taps ≤ s then none
  else
    let a := wordElem o.fmtMov m ((c.lane.getD r []).getD s 0) (d % m)
    let w := wordElem o.fmtSta m ((c.tap.getD r []).getD s 0) (d % m)
    some (mulElems o.fmtMov a o.fmtSta w)

/-- The end of a granule or of the reduction at index `e` (R162, R163, R181). -/
def closeAt (tree : Bool) (k e : Nat) : List Feed :=
  if e == k then [.close true] else if tree && e % 256 == 0 then [.close false] else []

/-- One segment's exact narrow sum with the exponent of its fold (R163 to R165, R112); none when every index is absent. A block
with scale 0xFF makes every product not a number (R101). -/
def segmentItem (o : Oper) (c : ColumnOperands) (g n : Nat) : Option Item :=
  let int := pairGroup o.fmtMov o.fmtSta == some .mxInteger || pairGroup o.fmtMov o.fmtSta == some .plainInteger
  let seg := 8 * o.beat * o.rate
  let ps := (List.range n).filterMap (fun i => productAt o c (g * seg + i))
  let ca := if isMx o.fmtMov then c.laneScale.getD g 127 else 127
  let cb := if isMx o.fmtSta then c.tapScale.getD g 127 else 127
  if ps.isEmpty then none
  else if ca == 255 || cb == 255 then some ⟨.nan, 0, true⟩
  else
    let t : Int := if o.fmtMov == 0xA then 12 else 0
    some ⟨(narrowSum int ps (.fin (!int) 0 0, 0)).1, scaleExp ca + scaleExp cb - t, ps.any FVal.isNan⟩

/-- What the chunk [k0, kEnd) gives one output, in ascending index order (R161 to R166, R175). -/
def chunkFeeds (o : Oper) (k k0 kEnd : Nat) (c : ColumnOperands) : List Feed :=
  let tree := o.acc == 0
  let wide := match pairGroup o.fmtMov o.fmtSta with
    | some .wide => true
    | some .bf16x3 => true
    | _ => false
  if wide then
    (List.range (kEnd - k0)).flatMap (fun d =>
      (match productAt o c d with
       | some v => [Feed.item ⟨v, 0, v.isNan⟩]
       | none => []) ++ closeAt tree k (k0 + d + 1))
  else
    let seg := 8 * o.beat * o.rate
    (List.range (ceilDiv (kEnd - k0) seg)).flatMap (fun g =>
      let n := if kEnd - k0 - g * seg < seg then kEnd - k0 - g * seg else seg
      (match segmentItem o c g n with
       | some i => [Feed.item i]
       | none => []) ++ closeAt tree k (k0 + g * seg + n))

/-- The operands of logical column `j` for one position: `vs` the vectors of each gang row, tap numbers from `tap` (R123,
R132, R201, R307). -/
def Fabric.columnOperands (f : Fabric) (x : Side) (job : Job) (vs : List Vectors) (tap : Nat) (place : Nat × Nat × Nat) :
    ColumnOperands :=
  let l := lanesOf job.form
  let fills (gy : Nat) : Tab TapFill := ((f.tile (tileAt (job.gx + place.1) (job.gy + gy))).arr x).taps
  let w := job.oper.taps
  let taps (gy : Nat) : List TapFill := (List.range w).map (fun s => tabGet ⟨[], []⟩ (fills gy) (tap + s))
  { lane := (List.range job.rows).map (fun r =>
      (List.range w).map (fun s => ((vs.getD (r / l) ⟨[], []⟩).words).getD (s * l + r % l) 0)),
    tap := (List.range job.rows).map (fun r =>
      (taps (r / l)).map (fun t => t.words.getD (32 * (place.2.1 * l + r % l) + place.2.2) 0)),
    laneScale := (List.range (job.rows / 8)).map (fun g => ((vs.getD (8 * g / l) ⟨[], []⟩).scales).getD (g % (l / 8)) 127),
    tapScale := (List.range (job.rows / 8)).map (fun g =>
      (((taps (8 * g / l)).headD ⟨[], []⟩).scales).getD (32 * (place.2.1 * (l / 8) + g % (l / 8)) + place.2.2) 127) }

/-- `S(r) = b r + 2 (r div 8)` (R132). -/
def skew (b r : Nat) : Nat := b * r + 2 * (r / 8)

/-- D_col of a slice of d rows (R133). -/
def columnLatency (b d : Nat) : Nat := b * d + d / 4

/-- I, the issue interval of a form (R136). -/
def issueInterval (form : Nat) : Nat := slicesOf form

/-- c, the milestone-carry slots of a south crossing (R205). -/
def carrySlots (df : Nat) : Nat :=
  if df ≤ 256 then 0
  else if df % 256 == 0 && 2 ^ Nat.log2 (df / 256) == df / 256 then Nat.log2 (df / 256)
  else ceilDiv df 256 - 1

/-- P, the least distance of two output positions (R138, R205, R206). `kE` and `kS` are 2 where the other side's gang crosses an east or a
south border of this one, 1 otherwise. -/
def positionInterval (form b df gw gh kE kS : Nat) : Nat :=
  let east := if gw ≤ 1 then 0 else ceilDiv (kE * (2 * lanesOf form * b)) 64
  let south := if gh ≤ 1 then 0 else ceilDiv (kS * (128 * (1 + carrySlots df))) 64
  let north := if gh ≤ 1 || df % 256 == 0 then 0 else ceilDiv (kS * 128) 64
  [b, issueInterval form, east, south, north].foldl Nat.max 1

/-- V(n): the crossings of the `n` south borders below grid row `y`, 2 cycles each and 4 more at a region boundary (R25, R203). -/
def southDelay (y n : Nat) : Nat := ((List.range n).map (fun i => if (y + i + 1) % 4 == 0 then 6 else 2)).sum

/-- D_col of a single array, D_gang of a gang (R133, R204). -/
def latencyOf (form b y gh : Nat) : Nat :=
  if gh ≤ 1 then columnLatency b (lanesOf form) else 32 * gh * b + 8 * gh + southDelay y (gh - 1)

/-- The bubbles that a held reduction chunk adds before its first position: what N_c (M P + G) falls short of the latency (R146, R208). -/
def heldBubbles (latency south nc m p g : Nat) : Nat := latency + 5 + south - nc * (m * p + g)

/-- A chunk takes its psum-in from the window, unless it starts a granule: then it takes −0.0 (R146, R166). -/
def readsWindow (o : Oper) (k0 : Nat) : Bool := k0 != 0 && (o.acc != 0 || k0 % 256 != 0)

/-- G of a moving front of `w` taps (R142). -/
def movingGap (w d form : Nat) : Nat := w * d + issueInterval form

/-- G of a stopped reload (R143). -/
def stoppedGap (bOld dOld w d form : Nat) : Nat := skew bOld (dOld - 1) + 32 + w * d + issueInterval form

/-- The numbers 0 to n − 1, reversed on an odd iteration under SERP (R376). -/
def walkRange (n : Nat) (rev : Bool) : List Nat := if rev then (List.range n).reverse else List.range n

/-- The scratchpad tiles (m, n, k) of a walk, in its order (R376). ORDER lists the loops from outermost to
innermost; under SERP the direction turns over with every iteration of the enclosing loop that the walk makes (DEDUCED, log 46). -/
def walkTiles (order : Nat) (serp : Bool) (cm cn ck : Nat) : List (Nat × Nat × Nat) :=
  match order with
  | 0 => (List.range cm).flatMap (fun i => (walkRange cn (serp && i % 2 == 1)).flatMap (fun j => (List.range ck).map (fun l => (i, j, l))))
  | 1 => (List.range cm).flatMap (fun i => (List.range ck).flatMap (fun l => (walkRange cn (serp && (i * ck + l) % 2 == 1)).map (fun j => (i, j, l))))
  | 2 => (List.range cn).flatMap (fun j => (walkRange cm (serp && j % 2 == 1)).flatMap (fun i => (List.range ck).map (fun l => (i, j, l))))
  | 3 => (List.range cn).flatMap (fun j => (List.range ck).flatMap (fun l => (walkRange cm (serp && (j * ck + l) % 2 == 1)).map (fun i => (i, j, l))))
  | 4 => (List.range ck).flatMap (fun l => (List.range cm).flatMap (fun i => (walkRange cn (serp && (l * cm + i) % 2 == 1)).map (fun j => (i, j, l))))
  | _ => (List.range ck).flatMap (fun l => (List.range cn).flatMap (fun j => (walkRange cm (serp && (l * cn + j) % 2 == 1)).map (fun i => (i, j, l))))

/-- Logical columns among the `n` of an output tile that gang column `gx` serves, column chunk by column chunk (R145, R201). -/
def columnsServed (slices width : Nat) (cols : List (List Nat)) (gx n : Nat) : Nat :=
  ((List.range n).filter (fun i => (placeOf slices 0 cols (i % (if width == 0 then 1 else width))).1 == gx)).length

/-- What is left of `n` from `a`, at most `c`. -/
def extent (n a c : Nat) : Nat := if n - a < c then n - a else c

/-- The passes of one logical tile: reduction chunks ascending, column chunks ascending in each (R145). -/
def tilePasses (df width : Nat) (base : Pass) (kLo kHi k nLo nHi : Nat) : List Pass :=
  (List.range (ceilDiv (kHi - kLo) df)).flatMap (fun kc =>
    (List.range (ceilDiv (nHi - nLo) width)).map (fun nc =>
      let k0 := kLo + kc * df
      let n0 := nLo + nc * width
      { base with
        k0 := k0, kEnd := k0 + extent kHi k0 df, last := k0 + extent kHi k0 df == k,
        n0 := n0, ncols := extent nHi n0 width }))

/-- Taps and loads of consecutive weight sets: with w = 1 each after the first is a moving front into the other of taps 0 and
1, every other change a stopped reload of taps 0 to w − 1 (R142, R143). -/
def assignTaps (w : Nat) : Bool → Nat → List Pass → List Pass
  | _, _, [] => []
  | first, i, p :: ps =>
    { p with
      tap := if w == 1 then i % 2 else 0, loads := w,
      kind := if first || w != 1 then LoadKind.stopped else LoadKind.moving } :: assignTaps w false (i + 1) ps

def blankPass : Pass :=
  { slot := 0, part := 0, k0 := 0, kEnd := 0, last := false, n0 := 0, ncols := 0, q0 := 0, nq := 0, tileRows := 0, tileCols := 0, tap := 0,
    loads := 0, kind := .none, block := 0 }

/-- The weight sets of a SINGLE step over rows [mLo, mHi) and columns [nLo, nHi), in the order of its walk (R145, R376). A
BF16×3 step makes the walk three times, for hl, lh and hh (R114; DEDUCED, log 16). -/
def walkPasses (o : Oper) (df width mLo mHi nLo nHi k : Nat) : List Pass :=
  let cm := ceilDiv (mHi - mLo) o.tm
  let cn := ceilDiv (nHi - nLo) o.tn
  let ck := ceilDiv k o.tk
  let parts := if o.fmtMov == fmtBF16X2 then 3 else 1
  assignTaps o.taps true 0 ((List.range parts).flatMap (fun pt =>
    (walkTiles o.order o.serp cm cn ck).flatMap (fun (i, j, l) =>
      let q0 := mLo + i * o.tm
      let n0 := nLo + j * o.tn
      let nq := extent mHi q0 o.tm
      let nn := extent nHi n0 o.tn
      let base := { blankPass with slot := pt * (cm * cn) + i * cn + j, part := pt, q0 := q0, nq := nq, tileRows := nq, tileCols := nn }
      tilePasses df width base (l * o.tk) (l * o.tk + extent k (l * o.tk) o.tk) k n0 (n0 + nn))))

/-- The blocks of a paired step in order, (kc, ng, mi, j) (R233). -/
def pairOrder (kp np mp : Nat) : List (Nat × Nat × Nat × Nat) :=
  (List.range kp).flatMap (fun kc => (List.range (ceilDiv np 4)).flatMap (fun ng =>
    (List.range mp).flatMap (fun mi => (List.range (extent np (4 * ng) 4)).map (fun j => (kc, ng, mi, j)))))

/-- Array A's passes of a paired step: an A-group of four taps loads by stopped reload (R232, R233). A slot holds the outputs of one token
chunk and one column chunk (log 24). -/
def pairPassesA (df width m n kLo k : Nat) : List Pass :=
  let np := ceilDiv n df
  let mp := ceilDiv m df
  (List.zipIdx (pairOrder (ceilDiv (k - kLo) width) np mp)).map (fun ((kc, ng, mi, j), b) =>
    let c := (4 * ng + j) * df
    let t := mi * df
    let n0 := kLo + kc * width
    { blankPass with
      slot := kc * mp + mi, k0 := c, kEnd := c + extent n c df, last := c + extent n c df == n, n0 := n0, ncols := extent k n0 width,
      q0 := t, nq := extent m t df, tileRows := extent m t df, tileCols := extent k n0 width, tap := j,
      loads := if mi == 0 && j == 0 then extent np (4 * ng) 4 else 0, kind := .stopped, block := b })

/-- Array B's passes of a paired step: one weight set for each token chunk, by moving front in taps 0 and 1 in turn (R232,
R233). A slot holds the outputs of one chunk of features and one column chunk (log 24). -/
def pairPassesB (df width m n kLo k : Nat) : List Pass :=
  let np := ceilDiv n df
  let mp := ceilDiv m df
  (List.zipIdx (pairOrder (ceilDiv (k - kLo) width) np mp)).map (fun ((kc, ng, mi, j), b) =>
    let c := (4 * ng + j) * df
    let t := mi * df
    let n0 := kLo + kc * width
    { blankPass with
      slot := kc * np + 4 * ng + j, k0 := t, kEnd := t + extent m t df, last := t + extent m t df == m, n0 := n0, ncols := extent k n0 width,
      q0 := c, nq := extent n c df, tileRows := extent n c df, tileCols := extent k n0 width, tap := ((kc * ceilDiv np 4 + ng) * mp + mi) % 2,
      loads := if j == 0 then 1 else 0, kind := if b == 0 then .stopped else .moving, block := b })

/-- Array A's passes of a fused pair: block p is the M × KB product over the whole reduction (R264, R269). -/
def fusedPassesA (o : Oper) (df width m n k : Nat) : List Pass :=
  assignTaps 1 true 0 ((List.range (ceilDiv n o.kb)).flatMap (fun p =>
    let n0 := p * o.kb
    let nn := extent n n0 o.kb
    tilePasses df width { blankPass with slot := p, nq := m, tileRows := m, tileCols := nn, block := p } 0 k k n0 (n0 + nn)))

/-- Array B's passes: in ELEM mode one reduction over all hidden indices, in SOFTMAX mode one root record for each block (R264). -/
def fusedPassesB (o : Oper) (df width m n dh : Nat) : List Pass :=
  assignTaps 1 true 0 ((List.range (ceilDiv n o.kb)).flatMap (fun p =>
    let k0 := p * o.kb
    let kk := extent n k0 o.kb
    if o.mode == 3 then
      tilePasses df width { blankPass with slot := p, nq := m, tileRows := m, tileCols := dh, block := p } 0 kk kk 0 dh
    else tilePasses df width { blankPass with nq := m, tileRows := m, tileCols := dh, block := p } k0 (k0 + kk) n 0 dh))

end Sys2Proof.Machine
end

