-- ==== Sys2Proof/Machine/Arrays.lean ====
section
/-! DEFINITION. What an array's job does with the state: its outputs (R169, R174, R180, R238, R260, R261, R375, R580), its
window slots (R182 to R186), its start and end (R155, R156, R200, R216, R246), and the requests that wake an array (R236,
R430, R432). -/
namespace Sys2Proof.Machine

/-- The array wants its columns: a gated array opens its gate, a falling ramp turns, a clock-gated array waits for a start
grant, and one that waits for its off-ramp stays on (R156, R236, R430, R432). -/
def Arr.request (a : Arr) : Arr :=
  if a.gated then { a with opening := true }
  else if a.ramping == 2 then { a with ramping := 1 }
  else if a.ramping == 1 then a
  else if a.ramp == 8 then { a with waiting := false }
  else { a with waiting := true }

/-- The array has no further work: it waits for the grant of its off-ramp (R156, R432). -/
def Arr.rest (a : Arr) : Arr := if a.ramp == 8 && a.ramping == 0 then { a with waiting := true } else a

/-- The array's columns are all enabled and nothing forbids admission (R153, R155, R157). -/
def Arr.ready (a : Arr) : Bool := !a.gated && !a.opening && a.ramp == 8 && a.ramping == 0 && !a.suspect && !a.busy

/-- The array is gated: unpowered, its taps lost (R428). -/
def Arr.gate (a : Arr) : Arr :=
  { a with gated := true, opening := false, ramp := 0, ramping := 0, waiting := false, taps := [] }

/-- An array at rest beside an array with work is power-gated when no step is queued for it, except in class 0 (R236, R237). -/
def Tile.gateIdle (y : Tile) (x : Side) (cls : Nat) : Tile :=
  let a := y.arr x
  if cls != 0 && (y.arrayHead x).isNone && a.job.isNone && a.ramp == 0 && a.ramping == 0 && !a.opening then y.setArr x a.gate else y

/-- Steps that an array's step queue holds (R368). -/
def Tile.arrayLoad (x : Tile) (side : Side) : Nat :=
  (x.seq.issued.filter (fun r => !r.finished && (r.unit == .array side || r.unit == .pair))).length

/-- Add to one of the counters of R180. -/
def Tile.bump (x : Tile) (i n : Nat) : Tile :=
  x.updSeq (fun q => { q with rep := { q.rep with counters := updateAt q.rep.counters i (satAdd32 · n) } })

/-- The gang column that serves output column `j`: its logical column counts from its column chunk (R145, R201, R376). -/
def Fabric.gangColumn (f : Fabric) (x : Side) (job : Job) (j : Nat) : Nat :=
  let c := if job.role == .single && job.oper.tn != 0 then j % job.oper.tn else j
  (placeOf (slicesOf job.form) 0 (f.columns x job.gx job.gy job.gw job.gh) (c % (if job.width == 0 then 1 else job.width))).1

/-- The bottom tile of a gang column: its PDU takes the psum-outs and it holds the window (R181, R200). -/
def Job.bottom (job : Job) (col : Nat) : Nat := tileAt (job.gx + col) (job.gy + job.gh - 1)

/-- The bottom tile that serves output column `j` (R200, R580). -/
def Fabric.bottomTile (f : Fabric) (x : Side) (job : Job) (j : Nat) : Nat := job.bottom (f.gangColumn x job j)

/-- The output plane of an array of a step (R375). -/
def Job.plane (job : Job) (x : Side) : OutPlane :=
  let o := job.oper
  let int := o.acc == 2
  match x with
  | .a => outPlane o.outA o.pitchA o.auxA o.conv job.n o.rootA int
  | .b => outPlane o.outB o.pitchB o.auxB o.conv job.n o.rootB int

/-- Masked layers: element dQ[k][n] is written only when both its bits are 1 (R238). -/
def Fabric.maskOpen (f : Fabric) (w : Nat) (job : Job) (q j : Nat) : Bool :=
  if job.role != .pairB || !job.oper.mask then true
  else bitOf (leNat (f.spRead w (job.oper.maskK + j / 8) 1)) (j % 8) && bitOf (leNat (f.spRead w (job.oper.maskN + q / 8) 1)) (q % 8)

/-- Where the accumulate input of a tile counts from (R323, R375). -/
def Fabric.cinBase (f : Fabric) (w : Nat) (job : Job) : Nat :=
  match job.cinWb with
  | some d => (f.tile w).computeBase d
  | none => 0

/-- The accumulate input of output (q, j) as the writing tile `w` reads it, with WBC from its own working buffer (R323, R375). -/
def Fabric.cinAt (f : Fabric) (w : Nat) (job : Job) (q j : Nat) : Option (BitVec 32) :=
  job.cin.map (fun c => BitVec.ofNat 32 (leNat (f.spRead w (f.cinBase w job + c + 4 * (q * job.n + j)) 4)))

/-- The read of an accumulate input is checked: a corrected value is used, and a detected error gives none (R284, R301). -/
def Fabric.cinCheck (f : Fabric) (w : Nat) (job : Job) (q j : Nat) : Fabric × Bool :=
  match job.cin with
  | some c => f.spCheck w (f.cinBase w job + c + 4 * (q * job.n + j)) 4
  | none => (f, true)

/-- The counters of one converted output (R180, R189). -/
def Tile.countOutput (x : Tile) (raw : Bool) (c : PartRoot) : Tile :=
  if raw then x
  else ((x.bump 0 (boolNat (decide (1 ≤ c.o)))).bump 1 (boolNat (decide (2 ≤ c.o)))).bump 2 (boolNat c.inf)

/-- Elements of a block that are present: 32, or what is left of the row (R261). -/
def blockWidth (n b : Nat) : Nat := extent n (32 * b) 32

/-- The old element codes of a block, for masked elements, which leave memory unchanged (R238). -/
def Fabric.oldCodes (f : Fabric) (w fmt off n : Nat) : List Nat :=
  let bs := f.spRead w off (fmtBits fmt * 4)
  (List.range n).map (packedElem fmt bs)

/-- A whole MX block of an array output: `keep` marks the elements that are written and counted (R238, R261, R580). -/
def Fabric.putMaskedBlock (f : Fabric) (h : Hist) (t : Nat) (o : OutPlane) (k : SrKey) (r b : Nat) (xs : List (BitVec 32))
    (keep : List Bool) : Fabric × Hist :=
  if keep.all id then putBlock f h t o k r b xs
  else if !keep.any id then (f, h)
  else
    let w := fmtBits o.conv.fmt
    let off := o.base + r * o.pitch + 4 * w * b
    let old := f.oldCodes t o.conv.fmt off 32
    let (g, _) := putBlock f h t o k r b xs
    let new := g.oldCodes t o.conv.fmt off 32
    let codes := (List.range 32).map (fun i => if keep.getD i true then new.getD i 0 else old.getD i 0)
    let vs := xs.map (resultVal o.int)
    let us := (List.range xs.length).map (fun i => k.at (r * o.cols + 32 * b + i))
    let padded := vs ++ List.replicate (32 - xs.length) (FVal.fin false 0 0)
    let classes := (mxBlock o.conv.fmt o.conv.sat o.conv.sr (us ++ List.replicate (32 - xs.length) 0) padded).2
    let h := (List.zip (List.zip vs keep) classes).foldl (fun h p => if p.1.2 then histCount h (rne32 p.1.1) p.2.2 else h) h
    (g.spWrite t off (packCodes w codes), h)

/-- One output (q, j) before conversion is written by its bottom tile: at once, or when its MX block is whole in the tile that
holds the block's first column (R261, R580). -/
def State.putOutput (s : State) (x : Side) (job : Job) (q j : Nat) (v : BitVec 32) (c : PartRoot) : State × Job :=
  let o := job.plane x
  let w := s.fab.bottomTile x job j
  let key : SrKey := ⟨job.workId, job.step, job.pass⟩
  let isOpen := s.fab.maskOpen w job q j
  if !o.raw && isMx o.conv.fmt then
    let b := j / 32
    let n := blockWidth job.n b
    let slot := q * ceilDiv job.n 32 + b
    let vals := updateAt (tabGet (List.replicate n none) job.staged slot) (j % 32) (fun _ => some v)
    let s := if isOpen then s.updTile w (fun y => y.countOutput o.raw c) else s
    if vals.all Option.isSome then
      let first := s.fab.bottomTile x job (32 * b)
      let keep := (List.range n).map (fun i => s.fab.maskOpen first job q (32 * b + i))
      let (f, h) := s.fab.putMaskedBlock (s.tile first).seq.rep.hist first o key q b (vals.map (Option.getD · 0)) keep
      ((s.setFab f).updTile first (fun y => y.setHist h), { job with staged := job.staged.filter (fun p => p.1 != slot) })
    else (s, { job with staged := tabSet job.staged slot vals })
  else if !isOpen then (s, job)
  else
    let (f, h) := putPlain s.fab (s.tile w).seq.rep.hist w o key q j v
    ((s.setFab f).updTile w (fun y => (y.countOutput o.raw c).setHist h), job)

/-- A root of a fused pair's array A or of a SOFTMAX block goes to the fused buffer, scaled by SCALE before the softmax (R264,
R267). -/
def Tile.putFused (y : Tile) (job : Job) (block q j : Nat) (v : F32) : Tile :=
  match y.fusedRun with
  | none => y
  | some r =>
    if job.role == .fusedA then
      let v := if job.oper.mode == 3 then fmul v (BitVec.ofNat 32 job.oper.scale) else v
      { y with fusedRun := some { r with s := tabSet r.s block (tabSet (tabGet [] r.s block) (q * job.oper.kb + (j - block * job.oper.kb)) v) } }
    else
      { y with fusedRun := some { r with r := tabSet r.r block (tabSet (tabGet [] r.r block) (q * r.dh + j) v) } }

/-- The end of one output's reduction: its root, offset removed, goes where the job's role sends it; BF16×3 joins its three
roots in the order (hl + lh) + hh first (R114, R169, R174). -/
def State.rootDone (s : State) (t : Nat) (x : Side) (job : Job) (block q j : Nat) (a : Acc) : State × Job :=
  let mine : PartRoot := ⟨a.rootValue job.plan, a.o, a.fin, false⟩
  let idx := q * job.n + j
  let rs := tabGet [] job.parts idx ++ [mine]
  if job.oper.fmtMov == fmtBF16X2 && rs.length < 3 then (s, { job with parts := tabSet job.parts idx rs })
  else
    let job := if job.oper.fmtMov == fmtBF16X2 then { job with parts := job.parts.filter (fun p => p.1 != idx) } else job
    let int := job.plan.int
    let root := if job.oper.fmtMov == fmtBF16X2 then
        junctionAdd int (junctionAdd int ((rs.getD 0 mine).root) ((rs.getD 1 mine).root)) ((rs.getD 2 mine).root)
      else mine.root
    let fin := rs.all (·.fin)
    let c : PartRoot := ⟨root, (rs.map (·.o)).foldl Nat.max 0, fin, rescaleInf int fin root⟩
    let fused := job.role == .fusedA || (job.role == .fusedB && job.oper.mode == 3)
    if fused then (s.updTile t (fun y => y.putFused job block q j (outputValue int root none)), job)
    else
      let w := s.fab.bottomTile x job j
      let k := s.fab.cinCheck w job q j
      let s := s.setFab k.1
      if k.2 then s.putOutput x job q j (outputValue int root (s.fab.cinAt w job q j)) c else (s, job)

/-- Output rows, output columns and reduction length of a window slot at the planned maxima (R182; log 24). -/
def slotDims (o : Oper) (role : JobRole) : Nat × Nat × Nat :=
  let df := 32 * o.beat * o.rate
  match role with
  | .single => (Nat.min o.tm o.maxM, Nat.min o.tn o.maxN, o.maxK)
  | .pairA => (Nat.min df o.maxM, Nat.min 32 o.maxK, o.maxN)
  | .pairB => (Nat.min df o.maxN, Nat.min 32 o.maxK, o.maxM)
  | .fusedA => (o.maxM, Nat.min o.kb o.maxN, o.maxK)
  | .fusedB => if o.mode == 3 then (o.maxM, o.maxK, o.kb) else (o.maxM, o.tn, o.maxN)

/-- Bytes of one window slot (R182). -/
def slotBytes (o : Oper) (role : JobRole) : Nat :=
  let d := slotDims o role
  let e := if o.acc == 0 then 1 + treeDepth d.2.2 else 1
  roundUp (64 + 4 * d.1 * d.2.1 * e + 32 * ceilDiv (d.1 * d.2.1) 128) 256

/-- The roles that a step's arrays take. -/
def Oper.roles (o : Oper) : List JobRole :=
  if o.mode == 0 then [.single] else if o.mode == 1 then [.pairA, .pairB] else [.fusedA, .fusedB]

/-- The window holds one slot of each array at the planned maxima (R183). -/
def Oper.windowOk (o : Oper) : Bool := o.roles.all (fun r => decide (slotBytes o r ≤ o.winSize))

/-- Slots that an array's part of the window holds: a step on both arrays halves it (log 24). -/
def Job.windowSlots (job : Job) : Nat :=
  Nat.max 1 ((if job.role == .single then job.oper.winSize else job.oper.winSize / 2) / slotBytes job.oper job.role)

/-- Where a tile's share of the spill area begins, as a device address, and the slots of the job that it holds: equal shares in ascending
order of tiles, each a multiple of 256 B (R185). A step on both arrays gives array B the upper half (log 24). -/
def Part.spillShare (p : Part) (w : Nat) (x : Side) (job : Job) : Nat × Nat :=
  match p.comp with
  | none => (0, 0)
  | some c =>
    if c.part.spillBase == 0 || c.part.ntiles == 0 then (0, 0)
    else
      let share := c.part.spillSize / c.part.ntiles / 256 * 256
      let base := c.part.spillBase + (c.part.tiles.findIdx? (· == w)).getD 0 * share
      let n := share / slotBytes job.oper job.role
      if job.role == .single then (base, n)
      else (base + (match x with
        | .a => 0
        | .b => n / 2 * slotBytes job.oper job.role), n / 2)

/-- Outcome of asking for window slots: the job with them, and the slots spilled for it as (gang column, place in the share). -/
inductive SlotTry where
  | ready (j : Job) (spills : List (Nat × Nat))
  | wait
  | full
  deriving DecidableEq, Repr

/-- The least recently used resident slot of a gang column that has no partial sum in flight (R184). -/
def Job.victim (job : Job) (keep col : Nat) : Option Slot :=
  (job.slots.filter (fun v => v.col == col && v.spilled.isNone && v.key != keep &&
      !job.flights.any (fun f => f.slot == v.key && f.col == col))).foldl
    (fun (b : Option Slot) v => match b with
      | none => some v
      | some u => if v.stamp < u.stamp then some v else b) none

/-- The first place of the tile's share that holds no slot. -/
def Job.freePlace (job : Job) (col share : Nat) : Option Nat :=
  (List.range share).find? (fun i => !job.slots.any (fun v => v.col == col && v.spilled == some i))

/-- Room for one more resident slot of a gang column: free, or made by spilling the victim into the bottom tile's share (R184 to R186,
R221). -/
def Job.makeRoom (job : Job) (share keep col : Nat) : SlotTry :=
  if (job.slots.filter (fun v => v.col == col && v.spilled.isNone)).length < job.windowSlots then .ready job []
  else match job.freePlace col share with
    | none => .full
    | some i => match job.victim keep col with
      | none => .wait
      | some v => .ready { job with
          slots := job.slots.map (fun u => if u.key == v.key && u.col == col then { u with spilled := some i } else u) } [(col, i)]

/-- The slot of a pass in one gang column is taken at the first chunk of its output tile, or found; a spilled one waits for its reload
(R183, R184). `served` are the gang column's columns of the output tile. -/
def Job.takeSlot (job : Job) (share served : Nat) (p : Pass) (col : Nat) : SlotTry :=
  match job.slots.find? (fun v => v.key == p.slot && v.col == col) with
  | some v =>
    if v.spilled.isSome then .wait
    else .ready { job with
      slots := job.slots.map (fun u => if u.key == p.slot && u.col == col then { u with stamp := job.stamp } else u), stamp := job.stamp + 1 } []
  | none =>
    match job.makeRoom share p.slot col with
    | .ready j n => .ready { j with slots := j.slots ++ [⟨p.slot, col, [], p.tileRows * served, j.stamp, none⟩], stamp := j.stamp + 1 } n
    | r => r

/-- The slots of a pass in every gang column that it uses (R200). -/
def Job.takeSlots (job : Job) (share served : Nat → Nat) (p : Pass) : List Nat → SlotTry
  | [] => .ready job []
  | c :: cs =>
    match job.takeSlot (share c) (served c) p c with
    | .ready j n =>
      (match Job.takeSlots j share served p cs with
       | .ready j' n' => .ready j' (n ++ n')
       | r => r)
    | r => r

/-- The gang columns that serve `n` logical columns from the first (R201). -/
def Fabric.gangColumns (f : Fabric) (x : Side) (job : Job) (n : Nat) : List Nat :=
  (List.range job.gw).filter (fun c =>
    columnsServed (slicesOf job.form) job.width (f.columns x job.gx job.gy job.gw job.gh) c n != 0)

/-- Every slot that a pass needs (R183, R184, R200). -/
def State.slotsFor (s : State) (part : Part) (x : Side) (job : Job) (p : Pass) : SlotTry :=
  let cols := s.fab.columns x job.gx job.gy job.gw job.gh
  job.takeSlots (fun c => (part.spillShare (job.bottom c) x job).2)
    (fun c => columnsServed (slicesOf job.form) job.width cols c p.tileCols) p (s.fab.gangColumns x job p.ncols)

/-- A piece of a range of device addresses that lies in one codeword: its address and length. -/
def codewordPieces (a n : Nat) : List (Nat × Nat) :=
  if n == 0 then []
  else (List.range ((a + n - 1) / 64 - a / 64 + 1)).map (fun i =>
    let w := 64 * (a / 64 + i)
    let lo := if a < w then w else a
    let hi := if w + 64 < a + n then w + 64 else a + n
    (lo, hi - lo))

/-- A slot is written to its place in the spill area. Its layout is internal to the device (R182), so the bytes are free values (log 55);
the answer is the status of the write. -/
def State.writeSpill (s : State) (part : Part) (x : Side) (job : Job) (col place : Nat) : State × Nat :=
  let n := slotBytes job.oper job.role
  let a := (part.spillShare (job.bottom col) x job).1 + place * n
  let r := (codewordPieces a n).foldl (fun (r : Fabric × Nat) e =>
    let d := devAddr e.1
    let w := r.1.colWrite d.tile d.off ((List.range e.2).map (fun i => Config.freeByte (s.free + (e.1 - a) + i)))
    (w.2, if r.2 == stOk then w.1 else r.2)) (s.fab, stOk)
  (({ s with free := s.free + n }.setFab r.1).updTile (job.bottom col) (fun y => y.bump 5 1), r.2)

/-- The slots spilled to make room are written, and each is counted at its bottom tile (R180, R184). -/
def State.writeSpills (s : State) (part : Part) (x : Side) (job : Job) (spills : List (Nat × Nat)) : State × Nat :=
  spills.foldl (fun (r : State × Nat) e =>
    let w := r.1.writeSpill part x job e.1 e.2
    (w.1, if r.2 == stOk then w.2 else r.2)) (s, stOk)

/-- A spilled slot is read back; DS_UNCORR when a codeword of it is lost (R184, R301, R489). -/
def State.readSpill (s : State) (part : Part) (x : Side) (job : Job) (col place : Nat) : Nat :=
  let n := slotBytes job.oper job.role
  (codewordPieces ((part.spillShare (job.bottom col) x job).1 + place * n) n).foldl (fun st e =>
    let d := devAddr e.1
    if st == stOk then (s.fab.colRead d.tile d.off e.2).1 else st) stOk

/-- Nothing of the job is left to do. -/
def Job.finished (job : Job) : Bool := job.passes.isEmpty && job.flights.isEmpty && job.slots.isEmpty && job.retries.isEmpty

/-- The tiles of a logical array with their head step, none while one of them is not yet there (R200, R209). -/
def State.members (s : State) (x : Side) (r : StepRun) : List Nat → Option (List (Nat × Nat))
  | [] => some []
  | t :: ts =>
    match (s.tile t).arrayHead x, s.members x r ts with
    | some h, some rest => if h.step == r.step && h.pass == r.pass && h.unit == r.unit then some ((t, h.id) :: rest) else none
    | _, _ => none

/-- The tiles that run one operator step together, and in the fallback of an impaired gang the share of this tile: its place among the
surviving tiles and their number (R200, R216). -/
structure OperGroup where
  tiles : List Nat
  fallback : Bool
  share : Nat
  count : Nat
  deriving DecidableEq, Repr

/-- The tiles that run an operator step together with tile `t` (R200, R216). In the fallback a lost tile's rank brings no share of its own:
the survivors' shares cover the whole logical tile (R216, R390). -/
def State.groupOf (s : State) (p : Part) (st : ItinStep) (t rank : Nat) (xs : List Side) : OperGroup :=
  match p.comp, st.tgt with
  | some c, .gang i =>
    match c.gangs[i]? with
    | none => ⟨[t], false, 0, 1⟩
    | some g =>
      let ts := g.tiles
      if ts.any p.lost.contains || ts.any (fun u => xs.any (fun x => ((s.tile u).arr x).impaired)) then
        let live := ts.filter (fun u => !p.lost.contains u)
        ⟨[t], true, if ts[rank]? == some t then (live.findIdx? (· == t)).getD live.length else live.length, live.length⟩
      else ⟨ts, false, 0, 1⟩
  | _, _ => ⟨[t], false, 0, 1⟩

/-- A contiguous share of `n`, a multiple of `unit` but at the end: tile `i` of `c` (R216; DESIGN CHOICE, log 25). -/
def shareOf (n i c unit : Nat) : Nat × Nat :=
  let z := roundUp (ceilDiv n (if c == 0 then 1 else c)) unit
  let lo := if i * z < n then i * z else n
  (lo, lo + extent n lo z)

/-- The rows of a step that a group computes: all, or in the fallback a share when FBK divides positions (R216). -/
def OperGroup.rows (g : OperGroup) (st : ItinStep) (m : Nat) : Nat × Nat :=
  if g.fallback && st.fbk then shareOf m g.share g.count 1 else (0, m)

/-- The columns of a step that a group computes: shares of whole blocks of 32, so that no MX block is divided; a paired step always divides
its columns (R216, R247). -/
def OperGroup.columns (g : OperGroup) (st : ItinStep) (paired : Bool) (n : Nat) : Nat × Nat :=
  if g.fallback && (paired || !st.fbk) then shareOf n g.share g.count 32 else (0, n)

/-- The job that an operator step makes on one array. -/
def State.newJob (s : State) (p : Part) (st : ItinStep) (o : Oper) (r : StepRun) (t : Nat) (x : Side) (role : JobRole)
    (runs : List (Nat × Nat)) (g : OperGroup) : Job :=
  let q := (s.tile t).seq
  let alone := decide (runs.length ≤ 1)
  let form := if g.fallback then 0 else o.form
  let xs := runs.map (fun u => tileX u.1)
  let ys := runs.map (fun u => tileY u.1)
  let gx := xs.foldl Nat.min (tileX t)
  let gy := ys.foldl Nat.min (tileY t)
  let gw := if alone then 1 else xs.foldl Nat.max 0 + 1 - gx
  let gh := if alone then 1 else ys.foldl Nat.max 0 + 1 - gy
  let m := dimValue q.ctx o.dimM
  let n := dimValue q.ctx o.dimN
  let k := dimValue q.ctx o.dimK
  let w (y : Side) := widthOf (slicesOf form) (s.fab.columns y gx gy gw gh)
  let width := match role with
    | .pairA => Nat.min (w .a) (w .b)
    | .pairB => Nat.min (w .a) (w .b)
    | _ => w x
  let df := lanesOf form * gh * o.beat * o.rate
  let dh := if o.mode == 3 then k else o.tn
  let rows := g.rows st m
  let cols (paired : Bool) (n : Nat) := g.columns st paired n
  let (jm, jn, jk) := match role with
    | .single => (m, n, k)
    | .pairA => (m, k, n)
    | .pairB => (n, k, m)
    | .fusedA => (m, n, k)
    | .fusedB => (m, dh, if o.mode == 3 then o.kb else n)
  let passes := match role with
    | .single => walkPasses o df width rows.1 rows.2 (cols false n).1 (cols false n).2 k
    | .pairA => pairPassesA df width m n (cols true k).1 (cols true k).2
    | .pairB => pairPassesB df width m n (cols true k).1 (cols true k).2
    | .fusedA => fusedPassesA o df width m n k
    | .fusedB => fusedPassesB o df width m n dh
  let wide := match pairGroup o.fmtMov o.fmtSta with
    | some .wide => true
    | some .bf16x3 => true
    | _ => false
  let hasCin := o.hasCin && role != .pairB && role != .fusedA && o.mode != 3
  { runs := runs, step := r.step, pass := r.pass, workId := q.ctx.workId, role := role, oper := o, form := form, gx := gx, gy := gy,
    gw := gw, gh := gh, m := jm, n := jn, k := jk, width := width, cin := if hasCin then some o.cin else none,
    cinWb := if st.wbc then some p.discipline else none,
    plan := { depth := if o.acc == 0 then treeDepth jk else 0, int := o.acc == 2, wrap := p.exactInt, wide := wide },
    passes := passes, loaded := 0, q := 0, flights := [], slots := [], stamp := 0, retries := [], kept := [], parts := [], staged := [] }

/-- With K = 0 every output is the accumulate input, or zero (R169, R385). -/
def State.emptyOutputs (s : State) (x : Side) (job : Job) (qs js : Nat × Nat) : State :=
  let c : PartRoot := ⟨none, 0, true, false⟩
  ((List.range (qs.2 - qs.1)).foldl (fun (r : State × Job) i =>
    (List.range (js.2 - js.1)).foldl (fun (r : State × Job) k =>
      let w := r.1.fab.bottomTile x r.2 (js.1 + k)
      r.1.putOutput x r.2 (qs.1 + i) (js.1 + k) (outputValue r.2.plan.int none (r.1.fab.cinAt w r.2 (qs.1 + i) (js.1 + k))) c) r) (s, job)).1

/-- The steps of a job are finished on every tile of the array. -/
def State.finishRuns (s : State) (runs : List (Nat × Nat)) : State :=
  runs.foldl (fun s u => s.updTile u.1 (fun y => y.finishRun u.2)) s

/-- A job begins: its arrays take the form, wake, and start their own clocks (R136, R155, R210). -/
def State.placeJob (s : State) (t : Nat) (x : Side) (job : Job) : State :=
  let s := job.tiles.foldl (fun s u => s.updTile u (fun y => y.updArr x (fun a => { a with form := job.form }.request))) s
  s.updTile t (fun y => y.updArr x (fun a => { a with job := some job, lastIssue := 0, nextIssue := 0 }))

/-- The fused pair that a step begins on its tile (R264, R267, R269). -/
def newFused (o : Oper) (run m n dh : Nat) : Fused :=
  { run := run, oper := o, m := m, n := n, dh := dh, period := 0, blocks := ceilDiv n o.kb, s := [], p := [], alphas := [], r := [],
    rows := List.replicate m (SoftRow.start dh) }

/-- An operator step begins on its logical array. With nothing to compute it is finished at once; with K = 0 a SINGLE step writes its
accumulate input or zeros (R169, R385). -/
def State.beginOper (s : State) (p : Part) (st : ItinStep) (o : Oper) (r : StepRun) (t : Nat) (x : Side) (runs : List (Nat × Nat))
    (g : OperGroup) : State :=
  let job (x : Side) (role : JobRole) := s.newJob p st o r t x role runs g
  if o.mode == 0 then
    let j := job x .single
    if j.k == 0 then (s.emptyOutputs x j (g.rows st j.m) (g.columns st false j.n)).finishRuns runs
    else if j.passes.isEmpty then s.finishRuns runs
    else s.placeJob t x j
  else if o.mode == 1 then
    if (job .a .pairA).passes.isEmpty then s.finishRuns runs
    else (s.placeJob t .a (job .a .pairA)).placeJob t .b (job .b .pairB)
  else
    let ja := job .a .fusedA
    let jb := job .b .fusedB
    ((s.placeJob t .a ja).placeJob t .b jb).updTile t (fun y =>
      { y with fusedRun := some (newFused o r.id ja.m ja.n jb.n), vopening := y.vopening || y.vgated })

/-- The step at the head of an array's queue begins once every tile of its logical array has come to it (R209, R246). A tile
that skipped the step leaves nothing to wait for: the others' steps are finished without effect (DESIGN CHOICE, log 26). -/
def State.startHead (s : State) (t : Nat) (x : Side) : State :=
  match (s.tile t).arrayHead x, s.partAt t with
  | some r, some (_, p) =>
    match p.itin[r.step]? with
    | some st =>
      match st.body with
      | .oper o =>
        let sides : List Side := if r.unit == .pair then [.a, .b] else [x]
        let g := s.groupOf p st t r.rank sides
        let origin := g.tiles.headD t
        let free := sides.all (fun y => ((s.tile origin).arr y).job.isNone)
        if !free || !(g.tiles.all (fun u => sides.all (s.admits u))) then s
        else if g.count ≤ g.share then s.updTile t (fun y => y.finishRun r.id)
        else if g.tiles.any (fun u => (s.tile u).inSkip &&
            !(s.tile u).seq.issued.any (fun h => h.step == r.step && h.pass == r.pass && !h.finished)) then
          s.updTile t (fun y => y.finishRun r.id)
        else
          match (if sides.all (fun y => (s.members y r g.tiles).isSome) then s.members x r g.tiles else none) with
          | none => s
          | some runs => s.beginOper p st o r origin x runs g
      | _ => s
    | none => s
  | _, _ => s

/-- Every array of these tiles begins what it can; a step that was finished at once lets the next one begin. -/
def State.kickAll (s : State) (ts : List Nat) : State :=
  (List.range 5).foldl (fun s _ => ts.foldl (fun s t => (s.startHead t .a).startHead t .b) s) s

/-- Arrays with no step left wait for their off-ramp (R156, R210). -/
def State.restArrays (s : State) (ts : List Nat) (x : Side) : State :=
  ts.foldl (fun s t =>
    if ((s.tile t).arrayHead x).isNone then s.updTile t (fun y => y.updArr x Arr.rest) else s) s

/-- A step works on both arrays. -/
def JobRole.both (r : JobRole) : Bool := r != .single

/-- The job has ended: its steps finish, the next step begins, an idle array rests. A paired step ends with its second array, and its
presented block with it (R224, R246). -/
def State.endJob (s : State) (t : Nat) (x : Side) (job : Job) : State :=
  let s := s.updTile t (fun y => y.updArr x (fun a => { a with job := none }))
  if job.role.both && (((s.tile t).arr (otherSide x)).job).isSome then s
  else
    let s := if job.role.both then job.tiles.foldl (fun s u => s.updTile u (fun y => { y with pairNow := none })) s else s
    let s := (s.finishRuns job.runs).kickAll job.tiles
    let s := s.restArrays job.tiles x
    if job.role.both then s.restArrays job.tiles (otherSide x) else s

/-- The job is put back, or ended when nothing of it is left. A fused pair ends with its last period instead (R269). -/
def State.keepJob (s : State) (t : Nat) (x : Side) (job : Job) : State :=
  if job.finished && job.role != .fusedA && job.role != .fusedB then s.endJob t x job
  else s.updTile t (fun y => y.updArr x (fun a => { a with job := some job }))

/-- The job that an array of tile `t` takes part in, with the tile that holds it. -/
def State.jobOf (s : State) (t : Nat) (x : Side) : Option (Nat × Job) :=
  s.fab.tiles.findSome? (fun e => match (e.2.arr x).job with
    | some j => if j.runs.any (fun u => u.1 == t) then some (e.1, j) else none
    | none => none)

/-- The operator steps that wait in a tile's step queues are finished without effect; those at work, by the ids `busy`, go on. -/
def Tile.dropQueued (y : Tile) (busy : List Nat) : Tile :=
  let oper (u : StepUnit) : Bool := match u with
    | .array _ => true
    | .pair => true
    | .vector => false
    | .queue _ => false
    | .engine => false
    | .none => false
  { y with seq := { y.seq with
      issued := y.seq.issued.map (fun h => if oper h.unit && !busy.contains h.id then { h with finished := true } else h) } }

/-- The ids of a tile's steps that its arrays have begun. -/
def State.atWork (s : State) (t : Nat) : List Nat :=
  [Side.a, Side.b].flatMap (fun x => match s.jobOf t x with
    | some (_, j) => (j.runs.filter (fun u => u.1 == t)).map (·.2)
    | none => [])

/-- A step ends its work item with a status: it ends on every tile of its array without a further output, the tiles enter skip mode, and
the operator steps that wait behind it do not run (R186, R386). -/
def State.failJob (s : State) (t : Nat) (x : Side) (job : Job) (code col : Nat) : State :=
  let st : Status := ⟨code, job.step, job.bottom col⟩
  let clear (y : Tile) (x : Side) : Tile := y.updArr x (fun a => { a with job := none })
  let s := s.updTile t (fun y => if job.role.both then { clear (clear y .a) .b with fusedRun := none } else clear y x)
  let s := job.tiles.foldl (fun s u => s.updTile u (fun y => (y.enterSkip st).dropQueued (s.atWork u))) s
  let s := if job.role.both then job.tiles.foldl (fun s u => s.updTile u (fun y => { y with pairNow := none })) s else s
  let s := s.finishRuns job.runs
  let s := s.kickAll (match s.partAt t with
    | some (_, p) => p.tiles
    | none => [])
  let s := s.restArrays job.tiles x
  if job.role.both then s.restArrays job.tiles (otherSide x) else s

/-- The cap level of a tile: the power loop's, and always 64 in class 0 (R435, R436). -/
def State.capLevel (s : State) (t : Nat) : Nat :=
  if (s.tile t).bound.elim true (fun p => (s.part p).cls == 0) then 64 else (tabGet ⟨64, 0⟩ s.pow.levels t).cap

/-- Every array of the job can admit work: powered, ramped up, not stopped, its partition running, its cap level above its busy cycles
in some window (R131, R153, R155, R157, R435). A fused pair drains only at the end of its period, and a drained one does not go on
(R271). -/
def State.jobReady (s : State) (x : Side) (job : Job) : Bool :=
  let fused := job.role == .fusedA || job.role == .fusedB
  job.tiles.all (fun u =>
    let a := (s.tile u).arr x
    s.capLevel u != 0 && if fused && a.busy then s.coreRuns u && { a with busy := false }.ready else s.admits u x && a.ready)

end Sys2Proof.Machine
end

