-- ==== Sys2Proof/Machine/Matrix.lean ====
section
/-! DEFINITION. The commands of the arrays: operator steps (R375, R222, R264), weight loads (R140 to R143), output positions
(R131), partial sums (R134, R163), retries (R172 to R179), window slots (R184), the pair buffer (R224 to R227), the fused
pair's period (R267, R269), and drains (R157, R271). -/
namespace Sys2Proof.Machine

/-- Under DISCIPLINE 0 a WB stream in RUN or LAST keeps operator steps from being admitted (R322). -/
def Tile.wbLoads (x : Tile) (discipline : Nat) : Bool :=
  discipline == 0 && (List.range 8).any (fun q => (x.queue q).state != .halt && (x.queue q).usesWb true false)

/-- An operator step of one MODE: its gate, the working buffer's turn (R322), its shape (R384, R385), skip mode, room in the step queue of each array it names, and
its entry into the unit (R368). -/
def State.operStep (s : State) (t mode : Nat) : State :=
  s.stepGate t (fun b => match b with | .oper o => o.mode == mode | _ => false) (fun s1 p st =>
    match st.body with
    | .oper o =>
      let x := s1.tile t
      if x.inSkip then (s1.skipStep t p st).kickAll p.tiles
      else if x.wbLoads p.discipline then s
      else
        let m := dimValue x.seq.ctx o.dimM
        let n := dimValue x.seq.ctx o.dimN
        let k := dimValue x.seq.ctx o.dimK
        let sh := shapeOf [(m, o.maxM), (n, o.maxN), (k, o.maxK)] [m, n]
        if sh != .run then s1.shapeStop t p st sh
        else if o.mode == 0 then
          let side : Side := if o.array == 0 then .a else .b
          if x.arrayLoad side < 5 then
            (s1.updTile t (fun x => (x.issue p st (.array side) false).gateIdle (otherSide side) p.cls)).startHead t side
          else s
        else if x.arrayLoad .a < 5 && x.arrayLoad .b < 5 then
          (s1.updTile t (fun x => x.issue p st .pair false)).startHead t .a
        else s
    | _ => s)

/-- SINGLE: one logical walk of matrix products on array A or B (R375, R376). -/
def execSingle (t : Nat) (s : State) : Host.Outcome State Fault Refusal := .next (s.operStep t 0)

/-- PAIRED: dX on array A and dQᵀ on array B from one read of dY (R222, R246). -/
def execPaired (t : Nat) (s : State) : Host.Outcome State Fault Refusal := .next (s.operStep t 1)

/-- ELEM: a row function between two matrix products on one tile (R264, R266). -/
def execElem (t : Nat) (s : State) : Host.Outcome State Fault Refusal := .next (s.operStep t 2)

/-- SOFTMAX: attention with an online softmax over key blocks (R264, R267). -/
def execSoftmax (t : Nat) (s : State) : Host.Outcome State Fault Refusal := .next (s.operStep t 3)

/-- The word of row `r` of a pair block for the vector `v` (R225): token `v` in array A, feature `v` in array B. -/
def pairWord (rows : List (List Byte)) (role : JobRole) (m v r : Nat) : Nat :=
  match role with
  | .pairB =>
    if m == 1 then fieldAt (rows.getD r []) (2 * v) 2
    else byteAt (rows.getD (2 * r) []) v + 256 * byteAt (rows.getD (2 * r + 1) []) v
  | _ => fieldAt (rows.getD v []) (2 * r) 2

/-- The word of row `r` of a P row: elements `k + r m` upward (R125, R264). -/
def fusedWord (codes : List Nat) (m k r : Nat) : Nat :=
  if m == 1 then codes.getD (k + r) 0 else codes.getD (k + 2 * r) 0 + 256 * codes.getD (k + 2 * r + 1) 0

/-- Gang rows whose first row lies within the reduction: the others receive no lane words (R129). -/
def Job.fedRows (job : Job) (p : Pass) : List Nat :=
  (List.range job.gh).filter (fun gy => p.k0 + lanesOf job.form * gy * job.oper.beat * job.oper.rate < p.kEnd)

/-- The block that a tile's pair buffer presents, as one lane vector for each array (R224, R225). -/
def Tile.pairVector (y : Tile) (job : Job) : Vectors :=
  match y.pairNow with
  | some (_, rows) => ⟨(List.range (lanesOf job.form)).map (pairWord rows job.role job.oper.rate job.q), []⟩
  | none => ⟨[], []⟩

/-- The vectors of the next output position, taken from where the job's role reads them; none while they are not whole (R131,
R225, R227, R229, R264). A vector takes a word from every lane in use, in a last chunk too: rows beyond K ignore theirs (R129, R305;
DEDUCED, log 85). -/
def State.takeVectors (s : State) (t : Nat) (x : Side) (job : Job) (p : Pass) : Option (State × List Vectors) :=
  let l := lanesOf job.form
  let m := job.oper.rate
  let need := l * job.oper.beat
  let scaled := if isMx job.oper.fmtMov then l / 8 * job.oper.beat else 0
  let src (gy : Nat) := tileAt job.gx (job.gy + gy)
  let lanes : Option (State × List Vectors) :=
    let fed := job.fedRows p
    if fed.all (fun gy => decide (need ≤ ((s.tile (src gy)).arr x).lanes.length ∧ scaled ≤ ((s.tile (src gy)).arr x).scales.length)) then
      some (fed.foldl (fun s gy => s.updTile (src gy) (fun y => y.updArr x (fun a =>
              { a with lanes := a.lanes.drop need, scales := a.scales.drop scaled }))) s,
            fed.map (fun gy => ⟨((s.tile (src gy)).arr x).lanes.take need, ((s.tile (src gy)).arr x).scales.take scaled⟩))
    else none
  match job.role with
  | .single => lanes
  | .fusedA =>
    match (s.tile t).fusedRun with
    | some f => if p.block == f.period then lanes else none
    | none => none
  | .fusedB =>
    match (s.tile t).fusedRun with
    | some f =>
      if p.block + 2 != f.period then none
      else
        let codes := ((tabGet [] f.p p.block).getD (p.q0 + job.q) none).getD []
        let k := if job.oper.mode == 3 then p.k0 else p.k0 - p.block * job.oper.kb
        some (s, [⟨(List.range l).map (fusedWord codes m k), []⟩])
    | none => none
  | _ =>
    if job.tiles.all (fun u => ((s.tile u).pairNow.map (·.1)) == some p.block) then some (s, []) else none

/-- Whether the other side's gangs cross east and south borders of a job's rectangle, as 2 or 1 (R206). -/
def Part.sharedBorders (p : Part) (x : Side) (job : Job) : Nat × Nat :=
  let gs : List Gang := match p.comp with
    | some c => c.gangs.filter (fun g => bitOf g.sides (sideNat (otherSide x)))
    | none => []
  let overlap (a n b m : Nat) : Nat := Nat.min (a + n) (b + m) - Nat.max a b
  let w (g : Gang) := overlap job.gx job.gw g.x0 g.w
  let h (g : Gang) := overlap job.gy job.gh g.y0 g.h
  (if gs.any (fun g => decide (2 ≤ w g ∧ 1 ≤ h g)) then 2 else 1, if gs.any (fun g => decide (1 ≤ w g ∧ 2 ≤ h g)) then 2 else 1)

/-- The partition that a tile's job belongs to. -/
def State.jobPart (s : State) (t : Nat) : Part :=
  match s.partAt t with
  | some (_, p) => p
  | none => Part.init

/-- A paired step. -/
def JobRole.paired (r : JobRole) : Bool := r == .pairA || r == .pairB

/-- P of a job; the eastward words of a paired step cross once for both sides (R206). -/
def State.jobInterval (s : State) (t : Nat) (x : Side) (job : Job) : Nat :=
  let k := (s.jobPart t).sharedBorders x job
  positionInterval job.form job.oper.beat job.chunk job.gw job.gh (if job.role.paired then 1 else k.1) k.2

/-- The interlock holds a position: its psum-in comes from the window, and the last sum of the same outputs is not yet there (R146,
R166, R208). -/
def Job.held (job : Job) (p : Pass) : Bool :=
  readsWindow job.oper p.k0 && job.flights.any (fun f => f.slot == p.slot && f.q == p.q0 + job.q && f.n0 == p.n0)

/-- The next position of a job, its vectors apart, is free to issue: the array admits it, its weight set is loaded, no interlock holds it,
no retry is owed at the set's boundary, and its slots are resident (R131, R140, R146, R177, R184). -/
def State.posReady (s : State) (t : Nat) (x : Side) (job : Job) : Bool :=
  match job.passes with
  | [] => false
  | p :: _ =>
    s.jobReady x job && decide (p.loads ≤ job.loaded) && decide (job.q < p.nq) && !job.held p && (job.q != 0 || job.retries.isEmpty) &&
      (match s.slotsFor (s.jobPart t) x job p with
       | .ready _ _ => true
       | .wait => false
       | .full => false)

/-- Both arrays of a paired step go through each block together: a wait in either holds both (R226, R247). -/
def State.lockstep (s : State) (t : Nat) (x : Side) (job : Job) (p : Pass) : Bool :=
  !job.role.paired ||
    (match ((s.tile t).arr (otherSide x)).job with
     | none => true
     | some o =>
       (o.q != 0 || o.retries.isEmpty) &&
         (match o.passes with
          | [] => true
          | u :: _ => u.block != p.block || s.posReady t (otherSide x) o))

/-- The cycle of a position, and whether it starts the other array's block too: a block's first vectors issue in one cycle (R226). A held
chunk first adds its bubbles (R146, R208, R234). -/
def State.issueCycle (s : State) (t : Nat) (x : Side) (job : Job) (p : Pass) (step : Nat) : Nat × Bool :=
  let a := (s.tile t).arr x
  let b := job.oper.beat
  let south := if job.gh ≤ 1 then 0 else southDelay job.gy (job.gh - 1)
  let lat := latencyOf job.form b job.gy job.gh
  let d := if job.gh ≤ 1 then lanesOf job.form else 32
  let first := job.q == 0 && readsWindow job.oper p.k0
  let bubbles :=
    if !first then 0
    else if job.role == .pairA then (if p.loads == 0 then heldBubbles lat south 1 p.nq 1 0 else 0)
    else if job.role == .pairB then 0
    else if (if job.role == .single then (if job.oper.tn == 0 then p.n0 else p.n0 % job.oper.tn) else p.n0 - p.n0 / job.oper.kb * job.oper.kb) != 0 then 0
    else heldBubbles lat south (ceilDiv p.tileCols (if job.width == 0 then 1 else job.width)) p.nq step
      (if p.kind == .moving then movingGap p.loads d job.form else stoppedGap b d p.loads d job.form)
  match job.role.paired && job.q == 0, ((s.tile t).arr (otherSide x)).job with
  | true, some o =>
    if o.q == 0 && o.passes.head?.map (·.block) == some p.block then
      (Nat.max (a.nextIssue + bubbles) ((s.tile t).arr (otherSide x)).nextIssue, true)
    else (a.nextIssue + bubbles, false)
  | _, _ => (a.nextIssue + bubbles, false)

/-- The taps of a weight set, kept with its first position for a retry (R144, R177). -/
def State.keepSet (s : State) (x : Side) (job : Job) (p : Pass) : Job :=
  if job.plan.int || job.plan.wrap || job.kept.any (fun k => k.slot == p.slot && k.n0 == p.n0 && k.k0 == p.k0) then job
  else { job with kept := job.kept ++ [⟨p.slot, p.n0, p.k0, p.nq, p.tap, job.tiles.map (fun u =>
    (u, (List.range job.oper.taps).map (fun i => tabGet ⟨[], []⟩ ((s.tile u).arr x).taps (p.tap + i))))⟩] }

/-- The partial sums of a position, one for each logical column of its chunk (R134, R145). -/
def State.positionFlights (s : State) (x : Side) (job : Job) (p : Pass) (vs : List Vectors) : List Flight :=
  let cols := s.fab.columns x job.gx job.gy job.gw job.gh
  let k := if p.last then p.kEnd else p.kEnd + 1
  (List.range p.ncols).map (fun j =>
    let place := placeOf (slicesOf job.form) 0 cols j
    let vs := if job.role.paired then [(s.tile (tileAt (job.gx + place.1) job.gy)).pairVector job] else vs
    { slot := p.slot, col := place.1, tap := p.tap, part := p.part, q := p.q0 + job.q, j := p.n0 + j, block := p.block, n0 := p.n0,
      ncols := p.ncols, k0 := p.k0, feeds := chunkFeeds job.oper k p.k0 p.kEnd (s.fab.columnOperands x job vs p.tap place) })

/-- OUTPUT_POSITION_ISSUE: the next position of the present weight set enters the array: its vectors are whole, its columns' last
sums of the same outputs have been written, no retry is owed at the set's boundary, and its window slots are resident (R131, R146, R177,
R184). A step without room in the window or in the spill area ends its work item (R186). -/
def execOutputPositionIssue (t : Nat) (x : Side) (s : State) : Host.Outcome State Fault Refusal :=
  match ((s.tile t).arr x).job with
  | none => .next s
  | some job =>
    match job.passes with
    | [] => .next s
    | p :: rest =>
      let full := s.jobReady x job && decide (p.loads ≤ job.loaded) && s.slotsFor (s.jobPart t) x job p == .full
      if full then .next (s.failJob t x job stWindowFull (s.fab.gangColumn x job p.n0))
      else if !s.posReady t x job || !s.lockstep t x job p then .next s
      else match s.slotsFor (s.jobPart t) x job p with
        | .wait => .next s
        | .full => .next s
        | .ready job1 spills =>
          match s.takeVectors t x job p with
          | none => .next s
          | some (s1, vs) =>
            let (s1, st) := s1.writeSpills (s.jobPart t) x job spills
            if st != stOk then .next (s1.failJob t x job st (s.fab.gangColumn x job p.n0))
            else
              let step := s.jobInterval t x job
              let (at', both) := s.issueCycle t x job p step
              let done := p.nq ≤ job.q + 1
              let job2 := s.keepSet x job1 p
              let job2 := { job2 with
                flights := job2.flights ++ s.positionFlights x job p vs, q := if done then 0 else job.q + 1,
                passes := if done then rest else job.passes, loaded := if done then 0 else job.loaded }
              let s2 := if both then s1.updTile t (fun y => y.updArr (otherSide x) (fun c => { c with nextIssue := at' })) else s1
              .next (s2.updTile t (fun y => y.updArr x (fun c =>
                { c with job := some job2, lastIssue := at' + job.oper.beat - 1, nextIssue := at' + step })))

/-- The gang columns' spilled slots that the walk visits next, or whose retry is owed (R179, R184). -/
def State.wantedSlot (s : State) (x : Side) (job : Job) : Option Slot :=
  match job.retries, job.passes with
  | r :: _, _ => job.slots.find? (fun v => v.key == r.slot && v.spilled.isSome)
  | [], p :: _ => job.slots.find? (fun v => v.key == p.slot && v.spilled.isSome && (s.fab.gangColumns x job p.ncols).contains v.col)
  | [], [] => none

/-- SLOT_RELOAD: a spilled slot that the walk visits next, or whose retry is owed, is read back, another spilled in its place if need be.
A slot with a lost codeword ends the work item (R179, R184, R301). -/
def execSlotReload (t : Nat) (x : Side) (s : State) : Host.Outcome State Fault Refusal :=
  match ((s.tile t).arr x).job with
  | none => .next s
  | some job =>
    match s.wantedSlot x job with
    | none => .next s
    | some v =>
      let part := s.jobPart t
      if !s.jobReady x job then .next s
      else match v.spilled, { job with slots := job.slots.erase v }.makeRoom ((part.spillShare (job.bottom v.col) x job).2) v.key v.col with
        | some i, .ready j spills =>
          if s.readSpill part x job v.col i != stOk then .next (s.failJob t x job stDsUncorr v.col)
          else
            let (s1, st) := s.writeSpills part x job spills
            if st != stOk then .next (s1.failJob t x job st v.col)
            else
              let j := { j with slots := j.slots ++ [{ v with spilled := none, stamp := j.stamp }], stamp := j.stamp + 1 }
              .next (s1.updTile t (fun y => y.updArr x (fun a => { a with job := some j })))
        | _, _ => .next s

/-- The next tap of the front buffer of every tile of the array goes to tap `n` (R140, R209). -/
def State.loadTap (s : State) (x : Side) (job : Job) (n : Nat) : State :=
  job.tiles.foldl (fun s u => s.updTile u (fun y => y.updArr x (fun a =>
    match a.front with
    | [] => a
    | f :: fs => { a with front := fs, taps := tabSet a.taps n f }))) s

/-- The gap of a weight change (R142, R143, R209). -/
def Job.gap (job : Job) (kind : LoadKind) (loads : Nat) : Nat :=
  let d := if job.gh ≤ 1 then lanesOf job.form else 32
  if kind == .moving then movingGap loads d job.form else stoppedGap job.oper.beat d loads d job.form

/-- One tap of the next weight set loads: the tap is whole in every front buffer, no vector in the array can still name the tap that it
writes, and the gap of the change counts from the last vector issued (R140 to R143, R209). -/
def State.front (s : State) (t : Nat) (x : Side) (kind : LoadKind) : State :=
  match ((s.tile t).arr x).job with
  | none => s
  | some job =>
    match job.passes with
    | [] => s
    | p :: _ =>
      let tap := if p.loads == 1 then p.tap else job.loaded
      let whole := job.tiles.all (fun u => !((s.tile u).arr x).front.isEmpty)
      let clear := if kind == .moving then !job.flights.any (fun f => f.tap == tap) else job.flights.isEmpty
      if p.kind != kind || p.loads ≤ job.loaded || job.q != 0 || !job.retries.isEmpty || !whole || !clear || !s.jobReady x job then s
      else
        let s := s.loadTap x job tap
        s.updTile t (fun y => y.updArr x (fun a =>
          { a with
            job := some { job with loaded := job.loaded + 1 },
            nextIssue := if job.loaded + 1 == p.loads then Nat.max a.nextIssue (a.lastIssue + job.gap kind p.loads) else a.nextIssue }))

/-- MOVING_FRONT: a new weight set descends behind the old pass into taps the old pass does not use (R141, R142). -/
def execMovingFront (t : Nat) (x : Side) (s : State) : Host.Outcome State Fault Refusal := .next (s.front t x .moving)

/-- STOPPED_RELOAD: once no vector is left in the array, the new set's taps load (R139, R141, R143). -/
def execStoppedReload (t : Nat) (x : Side) (s : State) : Host.Outcome State Fault Refusal := .next (s.front t x .stopped)

/-- The slot of a key in a gang column's window. -/
def Slot.at (v : Slot) (key col : Nat) : Bool := v.key == key && v.col == col

/-- The accumulator of an output in its slot. -/
def Job.accAt (job : Job) (key col idx : Nat) : Acc :=
  match job.slots.find? (·.at key col) with
  | some v => tabGet (Acc.start job.plan) v.accs idx
  | none => Acc.start job.plan

/-- The accumulator is put back. -/
def Job.setAcc (job : Job) (key col idx : Nat) (a : Acc) : Job :=
  { job with slots := job.slots.map (fun v => if v.at key col then { v with accs := tabSet v.accs idx a } else v) }

/-- An output has been written: its place in the slot is free, and with the last one the slot is, and with an output tile's last slot its
weight sets are (R183). -/
def Job.freeAcc (job : Job) (key col idx : Nat) : Job :=
  let free (v : Slot) : Slot := { v with accs := v.accs.filter (fun e => e.1 != idx), left := v.left - 1 }
  let slots := (job.slots.map (fun v => if v.at key col then free v else v)).filter (fun v => v.left != 0)
  { job with slots := slots, kept := job.kept.filter (fun k => slots.any (fun v => v.key == k.slot)) }

/-- A new accumulator value lands in the window: a flagged overflow owes a retry, an ended reduction writes its output (R134,
R177). -/
def State.landAcc (s : State) (t : Nat) (x : Side) (job : Job) (key col block q j : Nat) (mark : RetryMark) (a : Acc) : State × Job :=
  let idx := q * job.n + j
  if a.flag then (s, { job.setAcc key col idx a with retries := insertNew job.retries mark })
  else if a.root.isSome then
    let (s, job) := s.rootDone t x job block q j a
    (s, job.freeAcc key col idx)
  else (s, job.setAcc key col idx a)

/-- PSUM_OUT: the oldest partial sum of logical column `j` reaches the PDU, which writes it to the window with any merge or
finalize (R134, R163, R187). Admitted positions land in a drain and after a kill too (R157); those of a suspect array never (R153). -/
def execPsumOut (t : Nat) (x : Side) (j : Nat) (s : State) : Host.Outcome State Fault Refusal :=
  match ((s.tile t).arr x).job with
  | none => .next s
  | some job =>
    match job.flights.find? (fun f => f.j == j) with
    | none => .next s
    | some f =>
      if job.tiles.any (fun u => ((s.tile u).arr x).suspect || !s.coreRuns u) then .next s
      else
        let job1 := { job with flights := job.flights.erase f }
        let a := (job.accAt f.slot f.col (f.q * job.n + f.j)).feed job.plan f.feeds
        let (s1, job2) := s.landAcc t x job1 f.slot f.col f.block f.q f.j ⟨f.slot, f.n0, f.ncols, f.k0⟩ a
        .next (s1.keepJob t x job2)

/-- The weight sets that a retry of granule g repeats: from the first chunk of the granule to the chunk that overflowed (R177, R178,
R181). -/
def Job.retrySets (job : Job) (r : RetryMark) (g : Nat) : List KeptSet :=
  let mine := job.kept.filter (fun k => k.slot == r.slot && k.n0 == r.n0)
  let lo := ((mine.filter (fun k => decide (k.k0 ≤ 256 * g))).map (·.k0)).foldl Nat.max 0
  mine.filter (fun k => decide (lo ≤ k.k0 ∧ k.k0 ≤ r.k0))

/-- A repeated weight set comes back through the front buffers and loads by stopped reload; its positions follow after the gap (R144,
R177). -/
def State.repeatSet (s : State) (t : Nat) (x : Side) (job : Job) (step : Nat) (k : KeptSet) : State :=
  let s := k.fills.foldl (fun s e => s.updTile e.1 (fun y => y.updArr x (fun a =>
    { a with taps := (List.zipIdx e.2).foldl (fun ts f => tabSet ts (k.tap + f.2) f.1) a.taps }))) s
  s.updTile t (fun y => y.updArr x (fun a =>
    let first := Nat.max a.nextIssue (a.lastIssue + job.gap .stopped job.oper.taps)
    { a with lastIssue := first + (k.nq - 1) * step + job.oper.beat - 1, nextIssue := first + k.nq * step }))

/-- What comes after the repeated sets: a set that had been loaded is brought back, and one that would follow by moving front into the tap
of the last repeated set loads by stopped reload (R142, R144). -/
def State.afterRetry (s : State) (before : State) (t : Nat) (x : Side) (job : Job) (last : Option KeptSet) : State × Job :=
  match job.passes with
  | [] => (s, job)
  | p :: ps =>
    if p.loads == 0 || job.loaded != 0 then
      let s := job.tiles.foldl (fun s u => s.updTile u (fun y => y.updArr x (fun a =>
        { a with taps := ((before.tile u).arr x).taps }))) s
      (s.updTile t (fun y => y.updArr x (fun a =>
        { a with nextIssue := Nat.max a.nextIssue (a.lastIssue + job.gap .stopped (Nat.max 1 p.loads)) })), job)
    else if p.kind == .moving && (last.map (·.tap)) == some p.tap then (s, { job with passes := { p with kind := .stopped } :: ps })
    else (s, job)

/-- RESCALE_RETRY: after the present weight set, the flagged outputs of the first column chunk owed are summed again at the next
offset. The sets from the lowest granule flagged there (DEDUCED, log 86) to the chunk that overflowed are repeated, and counted once for
the logical array (R144, R172, R173, R177 to R180). -/
def execRescaleRetry (t : Nat) (x : Side) (s : State) : Host.Outcome State Fault Refusal :=
  match ((s.tile t).arr x).job with
  | none => .next s
  | some job =>
    match job.retries with
    | [] => .next s
    | r :: rs =>
      let slots := job.slots.filter (fun v => v.key == r.slot)
      if job.q != 0 || !job.flights.isEmpty || slots.isEmpty || slots.any (fun v => v.spilled.isSome) || !s.jobReady x job then .next s
      else
        let owed := slots.flatMap (fun v => (v.accs.filter (fun e =>
          e.2.flag && decide (r.n0 ≤ e.1 % job.n) && decide (e.1 % job.n < r.n0 + r.ncols))).map (fun e => (v.col, e)))
        let g := owed.foldl (fun g e => Nat.min g e.2.2.g) ((owed.head?.map (fun e => e.2.2.g)).getD 0)
        let sets := job.retrySets r g
        let later := ((job.kept.filter (fun k => k.slot == r.slot && k.n0 == r.n0)).map (·.k0)).foldl Nat.max r.k0
        let s0 := sets.foldl (fun s k => s.repeatSet t x job (s.jobInterval t x job) k) s
        let (s0, job0) := s0.afterRetry s t x { job with retries := rs } sets.getLast?
        let (s1, job1) := owed.foldl (fun (c : State × Job) e =>
          let a := e.2.2.retry job.plan
          c.1.landAcc t x c.2 r.slot e.1 r.slot (e.2.1 / job.n) (e.2.1 % job.n)
            (if a.g == e.2.2.g then r else { r with k0 := later }) a) (s0, job0)
        .next ((s1.updTile t (fun y => y.bump 4 sets.length)).keepJob t x job1)

/-- The present block is presented to both arrays: none of them has vectors of it left (R224, R226). -/
def Tile.pairFree (y : Tile) (blk : Nat) : Bool :=
  [Side.a, Side.b].all (fun x => match (y.arr x).job with
    | some j => (match j.passes with
      | p :: _ => p.block != blk
      | [] => true)
    | none => true)

/-- The next pair block that a paired step reads, and its rows: Df, one lane vector each (R224). -/
def Tile.pairWant (y : Tile) : Option (Nat × Nat × Job) :=
  match y.a.job with
  | some j => if j.role == .pairA then j.passes.head?.map (fun p => (p.block, 32 * j.oper.rate, j)) else none
  | none => none

/-- PAIR_BLOCK_FILL: a whole block of dY is in the pair buffer; it crosses the gang's east borders, and every tile presents its rows to
both arrays (R224 to R227, R229). -/
def execPairBlockFill (t : Nat) (s : State) : Host.Outcome State Fault Refusal :=
  let y := s.tile t
  let free := match y.pairNow with
    | some (blk, _) => y.pairFree blk
    | none => true
  match y.pairWant with
  | some (blk, n, job) =>
    if free && decide (n ≤ y.pairRows.length) && s.admits t .a then
      .next ((s.updTile t (fun y => { y with pairRows := y.pairRows.drop n })) |> fun s' =>
        job.tiles.foldl (fun s u => s.updTile u (fun z => { z with pairNow := some (blk, y.pairRows.take n) })) s')
    else .next s
  | none => .next s

/-- The rows of block `b` of a stage, as lists of `n` values. -/
def stageRow (st : Tab (Tab F32)) (b q pitch n : Nat) : List F32 := (List.range n).map (fun i => tabGet 0 (tabGet [] st b) (q * pitch + i))

/-- P's conversion: the moving operand's format, round to nearest, ROLE 0; its SAT bit is that of the step's output conversion byte, which the
manual leaves open (R265; DEDUCED and DESIGN CHOICE, log 23). -/
def pCode (o : Oper) (v : F32) : Nat := (convPlain ⟨o.fmtMov, (convByte o.conv).sat, false, 0⟩ 0 (F32.val v)).1

/-- Key index `k` is excluded for row `q` (R267). -/
def excludedKey (o : Oper) (q k : Nat) : Bool := o.causal == 1 && decide ((q : Int) + o.causalOff < (k : Int))

/-- The vector stage of block `b`: the row function in ELEM mode, the online softmax in SOFTMAX mode (R266, R267). -/
def Fused.vectorStage (f : Fused) (fn : F32 → F32) (b : Nat) : Fused :=
  if f.blocks ≤ b then f
  else
    let kk := extent f.n (b * f.oper.kb) f.oper.kb
    if f.oper.mode == 3 then
      let out := (List.range f.m).map (fun q =>
        let row := f.rows.getD q (SoftRow.start f.dh)
        (row, softBlock fn row (stageRow f.s b q f.oper.kb kk) ((List.range kk).map (fun i => excludedKey f.oper q (b * f.oper.kb + i)))))
      { f with
        rows := out.map (fun r => match r.2 with
          | some (row, _) => row
          | none => r.1),
        p := tabSet f.p b (out.map (fun r => r.2.map (fun u => u.2.map (pCode f.oper)))),
        alphas := tabSet f.alphas b (out.map (fun r => r.2.map (fun u => u.1.alpha))),
        s := f.s.filter (fun e => e.1 != b) }
    else
      { f with
        p := tabSet f.p b ((List.range f.m).map (fun q => some ((stageRow f.s b q f.oper.kb kk).map (fun h => pCode f.oper (fn h))))),
        s := f.s.filter (fun e => e.1 != b) }

/-- The O update with array B's root records of block `b` (R267, R269). -/
def Fused.updateStage (f : Fused) (b : Nat) : Fused :=
  if f.blocks ≤ b || f.oper.mode != 3 then f
  else
    { f with
      rows := (List.zipIdx f.rows).map (fun (row, q) =>
        match (tabGet [] f.alphas b).getD q none with
        | some a => softUpdate row a (stageRow f.r b q f.dh f.dh)
        | none => row),
      p := f.p.filter (fun e => e.1 != b), alphas := f.alphas.filter (fun e => e.1 != b), r := f.r.filter (fun e => e.1 != b) }

/-- The arrays have done their blocks of the present period (R269). -/
def Tile.periodDone (y : Tile) (f : Fused) : Bool :=
  let done (x : Side) (lag : Nat) := match (y.arr x).job with
    | some j => j.flights.isEmpty && j.retries.isEmpty && j.passes.all (fun p => decide (f.period < p.block + lag))
    | none => true
  done .a 0 && done .b 2

/-- A SOFTMAX step writes O / l, converted and counted (R267). -/
def State.writeFused (s : State) (t : Nat) (f : Fused) (job : Job) : State :=
  if f.oper.mode != 3 then s
  else
    let o := { job.plane .b with cols := f.dh, int := false }
    let key : SrKey := ⟨job.workId, job.step, job.pass⟩
    let (g, h) := (List.zipIdx f.rows).foldl (fun (a : Fabric × Hist) r => putRow a.1 a.2 t o key r.2 (softOutput r.1))
      (s.fab, (s.tile t).seq.rep.hist)
    (s.setFab g).updTile t (fun y => y.setHist h)

/-- FUSED_PAIR_PERIOD: array A has block p, array B block p − 2; the vector unit has run the softmax of block p − 1 and the O
update of block p − 3. After NB + 3 periods the output is written and the step ends (R269). -/
def execFusedPairPeriod (t : Nat) (s : State) : Host.Outcome State Fault Refusal :=
  let y := s.tile t
  match y.fusedRun, y.b.job with
  | some f, some job =>
    if !s.admits t .a || y.vgated || y.vbusy || y.a.busy || y.b.busy || y.a.suspect || y.b.suspect || !y.periodDone f then .next s
    else
      let fn := (s.jobPart t).func f.oper.func false
      let f1 := if f.period < 1 then f else f.vectorStage fn (f.period - 1)
      let f2 := if f.period < 3 then f1 else f1.updateStage (f.period - 3)
      let f3 := { f2 with period := f.period + 1 }
      if f3.period < f.blocks + 3 then .next (s.setTile t { y with fusedRun := some f3 })
      else
        let s := s.writeFused t f3 job
        let s := s.updTile t (fun y => ({ y with fusedRun := none }.updArr .a (fun a => { a with job := none })).updArr .b (fun a => { a with job := none }))
        .next ((((s.finishRuns job.runs).kickAll [t]).restArrays [t] .a).restArrays [t] .b)
  | _, _ => .next s

/-- Every admitted position of the array's job has been written; a fused pair stands at the end of its period (R157, R271). -/
def State.drained (s : State) (t : Nat) (x : Side) : Bool :=
  match s.jobOf t x with
  | none => true
  | some (o, j) =>
    match (s.tile o).fusedRun with
    | some f => (s.tile o).periodDone f
    | none => j.flights.isEmpty

/-- DRAIN_COMPLETE: the last complete column sum of every admitted position has been written; BUSY clears (R157, R158, R211). -/
def execDrainComplete (t : Nat) (x : Side) (s : State) : Host.Outcome State Fault Refusal :=
  if ((s.tile t).arr x).busy && (s.drained t x || ((s.tile t).arr x).suspect) then
    .next (s.updTile t (fun y => y.updArr x (fun a => { a with busy := false })))
  else .next s

/-- VECTOR_UNIT_SAFE_POINT: the lane groups issued have written, or the fused pair's period has ended; VBUSY clears (R271). -/
def execVectorUnitSafePoint (t : Nat) (s : State) : Host.Outcome State Fault Refusal :=
  let y := s.tile t
  let atEnd := match y.fusedRun with
    | some f => y.periodDone f || y.a.suspect || y.b.suspect
    | none => true
  if y.vbusy && atEnd then .next (s.setTile t { y with vbusy := false }) else .next s

end Sys2Proof.Machine
end

