-- ==== Sys2Proof/Machine/Streams.lean ====
section
/-! DEFINITION. Stream queues: launches and shadows (R303, R324 to R327, R377), the instructions of a stream program (R308 to
R314), transfers and their paths (R305 to R307, R311, R315, R317), far pages (R296 to R299, R330 to R332) and safe points
(R333, R334). A transfer moves its bytes when it completes (log 4). -/
namespace Sys2Proof.Machine

/-- A wire runs from tile `t` to tile `u`, which lie in different partitions (R349). -/
def State.wired (s : State) (t u : Nat) : Bool :=
  s.boundParts.any (fun p => (s.part p).wires.any (fun w => w.ptile == t && w.cons.any (fun c => c.1 == u)))

/-- The status with which tile `d.tile` meets a road access of tile `t` (R19, R27, R318, R349, R579). -/
def State.roadStatus (s : State) (t : Nat) (d : DevAddr) (isWrite : Bool) : Nat :=
  let u := d.tile
  let x := s.tile u
  let reached := if d.space == 0 then x.access else s.columnServed u
  let own := x.bound == (s.tile t).bound
  if !reached || !s.pathRuns t u then stUnbound
  else if !own && !(isWrite && d.space == 0 && s.wired t u) then stPartition
  else if (x.fenced || x.fired) && d.space == 0 then stTileFenced
  else stOk

/-- A 64-bit sum. -/
def add64 (a : Nat) (b : Int) : Nat := (((a : Int) + b) % (2 ^ 64 : Int)).toNat

/-- The value of one parameter of a LAUNCH step (R377, R483): base + VALUE + index × STRIDE. `home` is the tile whose rank it
serves. -/
def paramValue (stack t home rank : Nat) (q : Seq) (p : PSource) : Nat :=
  let base := match p.kind with
    | 1 => q.ctx.args.getD p.n 0
    | 2 => q.ctx.sh.getD p.n 0
    | 3 => spBase stack t
    | 4 => colBase stack home
    | _ => 0
  let idx : Nat :=
    if p.idx == 6 then rank
    else if p.idx < 6 then (match q.loops.reverse[p.idx]? with
      | some f => f.index
      | none => 0)
    else 0
  add64 (base + p.value) ((idx : Int) * p.stride)

/-- A stream starts on a queue: registers and indices 0; on a ring queue with the same ring the counts carry over (R309, R326,
R327). STALL starts at 0; SLOW and LINK stay (R347). In skip mode it runs as an unexecuted remainder (R386). -/
def Queue.start (u : Queue) (l : Launch) (skip : Bool) : Queue :=
  { u with
    state := .run, cur := some l, pc := 0, srcReg := 0, dstReg := 0, loops := [], issuedN := 0, out := [], waiting := false,
    remainder := skip, status := 0, posValid := false, stall := 0, fptWait := none, fptGot := none,
    prodHeld := false, consHeld := false }

/-- A discarded launch never runs; the step that made it counts as complete (R326; DEDUCED, log 20). -/
def Tile.dropLaunch (x : Tile) (l : Option Launch) : Tile :=
  match l with
  | some l => x.finishRun l.run
  | none => x

/-- A launch reaches its queue: it starts, goes to the shadow, or is discarded (R326). -/
def Tile.armQueue (x : Tile) (l : Launch) : Tile :=
  let q := l.desc.queue
  let u := x.queue q
  match u.state with
  | .idle => (x.setQueue q (u.start l x.inSkip)).settleQueue q
  | .run | .last | .halt =>
    (x.setQueue q { u with shadow := some l, rearm := u.rearm || u.shadow.isSome }).dropLaunch u.shadow
  | .stop | .error => (x.setQueue q { u with rearm := true }).finishRun l.run

/-- LAUNCH: a queue is armed with its descriptor and parameters (R303, R326, R377). A launch for a rank that is not the tile's
own waits until the shadow is empty (R390). In skip mode the stream runs unexecuted (R386). -/
def execLaunch (t : Nat) (s : State) : Host.Outcome State Fault Refusal :=
  .next (s.stepGate t (fun b => match b with | .launch _ _ => true | _ => false) (fun s1 p st =>
    match st.body, p.comp with
    | .launch d ps, some c =>
      let x := s1.tile t
      let rank := x.seq.ranks.headD 0
      let targets := stepTargets c st
      let home := targets.getD rank t
      let own := home == t
      if !own && (x.queue d.queue).shadow.isSome then s
      else
        let l : Launch :=
          { desc := d, params := ps.map (paramValue s1.stackId t home rank x.seq), run := x.seq.nextId, step := x.seq.pc,
            prog := (c.progs.find? (fun g => g.id == d.prog)).getD ⟨d.prog, []⟩,
            rank := if targets.length ≤ 1 then 0 else rank }
        s1.updTile t (fun x => (x.issue p st (.queue d.queue) false).armQueue l)
    | _, _ => s))

/-- SHADOW_START: the current stream has ended and its last transfer has completed; the launch in the shadow starts (R326). -/
def execShadowStart (t q : Nat) (s : State) : Host.Outcome State Fault Refusal :=
  let x := s.tile t
  let u := x.queue q
  match u.shadow with
  | none => .next s
  | some l =>
    if s.working t && u.state == .last && u.out.isEmpty && (u.cur.map (fun l => decide (l.prog.instrs.length ≤ u.pc))).getD true then
      .next (s.setTile t ((x.setQueue q { u.start l x.inSkip with shadow := none }).settleQueue q))
    else .next s

/-- The instruction a running stream stands at; an unexecuted remainder runs on in ERROR (R386). -/
def Queue.instr (u : Queue) : Option (Launch × StreamInstr) :=
  match u.cur with
  | some l => (l.prog.instrs[u.pc]?).map (fun i => (l, i))
  | none => none

/-- The stream may take its next instruction. A ring with another base or slot starts only when the old one is empty (R327),
and a WB stream waits for the arrays under staggered buffers (R322). -/
def State.streamGoes (s : State) (t q : Nat) : Bool :=
  let x := s.tile t
  let u := x.queue q
  let disc := match s.partAt t with
    | some (_, p) => p.discipline
    | none => 0
  s.working t && (u.state == .run || u.state == .last || (u.state == .error && u.remainder)) && !u.waiting && u.fptWait.isNone &&
  (match u.cur with
   | some l =>
     (l.desc.dest != 1 || (u.ringBase == l.desc.ringBase && u.ringSlot == l.desc.slot) || (u.full == 0 && u.free == 3)) &&
     (!l.desc.wb || disc != 0 || !x.seq.issued.any (fun r => !r.finished && (match r.unit with
        | .array _ => true
        | .pair => true
        | _ => false)))
   | none => false)

/-- The instruction's effect on its queue, when the stream stands at it; otherwise nothing (log 3). -/
def State.streamStep (s : State) (t q : Nat) (go : Tile → Queue → Launch → StreamInstr → Option Tile) : State :=
  if !s.streamGoes t q then s
  else
    let x := s.tile t
    let u := x.queue q
    match u.instr with
    | none => s
    | some (l, i) =>
      let u := if l.desc.dest == 1 && (u.ringBase != l.desc.ringBase || u.ringSlot != l.desc.slot) then
          { u with ringBase := l.desc.ringBase, ringSlot := l.desc.slot, prodN := 0, consN := 0 }
        else u
      match go x u l i with
      | some y => s.setTile t (y.settleQueue q)
      | none => s

/-- BASE: a register becomes a parameter plus an offset (R308, R309). -/
def execBase (t q : Nat) (s : State) : Host.Outcome State Fault Refusal :=
  .next (s.streamStep t q (fun x u l i =>
    match i with
    | .base dest psel off =>
      let v := (l.params.getD psel 0 + off) % 2 ^ 64
      some (x.setQueue q { u with srcReg := if dest then u.srcReg else v, dstReg := if dest then v else u.dstReg }.advance)
    | _ => none))

/-- STRM_LOOP: the loop opens; a count of 0 skips its body (R308, R309). -/
def execStrmLoop (t q : Nat) (s : State) : Host.Outcome State Fault Refusal :=
  .next (s.streamStep t q (fun x u l i =>
    match i with
    | .loop last csel count ss ds =>
      let n := l.loopCount csel count
      some (x.setQueue q (
        if n == 0 then { u with pc := last }.advance
        else { u with loops := ⟨u.pc + 1, last, 0, n, ss, ds⟩ :: u.loops, pc := u.pc + 1 }))
    | _ => none))

/-- A producer takes a free slot before the first transfer of a tile, none while FREE is 0 (R313). -/
def Queue.takeSlot (u : Queue) : Option Queue :=
  if u.prodHeld then some u
  else if u.free == 0 then none
  else some { u with free := u.free - 1, prodHeld := true }

/-- A consumer takes a full slot of the ring before its first transfer of a tile (R313). -/
def Tile.takeFull (x : Tile) (q : Nat) (l : Launch) : Option Tile :=
  if l.desc.src != 1 || (x.queue q).consHeld then some x
  else
    let r := x.queue l.desc.ringq
    if r.full == 0 then none
    else
      let x := x.setQueue l.desc.ringq { r with full := r.full - 1 }
      some (x.setQueue q { x.queue q with consHeld := true })

/-- The stream's tile of its rings, taken where the stream has not taken it yet. -/
def Tile.takeRings (x : Tile) (q : Nat) (l : Launch) : Option Tile :=
  if l.desc.dest == 1 then
    match (x.queue q).takeSlot with
    | some u => (x.setQueue q u).takeFull q l
    | none => none
  else x.takeFull q l

/-- TEND: once every transfer of the scratchpad tile has completed, the producer's slot is full and the consumer's is free
(R310, R313); a vector step that waited for the slot begins (R314). An unexecuted remainder does the same (R386). -/
def execTend (t q : Nat) (s : State) : Host.Outcome State Fault Refusal :=
  .next ((s.streamStep t q (fun x u l i =>
    match i with
    | .tend =>
      if !u.out.isEmpty then none
      else
        match (x.setQueue q u).takeRings q l with
        | none => none
        | some x =>
          let x := if l.desc.dest == 1 then
              x.setQueue q { x.queue q with full := (x.queue q).full + 1, prodN := (x.queue q).prodN + 1, prodHeld := false }
            else x
          let x := if l.desc.src == 1 then
              let r := x.queue l.desc.ringq
              x.setQueue l.desc.ringq { r with free := r.free + 1, consN := r.consN + 1 }
            else x
          some (x.setQueue q { x.queue q with consHeld := false }.advance)
    | _ => none)).vectorStart t)

/-- SIGNAL: after every transfer issued before it, and after every gathered write, the wire is signalled (R280, R310, R341). -/
def execSignal (t q : Nat) (s : State) : Host.Outcome State Fault Refusal :=
  let u := (s.tile t).queue q
  match u.instr with
  | some (l, .signal link) =>
    if s.streamGoes t q && u.out.isEmpty then
      let s := (s.gatherAll t).updTile t (fun x => x.setQueue q u.advance)
      let s := match s.wireOf t (link + l.rank) with
        | some (p, w) => s.signalWire t p w
        | none => s
      .next (s.updTile t (fun x => x.settleQueue q))
    else .next s
  | _ => .next s

/-- The lowest consumer entry whose lag is 0, when some lag of a multicast wire is 0 and some is not (R347). -/
def slowest (lags : List Nat) : Option Nat :=
  if lags.any (· != 0) then lags.findIdx? (· == 0) else none

/-- The multicast wire whose empty semaphore at tile `t` is `sem`. -/
def State.multicastAt (s : State) (t sem : Nat) : Option Wire :=
  ((List.range 64).flatMap (fun p => (s.part p).wires)).find?
    (fun w => w.ptile == t && w.psem == sem && decide (1 < w.cons.length))

/-- WAIT: issue stops and the take begins; a WAIT met again while it waits counts one stalled cycle of a multicast wire (R310,
R347; log 21). -/
def execWait (t q : Nat) (s : State) : Host.Outcome State Fault Refusal :=
  let x := s.tile t
  let u := x.queue q
  match u.instr with
  | some (_, .wait sem) =>
    if u.waiting then
      match s.multicastAt t sem with
      | some w =>
        match slowest (tabGet (List.replicate w.cons.length 0) x.lags w.link) with
        | some i => .next (s.setTile t (x.setQueue q
            { u with stall := satTo 32 (u.stall + 1), slow := i, slowLink := w.link % 2 ^ 10 }))
        | none => .next s
      | none => .next s
    else if s.streamGoes t q then
      .next (s.setTile t { x.setQueue q { u with waiting := true } with waits := x.waits ++ [(sem, .queue q)] })
    else .next s
  | _ => .next s

/-- Σ index × stride over the loops that contain the instruction (R309). -/
def strideSum (ls : List SLoop) (dst : Bool) : Int :=
  ls.foldl (fun a l => a + (l.iter : Int) * (if dst then l.dstr else l.sstr)) 0

/-- The source address of an XFER: an address, an offset in the consumed slot, or one in the working buffer (R309, R323). -/
def xferSrc (x : Tile) (stack t disc : Nat) (u : Queue) (l : Launch) : Nat :=
  let a := add64 u.srcReg (strideSum u.loops false)
  if l.desc.src == 1 then
    let r := x.queue l.desc.ringq
    (spBase stack t + r.ringBase + r.consN % 3 * r.ringSlot + a) % 2 ^ 64
  else if l.desc.wbr then (spBase stack t + x.computeBase disc + a) % 2 ^ 64
  else a

/-- The destination address of an XFER (R309, R323). -/
def xferDst (x : Tile) (stack t disc : Nat) (u : Queue) (l : Launch) : Nat :=
  let a := add64 u.dstReg (strideSum u.loops true)
  if l.desc.dest == 1 then (spBase stack t + u.ringBase + u.prodN % 3 * u.ringSlot + a) % 2 ^ 64
  else if l.desc.wb then (spBase stack t + x.loadBase disc + a) % 2 ^ 64
  else a

/-- An address lies in the tile's own scratchpad or column (R317). -/
def isNear (stack t a : Nat) : Bool :=
  let d := devAddr a
  d.stack == stack && d.tile == t && (d.space == 0 || d.space == 1)

/-- The side of a port destination (R305). -/
def destSide (dest : Nat) : Side := if dest == 2 || dest == 5 || dest == 7 then .a else .b

/-- Lanes in use of array `side`: those of the forms in which the partition's operator steps run it; square if it has none (R136,
R305; DEDUCED, log 44: a stream may run ahead of the step that takes its vectors). -/
def lanesInUse (p : Part) (side : Side) : List Nat :=
  let steps := p.comp.elim [] Comp.itin
  let forms := steps.filterMap (fun st => match st.body with
    | .oper o => if o.mode != 0 || (o.array == 0) == (side == .a) then some o.form else none
    | _ => none)
  if forms.isEmpty then [32] else forms.map lanesOf

/-- The length of a transfer fits its destination kind (R305). -/
def lenFits (p : Part) (d : Desc) (len : Nat) : Bool :=
  match d.dest with
  | 2 | 3 => (lanesInUse p (destSide d.dest)).any (fun l => len % (if d.six then 3 * l / 2 else 2 * l) == 0)
  | 4 => len % 64 == 0
  | 5 | 6 => if d.six then len == 1536 || len == 1664 else len == 2048 || len == 2176
  | 7 | 8 => (lanesInUse p (destSide d.dest)).any (fun l => len % (l / 8) == 0)
  | _ => true

/-- A transfer through the transpose path is defined for a front buffer and 2,048 bytes only (R315). -/
def transposeFits (d : Desc) (tr len : Nat) : Bool := tr == 0 || ((d.dest == 5 || d.dest == 6) && tr != 3 && len == 2048)

/-- Bytes that a transfer reads: a transposed tap reads rows TPITCH × 32 B apart (R315). -/
def srcSpan (tr : Nat) (esize : Bool) (tpitch len : Nat) : Nat :=
  if tr == 0 then len
  else if tr == 2 && !esize then 63 * (32 * tpitch) + 32
  else 31 * (32 * tpitch) + 64

/-- How a far-page access turns out (R299). -/
inductive FarResult where
  | miss
  | fault (cause : Nat)
  | ok (addr : Nat) (entry : Word)
  deriving DecidableEq, Repr

/-- The partition's translation table lies wholly in its own columns, of which it may span several (R541). -/
def tableOk (stack : Nat) (p : Part) : Bool :=
  let d := devAddr p.fptBase
  let last := d.tile + (d.off + 8 * p.fptLen - 1) / colSize
  d.stack == stack && rangeStatus p.fptBase 0 == stOk && d.space == 1 && decide (last < 2 ^ 9) &&
    (List.range (last + 1 - d.tile)).all (fun i => (p.tiles ++ p.lost).contains (d.tile + i))

/-- An entry judged for an access to page `f` (R297, R299). -/
def judgeEntry (stack : Nat) (p : Part) (isWrite : Bool) (off : Nat) (e : Word) : FarResult :=
  let n := e.toNat
  if !bitOf n 0 then .fault 1
  else if isWrite && !bitOf n 1 then .fault 2
  else if !(p.tiles ++ p.lost).contains (bits n 8 9) then .fault 3
  else .ok (colBase stack (bits n 8 9) + bits n 17 4 * 2 ^ 21 + off) e

/-- The translation of a far-page address from the entry that this translation has read, or from the tile's cache (R298, R299, R541). -/
def farLookup (stack : Nat) (p : Part) (x : Tile) (got : Option (Nat × Word)) (isWrite : Bool) (a : Nat) : FarResult :=
  let f := bits a 21 35
  if !tableOk stack p || decide (p.fptLen ≤ f) then .fault 0
  else match (got.toList ++ x.fptCache).find? (fun e => e.1 == f) with
    | none => .miss
    | some e => judgeEntry stack p isWrite (bits a 0 21) e.2

/-- The device's first write to a far page sets D in its entry and in the tile's cache (R297). -/
def State.markDirty (s : State) (t : Nat) (page : Option Nat) : State :=
  match page, s.partAt t with
  | some f, some (_, p) =>
    let d := devAddr (p.fptBase + 8 * f)
    let b := memRead s.fab.mem (colKey d.tile d.off)
    (s.setFab (s.fab.colWrite d.tile d.off [b ||| 4]).2).updTile t
      (fun x => { x with fptCache := x.fptCache.map (fun c => if c.1 == f then (f, c.2 ||| 4) else c) })
  | _, _ => s

/-- The stream halts at a far-page fault: its position is saved, the fault is posted and the host is told (R330, R331). -/
def State.farFault (s : State) (t q pn cause page : Nat) : State :=
  let x := s.tile t
  let u := x.queue q
  let rec' := t + q * 2 ^ 9 + cause * 2 ^ 12 + 2 ^ 14 + page * 2 ^ 15
  let s := s.setTile t ({ x with fptCache := x.fptCache.filter (fun e => e.1 != page) }.setQueue q
    { u with state := .halt, posSeq := u.issuedN % 2 ^ 48, posInstr := u.pc, posValid := true, fptWait := none, fptGot := none })
  let s := s.updPart pn (fun p => { p with faults := p.faults ++ [⟨t, q, cause, page⟩] })
  s.notice (4 + pn * 2 ^ 8) (padTo 64 (leBytes 4 s.pow.seq ++ leBytes 4 pn ++ leBytes 8 rec'))

/-- A transfer is issued: it joins the outstanding ones, and the stream goes on (R311). -/
def Queue.issueXfer (u : Queue) (x : Xfer) : Queue :=
  { u with out := u.out ++ [{ x with seq := u.issuedN, instr := u.pc }], issuedN := u.issuedN + 1, fptGot := none }.advance

/-- The remote units of a transfer of `n` bytes: at most 2,048 bytes each (R401). -/
def remoteUnits (n : Nat) : List (Nat × Nat) :=
  (List.range (ceilDiv n 2048)).map (fun i => (2048 * i, if n - 2048 * i < 2048 then n - 2048 * i else 2048))

/-- Two transfers write overlapping bytes (R311). -/
def overlapping (a b : Xfer) : Bool := decide (a.dst < b.dst + b.len) && decide (b.dst < a.dst + a.len)

/-- No transfer issued before the `n`-th one is outstanding that writes bytes of the same destination (R311). -/
def Queue.landsNow (u : Queue) (n : Nat) : Bool :=
  match u.out[n]? with
  | some x => !((u.out.take n).any (overlapping x))
  | none => false

/-- The next unsent unit of a remote transfer leaves as a READ or a WRITE, if its module has credit; a WRITE that overlaps an earlier
transfer waits for it (R311, R399, R401, R408). -/
def State.pumpRemote (s : State) (t q n : Nat) : State :=
  let u := (s.tile t).queue q
  match u.out[n]? with
  | none => s
  | some x =>
    match x.path, x.unsent with
    | .remote w, (off, len) :: rest =>
      let far := if w then x.dst else x.src
      let stack := (devAddr far).stack
      if w && !u.landsNow n then s
      else match s.routeFor t stack with
      | none =>
        s.updTile t (fun y => y.setQueue q { u with out := updateAt u.out n (fun x =>
          { x with unsent := [], status := if x.status == stOk then stNoRoute else x.status, answered := x.sent.isEmpty }) })
      | some m =>
        let tag := s.link.freshTag
        let (f, st, bytes) := if w then s.fab.checkedRead (devAddr (x.src + off)) len else (s.fab, stOk, [])
        let s := s.setFab f
        if st == stTileFenced then s
        else if st != stOk then
          s.updTile t (fun y => y.setQueue q { u with out := updateAt u.out n (fun x =>
            { x with unsent := [], status := st, answered := x.sent.isEmpty }) })
        else
          let msg := if w then Sent.writeReq m t tag (x.dst + off) bytes else Sent.readReq m t tag (x.src + off) len
          let (s', sent) := s.emit t stack (s.channel t) (flitsOf (if w then len else 0)) (some tag) msg
          if !sent then s
          else
            let s' := { s' with link := s'.link.useTag tag (.xfer t q x.seq) }
            s'.updTile t (fun y => y.setQueue q { u with out := updateAt u.out n (fun x =>
              { x with unsent := rest, sent := x.sent ++ [(tag, off, len)] }) })
    | _, _ => s

/-- What an XFER issues: the transfer with its path and the checks that end it at once, the source before the length (R274, R306,
R315, R317; log 45). -/
def makeXfer (p : Part) (stack t : Nat) (l : Launch) (src dst tr : Nat) (esize : Bool) (tpitch len : Nat) : Xfer :=
  let base : Xfer :=
    { seq := 0, instr := 0, src := src, dst := dst, len := len, tr := tr, esize := esize, tpitch := tpitch, path := .near,
      answered := true, status := stOk, data := [], done := 0, page := none, unsent := [], sent := [] }
  let fail (st : Nat) : Xfer := { base with status := st }
  if l.desc.dest ≥ 2 then
    if !(isNear stack t src && (devAddr src).space == 0) then fail stSpace
    else if !(lenFits p l.desc len && transposeFits l.desc tr len) then fail stPortLen
    else { base with status := rangeStatus src (srcSpan tr esize tpitch len) }
  else if tr != 0 then fail stPortLen
  else
    let sd := devAddr src
    let dd := devAddr dst
    let nearS := isNear stack t src
    let nearD := isNear stack t dst
    let st := if rangeStatus src len != stOk then rangeStatus src len else rangeStatus dst len
    if !(nearS || nearD) || sd.space == 3 || dd.space == 3 then fail stSpace
    else if st != stOk then fail st
    else if nearS && nearD then base
    else
      let far := if nearS then dd else sd
      if far.stack == stack then { base with path := .road far.tile nearS, answered := false }
      else { base with path := .remote nearS, answered := false, unsent := remoteUnits len,
                       data := if nearS then [] else List.replicate len 0 }

/-- XFER: one transfer is issued, within the OUTST limit and once its ring slots are taken. A far-page end is translated
first: a miss reads the entry, a fault halts the stream (R298, R311, R313, R330). The remainder of a stopped stream issues
nothing (R386). -/
def execXfer (t q : Nat) (s : State) : Host.Outcome State Fault Refusal :=
  let x0 := s.tile t
  let u0 := x0.queue q
  match u0.instr, s.partAt t with
  | some (l, .xfer tr esize tpitch len), some (pn, p) =>
    if !s.streamGoes t q then .next s
    else if u0.remainder then
      .next (s.setTile t ((x0.setQueue q u0.advance).settleQueue q))
    else if decide (l.desc.outst ≤ u0.out.length) then .next s
    else
      let u1 := if l.desc.dest == 1 && (u0.ringBase != l.desc.ringBase || u0.ringSlot != l.desc.slot) then
          { u0 with ringBase := l.desc.ringBase, ringSlot := l.desc.slot, prodN := 0, consN := 0 }
        else u0
      match (x0.setQueue q u1).takeRings q l with
      | none => .next s
      | some x =>
        let u := x.queue q
        let src := xferSrc x s.stackId t p.discipline u l
        let dst := xferDst x s.stackId t p.discipline u l
        let farS := (devAddr src).space == 2 && l.desc.dest < 2
        let farD := (devAddr dst).space == 2 && l.desc.dest < 2
        let other := if farS then dst else src
        let go (v : Xfer) : State :=
          (s.setTile t ((x.setQueue q (u.issueXfer v)).settleQueue q)).pumpRemote t q u.out.length
        let make (src dst : Nat) : Xfer := makeXfer p s.stackId t l src dst tr esize tpitch len
        if !(farS || farD) then .next (go (make src dst))
        else
          let far := if farS then src else dst
          if farS && farD || !isNear s.stackId t other || decide (2 ^ 21 < bits far 0 21 + len) then
            .next (go { make src dst with status := stSpace })
          else match farLookup s.stackId p x u.fptGot farD far with
            | .miss => .next (s.setTile t (x.setQueue q { u with fptWait := some (bits far 21 35), fptGot := none }))
            | .fault c => .next ((s.setTile t x).farFault t q pn c (bits far 21 35))
            | .ok a e =>
              .next (go (if farS then make a dst else
                { make src a with page := if bitOf e.toNat 2 then none else some (bits far 21 35) }))
  | _, _ => .next s

/-- FPT_ENTRY_READ: the read of a far-page entry completes; the transfer goes on with the entry read, whatever invalidates the cache
meanwhile, faults, or meets a deep-store loss (R298, R299). The oldest of 16 cached entries makes room. -/
def execFptEntryRead (t q : Nat) (s : State) : Host.Outcome State Fault Refusal :=
  let x := s.tile t
  let u := x.queue q
  match u.fptWait, s.partAt t, u.instr with
  | some f, some (pn, p), some (l, .xfer _ _ _ _) =>
    if !s.working t then .next s
    else
      let d := devAddr (p.fptBase + 8 * f)
      let (st, bs) := s.fab.colRead d.tile d.off 8
      let x := x.setQueue q { u with fptWait := none }
      if st != stOk then
        .next (s.setTile t (x.setQueue q ({ u with fptWait := none }.issueXfer
          { seq := 0, instr := 0, src := 0, dst := 0, len := 0, tr := 0, esize := false, tpitch := 0, path := .near,
            answered := true, status := stDsUncorr, data := [], done := 0, page := none, unsent := [], sent := [] })))
      else
        let e : Word := BitVec.ofNat 64 (leNat bs)
        let isWrite := (devAddr (xferDst x s.stackId t p.discipline u l)).space == 2
        match judgeEntry s.stackId p isWrite 0 e with
        | .fault c => .next ((s.setTile t x).farFault t q pn c f)
        | _ =>
          let kept := x.fptCache.filter (fun c => c.1 != f)
          .next (s.setTile t { x.setQueue q { u with fptWait := none, fptGot := some (f, e) } with fptCache := (if kept.length < 16 then kept else kept.drop 1) ++ [(f, e)] })
  | _, _, _ => .next s

/-- Words of a lane or front transfer; with SIX, 12 bits each (R307). -/
def wordsFrom (six : Bool) (bs : List Byte) (n : Nat) : List Nat :=
  if six then
    (List.range n).map (fun k => bits (leNat (slice bs (3 * (k / 2)) 3)) (12 * (k % 2)) 12)
  else (List.range n).map (fun k => fieldAt bs (2 * k) 2)

/-- One tap from a plain front transfer, with its scales if it carries them (R307). -/
def plainTap (six : Bool) (bs : List Byte) : TapFill :=
  let n := if six then 1536 else 2048
  { words := wordsFrom six bs 1024, scales := (bs.drop n).map BitVec.toNat }

/-- One tap through the transpose path: `bs` begins at the source address, rows lie TPITCH × 32 B apart (R315). -/
def transposedTap (tr : Nat) (esize : Bool) (tpitch : Nat) (bs : List Byte) : TapFill :=
  let row (i : Nat) : Nat := 32 * tpitch * i
  { words := (List.range 1024).map (fun k =>
      let r := k / 32
      let c := k % 32
      if tr == 1 then fieldAt bs (row c + 2 * r) 2
      else if esize then fieldAt bs (row r + 2 * c) 2
      else byteAt bs (row (2 * r) + c) + 256 * byteAt bs (row (2 * r + 1) + c)),
    scales := [] }

/-- Rows of 64 bytes. -/
def rows64 (bs : List Byte) : List (List Byte) := (List.range (bs.length / 64)).map (fun i => slice bs (64 * i) 64)

/-- Array `side` of a tile in skip mode has no step left, so nothing will take what streams bring it; what does not fit is dropped
and the stream runs on whole (R386; DEDUCED, log 43). -/
def Tile.sinks (x : Tile) (side : Side) : Bool := x.inSkip && (x.arrayHead side).isNone && (x.arr side).job.isNone

/-- The operator step that array `side` of a tile runs after the one at work: the first issued, or the first in the itinerary from where
the sequencer stands, or the first of all (R324). -/
def State.nextOper (s : State) (t : Nat) (side : Side) : Option Oper :=
  match s.partAt t with
  | none => none
  | some (_, p) =>
    let q := (s.tile t).seq
    let mine (st : ItinStep) : Option Oper := match st.body with
      | .oper o => if o.mode != 0 || (o.array == 0) == (side == .a) then some o else none
      | _ => none
    let here (st : ItinStep) : Bool := (p.comp.elim [] (fun c => stepTargets c st)).contains t
    let atWork := (s.jobOf t side).elim [] (fun j => (j.2.runs.filter (fun r => r.1 == t)).map (·.2))
    let queued := (q.issued.filter (fun r => !r.finished && !atWork.contains r.id)).filterMap (fun r => p.itin[r.step]?)
    (queued ++ (p.itin.drop q.pc).filter here ++ p.itin.filter here).findSome? mine

/-- Lane vectors that a job still takes from its tiles of row `gy`: none when it reads pair blocks or codes of P. -/
def Job.vectorsLeft (job : Job) (gy : Nat) : Nat :=
  if job.role != .single && job.role != .fusedA then 0
  else ((job.passes.map (fun p => if (job.fedRows p).contains gy then p.nq * job.oper.beat else 0)).sum) - job.q * job.oper.beat

/-- Words that the next lane vector of an array takes, and how many more vectors its lanes hold, 16 in each lane at most. Vectors that the
step at work does not take are the next step's, in its form (R306, R324). -/
def State.laneRoom (s : State) (t : Nat) (side : Side) : Nat × Nat :=
  let held := ((s.tile t).arr side).lanes.length
  let next := lanesOf ((s.nextOper t side).elim ((s.tile t).arr side).form (·.form))
  match s.jobOf t side with
  | some (_, job) =>
    let l := lanesOf job.form
    let left := job.vectorsLeft (tileY t - job.gy)
    if held / l < left then (l, 16 - held / l) else (next, 16 - (left + ceilDiv (held - left * l) next))
  | none => (next, 16 - ceilDiv held next)

/-- Rows that the pair buffer still holds of its two blocks, Df rows each (R224, R306). -/
def State.pairRoom (s : State) (t : Nat) : Nat :=
  let x := s.tile t
  let rate := match s.jobOf t .a with
    | some (_, j) => if j.role.paired then j.oper.rate else ((s.nextOper t .a).map (·.rate)).getD 2
    | none => ((s.nextOper t .a).map (·.rate)).getD 2
  64 * rate - x.pairRows.length - (match x.pairNow with
    | some r => r.2.length
    | none => 0)

/-- Delivery of a port transfer as far as its destination holds: lanes 16 entries, of `room.1` words a vector with room for `room.2`, the
pair buffer two blocks, with room for `rows`, the front buffer two taps (R305, R306). The answer gives the bytes delivered in all. -/
def Tile.deliver (x : Tile) (l : Launch) (u : Xfer) (bs : List Byte) (room : Nat × Nat) (rows : Nat) : Tile × Nat :=
  let side := destSide l.desc.dest
  let arr := x.arr side
  let left := u.len - u.done
  match l.desc.dest with
  | 2 | 3 =>
    let vec := if l.desc.six then 3 * room.1 / 2 else 2 * room.1
    let n := Nat.min (room.2 * vec) left
    let ws := wordsFrom l.desc.six (slice bs u.done n) (if l.desc.six then 2 * n / 3 else n / 2)
    (x.setArr side { arr with lanes := arr.lanes ++ ws }, if x.sinks side then u.len else u.done + n)
  | 4 =>
    let n := Nat.min (64 * rows) left
    ({ x with pairRows := x.pairRows ++ rows64 (slice bs u.done n) }, if x.sinks .a && x.sinks .b then u.len else u.done + n)
  | 5 | 6 =>
    if arr.front.length < 2 then
      (x.setArr side { arr with front := arr.front ++
        [if u.tr == 0 then plainTap l.desc.six bs else transposedTap u.tr u.esize u.tpitch bs] }, u.len)
    else (x, if x.sinks side then u.len else u.done)
  | _ => (x.setArr side { arr with scales := arr.scales ++ bs.map BitVec.toNat }, u.len)

/-- A transfer that ends with a status other than OK stops its stream: ERROR, the shadow discarded, the tile in skip mode, and
the remainder runs unexecuted (R312, R325, R326, R386). -/
def Tile.streamError (x : Tile) (t q : Nat) (l : Launch) (u : Xfer) (st : Nat) : Tile :=
  let k := x.queue q
  let x := x.setQueue q
    { k with state := .error, status := st, posSeq := u.seq % 2 ^ 48, posInstr := u.instr, posValid := true, remainder := true,
             shadow := none }
  (x.dropLaunch k.shadow).enterSkip ⟨st, l.step, t⟩

/-- Bytes of the units of a path (R321). -/
def XPath.unit (p : XPath) : Nat :=
  match p with
  | .near => 512
  | .road _ _ => 256
  | .remote _ => 2048

/-- Bytes of a transfer in its first `n` units: 512 B bursts of the column, 256 B on the roads, 2 KiB to another stack (R321). -/
def Xfer.handed (u : Xfer) (n : Nat) : Nat :=
  let skew := if u.path == .near then (if (devAddr u.src).space == 1 then (devAddr u.src).off else (devAddr u.dst).off) % 512 else 0
  Nat.min u.len (n * u.path.unit - skew)

/-- A transfer of a disabled queue is cut short: the units handed to its port land, and the rest of its destination stays as it was. How
many had been handed is a free value (R333, R334; log 89). A response that had not come is not waited for. -/
def State.cutShort (s : State) (t : Nat) (u : Xfer) : State :=
  let n := u.handed (Config.freeNat s.free % (u.len / u.path.unit + 2))
  let s := { s with free := s.free + 1 }
  if u.status != stOk || n == 0 then s
  else match u.path with
    | .near =>
      if u.tr != 0 then s
      else
        let r := s.fab.checkedRead (devAddr u.src) n
        if r.2.1 != stOk then s.setFab r.1 else (s.setFab (r.1.localWrite (devAddr u.dst) r.2.2).2).markDirty t u.page
    | .road _ w =>
      if w && u.answered then s
      else
        let far := if w then u.dst else u.src
        if s.roadStatus t (devAddr far) w != stOk then s
        else
          let r := s.fab.checkedRead (devAddr u.src) n
          if r.2.1 != stOk then s.setFab r.1
          else (s.setFab (r.1.localWrite (devAddr u.dst) (if u.answered then u.data.take n else r.2.2)).2).markDirty t u.page
    | .remote w =>
      if w then s
      else ((remoteUnits u.len).filter (fun e => !u.unsent.contains e && !u.sent.any (fun m => m.2 == e))).foldl (fun s e =>
        s.setFab (s.fab.localWrite (devAddr (u.dst + e.1)) (slice u.data e.1 e.2)).2) s

/-- TRANSFER_COMPLETE: the `n`-th outstanding transfer's last byte is written or its acknowledgement has returned (R311). A
near transfer moves its bytes now; a port transfer fills its destination as far as it holds; a remote one sends its next
unit while units are left. A read that ended UNBOUND over the roads brings the zeros it returned (R19). -/
def execTransferComplete (t q n : Nat) (s : State) : Host.Outcome State Fault Refusal :=
  let x := s.tile t
  let k := x.queue q
  match k.cur, k.out[n]? with
  | some l, some u =>
    let inOrder := if l.desc.dest ≥ 2 then n == 0 else k.landsNow n
    if !s.tileRuns t || !inOrder || k.state == .idle then .next s
    else if k.state == .stop then .next ((if l.desc.dest < 2 then s.cutShort t u else s).updTile t (fun x =>
      let k := x.queue q
      x.setQueue q { k with out := dropAt k.out n }))
    else if !u.unsent.isEmpty then .next (s.pumpRemote t q n)
    else if !u.answered then .next s
    else
      let finish (s : State) (st : Nat) : State :=
        s.updTile t (fun x =>
          let k := x.queue q
          let x := x.setQueue q { k with out := dropAt k.out n }
          let x := if st == stOk || k.state == .error then x else x.streamError t q l u st
          x.settleQueue q)
      if u.status != stOk then
        .next (finish (if u.data.isEmpty then s else s.setFab (s.fab.localWrite (devAddr u.dst) u.data).2) u.status)
      else match u.path with
        | .near =>
          let (f, st, bs) := s.fab.checkedRead (devAddr u.src) (srcSpan u.tr u.esize u.tpitch u.len)
          let s := s.setFab f
          if st == stTileFenced then .next s
          else if st != stOk then .next (finish s st)
          else if l.desc.dest ≥ 2 then
            let (x', done) := (s.tile t).deliver l u bs (s.laneRoom t (destSide l.desc.dest)) (s.pairRoom t)
            if done == u.len then .next (finish (s.setTile t x') stOk)
            else .next (s.setTile t (x'.setQueue q { x'.queue q with out := updateAt k.out n (fun v => { v with done := done }) }))
          else
            let (st, f) := s.fab.localWrite (devAddr u.dst) bs
            .next (finish ((s.setFab f).markDirty t u.page) st)
        | .road _ w =>
          if w then .next (finish s stOk)
          else
            let (st, f) := s.fab.localWrite (devAddr u.dst) u.data
            .next (finish (s.setFab f) st)
        | .remote w =>
          if w then .next (finish s stOk)
          else
            let (st, f) := s.fab.localWrite (devAddr u.dst) u.data
            .next (finish (s.setFab f) st)
  | _, _ => .next s

/-- A queue is disabled: it issues nothing more, its shadow is discarded, and it stops (R333). A queue in ERROR stays there, its remainder
ended (R325). -/
def Tile.disableQueue (x : Tile) (q : Nat) : Tile :=
  let u := x.queue q
  match u.state with
  | .idle | .stop => x
  | .error => x.setQueue q { u with busy := !u.out.isEmpty, remainder := false, waiting := false }
  | _ => x.setQueue q
    { u with state := .stop, busy := true, shadow := none, fptWait := none, fptGot := none, waiting := false, posValid := false }

/-- QUEUE_SAFE_POINT: the last handed unit of a disabled queue completes; transfers cut short leave the rest of their
destination unchanged (R333). -/
def execQueueSafePoint (t q : Nat) (s : State) : Host.Outcome State Fault Refusal :=
  let u := (s.tile t).queue q
  if !u.busy then .next s
  else
    let s := if s.coreRuns t && u.cur.any (fun l => decide (l.desc.dest < 2)) then u.out.foldl (fun s v => s.cutShort t v) s else s
    .next (s.updTile t (fun x => x.setQueue q
      { x.queue q with
        state := if u.state == .stop then .idle else u.state, busy := false, out := [], cur := none, remainder := false }))

/-- PT_FPT_INVAL: every cached entry of the partition's tiles is discarded (R298, R541). -/
def execPtFptInval (p : Nat) (s : State) : Host.Outcome State Fault Refusal :=
  if !(s.part p).isBound || !s.stewardRuns then .next s
  else .next ((s.part p).tiles.foldl (fun s t => s.updTile t (fun x => { x with fptCache := [] })) s)

/-- PT_FP_RESUME: the fault record of the halted queue goes, and the stream runs on from its saved position (R332). -/
def execPtFpResume (p : Nat) (v : Word) (s : State) : Host.Outcome State Fault Refusal :=
  let t := bits v.toNat 0 9
  let q := bits v.toNat 9 3
  let x := s.tile t
  let u := x.queue q
  if (s.part p).isBound && x.bound == some p && u.state == .halt && s.stewardRuns then
    let s := s.setTile t (x.setQueue q { u with state := .run, posValid := false })
    .next (s.updPart p (fun r => { r with faults := r.faults.filter (fun f => !(f.tile == t && f.queue == q)) }))
  else .next s

end Sys2Proof.Machine
end

