-- ==== Sys2Proof/Machine/Relay.lean ====
section
/-! DEFINITION. The neighbour engine: relay chains (R352 to R356), halo exchange (R357, R358), the neighbour fallback (R364),
and the engine's safe point (R362). -/
namespace Sys2Proof.Machine

/-- The entry of a RELAY step for a tile. -/
def relayEntry (es : List (Nat × RelayDesc)) (t : Nat) : Option RelayDesc := (es.find? (fun e => e.1 == t)).map (·.2)

/-- The tile that runs a lost tile's rank in a step (R390). -/
def Part.takerOf (p : Part) (st : ItinStep) (t : Nat) : Option Nat :=
  match p.comp with
  | some c => rankOwner p (stepTargets c st) t
  | none => none

/-- The neighbour link between a tile and its neighbour has failed its re-test (R363). -/
def Fabric.nbrDead (f : Fabric) (t d : Nat) : Bool :=
  f.deadNbr.contains (t, d) ||
    (match neighbour t d with
     | some u => f.deadNbr.contains (u, opposite d)
     | none => false)

/-- The chain beyond a tile's OUT_DIR: the first live tile, and the lost tiles before it (R364). -/
def chainAfter (p : Part) (es : List (Nat × RelayDesc)) : Nat → Nat → Nat → Option (Nat × RelayDesc) × List (Nat × RelayDesc)
  | 0, _, _ => (none, [])
  | n + 1, t, dir =>
    if dir == 0 then (none, [])
    else match neighbour t (dir - 1) with
      | none => (none, [])
      | some u =>
        match relayEntry es u with
        | none => (none, [])
        | some d =>
          if p.lost.contains u then
            let (r, gap) := chainAfter p es n u d.outDir
            (r, (u, d) :: gap)
          else (some (u, d), [])

/-- A relay step starts at a tile for its own entry, or for a lost head's whose rank it took (R352, R354, R364). -/
def relayStart (s : State) (p : Part) (st : ItinStep) (t home : Nat) (es : List (Nat × RelayDesc)) (run : Nat) (dry : Bool) :
    Option RelayRun :=
  match relayEntry es home with
  | none => none
  | some d =>
    if home != t && d.inDir != 0 then none else
    let (next, gap) := chainAfter p es 64 home d.outDir
    let far := gap.filterMap (fun g => (p.takerOf st g.1).map (fun u => (u, g.2.base, g.2.nslot)))
    let dests := (match next with
      | some (u, e) => [(u, e.base, e.nslot)]
      | none => []) ++ far
    let e := (s.tile t).nbr
    let csem := if d.inDir == 0 then d.hsem else ((s.wireOf t d.inLink).bind (fun w => w.2.csemAt t)).getD 0
    some { run := run, desc := d, inLink := d.inLink, outLink := d.outLink, csem := csem,
           signals := Nat.min (tabGet 0 e.heard csem) d.nblk, localRel := if d.loc then Nat.min (tabGet 0 e.rels csem) d.nblk else 0,
           sent := 0, landed := 0, beat := 0, released := 0, credit := false, sending := false, dests := dests,
           byRoad := home != t || !gap.isEmpty || (d.outDir != 0 && s.fab.nbrDead home (d.outDir - 1)), dry := dry, taken := home != t,
           ended := false }

/-- The engine begins a relay step: the signals and releases that it counts are its own (R354, R356). -/
def Engine.begin (e : Engine) (r : RelayRun) : Engine :=
  { e with
    relays := e.relays ++ [r], blk := 0, heard := tabSet e.heard r.csem (tabGet 0 e.heard r.csem - r.signals),
    rels := tabSet e.rels r.csem (tabGet 0 e.rels r.csem - r.desc.nblk) }

/-- The engine takes its next waiting step when the part of it that the step needs is free: one relay step at work, and beside it a lost
head's entry, and one halo step (R350, R364). -/
def State.engineTake (s : State) (t : Nat) : State :=
  match s.partAt t with
  | none => s
  | some (_, p) =>
    let x := s.tile t
    match x.nbr.steps with
    | [] => s
    | (r, home, body) :: rest =>
      let st := (p.itin[r.step]?).getD
        { wsem := none, tgt := .all, dlink := none, fbk := false, raw := false, wbc := false, ifmtA := 0, ifmtB := 0, ifmtC := 0,
          body := body }
      match body with
      | .relay es =>
        if x.nbr.relays.any (fun k => !k.ended && k.taken == (home != t)) then s
        else match relayStart s p st t home es r.id r.skip with
          | some run => s.setTile t { x with nbr := { x.nbr.begin run with steps := rest } }
          | none => s.setTile t ({ x with nbr := { x.nbr with steps := rest } }.finishRun r.id)
      | .halo es =>
        if x.nbr.halo.isSome then s
        else
          let ds := match es.find? (fun e => e.1 == home) with
            | some e => e.2
            | none => []
          let left := ((List.range 4).filterMap (fun d => (ds[d]?).map (fun h => (d, h)))).filter (fun h => h.2.lines != 0)
          let y := { x with nbr := { x.nbr with steps := rest } }
          if left.isEmpty then s.setTile t (y.finishRun r.id)
          else s.setTile t { y with nbr := { y.nbr with halo := some { run := r.id, home := home, left := left, credits := [], dry := r.skip } } }
      | _ => s.setTile t { x with nbr := { x.nbr with steps := rest } }

/-- The engine takes as many of its waiting steps as it can, in issue order (R350, R368). -/
def State.engineNext (s : State) (t : Nat) : State := (s.tile t).nbr.steps.foldl (fun s _ => s.engineTake t) s

/-- RELAY and HALO steps enter the neighbour engine, for every rank the tile runs (R352, R357, R368, R390). -/
def State.engineStep (s : State) (t : Nat) (sel : StepBody → Bool) : State :=
  s.stepGate t sel (fun s1 p st =>
    let x := s1.tile t
    if !x.unitRoom .engine || x.nbr.busy then s
    else
      let home := match p.comp with
        | some c => (stepTargets c st).getD (x.seq.ranks.headD 0) t
        | none => t
      let run : StepRun :=
        { id := x.seq.nextId, step := x.seq.pc, pass := 0, rank := x.seq.ranks.headD 0, unit := .engine, dlink := none,
          finished := false, wbc := false, skip := x.inSkip }
      let s2 := s1.updTile t (fun x => x.issue p st .engine false)
      let s2 := s2.updTile t (fun x => { x with nbr := { x.nbr with steps := x.nbr.steps ++ [(run, home, st.body)] } })
      s2.engineNext t)

/-- RELAY: the neighbour engine starts on the chain (R352). -/
def execRelay (t : Nat) (s : State) : Host.Outcome State Fault Refusal :=
  .next (s.engineStep t (fun b => match b with | .relay _ => true | _ => false))

/-- HALO: the neighbour engine starts the exchange (R357). -/
def execHalo (t : Nat) (s : State) : Host.Outcome State Fault Refusal :=
  .next (s.engineStep t (fun b => match b with | .halo _ => true | _ => false))

/-- The engine begins work: its tile works, it is not disabled, and no link of it is under re-test (R362, R363). -/
def State.engineGoes (s : State) (t : Nat) : Bool :=
  s.working t && !(s.tile t).nbr.busy && (s.tile t).nbr.stopped.isEmpty

/-- One relay step of the tile, by its run, is changed. -/
def Tile.updRelay (x : Tile) (run : Nat) (f : RelayRun → RelayRun) : Tile :=
  { x with nbr := { x.nbr with relays := x.nbr.relays.map (fun r => if r.run == run then f r else r) } }

/-- Blocks that have arrived at the tile whole: their signals are counted, or their last beat has landed (R354, R355). -/
def RelayRun.arrived (r : RelayRun) : Nat := Nat.max r.signals r.landed

/-- A block has left this tile whole: its gathered writes land and OUT_LINK is signalled (R280, R341, R355). -/
def State.blockSent (s : State) (t : Nat) (r : RelayRun) : State :=
  let s := s.updTile t (fun x =>
    let x := x.updRelay r.run (fun r => { r with sent := r.sent + 1, credit := false, sending := false })
    { x with nbr := { x.nbr with blk := satTo 32 (r.sent + 1) } })
  let s := s.gatherAll t
  let s := match s.wireOf t r.outLink with
    | some (p, w) => s.signalWire t p w
    | none => s
  (s.updTile t Tile.settleRelays).engineNext t

/-- Ranges of a tile's scratchpad are read by its neighbour engine: a detected error gives no data (R284). -/
def State.engineReads (s : State) (t : Nat) (rs : List (Nat × Nat)) : State × Bool :=
  let r := rs.foldl (fun (a : Fabric × Bool) e => let c := a.1.spCheck t e.1 e.2; (c.1, a.2 && c.2)) (s.fab, true)
  (s.setFab r.1, r.2)

/-- What a relay step at tile `t` can do next toward its next tile: begin the take of OUT_LINK's credit; with the credit and the block's
signal begin the block, over the neighbour port beat by beat or, in the fallback, over the roads as plain writes (R354, R355, R364). A
skipped step takes and signals only (R386). -/
def State.relaySend (s : State) (t : Nat) (r : RelayRun) : Option State :=
  if r.ended || r.dests.isEmpty || r.sending || decide (r.desc.nblk ≤ r.sent) then none
  else if !r.credit then
    match s.wireOf t r.outLink with
    | some (_, w) =>
      if (s.tile t).waits.contains (w.psem, .nbr (4 + r.outLink)) then none
      else some (s.updTile t (fun x => { x with waits := x.waits ++ [(w.psem, .nbr (4 + r.outLink))] }))
    | none => none
  else if r.dry then some (s.blockSent t r)
  else if r.byRoad then
    if r.sent < r.arrived then
      let off := r.desc.base + r.sent % r.desc.nslot * r.desc.blen
      let c := s.engineReads t [(off, r.desc.blen)]
      if !c.2 then some c.1
      else
        let bs := c.1.fab.spRead t off r.desc.blen
        some ((c.1.setFab (r.dests.foldl (fun f d => f.spWrite d.1 (d.2.1 + r.sent % d.2.2 * r.desc.blen) bs) c.1.fab)).blockSent t r)
    else none
  else if decide (r.sent < r.arrived) || decide (0 < r.beat) then
    some (s.updTile t (fun x => x.updRelay r.run (fun r => { r with sending := true })))
  else none

/-- RELAY_BLOCK_SEND: the engine takes its next step if it can, and a relay step of it goes on toward its next tile (R354, R355). -/
def execRelayBlockSend (t : Nat) (s : State) : Host.Outcome State Fault Refusal :=
  if !s.engineGoes t then .next s
  else
    let s := s.engineNext t
    .next (((s.tile t).nbr.relays.findSome? (s.relaySend t)).getD s)

/-- The relay step at a neighbour whose block is on its way to step `r` of tile `t` over their link (R353, R355). -/
def State.upstream (s : State) (t : Nat) (r : RelayRun) : Option (Nat × RelayRun) :=
  if r.desc.inDir == 0 || r.ended then none
  else match neighbour t (r.desc.inDir - 1) with
    | none => none
    | some u =>
      ((s.tile u).nbr.relays.find? (fun k => k.sending && k.outLink == r.inLink && k.desc.outDir == opposite (r.desc.inDir - 1) + 1)).map
        (fun k => (u, k))

/-- RELAY_BEAT_ARRIVAL: one 64 B beat of the upstream block lands in the tile's slot; after the last beat the upstream tile
signals its OUT_LINK (R351, R355). A tile that forwards while beats arrive never overtakes them. Blocks begun before a disable still
arrive (R362). -/
def execRelayBeatArrival (t : Nat) (s : State) : Host.Outcome State Fault Refusal :=
  let s := if s.engineGoes t then s.engineNext t else s
  match (s.tile t).nbr.relays.findSome? (fun r => (s.upstream t r).map (fun k => (r, k))) with
  | none => .next s
  | some (r, u, k) =>
    if !s.tileRuns t || !s.tileRuns u || !(s.tile t).nbr.stopped.isEmpty || !(s.tile u).nbr.stopped.isEmpty || k.sent != r.landed ||
        !(decide (k.sent < k.arrived) || decide (r.beat < k.beat)) then .next s
    else
      let src := k.desc.base + k.sent % k.desc.nslot * k.desc.blen + 64 * r.beat
      let dst := r.desc.base + r.landed % r.desc.nslot * r.desc.blen + 64 * r.beat
      let c := s.engineReads u [(src, 64)]
      if !c.2 then .next c.1
      else
        let s := c.1.setFab (c.1.fab.spWrite t dst (c.1.fab.spRead u src 64))
        if 64 * (r.beat + 1) < r.desc.blen then .next (s.updTile t (fun x => x.updRelay r.run (fun r => { r with beat := r.beat + 1 })))
        else
          let s := s.updTile t (fun x => x.updRelay r.run (fun r => { r with beat := 0, landed := r.landed + 1 }))
          .next (s.blockSent u k)

/-- A slot of a relay step may be released: its block has arrived, was sent on unless the tile is the tail, and its local consumer has
released it if LOCAL is set (R356). -/
def RelayRun.mayRelease (r : RelayRun) : Bool :=
  decide (r.released < r.desc.nblk) && (r.dests.isEmpty || decide (r.released < r.sent)) && (!r.desc.loc || decide (r.released < r.localRel))
    && decide (r.released < r.arrived)

/-- RELAY_SLOT_RELEASE: a slot's wire is released, IN_LINK or at the head HSEM's wire (R356). A disabled engine makes no release (R362). -/
def execRelaySlotRelease (t : Nat) (s : State) : Host.Outcome State Fault Refusal :=
  match (s.tile t).nbr.relays.find? RelayRun.mayRelease with
  | none => .next s
  | some r =>
    if !s.engineGoes t then .next s
    else
      let s := s.updTile t (fun x => x.updRelay r.run (fun r => { r with released := r.released + 1 }))
      let wire := if r.desc.inDir == 0 then
          ((List.range 64).flatMap (fun p => ((s.part p).wires.filter (fun w => w.cons.any (fun c => c.1 == t && c.2 == r.csem))).map (fun w => (p, w)))).head?
        else s.wireOf t r.inLink
      let s := match wire with
        | some (p, w) => s.sendOrHold t w (w.releaseMsg p t r.csem)
        | none => s
      .next ((s.updTile t Tile.settleRelays).engineNext t)

/-- The lines of one direction land in a tile's scratchpad (R358). -/
def haloLand (f : Fabric) (src dst : Nat) (h : HaloEntry) : Fabric :=
  (List.range h.lines).foldl (fun f i =>
    f.spWrite dst (h.dbase + i * h.dpitch) (f.spRead src (h.sbase + i * h.spitch) h.len)) f

/-- HALO_DIRECTION: LINK's PSEM is taken, the lines land at the neighbour, and LINK is signalled after every gathered write (R280). In the fallback the lines
travel over the roads, to the tile that took a lost neighbour's rank (R358, R364). -/
def execHaloDirection (t : Nat) (d : Dir) (s : State) : Host.Outcome State Fault Refusal :=
  let x := s.tile t
  let n := dirNat d
  match x.nbr.halo, s.partAt t with
  | some h, some (_, p) =>
    match h.left.find? (fun e => e.1 == n) with
    | none => .next s
    | some (_, e) =>
      if !s.engineGoes t then .next s
      else match s.wireOf t e.link with
        | none => .next s
        | some (pw, w) =>
          if !h.credits.contains n then
            (if x.waits.contains (w.psem, .nbr n) then .next s
             else .next (s.setTile t { x with waits := x.waits ++ [(w.psem, .nbr n)] }))
          else
            let dst := match neighbour h.home n with
              | some u =>
                if p.lost.contains u then
                  (match p.itin[((x.seq.issued.find? (fun r => r.id == h.run)).map (·.step)).getD 0]? with
                   | some st => (p.takerOf st u).getD u
                   | none => u)
                else u
              | none => t
            let c := if h.dry then (s, true) else s.engineReads t ((List.range e.lines).map (fun i => (e.sbase + i * e.spitch, e.len)))
            if !c.2 then .next c.1
            else
            let s := if h.dry then s else c.1.setFab (haloLand c.1.fab t dst e)
            let s := (s.gatherAll t).signalWire t pw w
            let left := h.left.filter (fun e => e.1 != n)
            if left.isEmpty then
              .next ((s.updTile t (fun x => { x with nbr := { x.nbr with halo := none } }.finishRun h.run)).engineNext t)
            else .next (s.updTile t (fun x => { x with nbr := { x.nbr with halo := some { h with left := left, credits := h.credits.erase n } } }))
  | _, _ => .next s

/-- NEIGHBOUR_ENGINE_SAFE_POINT: after a disable, the last block begun or arriving, and the last direction begun, has been signalled
(R362). -/
def execNeighbourEngineSafePoint (t : Nat) (s : State) : Host.Outcome State Fault Refusal :=
  let x := s.tile t
  let moving := x.nbr.relays.any (fun r => r.sending || (s.upstream t r).isSome)
  if x.nbr.busy && !moving then .next (s.setTile t { x with nbr := { x.nbr with busy := false } }) else .next s

/-- NEIGHBOUR_PARITY_MISMATCH: the engines on both sides of the link stop until its re-test (R363). -/
def execNeighbourParityMismatch (t : Nat) (d : Dir) (s : State) : Host.Outcome State Fault Refusal :=
  let n := dirNat d
  match neighbour t n with
  | none => .next s
  | some u =>
    let stop (k : Nat) (x : Tile) : Tile := { x with nbr := { x.nbr with stopped := insertNew x.nbr.stopped k } }
    .next ((s.updTile t (stop n)).updTile u (stop (opposite n)))

end Sys2Proof.Machine
end

