-- ==== Sys2Proof/Machine/Work.lean ====
section
/-! DEFINITION. Work items: taking a request (R369, R379, R389), reports and their merge (R370, R387), completion records
(R381, R383), checkpoints (R388), and the state a replay restores (R390, R484). -/
namespace Sys2Proof.Machine

/-- A range of columns that the device reads or writes itself, checked at load; it may run on into the next tile's column (R52). The bytes
of the first column come first. -/
def firstPart (a len : Nat) : Nat := Nat.min len (colSize - (devAddr a).off)

def State.readAt (s : State) (a len : Nat) : Nat × List Byte :=
  let n := firstPart a len
  let (st, bs) := s.fab.localRead (devAddr a) n
  if n == len || st != stOk then (st, bs)
  else
    let (st', cs) := s.fab.localRead (devAddr (a + n)) (len - n)
    (st', if st' == stOk then bs ++ cs else [])

def State.writeAt (s : State) (a : Nat) (bs : List Byte) : State :=
  let n := firstPart a bs.length
  let f := (s.fab.localWrite (devAddr a) (bs.take n)).2
  s.setFab (if n == bs.length then f else (f.localWrite (devAddr (a + n)) (bs.drop n)).2)

/-- The 128 B of a request entry (R379). -/
def decodeRequest (bs : List Byte) : WorkCtx :=
  { workId := BitVec.ofNat 64 (fieldAt bs 0 8), opsel := fieldAt bs 8 2,
    sh := (List.range 8).map (fun i => fieldAt bs (0x10 + 4 * i) 4),
    args := (List.range 8).map (fun i => fieldAt bs (0x30 + 8 * i) 8), failed := 0 }

/-- The context of request entry `n`: zeros marked with the status when the read fails (R369, R379). -/
def State.readRequest (s : State) (p : Part) (n : Nat) : WorkCtx :=
  match p.comp with
  | none => WorkCtx.init
  | some c =>
    let (st, bs) := s.readAt (c.part.reqRing + 128 * (n % 2 ^ c.part.ringLog2)) 128
    if st == stOk then decodeRequest bs else { WorkCtx.init with failed := st }

/-- A tile that begins a work item: its context, counts from zero, and skip mode when the context is marked failed (R110, R369,
R386). -/
def Tile.beginWork (x : Tile) (c : WorkCtx) (lead takeStep : Nat) : Tile :=
  let x := { x with xtake := [], xtag := 0 }.updSeq (fun q =>
    { q with ctx := c, inWork := true, workFrom := q.nextId, passes := [], skip := none, rep := Report.init, merged := 0, contributed := false })
  if c.failed == 0 then x else x.enterSkip ⟨c.failed, takeStep, lead⟩

/-- A ring emptied (R389). -/
def Queue.emptyRing (u : Queue) : Queue :=
  { u with full := 0, free := 3, prodN := 0, consN := 0, prodHeld := false, consHeld := false }

/-- Wires wholly inside a partition (R389, R484). -/
def State.localWires (s : State) (p : Nat) : List Wire :=
  ((s.part p).wires).filter (fun w => !s.crosses w)

/-- The semaphores and lags of a wire on this stack cleared. -/
def State.zeroWire (s : State) (w : Wire) : State :=
  let s := if farTile w.ptile then s else
    s.updTile w.ptile (fun x => { x with lags := tabSet x.lags w.link (List.replicate w.cons.length 0) }.setSem w.psem ⟨0, false⟩)
  w.cons.foldl (fun s c => if farTile c.1 then s else s.updTile c.1 (fun x => x.setSem c.2 ⟨0, false⟩)) s

/-- INIT given to the producer's empty semaphore. -/
def State.initWire (s : State) (w : Wire) : State :=
  if farTile w.ptile then s else s.updTile w.ptile (fun x => x.setSem w.psem ⟨satTo 16 ((x.sem w.psem).count + w.init), false⟩)

/-- Wires at their load values on this stack: INIT at each producer, 0 at each consumer, every lag 0 (R60, R389). Two wires can
share a semaphore only after a loss, when a tile runs two ranks (log 28); their INITs then add. -/
def State.loadWires (s : State) (ws : List Wire) : State := ws.foldl State.initWire (ws.foldl State.zeroWire s)

/-- At TAKE and at each checkpoint, local wires return to their load values and every ring is emptied (R389). -/
def State.resetLocal (s : State) (p : Nat) : State :=
  let ws := s.localWires p
  let isLocal (m : SemMsg) : Bool := m.pnum == p && ws.any (fun w => w.link == m.link)
  let s := s.loadWires ws
  let s := s.updFab (fun f => { f with semMsgs := f.semMsgs.filter (fun m => !isLocal m) })
  (s.part p).tiles.foldl (fun s t => s.updTile t (fun x =>
    { x with
      releases := x.releases.filter (fun m => !isLocal m), nbr := { x.nbr with relays := x.nbr.relays.filter (!·.ended), heard := [], rels := [] },
      queues := tabMap (fun _ u => u.emptyRing) x.queues })) s

/-- TAKE has completed on a tile: its DLINK is made, tagged when the context is marked failed, and the work item begins (R369, R372, R386). -/
def State.takeDone (s : State) (t : Nat) (p : Part) (st : ItinStep) (c : WorkCtx) : State :=
  let pc := (s.tile t).seq.pc
  let s := if c.failed == 0 then s else s.updTile t (fun x => x.enterSkip ⟨c.failed, pc, p.lead⟩)
  (s.controlLinks t p st).updTile t (fun x => (x.beginWork c p.lead pc).updSeq (fun q => { q with lastStep := q.pc }.advance))

/-- TAKE: the lead takes the next request, if the host has rung for one, and sends every other tile its context; the other tiles
wait for theirs (R369, R380, R389, R390). A partition in QUIESCE takes no new work item (R73). -/
def execTake (t : Nat) (s : State) : Host.Outcome State Fault Refusal :=
  .next (s.stepGate t (fun b => match b with | .take => true | _ => false) (fun s1 p st =>
    match s1.partOf t with
    | none => s
    | some pn =>
      if p.lead != t then s1.updTile t (fun x => x.updSeq (fun q => { q with hold := .context }))
      else if p.tail == p.reqHead || p.state != .running then s
      else
        let c := s1.readRequest p p.reqHead
        let q := (s1.tile t).seq
        let s2 := (s1.resetLocal pn).takeDone t p st c
        let s2 := s2.updPart pn (fun r => { r with
          reqHead := (r.reqHead + 1) % 2 ^ 32, inWork := true, replays := 0, workId := c.workId, idle := false, report := none,
          point := { ReplayPoint.init with step := q.pc, atTake := true, loops := q.loops } })
        s2.updFab (fun f => { f with contexts := f.contexts ++ ((p.tiles.filter (· != t)).map (fun u => (u, c))) })))

/-- WORK_CONTEXT_ARRIVAL: a tile that waits at TAKE loads its context (R369). -/
def execWorkContextArrival (t : Nat) (s : State) : Host.Outcome State Fault Refusal :=
  let x := s.tile t
  match s.fab.contexts.find? (fun c => c.1 == t), s.partAt t with
  | some e, some (_, p) =>
    if x.seq.hold == .context && s.seqRuns t && s.fab.roadOpen p.lead t then
      let s := s.updFab (fun f => { f.crossed p.lead t with contexts := f.contexts.erase e })
      match p.itin[x.seq.pc]? with
      | some st => .next (s.takeDone t p st e.2)
      | none => .next s
    else .next s
  | _, _ => .next s

/-- The sum of two reports (R262, R370, R387). -/
def mergeReport (a b : Report) : Report :=
  { status := worse a.status b.status, counters := List.zipWith satAdd32 a.counters b.counters, hist := histMerge a.hist b.hist }

/-- The merge tree's ranks: the lead first, then ascending (R370). -/
def Part.mergeOrder (p : Part) : List Nat := p.lead :: p.tiles.filter (· != p.lead)

/-- The lowest set bit of a rank, or the tree's levels for rank 0. -/
def lowBit (n r : Nat) : Nat := if r == 0 then clog2 n else ((List.range 9).find? (bitOf r)).getD 0

/-- Reports that the tile of rank `r` merges (R370). -/
def childCount (n r : Nat) : Nat := ((List.range (lowBit n r)).filter (fun l => r + 2 ^ l < n)).length

/-- A tile that has contributed and merged every child sends its report on, or holds the partition's report when it leads (R370). -/
def State.passReport (s : State) (t : Nat) : State :=
  match s.partAt t with
  | none => s
  | some (pn, p) =>
    let x := s.tile t
    let order := p.mergeOrder
    let r := (order.findIdx? (· == t)).getD 0
    if !x.seq.contributed || x.seq.merged < childCount order.length r then s
    else if r == 0 then s.updPart pn (fun k => { k with report := some x.seq.rep })
    else
      let l := lowBit order.length r
      s.updFab (fun f => { f with reports := f.reports ++ [⟨pn, order.getD (r - 2 ^ l) 0, x.seq.rep⟩] })

/-- A DONE or CKPT met while no work item is in progress is passed over (R369). -/
def State.passReportStep (s : State) (t : Nat) (sel : StepBody → Bool) : State :=
  match s.partAt t with
  | none => s
  | some (_, p) =>
    let q := seqSettle p t (p.itin.length + 1) (s.tile t).seq
    match p.itin[q.pc]? with
    | some st => if s.seqRuns t && sel st.body then s.updTile t (fun x => { x with seq := { q with lastStep := q.pc }.advance }) else s
    | none => s

/-- DONE and CKPT: the sequencer waits until every step it issued in the work item has completed, then contributes its report (R368, R370,
R388). With no work item in progress the step is passed over: it takes nothing, sends nothing and waits for nothing (R369). -/
def State.reportStep (s : State) (t : Nat) (sel : StepBody → Bool) : State :=
  if !(s.tile t).seq.inWork then s.passReportStep t sel
  else s.stepGate t sel (fun s1 p _ =>
    let x := s1.tile t
    if x.seq.issued.any (fun r => decide (x.seq.workFrom ≤ r.id)) then s
    else (s1.updTile t (fun x => x.updSeq (fun q => { q with hold := .report, contributed := true, lastStep := q.pc }))).passReport t)

/-- DONE (R370). -/
def execDone (t : Nat) (s : State) : Host.Outcome State Fault Refusal :=
  .next (s.reportStep t (fun b => match b with | .done => true | _ => false))

/-- CKPT (R388). -/
def execCkpt (t : Nat) (s : State) : Host.Outcome State Fault Refusal :=
  .next (s.reportStep t (fun b => match b with | .ckpt _ => true | _ => false))

/-- REPORT_MERGE: a report that has arrived at its parent is merged into the parent's own (R370). -/
def execReportMerge (t : Nat) (s : State) : Host.Outcome State Fault Refusal :=
  match s.fab.reports.find? (fun m => m.dest == t) with
  | none => .next s
  | some m =>
    if !(s.tile t).seq.contributed || !s.tileRuns t then .next s
    else
      let s := s.updFab (fun f => { f with reports := f.reports.erase m })
      .next ((s.updTile t (fun x => x.updSeq (fun q => { q with rep := mergeReport q.rep m.rep, merged := q.merged + 1 }))).passReport t)

/-- The completion record of work item `n` (R381). -/
def completionRecord (p : Part) (log2 : Nat) (r : Report) : List Byte :=
  let n := p.cplTail
  leBytes 8 p.workId.toNat ++ leBytes 4 n ++ leBytes 1 r.status.code ++ leBytes 1 (bits n log2 1) ++ leBytes 2 r.status.step
    ++ leBytes 2 r.status.tile ++ leBytes 2 (satTo 16 p.replays) ++ leBytes 2 p.tiles.length ++ List.replicate 10 0
    ++ (r.counters.map (leBytes 4)).flatten ++ List.replicate 8 0 ++ (r.hist.map (leBytes 4)).flatten ++ List.replicate 40 0

/-- The body of the step a tile stands at. -/
def State.bodyAt (s : State) (t : Nat) : Option StepBody :=
  match s.partAt t with
  | some (_, p) => (p.itin[(s.tile t).seq.pc]?).map (·.body)
  | none => none

/-- DONE or CKPT has completed on tiles, which make the step's DLINK (R372). -/
def State.reportLinks (s : State) (r : Part) (ts : List Nat) : State :=
  ts.foldl (fun s t => match r.itin[(s.tile t).seq.pc]? with
    | some st => s.controlLinks t r st
    | none => s) s

/-- A tile passes its DONE or CKPT: the report's part is over. -/
def Seq.passReport (q : Seq) : Seq := { q.advance with merged := 0, contributed := false }

/-- A queue's ERROR ends when the work item's error has been reported (R325). -/
def Queue.afterReport (u : Queue) : Queue := if u.state == .error then { u with state := .idle, cur := none, remainder := false, out := [], posValid := false } else u

/-- A tile past its DONE: no work item, skip mode ended; a class-2 tile gates its arrays and vector unit (R386, R393). -/
def Tile.endWork (x : Tile) (cls : Nat) : Tile :=
  let x := { x with queues := tabMap (fun _ u => u.afterReport) x.queues }
  let x := x.updSeq (fun q => { q.passReport with inWork := false, skip := none, rep := Report.init })
  if cls == 2 then
    { x with a := if x.a.job.isSome then x.a else x.a.gate, b := if x.b.job.isSome then x.b else x.b.gate, vgated := true, vopening := false }
  else x

/-- The tiles that stand at their DONE pass it: links are made and the work item ends there (R370, R372). -/
def State.passDone (s : State) (r : Part) (cls : Nat) (ts : List Nat) : State :=
  let ts := ts.filter (fun t => (s.tile t).seq.hold == .report)
  ts.foldl (fun s t => s.updTile t (fun x => x.endWork cls)) (s.reportLinks r ts)

/-- COMPLETION_RECORD_WRITE: with room in the ring the lead writes the record, the work-done completion leaves, held signals and
releases of crossing wires leave, and every sequencer goes on (R370, R381, R386, R393, R484). The record waits while its
message has no credit. While the ring is full the lead waits at DONE, and the other tiles go on to their TAKE (R381, R395). -/
def execCompletionRecordWrite (p : Nat) (s : State) : Host.Outcome State Fault Refusal :=
  let r := s.part p
  match r.report, r.comp with
  | some rep, some c =>
    let room := decide ((r.cplTail + 2 ^ 32 - r.cplHead) % 2 ^ 32 < 2 ^ c.part.ringLog2)
    let atDone := match s.bodyAt r.lead with
      | some .done => true
      | _ => false
    let (s1, sent) := s.emit r.lead 64 (s.channel r.lead) 1 none (.workDone r.lead p r.cplTail r.workId)
    let waits := !sent && (s.routeFor r.lead 64).isSome
    if !atDone || !s.seqRuns r.lead then .next s
    else if !room then .next (s.passDone r c.part.cls (r.tiles.filter (· != r.lead)))
    else if waits then .next s
    else
      let s1 := s1.writeAt (c.part.cplRing + 384 * (r.cplTail % 2 ^ c.part.ringLog2)) (completionRecord r c.part.ringLog2 rep)
      let s1 := s1.passDone r c.part.cls r.tiles
      let s1 := r.tiles.foldl (fun s t => s.updTile t (fun x => { x with xtake := [], xtag := 0 })) s1
      let q := (s1.tile r.lead).seq
      let s1 := s1.updPart p (fun k => { k with
        cplTail := (k.cplTail + 1) % 2 ^ 32, inWork := false, idle := true, report := none,
        point := { ReplayPoint.init with step := q.pc, loops := q.loops } })
      .next (s1.sendHeld r.tiles)
  | _, _ => .next s

/-- PASS counts of every step: the greatest of the tiles that ran it (R111, R388). -/
def State.passCounts (s : State) (ts : List Nat) : Tab Nat :=
  ts.foldl (fun m t => (s.tile t).seq.passes.foldl (fun m e => tabSet m e.1 (Nat.max (tabGet 0 m e.1) e.2)) m) []

/-- CHECKPOINT_COMMIT: the record is written to the other half of the area and commits; local wires and rings return to their
load values, held crossing signals leave, a status other than OK puts every tile in skip mode from the commit on, so that the step's links
are tagged, and the sequencers go on (R388, R389, R484). The record's layout is internal, so the bytes of its half are free values (log 27). -/
def execCheckpointCommit (p : Nat) (s : State) : Host.Outcome State Fault Refusal :=
  let r := s.part p
  match r.report, s.bodyAt r.lead with
  | some rep, some (.ckpt addr) =>
    if !s.seqRuns r.lead then .next s
    else
      let size := 17408
      let half := 1 - r.ckptHalf
      let bytes := (List.range size).map (fun i => Config.freeByte (s.free + i))
      let s1 := { s.writeAt (addr + size * half) bytes with free := s.free + size }
      let passes := s.passCounts r.tiles
      let skip := if rep.status.code == stOk then none else some rep.status
      let s1 := r.tiles.foldl (fun s t => s.updTile t (fun x => x.updSeq (fun q => { q with skip := if skip.isSome then skip else q.skip }))) s1
      let s1 := (s1.resetLocal p).reportLinks r r.tiles
      let s1 := r.tiles.foldl (fun s t => s.updTile t (fun x => { x with xtake := [], xtag := 0 }.updSeq (fun q =>
        { q.passReport with rep := if t == r.lead then rep else Report.init }))) s1
      let q := (s1.tile r.lead).seq
      let s1 := s1.updPart p (fun k => { k with
        report := none, ckptHalf := half,
        point := { step := q.pc, atTake := false, loops := q.loops, passes := passes, rep := rep, skip := skip } })
      .next (s1.sendHeld r.tiles)
  | _, _ => .next s

/-- PT_CPL_HEAD: the records that the host has consumed (R383, R542). -/
def execPtCplHeadWrite (p : Nat) (v : Word) (s : State) : Host.Outcome State Fault Refusal :=
  if (s.part p).isBound && (s.part p).state != .killing && s.stewardRuns then
    .next (s.updPart p (fun r => { r with cplHead := bits v.toNat 0 32 }))
  else .next s

/-- A doorbell for partition `p`: a TAIL behind the accepted one is ignored; one that asks for more entries than the ring holds, or a
partition that is not bound, is discarded and counted; any other is accepted (R81, R380, R536). -/
def State.doorbell (s : State) (p tail : Nat) : State :=
  let r := s.part p
  let drop : State := { s with load := { s.load with dbDrop := satTo 32 (s.load.dbDrop + 1), dbPnum := p } }
  match r.comp with
  | none => drop
  | some c =>
    if !r.isBound || r.state == .killing || r.state == .starting then drop
    else if signedOf 32 (tail + 2 ^ 32 - r.tail) < 0 then s
    else if 2 ^ c.part.ringLog2 < (tail + 2 ^ 32 - r.reqHead) % 2 ^ 32 then drop
    else s.updPart p (fun k => { k with tail := tail })

end Sys2Proof.Machine
end

