-- ==== Sys2Proof/Machine/Recover.lean ====
section
/-! DEFINITION. What every failure uses: the fault map and the loss list (R467, R490), the clocks of regions (R26), disabling and
safe points (R496), kills (R78, R335), permanent loss of a tile (R390, R480), and replay (R390, R481, R484). -/
namespace Sys2Proof.Machine

/-- A finding of the fault map is recorded once (R467, R473). -/
def State.recordFault (s : State) (b : LedgerBody) : State :=
  if s.led.faults.contains b then s
  else { s with led := { s.led.append b with faults := s.led.faults ++ [b] } }

/-- The fields of HL_LOSS for one loss (R490). -/
def Loss.word (l : Loss) : Nat :=
  l.tile + 2 ^ 9 + boolNat l.whole * 2 ^ 10 + l.offset % 2 ^ 19 * 2 ^ 11 + (if l.unbound then 0 else l.pnum % 64) * 2 ^ 30
    + boolNat l.unbound * 2 ^ 36

/-- A deep-store loss is listed, or OVF is set when 256 are listed; its event arrives in either case (R488, R490, R502). -/
def State.addLoss (s : State) (t : Nat) (whole : Bool) (word : Nat) : State :=
  let p := s.partOf t
  let l : Loss := { tile := t, whole := whole, offset := if whole then 0 else word, pnum := p.getD 0, unbound := p.isNone }
  let h := if s.hl.losses.length < 256 then { s.hl with losses := s.hl.losses ++ [l] } else { s.hl with ovf := true }
  (({ s with hl := h }.raiseFault 1)).health evDsLoss l.word

/-- A column is marked unusable: every access to it completes with DS_UNCORR (R463, R467). -/
def State.unusable (s : State) (t : Nat) : State :=
  let s := s.recordFault (.faultUnusable t)
  (s.updTile t (fun x => { x with usable := false })).updFab (fun f => { f with deadColumns := insertNew f.deadColumns t })

/-- The regions that paths in both directions between two lists of regions cross. -/
def regionJoins (xs ys : List Nat) : List Nat :=
  xs.flatMap (fun a => ys.flatMap (fun b => regionPath a b ++ regionPath b a))

/-- The distinct regions of some tiles. -/
def regionsOf (ts : List Nat) : List Nat := (List.range 16).filter (fun r => ts.any (fun t => regionOf t == r))

/-- The modules that the link map names in any entry (R461). -/
def State.listedModules (s : State) : List Nat :=
  match s.boot.site with
  | some r => (List.range 16).filter (fun m => (List.range 65).any (fun d => (linkModules r d).contains m))
  | none => []

/-- The regions beside the listed modules. -/
def State.moduleRegions (s : State) : List Nat := regionsOf (s.listedModules.flatMap moduleTiles)

/-- What one partition keeps running: the regions of its tiles, and those of its road reservations and of every path between its tiles,
along its wires, to the modules' routers (`mods`) and to the columns that it still reaches (R26). -/
def usedRegions (mods tiles lost : List Nat) (roads : List RoadRes) (wires : List Wire) : List Nat :=
  let rs := regionsOf tiles
  let ofRoads := roads.flatMap (fun r => regionPath (regionOf r.src) (regionOf r.dst))
  let ofWires := wires.flatMap (fun w => if farTile w.ptile then [] else
    w.cons.flatMap (fun c => if farTile c.1 then [] else regionJoins [regionOf w.ptile] [regionOf c.1]))
  rs ++ ofRoads ++ regionJoins rs rs ++ ofWires ++ regionJoins rs mods ++ regionJoins rs (regionsOf lost)

/-- The regions that a composition will keep running once it is bound; the loader's paths to its tiles are among them (R26, R82). -/
def Comp.regions (mods : List Nat) (c : Comp) : List Nat := usedRegions mods c.part.tiles [] c.roads c.wires

/-- The regions whose PLL runs (R26). A partition that is being killed counts as bound until its sweep has ended (DEDUCED, log 81). A
composition that a load binds counts from step 1 of its re-binding, so that its PLLs lock within that step (R26, R78). -/
def State.regionsNeeded (s : State) : List Nat :=
  let mods := s.moduleRegions
  let ofPart := (s.boundParts.map s.part).flatMap (fun p => usedRegions mods p.tiles p.lost ((p.comp.map (·.roads)).getD []) p.wires)
  let ofLoad := s.load.rebinds.flatMap (fun r => (r.comp.map (Comp.regions mods)).getD [])
  (List.range 16).filter (fun r => (ofPart ++ ofLoad).contains r)

/-- The set is recomputed at every binding, kill, tile loss and route loss: PLLs no longer needed stop, and those newly needed
begin to lock (R26). -/
def State.rePll (s : State) : State :=
  let need := s.regionsNeeded
  let on := s.pow.pllOn.filter need.contains
  { s with pow := { s.pow with pllOn := on, locking := need.filter (fun r => !on.contains r) } }

/-- Every job that a tile takes part in is dropped: its array has failed or was killed. -/
def State.dropJobs (s : State) (t : Nat) : State :=
  let gone (a : Arr) : Arr := match a.job with
    | some j => if j.runs.any (fun u => u.1 == t) then { a with job := none } else a
    | none => a
  s.updFab (fun f => { f with tiles := tabMap (fun _ x => { x with a := gone x.a, b := gone x.b }) f.tiles })

/-- Every function of a tile is disabled; what has work in flight reads BUSY until its safe point, and a drain turns a falling ramp. A take
that the sequencer or a queue waits for is abandoned, and the fault records of halted queues are withdrawn (R156, R333, R336, R362, R392,
R395, R496). -/
def State.disableTile (s : State) (t : Nat) : State :=
  let s := match s.partOf t with
    | some p => s.updPart p (fun r => { r with faults := r.faults.filter (fun f => f.tile != t) })
    | none => s
  let ja := (s.jobOf t .a).isSome
  let jb := (s.jobOf t .b).isSome
  let drain (a : Arr) (job : Bool) : Arr := { a with busy := a.busy || job, ramping := if a.ramping == 2 then 1 else a.ramping }
  s.updTile t (fun x =>
    let x := (List.range 8).foldl Tile.disableQueue x
    { x with
      a := drain x.a ja, b := drain x.b jb,
      vbusy := x.vbusy || x.fusedRun.isSome,
      nbr := { x.nbr with busy := x.nbr.busy || !x.nbr.relays.isEmpty || x.nbr.halo.isSome },
      waits := [], seq := { x.seq with running := false } })

def State.disableAll (s : State) (ts : List Nat) : State := ts.foldl State.disableTile s

/-- A tile whose functions have all reached their safe points; a fenced core issues nothing more (R477, R496). -/
def Tile.atSafePoint (x : Tile) : Bool :=
  x.fenced || !x.powered ||
    (!x.a.busy && !x.b.busy && !x.vbusy && !x.nbr.busy && !(List.range 8).any (fun q => (x.queue q).busy))

/-- The ring positions outlive the kill (R80); the remote mask and the faults are cleared (R404, R335, R542). -/
def Part.killed (r : Part) : Part :=
  { r with state := .killing, remoteMask := 0, faults := [], hold := false, holdBusy := false, draining := false, retest := [],
           report := none }

/-- A killed tile: unbound for access, intake stopped, lane entries, rings, queue positions, semaphores and the neighbour engine cleared.
Positions that its arrays have admitted still complete, but nothing more is admitted and owed retries are discarded; the rest waits for its
safe points and the sweep (R78, R81, R157, R159, R335, R365). -/
def Tile.killed (x : Tile) : Tile :=
  let cut (a : Arr) : Arr :=
    { a with job := a.job.map (fun j => { j with passes := [], q := 0, loaded := 0, retries := [] }), lanes := [], scales := [] }
  { x with
    access := false, a := cut x.a, b := cut x.b, pairRows := [], pairNow := none, fusedRun := none,
    nbr := { Engine.init with stopped := x.nbr.stopped }, waits := [], held := [], releases := [], sems := [], lags := [], xtake := [],
    xtag := 0,
    queues := tabMap (fun _ u => { u.emptyRing with out := [], shadow := none, posSeq := 0, posInstr := 0, posValid := false }) x.queues }

/-- The tiles that other re-bindings will sweep. -/
def State.claimed (s : State) (p : Nat) : List Nat :=
  s.load.rebinds.flatMap (fun r => if r.pnum == p then [] else match r.comp with
    | some c => c.part.tiles
    | none => [])

/-- Step 1 of a re-binding, for a bound partition: the kill. `comp` is what it is bound to next; a partition that waits for its kill in a
load has that load's composition (R73, R78, R80, R81, R335). -/
def State.killPartition (s : State) (p : Nat) (comp : Option Comp) (ofLoad all : Bool) : State :=
  let r := s.part p
  let old := r.tiles ++ r.lost
  let s := s.disableAll old
  let s := old.foldl (fun s t => s.updTile t Tile.killed) s
  let s := s.updFab (fun f => { f with
    contexts := f.contexts.filter (fun c => !old.contains c.1), reports := f.reports.filter (fun m => m.pnum != p),
    semMsgs := f.semMsgs.filter (fun m => !old.contains m.dest) })
  let s := s.updPart p Part.killed
  let waits := s.load.rebinds.find? (fun e => e.pnum == p && e.ofLoad && e.phase == .quiesce)
  let comp := match waits with
    | some e => e.comp
    | none => comp
  let ofLoad := ofLoad || waits.isSome
  let fresh := match comp with
    | some c => c.part.tiles
    | none => []
  let kept := s.load.rebinds.filter (fun e => e.pnum != p)
  let ts := fresh ++ old.filter (fun t => !fresh.contains t && !(s.claimed p).contains t)
  let e : Rebind := { pnum := p, phase := .kill, comp := comp, tiles := ts, ofLoad := ofLoad, all := all }
  { s with load := { s.load with rebinds := kept ++ [e] } }.rePll

/-- Indices of the gangs that cover a tile on a side (R53). -/
def Part.gangsAt (p : Part) (t : Nat) (x : Side) : List (Nat × Gang) :=
  match p.comp with
  | some c => ((List.range c.gangs.length).zip c.gangs).filter (fun g => bitOf g.2.sides (sideNat x) && g.2.tiles.contains t)
  | none => []

/-- The tiles of the gang side that a tile belongs to, or the tile alone (R53). -/
def Part.sideTiles (p : Part) (t : Nat) (x : Side) : List Nat :=
  match (p.gangsAt t x).head? with
  | some g => g.2.tiles
  | none => [t]

/-- A gang side becomes impaired (R216, R494). -/
def State.impair (s : State) (p t : Nat) (x : Side) : State :=
  ((s.part p).gangsAt t x).foldl (fun s g =>
    let s := g.2.tiles.foldl (fun s u => s.updTile u (fun y => y.updArr x (fun a => { a with impaired := true }))) s
    s.health evGangImpaired (g.1 + sideNat x * 2 ^ 16 + t * 2 ^ 32)) s

/-- The event RECOVERED (R479, R494): tile, partition, CAPACITY and the REPLAYS that this recovery's replay makes. -/
def State.recovered (s : State) (t p : Nat) : State :=
  let r := s.part p
  s.health evRecovered (t + p * 2 ^ 16 + r.tiles.length * 2 ^ 32 + satTo 16 (r.replays + boolNat r.inWork) * 2 ^ 48)

/-- A partition without a good tile left is lost (R485). -/
def State.partitionLost (s : State) (p : Nat) : State :=
  let r := s.part p
  let s := (s.health evPartitionLost (p + r.reqHead * 2 ^ 32 + r.cplTail * 2 ^ 64)).raiseFault 4
  s.killPartition p none false false

/-- The tile that carries on a lost tile's end of a wire: the tile that takes its rank in a step that names the wire or its
semaphore, otherwise the next surviving tile (R390; DEDUCED, log 28). -/
def Part.wireTaker (p : Part) (t link sem : Nat) : Nat :=
  match p.comp with
  | none => t
  | some c =>
    let owner (st : ItinStep) : Option Nat :=
      let ts := stepTargets c st
      let at' (l : Nat) : Bool := if ts.length ≤ 1 then l == link else decide (l ≤ link) && ts[link - l]? == some t
      let launched := match st.body with
        | .launch d _ => match c.progs.find? (fun g => g.id == d.prog) with
          | some g => g.instrs.any (fun i => match i with
            | .signal l => at' l
            | .wait w => w == sem
            | _ => false)
          | none => false
        | .halo es => es.any (fun e => e.1 == t && e.2.any (fun h => h.link == link))
        | .relay es => es.any (fun e => e.1 == t && (e.2.inLink == link || e.2.outLink == link || e.2.hsem == sem))
        | _ => false
      let named := (match st.dlink with
        | some l => at' l
        | none => false) || st.wsem == some sem
      if ts.contains t && (launched || named) then rankOwner p ts t else none
    match p.itin.findSome? owner with
    | some u => u
    | none => (nextAfter p.tiles t).getD t

/-- The CSEM of a tile's entry in the wire that the image gives a link. -/
def Comp.csemOf (c : Comp) (t link : Nat) : Option Nat :=
  (c.wires.find? (fun w => w.link == link && w.cons.any (fun e => e.1 == t))).bind
    (fun w => (w.cons.find? (fun e => e.1 == t)).map (·.2))

/-- The gaps in a partition's relay chains: the live tile before a gap, the first live tile after it, and the lost tiles with
those that took their ranks (R364). -/
def Part.relayGaps (p : Part) : List (RelayDesc × Option (Nat × RelayDesc) × List (Nat × RelayDesc × Nat)) :=
  match p.comp with
  | none => []
  | some c => c.itin.flatMap (fun st => match st.body with
    | .relay es => es.filterMap (fun e =>
        if p.lost.contains e.1 || e.2.outDir == 0 then none
        else
          let (next, gap) := chainAfter p es 64 e.1 e.2.outDir
          if gap.isEmpty then none
          else some (e.2, next, gap.map (fun g => (g.1, g.2, (p.takerOf st g.1).getD e.1))))
    | _ => [])

/-- Redirections over the gaps: the tile after the gap, and the tiles that run the lost tiles' consumers, name their IN_LINK and mean the
OUT_LINK of the tile before the gap (R364). -/
def Part.gapRedirects (p : Part) : List (Nat × Nat × Nat) :=
  p.relayGaps.flatMap (fun g => (g.2.1.map (fun v => (v.2.inLink, v.1, g.1.outLink))).toList
    ++ g.2.2.map (fun z => (z.2.1.inLink, z.2.2, g.1.outLink)))

/-- OUT_LINK of the tile before a gap signals the tile after it, whose slots it fills, and the tiles that run the lost tiles' consumers
(R364). -/
def Part.gapWires (p : Part) (ws : List Wire) : List Wire :=
  match p.comp with
  | none => ws
  | some c => p.relayGaps.foldl (fun ws g =>
      let after := match g.2.1 with
        | some v => (c.csemOf v.1 v.2.inLink).elim [] (fun s => [(v.1, s)])
        | none => []
      let taken := g.2.2.filterMap (fun z => (c.csemOf z.1 z.2.1.inLink).map (fun s => (z.2.2, s)))
      (ws.filter (fun w => !g.2.2.any (fun z => z.2.1.outDir != 0 && w.link == z.2.1.outLink && w.ptile == z.1))).map (fun w =>
        if w.link == g.1.outLink then { w with cons := after ++ taken, init := (g.2.1.map (·.2.nslot)).getD w.init } else w)) ws

/-- The tile that now stands at an end of a wire. -/
def State.liveEnd (s : State) (link sem t : Nat) : Nat :=
  if farTile t then t
  else match s.partOf t with
    | some q => if (s.part q).lost.contains t then (s.part q).wireTaker t link sem else t
    | none => t

/-- The wires of a partition in force after its own and others' losses. -/
def State.liveWires (s : State) (p : Nat) : List Wire :=
  match (s.part p).comp with
  | none => []
  | some c => ((s.part p).gapWires c.wires).map (fun w =>
      { w with ptile := s.liveEnd w.link w.psem w.ptile, cons := w.cons.map (fun e => (s.liveEnd w.link e.2 e.1, e.2)) })

/-- A lost tile's semaphore and its counted takes go to the tile that carries its wire on (R481, R484; log 28). -/
def State.moveSem (s : State) (t u i : Nat) : State :=
  let x := s.tile t
  let m := x.sem i
  let n := m.count + tabGet 0 x.xtake i
  let s := s.setTile t ({ x with xtake := tabSet x.xtake i 0 }.setSem i Sem.init)
  if n == 0 || u == t then s else s.updTile u (fun y => y.incSem i n (m.tag || bitOf x.xtag i))

/-- Every wire end at a lost tile moves. -/
def State.moveWires (s : State) (t : Nat) : State :=
  let ends := (List.range 64).flatMap (fun q => (s.part q).wires.flatMap (fun w =>
    (if w.ptile == t then [(w.link, w.psem)] else []) ++ (w.cons.filter (fun c => c.1 == t)).map (fun c => (w.link, c.2))))
  let s := ends.foldl (fun s e => s.moveSem t (s.liveEnd e.1 e.2 t) e.2) s
  s.boundParts.foldl (fun s q => s.updPart q (fun r => { r with wires := s.liveWires q, redirects := r.gapRedirects })) s

/-- A core has failed: its scratchpad, taps, lanes, queues and registers are lost (R479, R481). Semaphore counts, counted takes and
error counters stand in the shell's status block (DEDUCED, log 28). -/
def Tile.loseCore (x : Tile) : Tile :=
  let keep (a : Arr) : Arr := { Arr.init with form := a.form, detours := a.detours, impaired := a.impaired }
  { x with
    powered := false, a := keep x.a, b := keep x.b, vgated := true, vopening := false, vbusy := false, pairRows := [],
    pairNow := none, fusedRun := none, wbBase := 0, wbSize := 0, swung := false, gather := [], fptCache := [], waits := [], held := [],
    releases := x.releases.filter (·.letGo), queues := [],
    nbr := { Engine.init with linkDown := x.nbr.linkDown, stopped := x.nbr.stopped },
    seq := { Seq.init with lastStep := x.seq.lastStep, nextId := x.seq.nextId } }

/-- A core is gated after its failure: nothing of it survives but what its shell holds. -/
def State.gateCore (s : State) (t : Nat) : State :=
  ((s.dropJobs t).updTile t Tile.loseCore).updFab (fun f => f.clearPad t)

/-- A permanent failure: the tile is marked not good, and its partition goes on with one tile fewer (R216, R390, R480, R485). -/
def State.loseTile (s : State) (t : Nat) : State :=
  let s := (s.recordFault (.faultTile t)).gateCore t
  let s := s.updTile t (fun x => { x with good := false, fenced := false, access := false })
  match s.partOf t with
  | none => s
  | some p =>
    let r := s.part p
    if !r.isBound || r.state == .killing || r.state == .starting || !r.tiles.contains t then s
    else if r.tiles.length ≤ 1 then s.partitionLost p
    else
      let ts := r.tiles.erase t
      let s := s.updPart p (fun r => { r with
        tiles := ts, lost := insertNew r.lost t, lead := if r.lead == t then (nextAfter ts t).getD r.lead else r.lead })
      let s := ((s.moveWires t).impair p t .a).impair p t .b
      (s.recovered t p).rePll

/-- The partition's work is to be replayed: every tile is disabled and goes to its safe points, and pending far-page faults are
withdrawn; `ts` are under re-test (R395, R479, R485). -/
def State.beginRecovery (s : State) (p : Nat) (ts : List Nat) : State :=
  match (s.part p).state with
  | .running | .quiesce | .held | .recovering =>
    (s.disableAll (s.part p).tiles).updPart p (fun r => { r with
      state := .recovering, draining := true, holdBusy := false, faults := [], retest := ts.foldl insertNew r.retest })
  | _ => s

def Queue.cleared (u : Queue) : Queue :=
  { u.emptyRing with
    state := .idle, busy := false, cur := none, shadow := none, pc := 0, loops := [], issuedN := 0, out := [], waiting := false,
    remainder := false, posValid := false, fptWait := none }

/-- An array that begins a replay; what its lanes and front buffer held is discarded (log 29). -/
def Arr.cleared (a : Arr) : Arr := { a with suspect := false, busy := false, lanes := [], scales := [], front := [], job := none }

/-- A tile at the replay point: counted takes go back to their semaphores with their tags, held signals are dropped, and the
sequencer stands with the state of the checkpoint or at its TAKE (R386, R390, R481, R484). -/
def Tile.replayed (x : Tile) (r : Part) (t : Nat) (c : WorkCtx) : Tile :=
  let x := x.xtake.foldl (fun y e => if e.2 == 0 then y else y.incSem e.1 e.2 (bitOf x.xtag e.1)) x
  let x := { x with
    a := x.a.cleared, b := x.b.cleared, vbusy := false, pairRows := [], pairNow := none, fusedRun := none, gather := [],
    queues := tabMap (fun _ u => u.cleared) x.queues,
    nbr := { x.nbr with relays := [], heard := [], rels := [], halo := none, steps := [], busy := false, blk := 0 },
    waits := [], held := [], releases := x.releases.filter (·.letGo), xtake := [], xtag := 0,
    seq := { Seq.init with lastStep := x.seq.lastStep, nextId := x.seq.nextId, running := true, pc := r.point.step, loops := r.point.loops } }
  if !r.inWork then x
  else if r.point.atTake then (x.beginWork c r.lead r.point.step).updSeq Seq.advance
  else
    let x := x.updSeq (fun q => { q with
      ctx := c, inWork := true, passes := r.point.passes, rep := if t == r.lead then r.point.rep else Report.init, skip := r.point.skip })
    if c.failed == 0 then x else x.enterSkip ⟨c.failed, r.point.step, r.lead⟩

/-- A partition named in a REBIND record of mode QUIESCE still waits for its last work item (R73). -/
def State.quiescing (s : State) (p : Nat) : Bool := s.load.rebinds.any (fun e => e.pnum == p && e.phase == .quiesce)

/-- A status after which a work item is not replayed: a deep-store loss or the loss of a module (R488, R491, R502). -/
def State.finalStatus (s : State) (r : Part) : Option Status :=
  if r.inWork then
    (r.tiles.map (fun t => (s.tile t).seq.rep.status)).find? (fun st => st.code == stDsUncorr || st.code == stLinkDown)
  else none

/-- The DLINKs of the replay point's step along wires inside the partition, which the replay has returned to their load values, stand again
(R372, R389, R390; DEDUCED, log 90). -/
def State.relink (s : State) (p : Nat) : State :=
  let r := s.part p
  match r.itin[r.point.step]? with
  | some st =>
    if r.inWork then r.tiles.foldl (fun s t =>
      ((ownedRanks r st t).filterMap (linkAt r st)).foldl (fun s l => match s.wireOf t l with
        | some (_, w) => if s.crosses w then s else s.makeLink t l
        | none => s) s) s
    else s
  | none => s

/-- Replay: every tile restarts at the replay point, the context is read again, and REPLAYS grows by 1; with no work item in
progress nothing is repeated and nothing counted (R389, R390). A work item that met a deep-store loss or a module loss is not
repeated: its steps are passed over in skip mode with that status (R488, R491, R502; log 30). A hold set meanwhile applies
afterwards (R497, R502). -/
def State.startReplay (s : State) (p : Nat) : State :=
  let r := s.part p
  let final := s.finalStatus r
  let s := r.tiles.foldl State.gatherAll s
  let s := s.resetLocal p
  let s := s.updFab (fun f => { f with
    contexts := f.contexts.filter (fun c => !r.tiles.contains c.1), reports := f.reports.filter (fun m => m.pnum != p) })
  let c := if r.inWork then s.readRequest r ((r.reqHead + 2 ^ 32 - 1) % 2 ^ 32) else WorkCtx.init
  let s := r.tiles.foldl (fun s t => s.updTile t (fun x =>
    let y := x.replayed r t c
    match final with
    | some st => y.enterSkip st
    | none => y)) s
  let s := s.updPart p (fun r => { r with
    state := if s.quiescing p then .quiesce else .running, draining := false, retest := [], faults := [], report := none,
    replays := if r.inWork && final.isNone then satTo 16 (r.replays + 1) else r.replays, holdBusy := false })
  let s := s.relink p
  if r.hold then (s.disableAll r.tiles).updPart p (fun r => { r with state := .held, holdBusy := true }) else s

/-- A test has ended: with none left and every safe point reached, replay starts (R479, R485). -/
def State.resume (s : State) (p : Nat) (key : Nat) : State :=
  let s := s.updPart p (fun r => { r with retest := r.retest.erase key })
  let r := s.part p
  if r.state == .recovering && !r.draining && r.retest.isEmpty then s.startReplay p else s

/-- The key under which a neighbour link stands among a partition's tests. -/
def linkKey (t d : Nat) : Nat := 1024 + 4 * t + d

end Sys2Proof.Machine
end

