-- ==== Sys2Proof/Machine/Faults.lean ====
section
/-! DEFINITION. Failures of cores, columns, neighbour links, road links and shells, and what recovers them (R148 to R154, R213 to
R216, R363, R474 to R490), holds (R497), and the deep store's bursts, scrubs and refreshes (R284, R286, R292, R294, R295). -/
namespace Sys2Proof.Machine

/-- A check fires in a tile's core: the tile is fenced, its core is gated, and its partition recovers (R477, R479). -/
def State.fence (s : State) (t block : Nat) : State :=
  let x := s.tile t
  if !x.powered || x.fenced then s
  else
    let s := (s.gateCore t).updTile t (fun x => { x with fenced := true, fired := false, failBlock := block })
    match x.bound with
    | some p => if (s.part p).tiles.contains t then s.beginRecovery p [t] else s
    | none => s

/-- TILE_CORE_FAILURE (R477, R479). -/
def execTileCoreFailure (t : Nat) (block : Nat) (s : State) : Host.Outcome State Fault Refusal := .next (s.fence t block)

/-- PARTITION_SAFE_POINT: every function of a disabled partition has reached its safe point; a hold is complete, or recovery goes
on (R479, R496, R497). -/
def execPartitionSafePoint (p : Nat) (s : State) : Host.Outcome State Fault Refusal :=
  let r := s.part p
  if !r.tiles.all (fun t => (s.tile t).atSafePoint) then .next s
  else match r.state with
    | .recovering =>
      if !r.draining then .next s
      else if r.retest.isEmpty then .next (s.startReplay p)
      else .next (s.updPart p (fun r => { r with draining := false }))
    | .held =>
      if !r.holdBusy then .next s
      else if r.hold then .next (s.updPart p (fun r => { r with holdBusy := false }))
      else .next (s.startReplay p)
    | _ => .next s

/-- A failure is transient when its re-test passes and no earlier failure of the core lies within 1,000,000 samples (R480). -/
def Tile.transient (x : Tile) (seq : Nat) (pass : Bool) : Bool :=
  pass && (match x.failSeq with
    | none => true
    | some f => decide (1000000 < (seq + 2 ^ 32 - f) % 2 ^ 32))

/-- CORE_RETEST_DONE: a transient failure powers the tile again; any other is permanent. Replay follows when nothing else is under
re-test (R479, R480, R494). -/
def execCoreRetestDone (t : Nat) (pass : Bool) (s : State) : Host.Outcome State Fault Refusal :=
  let x := s.tile t
  if !x.fenced then .next s
  else
    let ok := x.transient s.pow.seq pass
    let p := x.bound.getD 0
    let s := s.updTile t (fun x => { x with failSeq := some s.pow.seq })
    let s := if ok then
        (s.updTile t (fun x => { x with
          fenced := false, powered := true, a := { x.a with gated := false }, b := { x.b with gated := false }, vgated := false })).health
          evTransient (t + x.failBlock * 2 ^ 16 + p * 2 ^ 32)
      else s.loseTile t
    match x.bound with
    | some p => .next (s.resume p t)
    | none => .next s

/-- HOLD: every function of the partition is disabled; during a recovery the hold waits (R497, R502). -/
def execHold (p : Nat) (s : State) : Host.Outcome State Fault Refusal :=
  let r := s.part p
  match r.state with
  | .running | .quiesce =>
    .next ((s.disableAll r.tiles).updPart p (fun r => { r with state := .held, hold := true, holdBusy := true }))
  | .held => .next (s.updPart p (fun r => { r with hold := true }))
  | .recovering => .next (s.updPart p (fun r => { r with hold := true }))
  | _ => .next s

/-- HOLD_RELEASE: the partition restarts by replay, at once or at its safe point (R497). -/
def execHoldRelease (p : Nat) (s : State) : Host.Outcome State Fault Refusal :=
  let r := s.part p
  let s' := s.updPart p (fun r => { r with hold := false })
  match r.state with
  | .held => if r.holdBusy || !r.hold then .next s' else .next (s'.startReplay p)
  | .recovering => .next s'
  | _ => .next s

/-- An array, and its whole gang side, stops: nothing more is admitted and nothing more lands. A paired or fused step stops both its
arrays (R153, R215, R247, R272). -/
def State.suspectSide (s : State) (t : Nat) (x : Side) : State :=
  let job := s.jobOf t x
  let both := match job with
    | some (_, j) => j.role != .single
    | none => false
  let ts := (match s.partOf t with
    | some p => (s.part p).sideTiles t x
    | none => [t])
  ts.foldl (fun s u => s.updTile u (fun y =>
    { y with a := if x == .a || both then { y.a with suspect := true } else y.a,
             b := if x == .b || both then { y.b with suspect := true } else y.b })) s

/-- Columns of a tile's array are suspect and go under re-qualification, during which the array admits no work (R149, R150). -/
def Tile.requalify (y : Tile) (x : Side) (cs : List Nat) : Tile :=
  y.updArr x (fun a => { a with suspect := true, requal := cs.foldl insertNew a.requal })

/-- A front in progress is abandoned; the taps that it was writing hold no set until they are loaded again (R160). -/
def State.abandonFront (s : State) (t : Nat) (x : Side) : State :=
  match s.jobOf t x with
  | none => s
  | some (o, j) =>
    match j.passes with
    | [] => s
    | p :: _ =>
      if j.loaded == 0 || p.loads ≤ j.loaded then s
      else
        let s := j.tiles.foldl (fun s u => s.updTile u (fun y => y.updArr x (fun a =>
          { a with taps := a.taps.filter (fun e => decide (j.loaded ≤ e.1)) }))) s
        s.updTile o (fun y => y.updArr x (fun a => { a with job := some { j with loaded := 0 } }))

/-- A partition recovers from a column's stop, while the tile's other array keeps running unless its step holds both (R149, R153, R247). -/
def State.columnRecovery (s : State) (p t : Nat) (x : Side) (ts : List Nat) : State :=
  let both := match s.jobOf t x with
    | some (_, j) => j.role.both
    | none => false
  let other := ((s.tile t).arr (otherSide x)).busy
  let s := s.beginRecovery p ts
  if both then s else s.updTile t (fun y => y.updArr (otherSide x) (fun a => { a with busy := other }))

/-- The partition's work is replayed after a failure: it is at work, not being bound or killed (R85, R485). -/
def Part.recovers (r : Part) : Bool := r.state == .running || r.state == .quiesce || r.state == .held || r.state == .recovering

/-- COLUMN_CHECK_FAIL: column `c` is suspect, its array stops, and re-qualification starts; the work is to be replayed (R150, R153,
R160, R215). -/
def execColumnCheckFail (t : Nat) (x : Side) (c : Nat) (s : State) : Host.Outcome State Fault Refusal :=
  let y := s.tile t
  if !y.powered || y.fenced || decide (32 ≤ c) then .next s
  else
    let mark (s : State) : State := s.updTile t (fun y => y.requalify x [c])
    match y.bound with
    | some p =>
      if (s.part p).recovers then .next ((mark ((s.abandonFront t x).suspectSide t x)).columnRecovery p t x [t]) else .next (mark s)
    | none => .next (mark s)

/-- The detours of the other tiles of a gang column: no union may exceed two columns (R214 to R216). -/
def State.unionOver (s : State) (p t : Nat) (x : Side) : Bool :=
  ((s.part p).gangsAt t x).any (fun g =>
    let us := (g.2.tiles.filter (fun u => tileX u == tileX t)).foldl (fun l u => ((s.tile u).arr x).detours.foldl insertNew l) []
    decide (2 < us.length))

/-- A detour is recorded in the fault map and reported (R153, R215). -/
def State.addDetour (s : State) (t : Nat) (x : Side) (c : Nat) : State :=
  if ((s.tile t).arr x).detours.contains c then s
  else
    let s := s.updTile t (fun y => y.updArr x (fun a => { a with detours := insertNew a.detours c }))
    (s.recordFault (.faultColumn t x c)).health evDetour (t + sideNat x * 2 ^ 16 + c * 2 ^ 32)

/-- One test that a gang parity mismatch started has ended. `none`: no mismatch started it. Otherwise, whether it was the last and all
have passed, which makes the event transient (R213). -/
def State.parityEnded (s : State) (key : Nat) (pass : Bool) : State × Option Bool :=
  match s.hl.parity.find? (fun e => e.left.contains key) with
  | none => (s, none)
  | some e =>
    let left := e.left.erase key
    let failed := e.failed || !pass
    let rest := s.hl.parity.filter (fun k => k != e)
    ({ s with hl := { s.hl with parity := if left.isEmpty then rest else rest ++ [ParityTest.mk left failed] } }, some (left.isEmpty && !failed))

/-- The key under which the re-qualification of a tile's array stands among the tests of a parity mismatch. -/
def arrayKey (t : Nat) (x : Side) : Nat := 2 * t + sideNat x

/-- COLUMN_REQUALIFY_DONE: `bad` are those of the suspect columns that failed. A pass is transient; a detour narrows the array; a third
loses the tile; a union beyond two impairs the gang side. Replay follows, and frees the array; with nothing to replay it is free at once
(R85, R153, R154, R213, R215, R216). -/
def execColumnRequalifyDone (t : Nat) (x : Side) (bad : List Nat) (s : State) : Host.Outcome State Fault Refusal :=
  let y := s.tile t
  let bad := bad.filter (y.arr x).requal.contains
  if (y.arr x).requal.isEmpty then .next s
  else
    let p := y.bound.getD 0
    let replayed := match y.bound with
      | some p => (s.part p).recovers
      | none => false
    let s := s.updTile t (fun y => y.updArr x (fun a => { a with requal := [], suspect := replayed }))
    let (s, parity) := s.parityEnded (arrayKey t x) bad.isEmpty
    let s := if bad.isEmpty then
        (if parity.getD true then s.health evTransient (t + sideNat x * 2 ^ 16 + p * 2 ^ 32) else s)
      else
        let s := bad.foldl (fun s c => s.addDetour t x c) s
        if 2 < ((s.tile t).arr x).detours.length then s.loseTile t
        else if s.unionOver p t x then (s.impair p t x).recovered t p
        else s.recovered t p
    match y.bound with
    | some p =>
      let z := s.tile t
      if !z.a.requal.isEmpty || !z.b.requal.isEmpty || z.fenced then .next s else .next (s.resume p t)
    | none => .next s

/-- Both sides of a neighbour link stop, or go on. -/
def State.stopLink (s : State) (t u d : Nat) (stop : Bool) : State :=
  let set (k : Nat) (x : Tile) : Tile :=
    { x with nbr := { x.nbr with stopped := if stop then insertNew x.nbr.stopped k else x.nbr.stopped.filter (· != k) } }
  (s.updTile t (set d)).updTile u (set (opposite d))

/-- GANG_PARITY_MISMATCH: the gang side stops; both tiles' columns are re-qualified and the link is re-tested. The event counts as one
transient when all three pass (R213). -/
def execGangParityMismatch (t : Nat) (x : Side) (d : Dir) (s : State) : Host.Outcome State Fault Refusal :=
  let n := dirNat d
  match neighbour t n, s.partOf t with
  | some u, some p =>
    if !(((s.part p).gangsAt t x).any (fun g => g.2.tiles.contains u)) then .next s
    else
      let s := (if (s.part p).recovers then s.suspectSide t x else s).stopLink t u n true
      let all (y : Tile) : Tile := y.requalify x (List.range 32)
      let s := (s.updTile t all).updTile u all
      let s := { s with hl := { s.hl with parity := s.hl.parity ++ [ParityTest.mk [arrayKey t x, arrayKey u x, linkKey t n] false] } }
      .next (s.beginRecovery p [t, u, linkKey t n])
  | _, _ => .next s

/-- A block on its way over a link that was re-tested is sent again from its first beat (R363). -/
def Tile.resendBlock (x : Tile) (d : Nat) : Tile :=
  { x with nbr := { x.nbr with relays := x.nbr.relays.map (fun r => if r.desc.inDir == d + 1 then { r with beat := 0 } else r) } }

/-- Gangs of a partition that a dead neighbour link crosses (R216). -/
def State.impairAcross (s : State) (p t u : Nat) : State :=
  [Side.a, Side.b].foldl (fun s x =>
    if ((s.part p).gangsAt t x).any (fun g => g.2.tiles.contains u) then s.impair p t x else s) s

/-- LINK_RETEST_DONE: a pass lets the work resume; a failure sets LINKDOWN, impairs gangs across the link, and the work is replayed
with its fallback (R213, R216, R363, R364). -/
def execLinkRetestDone (t : Nat) (d : Dir) (pass : Bool) (s : State) : Host.Outcome State Fault Refusal :=
  let n := dirNat d
  match neighbour t n with
  | none => .next s
  | some u =>
    if !(s.tile t).nbr.stopped.contains n then .next s
    else
      let p := s.partOf t
      let (s, parity) := (s.stopLink t u n false).parityEnded (linkKey t n) pass
      let s := if pass then
          let s := (s.updTile t (fun x => x.resendBlock n)).updTile u (fun x => x.resendBlock (opposite n))
          if parity.getD true then s.health evTransient (t + n * 2 ^ 16 + p.getD 0 * 2 ^ 32) else s
        else
          let down (k : Nat) (x : Tile) : Tile := { x with nbr := { x.nbr with linkDown := insertNew x.nbr.linkDown k } }
          let s := (s.updTile t (down n)).updTile u (down (opposite n))
          let s := s.updFab (fun f => { f with deadNbr := insertNew f.deadNbr (t, n) })
          ([s.partOf t, s.partOf u].eraseDups).foldl (fun s q => match q with
            | some q => ((s.impairAcross q t u).recovered t q).beginRecovery q []
            | none => s) s
      match p with
      | some p => .next (s.resume p (linkKey t n))
      | none => .next s

/-- The modules that the traffic of a tile takes (R408). -/
def State.modulesUsed (s : State) (t : Nat) : List Nat :=
  (List.range 65).foldl (fun l d => match s.routeFor t d with
    | some m => insertNew l m
    | none => l) []

/-- Some path of a partition passes through a dead router or link (R486). -/
def State.cutOff (s : State) (ts : List Nat) : Bool :=
  ts.any (fun t => s.fab.deadRouters.contains t || ts.any (fun u => s.fab.pathDead t u) ||
    ((s.modulesUsed t).flatMap moduleTiles).any (fun u => s.fab.pathDead t u || s.fab.pathDead u t))

/-- Route loss: every bound partition with a path through the dead router or link is killed and swept. A partition that is being
bound stays unbound with ROUTE_DEAD (R486, R487; log 31). -/
def State.routeLoss (s : State) (key : Nat) : State :=
  let hit := s.boundParts.filter (fun p => (s.part p).state != .killing && s.cutOff (match (s.part p).state, (s.part p).comp with
    | .starting, some c => c.part.tiles
    | _, _ => (s.part p).tiles))
  let mask := hit.foldl (fun m p => m + 2 ^ p) 0
  let s := hit.foldl (fun s p =>
    if (s.part p).state == .starting then
      { s with load := { s.load with
          failmap := s.load.failmap ||| 2 ^ p,
          cur := s.load.cur.map (fun l => if l.failCode == 0 then { l with failCode := 0x1F } else l),
          rebinds := s.load.rebinds.map (fun e => if e.pnum == p then { e with comp := none, phase := .kill } else e) } }
    else s.killPartition p none (s.load.rebinds.any (fun e => e.pnum == p && e.ofLoad)) false) s
  ((s.health evRouteLoss (key + mask * 2 ^ 32)).raiseFault 0).rePll

/-- SHELL_FAILURE: the router is dead, the tile is not good, and its column is lost whole (R478, R486, R488, R490). -/
def execShellFailure (t : Nat) (s : State) : Host.Outcome State Fault Refusal :=
  if s.fab.deadRouters.contains t || decide (512 ≤ t) then .next s
  else
    let s := s.updFab (fun f => { f with deadRouters := f.deadRouters ++ [t] })
    let s := (((s.recordFault (.faultTile t)).unusable t).updFab (fun f => f.loseColumn t)).addLoss t true 0
    let s := (s.gateCore t).updTile t (fun x => { x with good := false, fenced := false })
    .next (s.routeLoss t)

/-- ROAD_BEAT_CRC_FAIL: the receiver drops the beat and every later beat and sends a NAK; the sender holds them to send them again, and the
failure is counted toward a retrain (R28, R475). -/
def execRoadBeatCrcFail (t : Nat) (d : Dir) (s : State) : Host.Outcome State Fault Refusal :=
  match neighbour t (dirNat d) with
  | some _ => .next (s.updFab (fun f => { f with
      crcFails := tabUpd 0 f.crcFails (4 * t + dirNat d) (fun n => satTo 16 (n + 1)), resending := insertNew f.resending (t, dirNat d) }))
  | none => .next s

/-- ROAD_LINK_RETRAIN: after 8 failures the link retrains; credits and the replay buffer carry over (R475). -/
def execRoadLinkRetrain (t : Nat) (d : Dir) (s : State) : Host.Outcome State Fault Refusal :=
  let k := 4 * t + dirNat d
  if 8 ≤ tabGet 0 s.fab.crcFails k then
    .next (s.updFab (fun f => { f with retraining := insertNew f.retraining (t, dirNat d) }))
  else .next s

/-- ROAD_RETRAIN_DONE: the link resumes with up to 4 wires replaced, or it is dead (R475, R486). -/
def execRoadRetrainDone (t : Nat) (d : Dir) (pass : Bool) (wires : Nat) (s : State) : Host.Outcome State Fault Refusal :=
  let k := 4 * t + dirNat d
  if !s.fab.retraining.contains (t, dirNat d) then .next s
  else
    let s := s.updFab (fun f => { f with
      retraining := f.retraining.erase (t, dirNat d), crcFails := tabSet f.crcFails k 0,
      repaired := if pass then tabUpd 0 f.repaired k (fun n => if n + wires < 4 then n + wires else 4) else f.repaired })
    if pass then .next s
    else .next ((s.updFab (fun f => { f with deadLinks := insertNew f.deadLinks (t, dirNat d), resending := f.resending.erase (t, dirNat d) })).routeLoss (2 ^ 16 + k))

/-- HL_LOSS_POP: the oldest listed loss goes; OVF clears with the last (R490, R550). -/
def execHlLossPop (v : Word) (s : State) : Host.Outcome State Fault Refusal :=
  if !bitOf v.toNat 0 || !s.stewardRuns then .next s
  else match s.hl.losses with
    | [] => .next s
    | _ :: ls => .next { s with hl := { s.hl with losses := ls, ovf := s.hl.ovf && !ls.isEmpty } }

/-- One codeword read in a column: up to 4 wrong symbols are corrected, written back and counted; more are a loss (R291, R292, R488,
R550). -/
def State.checkCodeword (s : State) (t w errors : Nat) : State :=
  if errors == 0 || s.fab.isLost t w then s
  else if errors ≤ 4 then
    s.updTile t (fun x => { x with dsCe := satTo 32 (x.dsCe + 1), dsLast := w % 2 ^ 19, dsCeOpen := x.dsCeOpen + 1 })
  else (s.updFab (fun f => { f with lostWords := insertNew f.lostWords (t, w) })).addLoss t false w

/-- COLUMN_BURST: a 512 B burst of 8 codewords with the symbols found wrong in each; an access to a lost codeword ends with DS_UNCORR
(R286, R290 to R292, R489). -/
def execColumnBurst (t burst : Nat) (errors : List (List Nat)) (s : State) : Host.Outcome State Fault Refusal :=
  if !s.columnServed t || decide (65536 ≤ burst) then .next s
  else .next ((List.range 8).foldl (fun s i => s.checkCodeword t (8 * burst + i) (wrongSymbols (errors.getD i []))) s)

/-- DS_PATROL_SCRUB: one codeword of any column, with the symbols found wrong (R290 to R292). -/
def execDsPatrolScrub (t codeword : Nat) (errors : List Nat) (s : State) : Host.Outcome State Fault Refusal :=
  if decide (512 ≤ t) || decide (524288 ≤ codeword) then .next s else .next (s.checkCodeword t codeword (wrongSymbols errors))

/-- A cell of a tile's scratchpad is upset: its bit is wrong, or right again (R282). -/
def Fabric.upset (f : Fabric) (t : Nat) (c : SpCell) : Fabric :=
  { f with flips := if f.flips.contains (t, c) then f.flips.erase (t, c) else f.flips ++ [(t, c)] }

/-- SP_PATROL_SCRUB: line `line` of every bank is read. `cells` are cells, by bank and number, upset since in the rows that hold the line;
those of the rows' other lines stay until something reads them (R282 to R284; log 32). A detected error fails the core. -/
def execSpPatrolScrub (t line : Nat) (cells : List (Nat × Nat)) (s : State) : Host.Outcome State Fault Refusal :=
  let x := s.tile t
  if !x.powered || x.fenced || decide (2048 ≤ line) then .next s
  else
    let hit := cells.filter (fun c => decide (c.1 < 32 ∧ c.2 < 1152))
    let s := s.updFab (fun f => hit.foldl (fun f c => f.upset t ⟨c.1, line / 4, c.2⟩) f)
    let r := s.fab.readWords t ((List.range 32).flatMap (fun b => spWords (spOffsetOf b line) 32))
    .next (if r.2 then s.setFab r.1 else (s.setFab r.1).fence t 0)

/-- A row of a column is refreshed; a change of interval takes effect. The interval is 16 ms at a hot sensor, at one that has given no
valid reading, and while the steward does not run (R294, R295, R449, R566). -/
def State.refresh (s : State) (t : Nat) : State :=
  let i := tileY t / 2 * 16 + tileX t / 2
  s.updTile t (fun x => { x with
    refreshRow := (x.refreshRow + 1) % 16384,
    hotRefresh := !s.stewardRuns || s.pow.sensors.hot.getD i false || (s.pow.sensors.holeile.getD i none).isNone })

/-- REFRESH_ROW (R294). -/
def execRefreshRow (t : Nat) (s : State) : Host.Outcome State Fault Refusal := if t < 512 then .next (s.refresh t) else .next s

/-- REFRESH_FORCE: a refresh that has waited 8 row periods takes its bank; it is never skipped (R295). -/
def execRefreshForce (t : Nat) (s : State) : Host.Outcome State Fault Refusal := if t < 512 then .next (s.refresh t) else .next s

end Sys2Proof.Machine
end

