-- ==== Sys2Proof/Machine/Power.lean ====
section
/-! DEFINITION. Supplies (R423 to R426, R492, R566, R568), region clocks and tile power (R26, R428 to R432), sensors and thermal
actions (R293 to R295, R445, R446, R493), the power loop (R435 to R442) and telemetry (R443, R444). -/
namespace Sys2Proof.Machine

/-- PLL_LOCK: a region's PLL has locked and runs (R26). -/
def execPllLock (r : Nat) (s : State) : Host.Outcome State Fault Refusal :=
  if s.pow.locking.contains r then
    .next { s with pow := { s.pow with locking := s.pow.locking.filter (· != r), pllOn := insertNew s.pow.pllOn r } }
  else .next s

/-- TILE_WAKE: a tile leaves OFF once its switches are closed and its region's PLL has locked (R428, R429, R447). -/
def execTileWake (t : Nat) (s : State) : Host.Outcome State Fault Refusal :=
  let x := s.tile t
  if x.waking && s.pow.pllOn.contains (regionOf t) then
    .next (s.setTile t { x with
      waking := false, powered := true, a := { x.a with gated := false }, b := { x.b with gated := false }, vgated := false })
  else .next s

/-- UNIT_GATE_REOPEN: a gated array opens and asks for its on-ramp; the vector unit opens (R236, R428). -/
def execUnitGateReopen (t : Nat) (u : GatedUnit) (s : State) : Host.Outcome State Fault Refusal :=
  let x := s.tile t
  let opened (a : Arr) : Arr := if a.opening then { a with gated := false, opening := false }.request else a
  if !x.powered || x.fenced then .next s
  else match u with
    | .arrayA => .next (s.setTile t { x with a := opened x.a })
    | .arrayB => .next (s.setTile t { x with b := opened x.b })
    | .vector =>
      if x.vopening then .next ((s.setTile t { x with vgated := false, vopening := false }).vectorStart t) else .next s

/-- CLASS1_IDLE_GATE: a class-1 partition without a work item for 1 ms gates its arrays and vector units (R393). -/
def execClass1IdleGate (p : Nat) (s : State) : Host.Outcome State Fault Refusal :=
  let r := s.part p
  if r.isBound && r.state == .running && r.cls == 1 && !r.inWork then
    .next (r.tiles.foldl (fun s t => s.updTile t (fun x => { x with
      a := if x.a.job.isSome then x.a else x.a.gate, b := if x.b.job.isSome then x.b else x.b.gate, vgated := true, vopening := false })) s)
  else .next s

/-- An array waits for an on-ramp or an off-ramp. -/
def Arr.waitsUp (a : Arr) : Bool := a.waiting && a.ramp != 8
def Arr.waitsDown (a : Arr) : Bool := a.waiting && a.ramp == 8

/-- The grant admits the array's ramp: an on-ramp enables its first four columns at once, the other steps follow in time (R155, R430, R432;
log 87). -/
def Arr.grant (a : Arr) : Arr :=
  if a.waitsUp then { a with waiting := false, ramping := 1, ramp := 1 } else if a.waitsDown then { a with waiting := false, ramping := 2 } else a

/-- Tiles with a waiting array. -/
def State.waitingTiles (s : State) : List Nat := (s.fab.tiles.filter (fun e => e.2.a.waiting || e.2.b.waiting)).map (·.1)

/-- A class-0 array waits for its on-ramp in a tile. -/
def State.class0Waits (s : State) (t : Nat) : Bool :=
  let x := s.tile t
  (x.a.waitsUp || x.b.waitsUp) && (match x.bound with
    | some p => (s.part p).cls == 0
    | none => false)

/-- The first region of a list at or after the wheel's next place. -/
def nextRegion (wheel : Nat) (rs : List Nat) : Option Nat :=
  ((List.range 16).map (fun i => (wheel + 1 + i) % 16)).find? rs.contains

/-- START_GRANT: one waiting region takes the grant, regions with a waiting class-0 array first, the others in round-robin order; it
admits every ramp that waits in that region (R430, R432). -/
def execStartGrant (s : State) : Host.Outcome State Fault Refusal :=
  let ts := s.waitingTiles
  let first := (ts.filter s.class0Waits).map regionOf
  match nextRegion s.pow.wheel (if first.isEmpty then ts.map regionOf else first) with
  | none => .next s
  | some r =>
    let s := { s with pow := { s.pow with wheel := r } }
    .next ((ts.filter (fun t => regionOf t == r)).foldl (fun s t =>
      s.updTile t (fun x => { x with a := x.a.grant, b := x.b.grant })) s)

/-- ON_RAMP_COMPLETE: all eight column steps are enabled (R155). -/
def execOnRampComplete (t : Nat) (x : Side) (s : State) : Host.Outcome State Fault Refusal :=
  let y := s.tile t
  if (y.arr x).ramping == 1 && s.tileRuns t then
    let y := y.updArr x (fun a => { a with ramp := 8, ramping := 0 })
    .next (s.setTile t (if (y.arrayHead x).isNone && (y.arr x).job.isNone then y.updArr x Arr.rest else y))
  else .next s

/-- OFF_RAMP_COMPLETE: every column step is disabled and the array is clock-gated; beside an array with a step it is then power-gated,
except in class 0 (R156, R236, R237). -/
def execOffRampComplete (t : Nat) (x : Side) (s : State) : Host.Outcome State Fault Refusal :=
  let y := s.tile t
  if (y.arr x).ramping == 2 && s.tileRuns t then
    let z := y.updArr x (fun a => { a with ramp := 0, ramping := 0 })
    let cls := y.bound.elim 0 (fun p => (s.part p).cls)
    .next (s.setTile t (if (y.arrayHead (otherSide x)).isSome then z.gateIdle x cls else z))
  else .next s

/-- The condition that holds the region clocks is listed once. -/
def State.stopClocks (s : State) (c : StopCause) : State := { s with pins := { s.pins with stops := insertNew s.pins.stops c } }

/-- The columns under a Holeile sensor (R293). -/
def sensorColumns (i : Nat) : List Nat :=
  let x := i % 16 * 2
  let y := i / 16 * 2
  [tileAt x y, tileAt (x + 1) y, tileAt x (y + 1), tileAt (x + 1) (y + 1)]

/-- Some valid reading is at least `v`; every valid reading is below `v`. -/
def anyAt (rs : List (Option Int)) (v : Int) : Bool := rs.any (fun r => match r with
  | some x => decide (v ≤ x)
  | none => false)
def allBelow (rs : List (Option Int)) (v : Int) : Bool := !anyAt rs v

/-- The index of the highest valid reading and that reading. -/
def hottest (rs : List (Option Int)) : Nat × Int :=
  ((List.range rs.length).foldl (fun (b : Option (Nat × Int)) i => match rs.getD i none, b with
    | some x, some (j, y) => if y < x then some (i, x) else some (j, y)
    | some x, none => some (i, x)
    | none, b => b) none).getD (0, 0)

/-- A THERMAL event: sensor, reading, and 0 shed start, 1 shed end, 2 stop; a Holeile sensor is numbered from 128 (log 2). -/
def State.thermal (s : State) (kind : Nat) (compute holeile : List (Option Int)) (c : Int) : State :=
  let h := if anyAt compute c then hottest compute else (128 + (hottest holeile).1, (hottest holeile).2)
  s.health evThermal (h.1 + codeOfInt 16 h.2 * 2 ^ 16 + kind * 2 ^ 32)

/-- The refresh interval that a sensor sets: 16 ms from 85.0 °C until below 82.0 °C, and without a valid reading (R294, R295). -/
def hotNow (was : Bool) (r : Option Int) : Bool :=
  match r with
  | none => true
  | some x => decide (850 ≤ x) || (was && decide (820 ≤ x))

/-- A partition after the region clocks start again: replay without a re-test, unless a failed core is still under its own (R493,
R502). -/
def State.restartPartition (s : State) (p : Nat) : State :=
  let r := s.part p
  match r.state with
  | .running | .quiesce | .held | .recovering =>
    if r.retest.isEmpty then s.startReplay p else s.updPart p (fun r => { r with state := .recovering, draining := false })
  | _ => s

/-- Thermal shedding begins and ends (R446, R569). -/
def State.thermalShed (s : State) (compute holeile : List (Option Int)) : State :=
  if anyAt compute 950 || anyAt holeile 920 then
    (if s.pow.thermShed then s
     else { s with
        pow := { s.pow with thermShed := true, ballast := 0, levels := tabMap (fun _ l => { l with hold := 0 }) s.pow.levels },
        pins := { s.pins with thermAlert := true } }.thermal 0 compute holeile 950)
  else if s.pow.thermShed && allBelow compute 920 && allBelow holeile 890 then
    { s with pow := { s.pow with thermShed := false }, pins := { s.pins with thermAlert := false } }.thermal 1 compute holeile 0
  else s

/-- The thermal stop, and the restart once both dies are below their limits (R446, R493, R495). -/
def State.thermalStop (s : State) (compute holeile : List (Option Int)) : State :=
  if anyAt compute 1050 || anyAt holeile 970 then
    (if s.pins.stops.contains StopCause.thermal then s.raiseFault 3
     else ((s.stopClocks .thermal).raiseFault 3).thermal 2 compute holeile 1050)
  else if s.pins.stops.contains StopCause.thermal then
    (if allBelow compute 1020 && allBelow holeile 940 then
       let s := { s with pins := { s.pins with stops := s.pins.stops.filter (· != StopCause.thermal) } }
       if s.pins.stops.isEmpty then s.boundParts.foldl State.restartPartition s else s
     else s.raiseFault 3)
  else s

/-- Columns under a Holeile sensor at 98.0 °C are lost whole (R446, R488). -/
def State.thermalLoss (s : State) (holeile : List (Option Int)) : State :=
  (List.range 128).foldl (fun s i =>
    if anyAt [holeile.getD i none] 980 then
      (sensorColumns i).foldl (fun s t =>
        if s.fab.lostColumns.contains t && !s.fab.restored.any (fun e => e.1 == t) then s
        else (s.updFab (fun f => f.loseColumn t)).addLoss t true 0) s
    else s) s

/-- SENSOR_SAMPLE: readings of both dies in units of 0.1 °C, and the actions of R446, each with 3.0 °C of hysteresis (R294, R295,
R445). -/
def execSensorSample (compute holeile : List (Option Int)) (s : State) : Host.Outcome State Fault Refusal :=
  if !s.stewardRuns then .next s
  else
    let old := s.pow.sensors
    let hot := (List.range 128).map (fun i => hotNow (old.hot.getD i false) (holeile.getD i none))
    let s := { s with pow := { s.pow with sensors := { compute := compute, holeile := holeile, hot := hot } } }
    let s := (List.range 128).foldl (fun s i =>
      if (holeile.getD i none).isNone && ((old.holeile.getD i none).isSome || !old.hot.getD i false) then s.health evSensor i else s) s
    .next (((s.thermalShed compute holeile).thermalStop compute holeile).thermalLoss holeile)

/-- The tiles of a partition that the loop steers: bound, not class 0, and not lost (R435, R436). -/
def Part.eligible (r : Part) : List Nat := if r.cls == 0 then [] else r.tiles.filter (fun t => !r.lost.contains t)

/-- The tiles that the loop steers, each with its partition. -/
def State.eligible (s : State) : List (Nat × Nat) :=
  s.boundParts.flatMap (fun p => (s.part p).eligible.map (fun t => (t, p)))

/-- The ballast of one tile at full hold, in units of 0.01 W (R438). -/
def fullBallast : Nat := 155

/-- What one partition brings to the division of a floor's ballast: its FLOOR_SHARE and how many tiles may burn it. -/
structure FloorPart where
  part : Nat
  share : Nat
  tiles : Nat
  deriving DecidableEq, Repr

/-- The most that a partition's tiles can burn, in units of 0.01 W (R438). -/
def FloorPart.most (f : FloorPart) : Nat := fullBallast * f.tiles

/-- The ballast `need` divided among partitions in proportion to their shares, so that what class 0 or no partition holds falls to the
others; a partition whose part is beyond its tiles burns its most, and the rest is divided again among the others (R439). -/
def divideFloor : Nat → Nat → List FloorPart → List (Nat × Nat)
  | 0, _, _ => []
  | n + 1, need, fs =>
    let sum := (fs.map (·.share)).sum
    if sum = 0 then []
    else
      let full := fs.filter (fun f => decide (f.most * sum ≤ need * f.share))
      if full.isEmpty then fs.map (fun f => (f.part, need * f.share / sum))
      else full.map (fun f => (f.part, f.most))
        ++ divideFloor n (need - (full.map FloorPart.most).sum) (fs.filter (fun f => !full.contains f))

/-- The partitions among which the floor's ballast is divided (R439). -/
def State.floorParts (s : State) : List FloorPart :=
  s.boundParts.filterMap (fun p =>
    let r := s.part p
    if r.eligible.isEmpty then none else some ⟨p, r.comp.elim 0 (·.part.floorShare), r.eligible.length⟩)

/-- The hold level at which each of `n` tiles burns its even part of `w`, in units of 0.01 W, to the nearest level (R439; the manual's
worked example rounds so, log 17). -/
def floorLevel (w n : Nat) : Nat := Nat.min 64 ((128 * w + fullBallast * n) / (2 * fullBallast * n))

/-- The next cap level. Thermal shedding lowers it by 8 per period, and a stack above `up` by up to 8, class 1 only when no class-2 cap
is left; otherwise the manual gives a tile its activity and a share but no exact level, so the level is free (R435, R393, R446;
log 17). -/
def nextCap (shed above class2Left : Bool) (cls k : Nat) (l : Level) : Nat :=
  if shed || above then
    (if cls == 2 || !class2Left then l.cap - (if shed then 8 else Config.freeNat k % 9) else l.cap)
  else Config.freeNat k % 65

/-- The next hold level. While the floor binds, an idle tile holds its share's level, trimmed by at most one, and a tile with work at
least that much; while the slew limit binds, the level follows the tile's own activity, which is free (R435, R439; log 17). -/
def nextHold (shed floorBinds idle : Bool) (share k : Nat) : Nat :=
  if shed then 0
  else if !floorBinds then Config.freeNat k % 65
  else if idle then Nat.min 64 (share + Config.freeNat k % 3 - 1)
  else share + Config.freeNat k % (66 - share) - 1

/-- The lowest cap of a class, 64 where no tile of it is bound. -/
def lowestCap (cls : Nat) (ts : List (Nat × Nat)) (levels : Tab Level) : Nat :=
  ((ts.filter (fun e => e.2 == cls)).map (fun e => (tabGet ⟨64, 0⟩ levels e.1).cap)).foldl Nat.min 64

/-- The most that tiles at these hold levels burn in one period, in watts (R438). -/
def mostBallast (levels : Tab Level) : Nat := (levels.foldl (fun n e => n + fullBallast * e.2.hold) 0) / 6400

/-- CONTROL_PERIOD: `power` and `class0Power` as measured, in units of 0.01 W. The period's ballast is what its hold levels allow, a
free amount of it. The reference moves within the cap, the floor and the slew limit; the levels of eligible tiles follow, and the
floor's ballast is shared among the partitions (R435, R436, R438 to R442). -/
def execControlPeriod (power class0Power : Nat) (s : State) : Host.Outcome State Fault Refusal :=
  if !s.stewardRuns || s.boot.site.isNone then .next s
  else
    let w := s.pow
    let cap := 100 * w.cap
    let floor := Nat.min (100 * w.floor) cap
    let up := Nat.min cap (w.ref + w.slew)
    let dn := Nat.max floor (w.ref - w.slew)
    let es := s.eligible
    let ts := es.map (fun e => (e.1, (s.part e.2).cls))
    let ballast := if w.thermShed then 0 else Config.freeNat (s.free + 2 * ts.length) % (mostBallast w.levels + 1)
    let base := power - 100 * ballast
    let shares := divideFloor 16 (floor - base) s.floorParts
    let holdOf (p : Nat) : Nat := floorLevel (((shares.find? (fun e => e.1 == p)).map (·.2)).getD 0) (s.part p).eligible.length
    let left := ts.any (fun e => e.2 == 2 && (tabGet ⟨64, 0⟩ w.levels e.1).cap != 0)
    let levels := (List.range es.length).foldl (fun (m : Tab Level) i =>
      let e := es.getD i (0, 0)
      let x := s.tile e.1
      let idle := x.a.job.isNone && x.b.job.isNone
      tabSet m e.1 {
        cap := nextCap w.thermShed (decide (up < power)) left (s.part e.2).cls (s.free + 2 * i) (tabGet ⟨64, 0⟩ w.levels e.1)
        hold := nextHold w.thermShed (decide (w.ref - w.slew ≤ floor)) idle (holdOf e.2) (s.free + 2 * i + 1) }) []
    let short := decide (power < floor) || decide (base + fullBallast * es.length < floor)
    let hit := decide (cap < class0Power)
    .next { s with
      free := s.free + 2 * ts.length + 1,
      pow := { w with
        ref := Nat.min (Nat.max power dn) up, levels := levels, cap1 := lowestCap 1 ts levels, cap2 := lowestCap 2 ts levels,
        ballast := ballast, shortfall := short, capHit := hit, periods := w.periods ++ [⟨power, ballast, short, hit⟩] } }

/-- A temperature of 0.1 °C in the sample's units of 0.5 °C (R443). -/
def tempByte (t : Int) : Nat := satTo 8 (t.toNat / 5)

/-- More than 1,000 corrected errors of a tile or a column in one sample (R494). -/
def State.ceRates (s : State) : State :=
  s.fab.tiles.foldl (fun s e =>
    let s := if 1000 < e.2.spCeOpen then s.health evCeRate (e.1 + e.2.spCeOpen * 2 ^ 32) else s
    if 1000 < e.2.dsCeOpen then s.health evCeRate (e.1 + 2 ^ 16 + e.2.dsCeOpen * 2 ^ 32) else s) s

/-- The 64 bytes of a sample (R443). -/
def sampleBytes (s : State) (avg : Nat) (slewExc : Bool) (iVcore : Nat) (rails : List Nat) : List Byte :=
  let w := s.pow
  let ps := w.periods.map (·.power)
  let n := if ps.isEmpty then 1 else ps.length
  let high := ps.foldl Nat.max 0
  let low := ps.foldl Nat.min high
  let bal := (w.periods.map (·.ballast)).sum * 4 / n
  let hc := hottest w.sensors.compute
  let flags := boolNat (w.periods.any (·.shortfall)) + 2 * boolNat slewExc + 4 * boolNat (w.periods.any (·.capHit))
    + 8 * boolNat w.thermShed + 16 * boolNat ((List.range 512).any (fun t => (s.tile t).hotRefresh))
  leBytes 4 w.seq ++ leBytes 2 avg ++ leBytes 2 (high / 25) ++ leBytes 2 (low / 25) ++ leBytes 2 bal ++ leBytes 2 iVcore
    ++ leBytes 1 (tempByte hc.2) ++ leBytes 1 (tempByte (hottest w.sensors.holeile).2)
    ++ leBytes 2 w.floor ++ leBytes 2 w.slew ++ leBytes 2 w.cap ++ leBytes 1 hc.1 ++ leBytes 1 flags
    ++ ((List.range 7).map (fun i => leBytes 2 (rails.getD i 0))).flatten ++ List.replicate 22 0 ++ leBytes 4 w.seq

/-- TELEMETRY_SAMPLE: after 100 control periods the sample closes; `iVcore` in 1/16 A, `rails` in 0.25 W. Averages are rounded down
(DESIGN CHOICE, log 33) (R440, R443, R444, R494). -/
def execTelemetrySample (iVcore : Nat) (rails : List Nat) (s : State) : Host.Outcome State Fault Refusal :=
  if !s.stewardRuns || decide (s.pow.periods.length < 100) then .next s
  else
    let w := s.pow
    let avg := (w.periods.map (·.power)).sum / w.periods.length / 25
    let far := if avg < w.pAvg then w.pAvg - avg else avg - w.pAvg
    let exc := (w.seq != 0 || w.tel.any (· != 0)) && decide (4 * w.slew + 80 < far)
    let s := s.ceRates.closeHealth
    let tel := sampleBytes s avg exc iVcore rails
    let s := { s with
      pow := { s.pow with
        seq := (w.seq + 1) % 2 ^ 32, pAvg := avg, periods := [], tel := tel, slewExc := satTo 16 (w.slewExc + boolNat exc) },
      fab := { s.fab with tiles := tabMap (fun _ x => { x with spCeOpen := 0, dsCeOpen := 0 }) s.fab.tiles } }
    .next (s.notice 1 tel)

/-- A value held within limits. -/
def clampTo (lo hi x : Nat) : Nat := if x < lo then lo else if hi < x then hi else x

/-- PW_SHAPE_WRITE: the settings for the next period, clamped to the site record's limits (R11, R441). -/
def execPwShapeWrite (v : Word) (s : State) : Host.Outcome State Fault Refusal :=
  match s.boot.site with
  | none => .next s
  | some r =>
    let f := bits v.toNat 0 10
    let sl := bits v.toNat 16 9
    let c := bits v.toNat 32 10
    let f' := clampTo 0 r.floorLim f
    let sl' := clampTo 5 r.slewLim sl
    let c' := clampTo 600 r.envelope c
    let cut := f' != f || sl' != sl || c' != c
    if s.stewardRuns then
      .next { s with pow := { s.pow with
        floor := f', slew := sl', cap := c', clamped := cut || (s.pow.clamped && !bitOf v.toNat 48) } }
    else .next s

def railNat (r : Rail) : Nat :=
  match r with
  | .vaon => 0
  | .vana => 1
  | .vpp => 2
  | .vdr => 3
  | .vsram => 4
  | .vcore => 5
  | .vio => 6

/-- Every bound partition is killed and swept, and no composition is bound (R447, R448, R492). -/
def State.killEverything (s : State) (all : Bool) : State :=
  let s := s.boundParts.foldl (fun s p =>
    if (s.part p).state == .killing then s
    else if (s.part p).state == .starting then s.updPart p (fun r => { r with state := .killing })
    else s.killPartition p none false all) s
  { s with load := { s.load with
    compId := 0, rebinds := s.load.rebinds.map (fun e => { e with comp := none, ofLoad := false, phase := .kill, all := e.all || all }) } }

/-- A load that a rail failure ends: no composition stays bound (R447). The code is the model's choice (log 34). -/
def State.endLoad (s : State) (code : Nat) : State :=
  match s.load.cur with
  | none => s
  | some l =>
    let s := if l.applied then s.killEverything false else s
    { s with load := { s.load with cur := none, state := 4, code := code, sectionIx := 0xFFFF } }.loadMessage

/-- RAIL_EXCURSION: every region clock stops, FAULT_N is asserted, and VDR or VPP costs every column. VAON is a power loss; VANA
is treated as VCORE (DESIGN CHOICE, log 92) (R426, R488, R492). -/
def execRailExcursion (rail : Rail) (reading : Nat) (s : State) : Host.Outcome State Fault Refusal :=
  if !s.stewardRuns then .next s
  else
    let s := (((s.stopClocks (.rail rail)).raiseFault 2).health evRail (railNat rail + reading * 2 ^ 16)).endLoad 0x22
    match rail with
    | .vdr | .vpp => .next ((List.range 512).foldl (fun s t => (s.updFab (fun f => f.loseColumn t)).addLoss t true 0) s)
    | .vaon => .next { s with pins := { s.pins with dead := true } }
    | _ => .next s

/-- A module whose supply dipped retrains (R492). -/
def State.retrainModules (s : State) : State :=
  { s with link := { s.link with modules := tabMap (fun _ m => if m.state == 2 then { m with retraining := true, retrains := satTo 8 (m.retrains + 1) } else m) s.link.modules } }

/-- A core that has been re-tested after a rail excursion: its scratchpad counts as lost; a core that was fenced works again unless
it failed (R492, R502). -/
def State.retested (s : State) (t : Nat) : State :=
  let s := s.updFab (fun f => f.clearPad t)
  s.updTile t (fun x => { x with
    powered := x.powered || x.fenced, fenced := false, a := { x.a with requal := [] }, b := { x.b with requal := [] } })

/-- RAIL_RECOVERY: every rail has been within tolerance for 1 ms; `failedCores` fail the re-test. Every partition is replayed, or all
are killed after VDR or VPP (R492). -/
def execRailRecovery (failedCores : List Nat) (s : State) : Host.Outcome State Fault Refusal :=
  let rails := s.pins.stops.filter (fun c => match c with
    | .rail _ => true
    | _ => false)
  if rails.isEmpty || !s.stewardRuns then .next s
  else
    let s := { s with pins := { s.pins with stops := s.pins.stops.filter (fun c => !rails.contains c) } }
    if rails.contains (.rail .vdr) || rails.contains (.rail .vpp) then .next (s.killEverything false)
    else
      let s := if rails.contains (.rail .vio) then s.retrainModules else s
      let ps := s.boundParts.filter (fun p => (s.part p).state != .killing && (s.part p).state != .starting)
      let s := (ps.flatMap (fun p => (s.part p).tiles)).foldl State.retested s
      let s := ps.foldl (fun s p => s.updPart p (fun r => { r with retest := [] })) s
      let s := failedCores.foldl (fun s t => if (s.tile t).powered then s.loseTile t else s) s
      if s.pins.stops.isEmpty then .next (ps.foldl State.restartPartition s) else .next s

/-- RAIL_ORDER_BREACH: `first` moved out of order against `second`; the steward records ORDER_FAULT, and a bring-up stops (R424,
R425, R473). What the breach leaves undefined in the memories is cleared before anything can read it (R464, R518). -/
def execRailOrderBreach (first second : Rail) (s : State) : Host.Outcome State Fault Refusal :=
  let s := { s with boot := { s.boot with orderFault := true } }.raiseFault 5
  let s := if s.boot.site.isSome then
      { s with led := s.led.addHealth (.health s.pow.seq evRail 1 (2 ^ 32 + railNat first + railNat second * 2 ^ 16)) }
    else s
  match s.boot.state with
  | .reset | .ready | .stopped => .next s
  | _ => .next ({ s with boot := { s.boot with state := .stopped, stop := 3 } }.raiseFault 6)

/-- PWR_GOOD_LOSS: a power loss; only a power-on reset follows (R568). -/
def execPwrGoodLoss (s : State) : Host.Outcome State Fault Refusal :=
  .next ({ (s.stopClocks .pwrGood) with pins := { (s.stopClocks .pwrGood).pins with pwrGood := false, dead := true } }.raiseFault 2)

/-- REFCLK_LOSS: every clock stops, and the device answers nothing until RST_N is asserted (R566). -/
def execRefclkLoss (s : State) : Host.Outcome State Fault Refusal :=
  .next ({ (s.stopClocks .refclk) with pins := { (s.stopClocks .refclk).pins with refclk := false } }.raiseFault 2)

end Sys2Proof.Machine
end

