-- ==== Sys2Proof/Machine/Boot.lean ====
section
/-! DEFINITION. Resets (R448, R449, R566, R567), bring-up (R451 to R465), the site record (R458 to R461), the training of modules
(R397), and the ledger: replay, format and compaction (R466 to R473). -/
namespace Sys2Proof.Machine

/-- What a cold reset keeps: the ledger flash, the fuses, the order lockout, the fused VCORE_MIN, and deep-store contents until the
deep-store test clears them (R448, R464). -/
def State.cold (s : State) : State :=
  { State.reset with
    pending := s.pending, free := s.free,
    pins := { Pins.init with rstN := s.pins.rstN, pwrGood := s.pins.pwrGood, refclk := s.pins.refclk },
    boot := { Boot.init with orderFault := s.boot.orderFault, vcoreMin := s.boot.vcoreMin },
    led := { Ledger.init with half0 := s.led.half0, half1 := s.led.half1 },
    fuse := s.fuse, jtag := s.jtag,
    fab := { Fabric.init with
      mem := s.fab.mem.filter (fun c => decide (2 ^ 56 ≤ c.1)), lostWords := s.fab.lostWords, lostColumns := s.fab.lostColumns,
      restored := s.fab.restored },
    out := s.out }

/-- POWER_ON_RESET: the rails rise with RST_N asserted; everything but the flash devices and the fuses is lost (R423, R448). -/
def execPowerOnReset (s : State) : Host.Outcome State Fault Refusal :=
  .next { State.reset with
    pending := s.pending, free := s.free, boot := { Boot.init with vcoreMin := s.boot.vcoreMin },
    led := { Ledger.init with half0 := s.led.half0, half1 := s.led.half1 }, fuse := s.fuse, out := s.out }

/-- RST_N_ASSERT: a cold reset at once; after a power loss only a power-on reset helps (R448, R449, R568). -/
def execRstNAssert (s : State) : Host.Outcome State Fault Refusal :=
  if s.pins.dead then .next { s with pins := { s.pins with rstN := false } }
  else .next { s.cold with pins := { s.cold.pins with rstN := false } }

/-- The slot that the ROM starts: the valid one with the higher version, slot 0 on a tie (R451). -/
def chooseFirmware (fw0 fw1 : Option Firmware) : Option (Nat × Firmware) :=
  match fw0, fw1 with
  | some a, some b => if a.version < b.version then some (1, b) else some (0, a)
  | some a, none => some (0, a)
  | none, some b => some (1, b)
  | none, none => none

/-- The steward stops (R452). -/
def State.stop (s : State) (cause : Nat) : State :=
  { s with boot := { s.boot with state := .stopped, stop := cause } }.raiseFault 6

/-- RESET_RELEASE: the straps are sampled and the ROM starts the firmware that verifies, or stops with FW_NONE (R451, R567, R570,
R575). -/
def execResetRelease (straps : Nat) (fw0 fw1 : Option Firmware) (s : State) : Host.Outcome State Fault Refusal :=
  if !s.pins.resetHeld || !s.pins.pwrGood || s.pins.dead then .next s
  else
    let s := { s with pins := { s.pins with rstN := true, refclk := true, resetHeld := false, straps := straps % 4 } }
    match chooseFirmware fw0 fw1 with
    | none => .next (s.stop 1)
    | some (n, fw) => .next { s with boot := { s.boot with state := .selftest, fwSlot := n, fw := some fw } }

/-- BOOT_SELFTEST: with the UDS disabled its test fails; after a breached rail order the steward stops instead of waiting for a site
record (R425, R451, R452, R504, R514). -/
def execBootSelftest (pass : Bool) (s : State) : Host.Outcome State Fault Refusal :=
  match s.boot.state with
  | .selftest =>
    if !pass || s.fuse.udsDisabled then .next (s.stop 2)
    else if s.boot.orderFault then .next (s.stop 3)
    else .next { s with boot := { s.boot with state := .waitSite } }
  | _ => .next s

/-- The fields of a site record (R458). -/
def decodeSite (b : List Byte) : Site :=
  { stackId := fieldAt b 8 1, slot := fieldAt b 9 1, package := fieldAt b 0xA 2, vcoreSet := fieldAt b 0xC 2, envelope := fieldAt b 0xE 2,
    floorLim := fieldAt b 0x10 2, slewLim := fieldAt b 0x12 2, coolTin := fieldAt b 0x14 2, coolFlow := fieldAt b 0x16 2,
    coolDp := fieldAt b 0x18 2, lgSize := fieldAt b 0x1A 1, lgErase := fieldAt b 0x1B 1, lgPage := fieldAt b 0x1C 1,
    lgMhz := fieldAt b 0x1D 1, lgTprog := fieldAt b 0x1E 2, lgTerase := fieldAt b 0x20 2, linkmap := slice b 0x40 260 }

/-- The check of the record's form: MAGIC, VER, LEN, CRC and the bytes marked RSV (R458, R460). -/
def siteFormat (b : List Byte) : Bool :=
  slice b 0 4 == [0x46, 0x4C, 0x53, 0x52] && fieldAt b 4 2 == 1 && fieldAt b 6 2 == 0x150 && zeroAt b 0x22 30 && zeroAt b 0x144 8
    && (List.range 65).all (fun i => byteAt b (0x43 + 4 * i) == 0) && fieldAt b 0x14C 4 == crc32 (b.take 0x14C)

/-- SITE_ERR of a submitted record. The lockout comes first, or it could never show (DEDUCED, log 36); then the order of the table
(R425, R460). -/
def siteCheck (s : State) (b : List Byte) : Nat :=
  let r := decodeSite b
  let entry (i : Nat) : Nat := fieldAt r.linkmap (4 * i) 4
  let within (lo hi x : Nat) : Bool := decide (lo ≤ x) && decide (x ≤ hi)
  if s.boot.orderFault then 8
  else if s.boot.site.isSome || s.boot.state != .waitSite then 7
  else if !siteFormat b then 1
  else if !(within 0 63 r.stackId && within 0 3 r.slot && within 0 63 r.package) then 2
  else if !(within 700 800 r.vcoreSet) || decide (r.vcoreSet < 600 + 5 * s.boot.vcoreMin) then 3
  else if !(within 600 1000 r.envelope && within 0 900 r.floorLim && decide (r.floorLim ≤ r.envelope) && within 5 500 r.slewLim) then 4
  else if !(r.lgSize == 26 && (r.lgErase == 12 || r.lgErase == 16) && (r.lgPage == 8 || r.lgPage == 9) && within 10 100 r.lgMhz) then 5
  else if entry r.stackId != 0 || entry 64 == 0 || !(List.range 65).any (fun i => fieldAt r.linkmap (4 * i) 2 != 0) then 6
  else 0

/-- A record that replay accepts (R468). -/
def LedgerRecord.accepted (r : LedgerRecord) (last : Nat) : Bool := r.commit && r.macOk && r.rseq == last + 1

/-- EPOCH and RSEQ of a valid half (R468). -/
def LedgerHalf.head (h : LedgerHalf) : Option (Nat × Nat) :=
  match h.records.find? (fun r => r.offset == 0) with
  | some r =>
    match r.body with
    | .half e => if r.commit && r.macOk then some (e, r.rseq) else none
    | _ => none
  | none => none

/-- Nothing stands at offset 0 of a half (R470). -/
def LedgerHalf.blankHead (h : LedgerHalf) : Bool := !h.records.any (fun r => r.offset == 0)

/-- The later records at 4 KiB boundaries that would be accepted, the nearest first (R468). -/
def LedgerHalf.nextAt (h : LedgerHalf) (pos last : Nat) : Option LedgerRecord :=
  (h.records.filter (fun r => decide (pos < r.offset) && r.offset % 4096 == 0 && r.accepted last)).foldl
    (fun (b : Option LedgerRecord) r => match b with
      | some c => if r.offset < c.offset then some r else b
      | none => some r) none

/-- A position that the search looks at, `pos` or a 4 KiB boundary between it and `stop`, holds bytes of a record that is not accepted (R468). -/
def LedgerHalf.tornAt (h : LedgerHalf) (pos stop : Nat) : Bool :=
  h.records.any (fun r =>
    let b := roundUp (Nat.max (pos + 1) r.offset) 4096
    (decide (r.offset ≤ pos) && decide (pos < r.offset + r.len)) || (decide (b < r.offset + r.len) && decide (b < stop)))

/-- The chain of accepted records: the bodies in order, the last RSEQ, the position after them, and whether a torn position was met
(R468). -/
def LedgerHalf.chain (h : LedgerHalf) : Nat → Nat → Nat → List LedgerBody × Nat × Nat × Bool
  | 0, pos, last => ([], last, pos, false)
  | n + 1, pos, last =>
    match h.records.find? (fun r => r.offset == pos && r.accepted last) with
    | some r =>
      let (bs, l, p, t) := LedgerHalf.chain h n (pos + r.len) r.rseq
      (r.body :: bs, l, p, t)
    | none =>
      match h.nextAt pos last with
      | some r =>
        let (bs, l, p, t) := LedgerHalf.chain h n (r.offset + r.len) r.rseq
        (r.body :: bs, l, p, t || h.tornAt pos r.offset)
      | none => ([], last, pos, h.tornAt pos 0x2000000)

/-- One record applied at replay (R467). -/
def Ledger.apply (l : Ledger) (b : LedgerBody) : Ledger :=
  match b with
  | .half _ => l
  | .faultTile _ => { l with faults := insertNew l.faults b }
  | .faultColumn _ _ _ => { l with faults := insertNew l.faults b }
  | .faultUnusable _ => { l with faults := insertNew l.faults b }
  | .counter id v =>
    if id == 0 then { l with counter0 := Nat.max l.counter0 v } else { l with counter1 := Nat.max l.counter1 v }
  | .image id bytes => { l with cache := l.cache.filter (fun c => c.imageId != id) ++ [⟨id, bytes⟩] }
  | .evict id => { l with cache := l.cache.filter (fun c => c.imageId != id) }
  | .health _ _ _ _ => { l with health := l.health ++ [b] }
  | .boot n _ _ => { l with bootCount := n }

/-- The half in use replayed; the answer says whether a torn position was met (R468). -/
def Ledger.replay (l : Ledger) (h epoch rseq : Nat) : Ledger × Bool :=
  let f := l.half h
  let (bs, last, pos, torn) := f.chain (f.records.length + 1) 0x1000 rseq
  let l := bs.foldl Ledger.apply { Ledger.init with half0 := l.half0, half1 := l.half1 }
  ({ l with cur := h, epoch := epoch, rseq := last, pos := if torn then roundUp f.written 4096 else pos }, torn)

/-- A half record at offset 0. -/
def halfRecord (epoch rseq : Nat) : LedgerRecord :=
  { offset := 0, rseq := rseq, body := .half epoch, macOk := true, commit := true, len := recordLen 16 }

/-- A new ledger on a blank flash: HALF with EPOCH 1 and RSEQ 0 in half 0 (R470). -/
def Ledger.format (l : Ledger) : Ledger :=
  { Ledger.init with half0 := ⟨[halfRecord 1 0], recordLen 16⟩, half1 := l.half1, epoch := 1, rseq := 0, pos := 0x1000 }

/-- Boot step 4 for the ledger: replay of the valid half with the higher EPOCH, a format, or a stop (R468, R470). -/
def State.replayLedger (s : State) (answers : Bool) : State :=
  let l := s.led
  if !answers then { s with led := { l with dead := true } }.stop 6
  else
    let pick : Option (Nat × Nat × Nat) := match l.half0.head, l.half1.head with
      | some a, some b => if a.1 < b.1 then some (1, b) else some (0, a)
      | some a, none => some (0, a)
      | none, some b => some (1, b)
      | none, none => none
    match pick with
    | some (h, e, r) =>
      let (led, torn) := l.replay h e r
      { s with led := led, boot := { s.boot with torn := torn } }
    | none =>
      if l.half0.blankHead && l.half1.blankHead then { s with led := l.format, boot := { s.boot with fresh := true } }
      else s.stop 5

/-- SITE_RECORD_SUBMIT: the window is checked; an accepted record starts the ledger's replay, the training of every listed module,
the power loop and telemetry (R397, R451, R453, R458 to R461). -/
def execSiteRecordSubmit (flashAnswers : Bool) (s : State) : Host.Outcome State Fault Refusal :=
  if !s.stewardRuns then .next s
  else
    let b := s.boot.window
    let err := siteCheck s b
    let s := { s with boot := { s.boot with siteErr := err } }
    if err != 0 then .next s
    else
      let r := decodeSite b
      let s := { s with
        boot := { s.boot with site := some r, state := .ledger },
        pow := { s.pow with cap := r.envelope } }
      let s := s.listedModules.foldl (fun s m => s.setModule m { s.module m with state := 1 }) s
      .next (s.replayLedger flashAnswers)

/-- Every listed module is UP or DOWN (R397). -/
def State.trained (s : State) : Bool := s.listedModules.all (fun m => (s.module m).state != 1)

/-- Boot step 4 has ended when the replay and the training have (R451). -/
def State.bootStep (s : State) : State :=
  match s.boot.state with
  | .ledger | .train =>
    if s.boot.replayEnded then
      { s with boot := { s.boot with state := if s.trained then .test else .train } }
    else s
  | _ => s

/-- LEDGER_REPLAY_DONE: firmware below the ledger's counter stops the steward; the state moves to TRAIN or TEST (R451, R452, R456). -/
def execLedgerReplayDone (s : State) : Host.Outcome State Fault Refusal :=
  match s.boot.state with
  | .ledger =>
    let svn := match s.boot.fw with
      | some f => f.svn
      | none => 0
    if svn < s.led.counter1 then .next (s.stop 4)
    else .next ({ s with boot := { s.boot with replayEnded := true } }.bootStep)
  | _ => .next s

/-- MODULE_TRAIN_DONE: a module becomes UP at the rate it trained at, with `repaired` lanes repaired (R396, R397). -/
def execModuleTrainDone (m : Nat) (repaired : Nat) (s : State) : Host.Outcome State Fault Refusal :=
  let x := s.module m
  if x.state != 1 || !s.stewardRuns then .next s
  else .next ((s.setModule m { x with state := 2, repaired := satTo 4 repaired }).bootStep)

/-- The fields of VL_MODn_STATE (R412). -/
def Module.word (m : Module) : Nat :=
  m.state + boolNat m.half * 4 + satTo 4 m.repaired * 2 ^ 4 + m.replays * 2 ^ 16 + m.crcErr * 2 ^ 32 + m.retrains * 2 ^ 48

/-- TRAINING_TIMEOUT: after 10 ms the module falls back to 16 GT/s; after 20 ms it is DOWN and the host sees an event (R397). -/
def execTrainingTimeout (m : Nat) (s : State) : Host.Outcome State Fault Refusal :=
  let x := s.module m
  if x.state != 1 || !s.stewardRuns then .next s
  else if !x.half then .next (s.setModule m { x with half := true })
  else
    let s := s.setModule m { x with state := 3 }
    .next ((s.health evModule (m + (s.module m).word * 2 ^ 16)).bootStep)

/-- The detours of an array that the fault map and the self-test give (R154, R462). -/
def columnsFor (faults : List LedgerBody) (found : List BadColumn) (t : Nat) (x : Side) : List Nat :=
  let listed := faults.filterMap (fun b => match b with
    | .faultColumn u y c => if u == t && y == x then some c else none
    | _ => none)
  (found.filter (fun b => b.tile == t && b.side == x)).foldl (fun l b => insertNew l b.col) listed

/-- A tile after the tests of step 5 (R428, R462, R463). -/
def testedTile (faults : List LedgerBody) (found : TestFindings) (t : Nat) (x : Tile) : Tile :=
  let a := columnsFor faults found.badColumns t .a
  let b := columnsFor faults found.badColumns t .b
  let bad := faults.contains (.faultTile t) || found.badTiles.contains t || decide (2 < a.length) || decide (2 < b.length)
  { Tile.init with
    refreshRow := x.refreshRow, hotRefresh := x.hotRefresh,
    good := !bad, usable := !(faults.contains (.faultUnusable t) || found.unusable.contains t),
    a := { Arr.init with detours := a.take 2 }, b := { Arr.init with detours := b.take 2 } }

/-- BOOT_TEST: detours the self-test adds and columns it finds unusable are recorded; every column is cleared (R454, R462 to R464,
R473). -/
def execBootTest (found : TestFindings) (s : State) : Host.Outcome State Fault Refusal :=
  match s.boot.state with
  | .test =>
    if s.boot.testDone then .next s
    else
      let s := found.badColumns.foldl (fun s b => s.recordFault (.faultColumn b.tile b.side b.col)) s
      let s := found.unusable.foldl (fun s t => s.recordFault (.faultUnusable t)) s
      let tiles := (List.range 512).map (fun t => (t, testedTile s.led.faults found t (s.tile t)))
      .next { s with
        boot := { s.boot with testDone := true },
        fab := { s.fab with
          mem := [], tiles := tiles, lostWords := [], lostColumns := [], restored := [],
          deadColumns := (tiles.filter (fun e => !e.2.usable)).map (·.1) } }
  | _ => .next s

/-- A map of 512 bits in 64 bytes (R465). -/
def mapBytes (f : Nat → Bool) : List Byte :=
  (List.range 64).map (fun i => BitVec.ofNat 8 (((List.range 8).map (fun j => boolNat (f (8 * i + j)) * 2 ^ j)).sum))

/-- The two detour bytes of an array, the lower column first (R465). -/
def detourBytes (ds : List Nat) : List Byte :=
  match ds with
  | [] => [0, 0]
  | [c] => [BitVec.ofNat 8 (128 + c), 0]
  | c :: d :: _ => [BitVec.ofNat 8 (128 + Nat.min c d), BitVec.ofNat 8 (128 + Nat.max c d)]

/-- The capability report (R465). -/
def capabilityReport (s : State) : List Byte :=
  let good (t : Nat) : Bool := (s.tile t).good
  let usable (t : Nat) : Bool := (s.tile t).usable
  let count (f : Nat → Bool) : Nat := ((List.range 512).filter f).length
  let fw := match s.boot.fw with
    | some f => f.version
    | none => 0
  leBytes 2 0x00B1 ++ leBytes 2 (count good) ++ leBytes 2 (count usable) ++ leBytes 1 s.boot.vcoreMin ++ leBytes 1 s.stackId
    ++ leBytes 4 fw ++ leBytes 4 s.led.bootCount ++ leBytes 8 s.led.epoch ++ List.replicate 40 0 ++ mapBytes good ++ mapBytes usable
    ++ ((List.range 512).map (fun t => detourBytes (s.tile t).a.detours ++ detourBytes (s.tile t).b.detours)).flatten

/-- BOOT_READY: the report is published, a BOOT record is appended, and the report is announced (R451, R459, R465). -/
def execBootReady (s : State) : Host.Outcome State Fault Refusal :=
  match s.boot.state with
  | .test =>
    if !s.boot.testDone then .next s
    else
      let fw := match s.boot.fw with
        | some f => f.version
        | none => 0
      let n := s.led.bootCount + 1
      let s := { s with led := { s.led.append (.boot n fw s.boot.window) with bootCount := n } }
      let s := { s with boot := { s.boot with state := .ready, report := capabilityReport s } }
      .next (s.notice 2 (List.replicate 64 0))
  | _ => .next s

/-- The health history that a compaction keeps: the last 1 MiB of its records (R472). -/
def Ledger.keptHealth (l : Ledger) : List LedgerBody := l.health.drop (l.health.length - 0x100000 / recordLen 64)

/-- The live set (R472): the fault map, both counters, the cached images, the latest BOOT record, the health history. -/
def Ledger.liveSet (l : Ledger) : List LedgerBody :=
  let lastBoot := ((l.half l.cur).records.filterMap (fun r => match r.body with
    | .boot n v w => some (LedgerBody.boot n v w)
    | _ => none)).getLast?
  l.faults ++ [.counter 0 l.counter0, .counter 1 l.counter1] ++ l.cache.map (fun c => .image c.imageId c.bytes)
    ++ lastBoot.toList ++ l.keptHealth

/-- LEDGER_COMPACT: past 24 MiB the live set is written to the other half, which commits with EPOCH one greater; waiting appends
follow, and the old half is erased (R472). -/
def execLedgerCompact (s : State) : Host.Outcome State Fault Refusal :=
  let l := s.led
  if l.pos ≤ 0x1800000 || l.dead || !s.stewardRuns then .next s
  else
    let h := 1 - l.cur
    let first := l.rseq
    let head := halfRecord (l.epoch + 1) first
    let start := { l.setHalf h ⟨[head], head.len⟩ with cur := h, pos := 0x1000, waiting := [], epoch := l.epoch + 1 }
    let m := l.liveSet.foldl Ledger.append start
    let m := { m with health := l.keptHealth }.setHalf l.cur ⟨[], 0⟩
    .next { s with led := l.waiting.foldl Ledger.append m }

/-- COLD_RESET_WRITE: a cold reset is requested; it waits for appends in progress (R449). -/
def execColdResetWrite (s : State) : Host.Outcome State Fault Refusal :=
  if s.stewardRuns then .next { s with boot := { s.boot with coldWaiting := true } } else .next s

/-- COLD_RESET: the requested cold reset takes effect (R448, R449). -/
def execColdReset (s : State) : Host.Outcome State Fault Refusal := if s.boot.coldWaiting then .next s.cold else .next s

/-- UNBIND_RESET: every partition is killed, to be swept, and GL_COMP_ID reads 0; ignored during VERIFY and APPLY (R448, R473). -/
def execUnbindReset (s : State) : Host.Outcome State Fault Refusal :=
  if !s.stewardRuns || s.load.state == 1 || s.load.state == 2 then .next s else .next (s.killEverything true)

end Sys2Proof.Machine
end

