-- ==== Sys2Proof/Machine/Crypto.lean ====
section
/-! DEFINITION. SHA-384 and ECDSA P-384 verification, which the manual names (R63, R64, R503, R506) and whose content is
taken from the public standards FIPS 180-4 and FIPS 186-5 (PRESUMED, log 10). -/
namespace Sys2Proof.Machine

def m64 (x : Nat) : Nat := x % 2 ^ 64

def rotr64 (x n : Nat) : Nat := m64 (x / 2 ^ n + x * 2 ^ (64 - n))

/-- The round constants. -/
def shaKLow : List Nat :=
  [0x428A2F98D728AE22, 0x7137449123EF65CD, 0xB5C0FBCFEC4D3B2F, 0xE9B5DBA58189DBBC,
   0x3956C25BF348B538, 0x59F111F1B605D019, 0x923F82A4AF194F9B, 0xAB1C5ED5DA6D8118,
   0xD807AA98A3030242, 0x12835B0145706FBE, 0x243185BE4EE4B28C, 0x550C7DC3D5FFB4E2,
   0x72BE5D74F27B896F, 0x80DEB1FE3B1696B1, 0x9BDC06A725C71235, 0xC19BF174CF692694,
   0xE49B69C19EF14AD2, 0xEFBE4786384F25E3, 0x0FC19DC68B8CD5B5, 0x240CA1CC77AC9C65,
   0x2DE92C6F592B0275, 0x4A7484AA6EA6E483, 0x5CB0A9DCBD41FBD4, 0x76F988DA831153B5,
   0x983E5152EE66DFAB, 0xA831C66D2DB43210, 0xB00327C898FB213F, 0xBF597FC7BEEF0EE4,
   0xC6E00BF33DA88FC2, 0xD5A79147930AA725, 0x06CA6351E003826F, 0x142929670A0E6E70,
   0x27B70A8546D22FFC, 0x2E1B21385C26C926, 0x4D2C6DFC5AC42AED, 0x53380D139D95B3DF,
   0x650A73548BAF63DE, 0x766A0ABB3C77B2A8, 0x81C2C92E47EDAEE6, 0x92722C851482353B]

def shaKHigh : List Nat :=
  [0xA2BFE8A14CF10364, 0xA81A664BBC423001, 0xC24B8B70D0F89791, 0xC76C51A30654BE30,
   0xD192E819D6EF5218, 0xD69906245565A910, 0xF40E35855771202A, 0x106AA07032BBD1B8,
   0x19A4C116B8D2D0C8, 0x1E376C085141AB53, 0x2748774CDF8EEB99, 0x34B0BCB5E19B48A8,
   0x391C0CB3C5C95A63, 0x4ED8AA4AE3418ACB, 0x5B9CCA4F7763E373, 0x682E6FF3D6B2B8A3,
   0x748F82EE5DEFB2FC, 0x78A5636F43172F60, 0x84C87814A1F0AB72, 0x8CC702081A6439EC,
   0x90BEFFFA23631E28, 0xA4506CEBDE82BDE9, 0xBEF9A3F7B2C67915, 0xC67178F2E372532B,
   0xCA273ECEEA26619C, 0xD186B8C721C0C207, 0xEADA7DD6CDE0EB1E, 0xF57D4F7FEE6ED178,
   0x06F067AA72176FBA, 0x0A637DC5A2C898A6, 0x113F9804BEF90DAE, 0x1B710B35131C471B,
   0x28DB77F523047D84, 0x32CAAB7B40C72493, 0x3C9EBE0A15C9BEBC, 0x431D67C49C100D4C,
   0x4CC5D4BECB3E42B6, 0x597F299CFC657E2A, 0x5FCB6FAB3AD6FAEC, 0x6C44198C4A475817]

def shaK : List Nat := shaKLow ++ shaKHigh

def shaS0 (x : Nat) : Nat := rotr64 x 28 ^^^ rotr64 x 34 ^^^ rotr64 x 39
def shaS1 (x : Nat) : Nat := rotr64 x 14 ^^^ rotr64 x 18 ^^^ rotr64 x 41
def shaG0 (x : Nat) : Nat := rotr64 x 1 ^^^ rotr64 x 8 ^^^ (x / 2 ^ 7)
def shaG1 (x : Nat) : Nat := rotr64 x 19 ^^^ rotr64 x 61 ^^^ (x / 2 ^ 6)
def shaCh (x y z : Nat) : Nat := (x &&& y) ^^^ ((2 ^ 64 - 1 - x) &&& z)
def shaMaj (x y z : Nat) : Nat := (x &&& y) ^^^ (x &&& z) ^^^ (y &&& z)

/-- The message schedule: the window of the last 16 words, and the words still to come. -/
def shaSchedule : Nat → List Nat → List Nat
  | 0, _ => []
  | n + 1, w =>
    let next := m64 (shaG1 (w.getD 14 0) + w.getD 9 0 + shaG0 (w.getD 1 0) + w.getD 0 0)
    next :: shaSchedule n (w.drop 1 ++ [next])

structure ShaState where
  a : Nat
  b : Nat
  c : Nat
  d : Nat
  e : Nat
  f : Nat
  g : Nat
  h : Nat
  deriving DecidableEq, Repr

def shaRound (s : ShaState) (kw : Nat) : ShaState :=
  let t1 := m64 (s.h + shaS1 s.e + shaCh s.e s.f s.g + kw)
  let t2 := m64 (shaS0 s.a + shaMaj s.a s.b s.c)
  { a := m64 (t1 + t2), b := s.a, c := s.b, d := s.c, e := m64 (s.d + t1), f := s.e, g := s.f, h := s.g }

def shaInit : ShaState :=
  { a := 0xCBBB9D5DC1059ED8, b := 0x629A292A367CD507, c := 0x9159015A3070DD17, d := 0x152FECD8F70E5939,
    e := 0x67332667FFC00B31, f := 0x8EB44A8768581511, g := 0xDB0C2E0D64F98FA7, h := 0x47B5481DBEFA4FA4 }

def shaWords : Nat → List Byte → List Nat
  | 0, _ => []
  | n + 1, bs => beNat (bs.take 8) :: shaWords n (bs.drop 8)

/-- One 128-byte block. -/
def shaBlock (s : ShaState) (blk : List Byte) : ShaState :=
  let w := shaWords 16 blk
  let ws := w ++ shaSchedule 64 w
  let r := (List.zipWith (fun k x => k + x) shaK ws).foldl shaRound s
  { a := m64 (s.a + r.a), b := m64 (s.b + r.b), c := m64 (s.c + r.c), d := m64 (s.d + r.d),
    e := m64 (s.e + r.e), f := m64 (s.f + r.f), g := m64 (s.g + r.g), h := m64 (s.h + r.h) }

def shaBlocks : Nat → ShaState → List Byte → ShaState
  | 0, s, _ => s
  | n + 1, s, bs => shaBlocks n (shaBlock s (bs.take 128)) (bs.drop 128)

def beBytes (n x : Nat) : List Byte := (leBytes n x).reverse

/-- The message with its padding. -/
def shaPad (bs : List Byte) : List Byte :=
  bs ++ [0x80] ++ List.replicate ((111 + 128 - bs.length % 128) % 128) 0 ++ beBytes 16 (8 * bs.length)

/-- SHA-384: 48 bytes. -/
def sha384 (bs : List Byte) : List Byte :=
  let p := shaPad bs
  let s := shaBlocks (p.length / 128) shaInit p
  beBytes 8 s.a ++ beBytes 8 s.b ++ beBytes 8 s.c ++ beBytes 8 s.d ++ beBytes 8 s.e ++ beBytes 8 s.f

/-- The field prime of P-384. -/
def p384P : Nat := 2 ^ 384 - 2 ^ 128 - 2 ^ 96 + 2 ^ 32 - 1
/-- The order of the base point. -/
def p384N : Nat := 0xFFFFFFFFFFFFFFFFFFFFFFFFFFFFFFFFFFFFFFFFFFFFFFFFC7634D81F4372DDF581A0DB248B0A77AECEC196ACCC52973
def p384B : Nat := 0xB3312FA7E23EE7E4988E056BE3F82D19181D9C6EFE8141120314088F5013875AC656398D8A2ED19D2A85C8EDD3EC2AEF
def p384Gx : Nat := 0xAA87CA22BE8B05378EB1C71EF320AD746E1D3B628BA79B9859F741E082542A385502F25DBF55296C3A545E3872760AB7
def p384Gy : Nat := 0x3617DE4A96262C6F5D9E98BF9292DC29F8F41DBD289A147CE9DA3113B5F0B8C00A60B1CE1D7E819D7A431D7C90EA0E5F

/-- x^e mod m, by the `fuel` low bits of e. -/
def powMod (m : Nat) : Nat → Nat → Nat → Nat
  | 0, _, _ => 1 % m
  | fuel + 1, x, e =>
    let r := powMod m fuel (x * x % m) (e / 2)
    if e % 2 == 1 then r * x % m else r

def invMod (m x : Nat) : Nat := powMod m 384 (x % m) (m - 2)

/-- A point of the curve, none at infinity. -/
abbrev Point := Option (Nat × Nat)

def pointAdd (q r : Point) : Point :=
  match q, r with
  | none, r => r
  | q, none => q
  | some (x1, y1), some (x2, y2) =>
    if x1 == x2 && (y1 + y2) % p384P == 0 then none
    else
      let num := if x1 == x2 then (3 * x1 * x1 + (p384P - 3)) else (y2 + p384P - y1)
      let den := if x1 == x2 then 2 * y1 else (x2 + p384P - x1)
      let l := num * invMod p384P den % p384P
      let x3 := (l * l + 2 * p384P - x1 - x2) % p384P
      let y3 := (l * (x1 + p384P - x3) + p384P - y1) % p384P
      some (x3, y3)

/-- k times a point, by the `fuel` low bits of k. -/
def pointMul : Nat → Nat → Point → Point
  | 0, _, _ => none
  | fuel + 1, k, q =>
    let r := pointMul fuel (k / 2) (pointAdd q q)
    if k % 2 == 1 then pointAdd r q else r

/-- The point of an uncompressed public key of 97 bytes, when it lies on the curve (R506). -/
def keyPoint (key : List Byte) : Point :=
  let x := beNat (slice key 1 48)
  let y := beNat (slice key 49 48)
  if key.length == 97 && byteAt key 0 == 4 && decide (x < p384P) && decide (y < p384P)
     && (y * y) % p384P == (x * x * x + (p384P - 3) * x + p384B) % p384P then some (x, y)
  else none

/-- ECDSA P-384 over a SHA-384 digest. -/
def ecdsaVerify (key digest sigR sigS : List Byte) : Bool :=
  let r := beNat sigR
  let s := beNat sigS
  match keyPoint key with
  | none => false
  | some q =>
    if r == 0 || s == 0 || decide (p384N ≤ r) || decide (p384N ≤ s) then false
    else
      let z := beNat digest
      let w := invMod p384N s
      let u1 := z * w % p384N
      let u2 := r * w % p384N
      match pointAdd (pointMul 384 u1 (some (p384Gx, p384Gy))) (pointMul 384 u2 (some q)) with
      | none => false
      | some (x, _) => x % p384N == r

end Sys2Proof.Machine
end

