-- ==== Sys2Proof/Machine/Image.lean ====
section
/-! DEFINITION. The bytes of a composition image taken apart: header, section table, and the content of each section type (R39 to
R62, R251, R304, R308, R352, R357, R372 to R377). Each decoder answers none for an encoding outside its ranges. -/
namespace Sys2Proof.Machine

/-- An image header (R41). -/
structure Header where
  kind : Nat
  flags : Nat
  length : Nat
  count : Nat
  rev : Nat
  imageId : Nat
  baseId : Nat
  stackMask : Nat
  rollback : Nat
  sigOff : Nat
  deriving DecidableEq, Repr

def decodeHeader (b : List Byte) : Header :=
  { kind := fieldAt b 6 1, flags := fieldAt b 7 1, length := fieldAt b 8 4, count := fieldAt b 0xC 2, rev := fieldAt b 0xE 2,
    imageId := fieldAt b 0x10 8, baseId := fieldAt b 0x18 8, stackMask := fieldAt b 0x20 8, rollback := fieldAt b 0x28 4,
    sigOff := fieldAt b 0x2C 4 }

/-- Entry `i` of the section table (R42). -/
def decodeEntry (b : List Byte) (i : Nat) : Section :=
  let e := slice b (0x80 + 64 * i) 64
  { type := fieldAt e 0 2, pnum := fieldAt e 4 1, offset := fieldAt e 8 4, len := fieldAt e 0xC 4, hash := slice e 0x10 48 }

def sectionsOf (b : List Byte) : List Section := (List.range (decodeHeader b).count).map (decodeEntry b)

/-- The header fields in their ranges (R41, R578). -/
def headerOk (b : List Byte) : Bool :=
  let h := decodeHeader b
  decide (128 ≤ b.length) && slice b 0 4 == [0x46, 0x4C, 0x4E, 0x43] && fieldAt b 4 2 == 1 && decide (h.kind ≤ 1) && decide (h.flags ≤ 1)
    && h.length == b.length && decide (h.length ≤ 0x4000000) && decide (1 ≤ h.count) && decide (h.count ≤ 256) && h.imageId != 0
    && (h.kind == 1 || h.baseId == 0) && zeroAt b 0x40 64 && h.length == h.sigOff + 160 && h.sigOff % 64 == 0
    && decide (0x80 + 64 * h.count ≤ h.sigOff) && zeroAt b (h.sigOff + 144) 16

/-- The place of entry `i`: aligned, after the part before it with zeros between, and before the signature block (R39, R43). -/
def entryOk (b : List Byte) (ss : List Section) (i : Nat) : Bool :=
  let h := decodeHeader b
  let endOf (j : Nat) : Nat := match ss[j]? with
    | some s => s.offset + s.len
    | none => 0
  match ss[i]? with
  | none => false
  | some s =>
    let before := if i == 0 then 0x80 + 64 * h.count else endOf (i - 1)
    let next := match ss[i + 1]? with
      | some n => n.offset
      | none => h.sigOff
    byteAt b (0x83 + 64 * i) == 0 && zeroAt b (0x85 + 64 * i) 3 && s.offset % 64 == 0 && decide (before ≤ s.offset)
      && decide (s.offset + s.len ≤ next) && zeroAt b (s.offset + s.len) (next - (s.offset + s.len))
      && (i != 0 || zeroAt b before (s.offset - before))

/-- TYPE, VER and PNUM of an entry (R42, R44, R45). -/
def entryType (b : List Byte) (h : Header) (ss : List Section) (i : Nat) : Bool :=
  match ss[i]? with
  | none => false
  | some s => byteAt b (0x82 + 64 * i) == 1 &&
      (if s.type == 9 then s.pnum == 0xFF && h.kind == 1 else decide (1 ≤ s.type) && decide (s.type ≤ 8) && decide (s.pnum < 64))

/-- The number of sections of each type for each partition, and one REBIND in a delta (R44, R578). -/
def countsOk (h : Header) (ss : List Section) : Bool :=
  let num (t p : Nat) : Nat := (ss.filter (fun s => s.type == t && s.pnum == p)).length
  (List.range 64).all (fun p => !ss.any (fun s => s.type != 9 && s.pnum == p) ||
      (num 1 p == 1 && num 8 p == 1 && (List.range 8).all (fun t => decide (num t p ≤ 1))))
    && num 9 0xFF == h.kind

/-- The tiles of a TILEMAP (R46). -/
def tilesOf (m : List Byte) : List Nat := (List.range 512).filter (fun t => bitOf (byteAt m (t / 8)) (t % 8))

/-- A PART section (R46). -/
def decodePart (b : List Byte) : PartRec :=
  { pnum := fieldAt b 0 1, cls := fieldAt b 1 1, discipline := fieldAt b 2 1, ovf := fieldAt b 3 1, lead := fieldAt b 4 2,
    ntiles := fieldAt b 6 2, floorShare := fieldAt b 8 2, itinEntry := fieldAt b 0xA 2, reqRing := fieldAt b 0x10 8,
    cplRing := fieldAt b 0x18 8, ringLog2 := fieldAt b 0x20 1, spillBase := fieldAt b 0x28 8, spillSize := fieldAt b 0x30 8,
    tiles := tilesOf (slice b 0x40 64) }

/-- The ranges of a PART section (R46, R47). -/
def partOk (b : List Byte) (pnum : Nat) : Bool :=
  let r := decodePart b
  b.length == 256 && r.pnum == pnum && decide (r.cls ≤ 2) && decide (r.ovf ≤ 1) && r.tiles.contains r.lead && r.ntiles == r.tiles.length
    && decide (1 ≤ r.ntiles) && decide (4 ≤ r.ringLog2) && decide (r.ringLog2 ≤ 16) && (r.spillBase != 0 || r.spillSize == 0)
    && zeroAt b 0xC 4 && zeroAt b 0x21 7 && zeroAt b 0x38 8 && zeroAt b 0x80 128

/-- The records of a section of records of `n` bytes. -/
def records (n : Nat) (b : List Byte) : List (List Byte) := (List.range (b.length / n)).map (fun i => slice b (n * i) n)

def decodeGang (b : List Byte) : Gang :=
  { x0 := byteAt b 0, y0 := byteAt b 1, w := byteAt b 2, h := byteAt b 3, sides := byteAt b 4 }

/-- A GANG record within its own limits (R53, R199). -/
def gangOk (b : List Byte) : Bool :=
  let g := decodeGang b
  decide (1 ≤ g.w) && decide (g.w ≤ 8) && decide (1 ≤ g.h) && decide (g.h ≤ 8) && decide (2 ≤ g.w * g.h) && decide (g.x0 + g.w ≤ 32)
    && decide (g.y0 + g.h ≤ 16) && decide (1 ≤ g.sides) && decide (g.sides ≤ 3) && zeroAt b 5 3

def decodeRoad (b : List Byte) : RoadRes := { src := fieldAt b 0 2, dst := fieldAt b 2 2, slots := fieldAt b 4 2 }

def decodeLinkRes (b : List Byte) : LinkRes := { modules := fieldAt b 0 2, share := byteAt b 2 }

/-- One stream instruction, and its length (R308). -/
def decodeInstr (b : List Byte) : Option (StreamInstr × Nat) :=
  let f := byteAt b 1
  let sel (x : Nat) : Bool := decide (x < 8) || x == 0xFF
  let ok (n : Nat) (c : Bool) (i : StreamInstr) : Option (StreamInstr × Nat) := if decide (n ≤ b.length) && c then some (i, n) else none
  match byteAt b 0 with
  | 1 => ok 16 (decide (f ≤ 1) && sel (byteAt b 2) && zeroAt b 3 5) (.base (f == 1) (byteAt b 2) (fieldAt b 8 8))
  | 2 => ok 16 (sel (byteAt b 2) && byteAt b 3 == 0)
      (.loop f (byteAt b 2) (fieldAt b 4 4) (signedOf 32 (fieldAt b 8 4)) (signedOf 32 (fieldAt b 12 4)))
  | 3 =>
    let tr := bits f 0 2
    let pitch := fieldAt b 2 2
    let len := fieldAt b 4 4
    ok 8 (decide (f < 8) && tr != 3 && ((tr == 0) == (pitch == 0)) && decide (1 ≤ len) && decide (len ≤ 65536)) (.xfer tr (bitOf f 2) pitch len)
  | 4 => ok 8 (zeroAt b 1 7) .tend
  | 5 => ok 8 (f == 0 && zeroAt b 4 4) (.signal (fieldAt b 2 2))
  | 6 => ok 8 (decide (f < 64) && zeroAt b 2 6) (.wait f)
  | _ => none

def decodeInstrs : Nat → List Byte → Option (List StreamInstr × List Byte)
  | 0, b => some ([], b)
  | n + 1, b =>
    match decodeInstr b with
    | none => none
    | some (i, k) => (decodeInstrs n (b.drop k)).map (fun r => (i :: r.1, r.2))

/-- Loops, as (index, last of body) in a sequence of `n`: bodies inside it, each within every enclosing one, at most 6 deep (R58,
R308, R378). -/
def loopsOk (n : Nat) (ls : List (Nat × Nat)) : Bool :=
  ls.all (fun l => decide (l.1 < l.2) && decide (l.2 < n) && ls.all (fun m => !(decide (l.1 < m.1) && decide (m.1 ≤ l.2)) || decide (m.2 ≤ l.2))
    && decide ((ls.filter (fun m => decide (m.1 ≤ l.1) && decide (l.1 ≤ m.2))).length ≤ 6))

/-- The elements of a list with their places. -/
def indexed {α : Type} (l : List α) : List (Nat × α) := (List.range l.length).zip l

def streamLoops (is : List StreamInstr) : List (Nat × Nat) :=
  (indexed is).filterMap (fun e => match e.2 with
    | .loop last _ _ _ _ => some (e.1, last)
    | _ => none)

/-- The programs of a STRMLIB section (R57, R58). -/
def decodeProgs : Nat → List Byte → Option (List StreamProg)
  | 0, b => if b.isEmpty then some [] else none
  | fuel + 1, b =>
    if b.isEmpty then some []
    else
      let n := byteAt b 2
      let len := fieldAt b 4 4
      if b.length < 8 + len || byteAt b 3 != 0 || decide (1023 < fieldAt b 0 2) || n == 0 || decide (16 < n) then none
      else match decodeInstrs n (slice b 8 len) with
        | some (is, []) =>
          if loopsOk n (streamLoops is) then (decodeProgs fuel (b.drop (8 + len))).map (fun r => ⟨fieldAt b 0 2, is⟩ :: r) else none
        | _ => none

def decodeFunc (b : List Byte) : FuncDef :=
  { id := byteAt b 0, domain := slice b 8 8, value := slice b 16 4096, deriv := slice b 4112 4096 }

/-- A FUNCTAB section (R59). -/
def decodeFuncs (b : List Byte) : Option (List FuncDef) :=
  let rs := records 8208 b
  let fs := rs.map decodeFunc
  if b.length % 8208 == 0 && decide (rs.length ≤ 16) && rs.all (fun r => decide (byteAt r 0 ≤ 15) && zeroAt r 1 7 && domainOk (slice r 8 8))
      && (fs.map (·.id)).eraseDups.length == fs.length then some fs
  else none

/-- The wires of a SEMWIRE section (R60). -/
def decodeWires : Nat → List Byte → Option (List Wire)
  | 0, b => if b.isEmpty then some [] else none
  | fuel + 1, b =>
    if b.isEmpty then some []
    else
      let n := byteAt b 5
      let size := 8 + 4 * n
      let es := records 4 (slice b 8 (4 * n))
      if n == 0 || decide (64 < n) || decide (63 < byteAt b 4) || decide (b.length < size)
          || es.any (fun e => decide (63 < byteAt e 2) || byteAt e 3 != 0) then none
      else (decodeWires fuel (b.drop size)).map (fun r =>
        { link := fieldAt b 0 2, ptile := fieldAt b 2 2, psem := byteAt b 4, init := fieldAt b 6 2,
          cons := es.map (fun e => (fieldAt e 0 2, byteAt e 2)) } :: r)

/-- A DIM word (R374). -/
def decodeDim (w : Nat) : Option Dim :=
  if w < 2 ^ 31 then some (.const w) else if bits w 3 28 == 0 then some (.sh (bits w 0 3)) else none

/-- A constant DIM word is at most its planned maximum (R374, R378). -/
def dimFits (d : Dim) (max : Nat) : Bool :=
  match d with
  | .const n => decide (n ≤ max)
  | .sh _ => true

/-- A stream descriptor (R304). -/
def decodeDesc (b : List Byte) : Option Desc :=
  let fl := byteAt b 7
  let d : Desc :=
    { prog := fieldAt b 0 2, queue := byteAt b 2, dest := byteAt b 3, src := byteAt b 4, ringq := byteAt b 5, outst := byteAt b 6,
      prio := bitOf fl 0, wb := bitOf fl 1, wbr := bitOf fl 2, six := bitOf fl 3, ringBase := fieldAt b 8 4, slot := fieldAt b 12 4 }
  let ring := if d.dest == 1 then d.ringBase % 32 == 0 && d.slot % 32 == 0 && decide (32 ≤ d.slot) && decide (d.slot ≤ 0xAAAA0)
    else d.ringBase == 0 && d.slot == 0
  if decide (d.queue < 8) && decide (d.dest ≤ 8) && decide (d.src ≤ 1) && decide (d.ringq < 8) && (d.src == 1 || d.ringq == 0)
      && decide (1 ≤ d.outst) && decide (d.outst ≤ 64) && decide (fl < 16) && (!d.six || [2, 3, 5, 6].contains d.dest) && ring then some d
  else none

/-- The source of a parameter (R377). -/
def decodePSource (b : List Byte) : Option PSource :=
  let p : PSource :=
    { kind := byteAt b 0, n := byteAt b 1, idx := byteAt b 2, stride := signedOf 32 (fieldAt b 4 4), value := fieldAt b 8 8 }
  if decide (p.kind ≤ 4) && decide (p.n < 8) && (decide (p.idx ≤ 6) || p.idx == 0xFF) && byteAt b 3 == 0 then some p else none

/-- A relay descriptor (R352). -/
def decodeRelay (b : List Byte) : Option RelayDesc :=
  let d : RelayDesc :=
    { inDir := byteAt b 0, outDir := byteAt b 1, loc := bitOf (byteAt b 2) 0, hsem := byteAt b 3, inLink := fieldAt b 4 2,
      outLink := fieldAt b 6 2, nblk := fieldAt b 8 4, nslot := byteAt b 12, base := fieldAt b 0x10 4, blen := fieldAt b 0x14 4 }
  let head := if d.inDir == 0 then decide (d.hsem < 64) && d.inLink == 0xFFFF else d.hsem == 0xFF
  if decide (d.inDir ≤ 4) && decide (d.outDir ≤ 4) && decide (byteAt b 2 ≤ 1) && head && (d.outDir != 0 || d.outLink == 0xFFFF)
      && decide (1 ≤ d.nblk) && decide (2 ≤ d.nslot) && decide (d.nslot ≤ 4) && zeroAt b 13 3 && d.base % 64 == 0 && d.blen % 64 == 0
      && decide (64 ≤ d.blen) && decide (d.blen ≤ 0x100000) && zeroAt b 0x18 8 then some d
  else none

/-- Entry `d` of a halo descriptor (R357). -/
def decodeHaloEntry (b : List Byte) (d : Nat) : Option HaloEntry :=
  let h : HaloEntry :=
    { sbase := fieldAt b 0 4, dbase := fieldAt b 4 4, spitch := fieldAt b 8 4, dpitch := fieldAt b 12 4, lines := fieldAt b 0x10 2,
      len := fieldAt b 0x12 2, link := fieldAt b 0x14 2 }
  let ns := d % 2 == 0
  if zeroAt b 0x16 2 && (h.lines == 0 ||
      (decide (h.lines ≤ if ns then 8 else 4096) && decide (1 ≤ h.len) && decide (h.len ≤ if ns then 65535 else 32))) then some h
  else none

/-- All answers of a list, or none. -/
def allSome {α : Type} : List (Option α) → Option (List α)
  | [] => some []
  | none :: _ => none
  | some x :: r => (allSome r).map (x :: ·)

def decodeHalo (b : List Byte) : Option (List HaloEntry) :=
  allSome ((List.range 4).map (fun d => decodeHaloEntry (slice b (24 * d) 24) d))

/-- The body of an OPER step, `b` being the whole step (R375). -/
def decodeOper (b : List Byte) : Option Oper :=
  match decodeDim (fieldAt b 0x14 4), decodeDim (fieldAt b 0x18 4), decodeDim (fieldAt b 0x1C 4) with
  | some m, some n, some k =>
    let acc := byteAt b 0x12
    let walk := byteAt b 0x13
    if decide (64 ≤ acc) || decide (16 ≤ walk) || !zeroAt b 0x74 4 then none
    else some {
      mode := byteAt b 0xC, array := byteAt b 0xD, form := byteAt b 0xE, taps := byteAt b 0xF, fmtMov := bits (byteAt b 0x10) 0 4,
      fmtSta := bits (byteAt b 0x10) 4 4, conv := byteAt b 0x11, acc := bits acc 0 2, rootA := bitOf acc 2, rootB := bitOf acc 3,
      hasCin := bitOf acc 4, mask := bitOf acc 5, order := bits walk 0 3, serp := bitOf walk 3, dimM := m, dimN := n, dimK := k,
      maxM := fieldAt b 0x20 4, maxN := fieldAt b 0x24 4, maxK := fieldAt b 0x28 4, tm := fieldAt b 0x2C 4, tn := fieldAt b 0x30 4,
      tk := fieldAt b 0x34 4, winBase := fieldAt b 0x38 4, winSize := fieldAt b 0x3C 4, outA := fieldAt b 0x40 4, outB := fieldAt b 0x44 4,
      pitchA := fieldAt b 0x48 4, pitchB := fieldAt b 0x4C 4, auxA := fieldAt b 0x50 4, cin := fieldAt b 0x54 4, maskK := fieldAt b 0x58 4,
      maskN := fieldAt b 0x5C 4, func := byteAt b 0x60, causal := byteAt b 0x61, kb := fieldAt b 0x62 2, scale := fieldAt b 0x64 4,
      causalOff := signedOf 32 (fieldAt b 0x68 4), fused := fieldAt b 0x6C 4, auxB := fieldAt b 0x70 4 }
  | _, _, _ => none

/-- The body of a VEC step (R373). -/
def decodeVec (b : List Byte) : Option Vec :=
  match decodeDim (fieldAt b 0x10 4), decodeDim (fieldAt b 0x14 4) with
  | some r, some c => some {
      vop := byteAt b 0xC, conv := byteAt b 0xD, ring := byteAt b 0xE, func := byteAt b 0xF, rows := r, cols := c, maxR := fieldAt b 0x18 4,
      maxC := fieldAt b 0x1C 4, srcA := fieldAt b 0x20 4, srcB := fieldAt b 0x24 4, srcC := fieldAt b 0x28 4, dst := fieldAt b 0x2C 4,
      pitch := fieldAt b 0x30 4, imm := fieldAt b 0x34 4, dstAux := fieldAt b 0x38 4 }
  | _, _ => none

/-- The body of a JUNCT step (R373). -/
def decodeJunct (b : List Byte) : Option Junct :=
  match decodeDim (fieldAt b 0x10 4) with
  | some c =>
    if byteAt b 0xF != 0 then none
    else some {
      nr := byteAt b 0xC, present := byteAt b 0xD, conv := byteAt b 0xE, count := c, max := fieldAt b 0x14 4, dst := fieldAt b 0x18 4,
      srcs := (List.range 8).map (fun i => fieldAt b (0x1C + 4 * i) 4), dstAux := fieldAt b 0x3C 4 }
  | none => none

/-- The entries of a RELAY or HALO step: tiles with descriptors of `n` bytes (R373). -/
def decodeListed {α : Type} (b : List Byte) (n : Nat) (f : List Byte → Option α) : Option (List (Nat × α)) :=
  let nt := fieldAt b 0xC 2
  if b.length != 16 + (n + 4) * nt || !zeroAt b 0xE 2 then none
  else allSome ((records (n + 4) (b.drop 16)).map (fun r =>
    if zeroAt r 2 2 then (f (r.drop 4)).map (fun x => (fieldAt r 0 2, x)) else none))

/-- The body of a step of opcode `op` (R373). -/
def decodeBody (op : Nat) (b : List Byte) : Option StepBody :=
  let ok (n : Nat) (x : StepBody) : Option StepBody := if b.length == n then some x else none
  match op with
  | 0x01 => ok 12 .take
  | 0x02 => ok 12 .done
  | 0x03 => match decodeDim (fieldAt b 0xC 4) with
    | some d => if byteAt b 0x13 == 0 && decide (byteAt b 0x12 ≤ 2) then ok 20 (.loop d (fieldAt b 0x10 2) (byteAt b 0x12)) else none
    | none => none
  | 0x04 => if decide (byteAt b 0xC ≤ 3) && decide (byteAt b 0xD ≤ 7) then
      ok 20 (.branch (byteAt b 0xC) (byteAt b 0xD) (fieldAt b 0xE 2) (fieldAt b 0x10 4)) else none
  | 0x05 => ok 20 (.ckpt (fieldAt b 0xC 8))
  | 0x06 => ok 12 .sync
  | 0x10 => if b.length == 120 then (decodeOper b).map .oper else none
  | 0x11 => if b.length == 60 then (decodeVec b).map .vec else none
  | 0x12 => if b.length == 64 then (decodeJunct b).map .junct else none
  | 0x13 =>
    if b.length != 156 then none
    else match decodeDesc (slice b 0xC 16), allSome ((records 16 (b.drop 0x1C)).map decodePSource) with
      | some d, some ps => some (.launch d ps)
      | _, _ => none
  | 0x14 => (decodeListed b 32 decodeRelay).map .relay
  | 0x15 => (decodeListed b 96 decodeHalo).map .halo
  | 0x16 => ok 20 (.wbuf (fieldAt b 0xC 4) (fieldAt b 0x10 4))
  | 0x17 => ok 12 .swing
  | _ => none

/-- The target field (R372). -/
def decodeTarget (w : Nat) : Option Target :=
  match bits w 14 2 with
  | 0 => if bits w 0 14 == 0 then some .all else none
  | 1 => some (.gang (bits w 0 14))
  | 2 => if bits w 9 5 == 0 then some (.one (bits w 0 9)) else none
  | _ => if bits w 0 14 == 0 then some .listed else none

/-- One step of an itinerary (R372). -/
def decodeStep (b : List Byte) : Option ItinStep :=
  let w := byteAt b 1
  match decodeTarget (fieldAt b 4 2), decodeBody (byteAt b 0) b with
  | some tgt, some body =>
    let st : ItinStep :=
      { wsem := if w == 0xFF then none else some w, tgt := tgt, dlink := if fieldAt b 6 2 == 0xFFFF then none else some (fieldAt b 6 2),
        fbk := bitOf (byteAt b 8) 0, raw := bitOf (byteAt b 8) 1, wbc := bitOf (byteAt b 8) 2, ifmtA := bits (byteAt b 9) 0 4,
        ifmtB := bits (byteAt b 9) 4 4, ifmtC := bits (byteAt b 10) 0 4, body := body }
    if (w == 0xFF || decide (w < 64)) && decide (byteAt b 8 < 8) && decide (byteAt b 10 < 16) && byteAt b 11 == 0 then some st else none
  | _, _ => none

/-- The steps of an ITIN section after its header; each step's LEN gives its length (R62, R372). -/
def decodeSteps : Nat → List Byte → Option (List ItinStep)
  | 0, b => if b.isEmpty then some [] else none
  | n + 1, b =>
    let len := 4 * fieldAt b 2 2
    if decide (len < 12) || decide (b.length < len) then none
    else match decodeStep (b.take len) with
      | some st => (decodeSteps n (b.drop len)).map (st :: ·)
      | none => none

/-- An ITIN section (R62). -/
def decodeItin (b : List Byte) : Option (List ItinStep) :=
  let n := fieldAt b 0 2
  if zeroAt b 2 2 && decide (1 ≤ n) && decide (n ≤ 4096) && decide (4 ≤ b.length) then decodeSteps n (b.drop 4) else none

/-- A REBIND record in its ranges (R73). -/
def rebindOk (b : List Byte) : Bool :=
  decide (byteAt b 0 < 64) && decide (byteAt b 1 ≤ 1) && (byteAt b 1 == 0 || decide (1 ≤ fieldAt b 2 2))

end Sys2Proof.Machine
end

