-- ==== Sys2Proof/Machine/Check.lean ====
section
/-! DEFINITION. The checks of the verify pass: the steps of an itinerary (R62, R353, R357, R373 to R378, R581), the content of each
section (R46 to R62, R578), trust (R64, R74), the stack as it will stand (R47 to R56, R61, R75 to R77) and its roads (R487). -/
namespace Sys2Proof.Machine

/-- An operand format that a VEC or JUNCT step may name (R581). -/
def operandFormat (f : Nat) : Bool := decide (f ≤ 4) || f == fmtINT8 || f == fmtINT32

/-- The operand formats that a step reads and those it does not; `intOp`: its operation is defined on INT32 (R581). -/
def formatsOk (exact intOp : Bool) (reads unread : List Nat) : Bool :=
  reads.all operandFormat && unread.all (· == 0) && (!reads.contains fmtINT32 || (exact && intOp && reads.all (· == fmtINT32)))

/-- An output of this conversion byte has a second plane (R373). -/
def secondPlane (conv : Nat) : Bool := isMx (convByte conv).fmt || (convByte conv).fmt == fmtBF16X2

/-- The conversion byte and second plane of a VEC or JUNCT output; `index`: the step writes indices at DSTAUX (R105, R372, R373,
R581). An undefined byte is rejected under RAW too. -/
def outputOk (exact int index raw : Bool) (conv aux : Nat) : Bool :=
  let two := !raw && secondPlane conv
  (convByte conv).defined exact && ((convByte conv).fmt != fmtINT32 || int) && (if index then !two && aux != 0 else (aux != 0) == two)

/-- Operands that a VEC operation reads (R249, R373). -/
def vecReads (vop : Nat) : Nat := if vop == 3 || vop == 10 then 3 else if [0, 1, 2, 4, 5, 6, 18].contains vop then 2 else 1

def Comp.hasFunc (c : Comp) (id : Nat) : Bool := c.funcs.any (fun f => f.id == id)

/-- A VEC step (R62, R373, R378, R581). -/
def vecOk (c : Comp) (st : ItinStep) (v : Vec) : Bool :=
  let exact := c.part.ovf == 1
  let fs := [st.ifmtA, st.ifmtB, st.ifmtC]
  let n := vecReads v.vop
  decide (v.vop ≤ 19) && (decide (v.ring < 8) || v.ring == 0xFF) && ((v.vop != 11 && v.vop != 12) || c.hasFunc v.func)
    && (v.vop == 9 || v.imm == 0 || (v.vop == 10 && decide (v.imm ≤ 2))) && dimFits v.rows v.maxR && dimFits v.cols v.maxC
    && formatsOk exact ([0, 1, 2, 5, 6, 7, 8, 10, 18, 19].contains v.vop) (fs.take n) (fs.drop n)
    && outputOk exact (st.ifmtA == fmtINT32) (v.vop == 16 || v.vop == 17) st.raw v.conv v.dstAux

/-- A JUNCT step (R373, R378, R581). -/
def junctOk (c : Comp) (st : ItinStep) (j : Junct) : Bool :=
  let exact := c.part.ovf == 1
  (j.nr == 2 || j.nr == 4 || j.nr == 8) && decide (j.present < 2 ^ j.nr) && dimFits j.count j.max
    && formatsOk exact true [st.ifmtA] [st.ifmtB, st.ifmtC] && outputOk exact (st.ifmtA == fmtINT32) false st.raw j.conv j.dstAux

/-- The gang that a step names. -/
def Comp.gangOf (c : Comp) (st : ItinStep) : Option Gang :=
  match st.tgt with
  | .gang i => c.gangs[i]?
  | _ => none

/-- Bytes of the fused buffer at the planned maxima (R266, R270). -/
def fusedBytes (o : Oper) : Nat :=
  let e := fmtBits o.fmtMov / 8
  let two := 2 * o.maxM * o.kb * (4 + e)
  if o.mode == 3 then two + 3 * o.maxM * o.maxK * 4 + 32 * o.maxM else two

/-- The outputs of an operator step: root records, converted outputs with their second planes, and zeros where the mode writes
nothing (R105, R117, R189, R373, R375). -/
def outputsOk (exact : Bool) (o : Oper) : Bool :=
  let side (used root : Bool) (out pitch aux : Nat) : Bool :=
    if !used then !root && out == 0 && pitch == 0 && aux == 0
    else if root then aux == 0 && decide (o.mode ≤ 1)
    else (aux != 0) == secondPlane o.conv
  (convByte o.conv).defined exact && ((convByte o.conv).fmt != fmtINT32 || o.acc == 2)
    && side ((o.mode == 0 && o.array == 0) || o.mode == 1) o.rootA o.outA o.pitchA o.auxA
    && side (!(o.mode == 0 && o.array == 0)) o.rootB o.outB o.pitchB o.auxB

/-- A SINGLE step: its gang has its side, and its window holds a slot (R53, R183). -/
def singleOk (g : Option Gang) (o : Oper) : Bool :=
  decide (o.array ≤ 1) && (match g with
    | some g => bitOf g.sides o.array
    | none => true)

/-- A PAIRED step (R217, R228). -/
def pairedOk (c : Comp) (g : Option Gang) (o : Oper) : Bool :=
  let grp := match pairGroup o.fmtMov o.fmtSta with
    | some .wide => true
    | some .narrowFloat => !isMx o.fmtMov && !isMx o.fmtSta
    | _ => false
  o.array == 0 && o.form == 0 && o.taps == 1 && grp && (match g with
    | some g => g.h == 1 && (c.gangs.filter (fun k => k.x0 == g.x0 && k.y0 == g.y0 && k.w == g.w && k.h == g.h)).foldl
        (fun m k => m ||| k.sides) 0 == 3
    | none => true)

/-- A fused-pair step in its limits; the operand and output dimensions are read as log 23 says (R218, R264, R265). -/
def fusedOk (c : Comp) (g : Option Gang) (o : Oper) : Bool :=
  let wide (n : Nat) : Bool := decide (32 ≤ n) && decide (n ≤ 256) && n % 32 == 0
  let wideDim (d : Dim) : Bool := match d with
    | .const n => wide n
    | .sh _ => true
  g.isNone && o.array == 0 && o.form == 0 && o.taps == 1 && decide (1 ≤ o.maxM) && decide (o.maxM ≤ 1024) && decide (64 ≤ o.kb)
    && decide (o.kb ≤ 256) && o.kb % 64 == 0 && decide (1 ≤ o.maxN) && decide (ceilDiv o.maxN o.kb ≤ 65535)
    && (o.fmtMov == 0x3 || o.fmtMov == 0x2) && c.hasFunc o.func && decide (fusedBytes o ≤ 0x100000)
    && (if o.mode == 3 then wide o.maxK && wideDim o.dimK && !o.hasCin && decide (o.causal ≤ 1)
        else wide o.tn && o.causal == 0 && o.scale == 0 && o.causalOff == 0)

/-- An OPER step (R96, R127, R168, R181, R202, R375, R378). -/
def operOk (c : Comp) (st : ItinStep) (o : Oper) : Bool :=
  let exact := c.part.ovf == 1
  let g := c.gangOf st
  let h := match g with
    | some g => g.h
    | none => 1
  let df := lanesOf o.form * h * o.beat * o.rate
  decide (o.mode ≤ 3) && decide (o.form ≤ 2) && (pairGroup o.fmtMov o.fmtSta).isSome && decide (1 ≤ o.taps)
    && decide (o.taps ≤ maxTaps o.fmtMov o.fmtSta) && decide (o.acc ≤ 2)
    && (o.acc == 2) == (exact && pairGroup o.fmtMov o.fmtSta == some .plainInteger)
    && (o.acc != 0 || o.roles.all (fun r => decide ((slotDims o r).2.2 ≤ 2 ^ 24)))
    && o.windowOk && decide (o.order ≤ 5) && (h == 1 || o.form == 0) && dimFits o.dimM o.maxM && dimFits o.dimN o.maxN && dimFits o.dimK o.maxK
    && decide (1 ≤ o.tm) && decide (1 ≤ o.tn) && decide (1 ≤ o.tk) && o.tk % df == 0 && (o.hasCin || o.cin == 0)
    && (o.mask || (o.maskK == 0 && o.maskN == 0)) && (!o.mask || o.mode == 1) && outputsOk exact o
    && (decide (2 ≤ o.mode) || (o.func == 0 && o.causal == 0 && o.kb == 0 && o.scale == 0 && o.causalOff == 0 && o.fused == 0))
    && (match o.mode with
      | 0 => singleOk g o
      | 1 => pairedOk c g o
      | _ => fusedOk c g o)

/-- A LAUNCH step: its program exists, and SIX meets no transposing XFER (R62, R304). -/
def launchOk (c : Comp) (d : Desc) : Bool :=
  match c.progs.find? (fun g => g.id == d.prog) with
  | none => false
  | some g => !d.six || g.instrs.all (fun i => match i with
    | .xfer tr _ _ _ => tr == 0
    | _ => true)

/-- The wire of a link whose producer and only consumer are two given tiles. -/
def wireJoins (ws : List Wire) (link t u : Nat) : Option Wire :=
  ws.find? (fun w => w.link == link && w.ptile == t && w.cons.map (·.1) == [u])

/-- The entry that a relay entry receives from (R353). -/
def relayUp (es : List (Nat × RelayDesc)) (t : Nat) (d : RelayDesc) : Option (Nat × RelayDesc) :=
  if d.inDir == 0 then none
  else match neighbour t (d.inDir - 1) with
    | some u => es.find? (fun e => e.1 == u)
    | none => none

/-- A relay entry's place in its chain, counted from the head; none when the chain does not begin within `n` tiles. -/
def relayDepth (es : List (Nat × RelayDesc)) : Nat → Nat → RelayDesc → Option Nat
  | 0, _, _ => none
  | n + 1, t, d =>
    if d.inDir == 0 then some 0
    else match relayUp es t d with
      | some (u, e) => (relayDepth es n u e).map (· + 1)
      | none => none

/-- A RELAY step: chains of 2 to 64 neighbouring tiles, and no step without a chain (R353; DEDUCED, log 47). -/
def relayOk (c : Comp) (ws : List Wire) (es : List (Nat × RelayDesc)) : Bool :=
  !es.isEmpty && (es.map (·.1)).eraseDups.length == es.length && es.all (fun (t, d) =>
    c.part.tiles.contains t && (d.inDir != 0 || d.outDir != 0) && (d.outDir != 0 || d.loc) && (relayDepth es 64 t d).isSome
      && (d.inDir == 0 || (match relayUp es t d with
        | some (_, e) => e.outDir != 0 && e.outDir - 1 == opposite (d.inDir - 1) && e.outLink == d.inLink && e.nblk == d.nblk && e.blen == d.blen
        | none => false))
      && (d.outDir == 0 || (match neighbour t (d.outDir - 1) with
        | some u => (match es.find? (fun e => e.1 == u), wireJoins ws d.outLink t u with
          | some (_, e), some w => e.inDir != 0 && e.inDir - 1 == opposite (d.outDir - 1) && e.inLink == d.outLink && w.init == e.nslot
          | _, _ => false)
        | none => false)))

/-- A HALO step: each enabled direction has a neighbour, and its LINK joins the two (R357). -/
def haloOk (c : Comp) (ws : List Wire) (es : List (Nat × List HaloEntry)) : Bool :=
  (es.map (·.1)).eraseDups.length == es.length && es.all (fun (t, hs) =>
    c.part.tiles.contains t && (indexed hs).all (fun (d, h) =>
      h.lines == 0 || (match neighbour t d with
        | some u => (wireJoins ws h.link t u).isSome
        | none => false)))

/-- A checkpoint area: 34 KiB in the lead tile's column, aligned to 512 B (R373). -/
def ckptOk (c : Comp) (stack a : Nat) : Bool :=
  let d := devAddr a
  d.stack == stack && d.space == 1 && d.tile == c.part.lead && rangeStatus a 34816 == stOk && a % 512 == 0

def itinLoops (is : List ItinStep) : List (Nat × Nat) :=
  (indexed is).filterMap (fun e => match e.2.body with
    | .loop _ last _ => some (e.1, last)
    | _ => none)

/-- The loops whose bodies hold a step (R378). -/
def bodiesOf (ls : List (Nat × Nat)) (i : Nat) : List (Nat × Nat) := ls.filter (fun l => decide (l.1 < i) && decide (i ≤ l.2))

/-- The target of a step fits its opcode (R372, R373). -/
def targetOk (c : Comp) (st : ItinStep) : Bool :=
  let listed := match st.body with
    | .relay _ => true
    | .halo _ => true
    | _ => false
  match st.tgt with
  | .all => !listed
  | .gang i => !st.body.isControl && st.body != .sync && !listed && decide (i < c.gangs.length)
  | .one t => !st.body.isControl && st.body != .sync && !listed && c.part.tiles.contains t
  | .listed => listed

/-- Every wire that a step names resolves for each tile that names it: in DLINK, or in a SIGNAL of the program it launches, the named
LINK plus the tile's rank (R62, R371, R372). -/
def linksOk (c : Comp) (ws : List Wire) (st : ItinStep) : Bool :=
  let ts := stepTargets c st
  let signals := match st.body with
    | .launch d _ => (c.progs.filter (fun g => g.id == d.prog)).flatMap (fun g => g.instrs.filterMap (fun i => match i with
      | .signal l => some l
      | _ => none))
    | _ => []
  (indexed ts).all (fun (r, t) => (st.dlink.toList ++ signals).all (fun l =>
    ws.any (fun w => w.link == (if ts.length ≤ 1 then l else l + r) && (w.ptile == t || w.cons.any (fun e => e.1 == t)))))

/-- One step of an itinerary of `n` steps. -/
def stepOk (stack n : Nat) (c : Comp) (ws : List Wire) (ls : List (Nat × Nat)) (i : Nat) (st : ItinStep) : Bool :=
  let plain := st.ifmtA == 0 && st.ifmtB == 0 && st.ifmtC == 0
  targetOk c st && linksOk c ws st && (match st.body with
    | .take | .done | .loop _ _ _ | .sync | .wbuf _ _ => plain
    | .branch _ _ target _ => plain && decide (target < n) && bodiesOf ls target == bodiesOf ls i
    | .ckpt a => plain && ckptOk c stack a
    | .oper o => plain && operOk c st o
    | .vec v => vecOk c st v
    | .junct j => junctOk c st j
    | .launch d _ => plain && launchOk c d
    | .relay es => plain && relayOk c ws es
    | .halo es => plain && haloOk c ws es
    | .swing => plain && c.part.discipline == 1)

/-- The itinerary of a partition, on a stack whose wires will be `ws` (R62, R378). -/
def itinOk (stack : Nat) (c : Comp) (ws : List Wire) : Bool :=
  let ls := itinLoops c.itin
  decide (c.part.itinEntry < c.itin.length) && loopsOk c.itin.length ls && (indexed c.itin).all (fun (i, st) => stepOk stack c.itin.length c ws ls i st)

/-- A check of the verify pass: whether it holds, the code it fails with, and the section (R67, R89). -/
abbrev Check := Bool × Nat × Nat

/-- The first check that fails: its code and section. -/
def firstFail (cs : List Check) : Option (Nat × Nat) := (cs.find? (fun c => !c.1)).map (·.2)

/-- The index and the bytes of a partition's section of one type. -/
def sectionAt (ss : List Section) (type p : Nat) : Option (Nat × Section) := (indexed ss).find? (fun e => e.2.type == type && e.2.pnum == p)

def sectionBytes (b : List Byte) (ss : List Section) (type p : Nat) : List Byte :=
  match sectionAt ss type p with
  | some (_, s) => slice b s.offset s.len
  | none => []

/-- The section that a check of a partition names: its own type's, or the PART section where the partition has none of that type (R67;
DESIGN CHOICE, log 82). -/
def sectionIx (ss : List Section) (type p : Nat) : Nat :=
  match sectionAt ss type p, sectionAt ss 1 p with
  | some (i, _), _ => i
  | none, some (i, _) => i
  | none, none => 0xFFFF

/-- A partition's composition out of its sections; what fails to decode is empty. -/
def decodeComp (b : List Byte) (ss : List Section) (p : Nat) : Comp :=
  let bytes (t : Nat) : List Byte := sectionBytes b ss t p
  { part := decodePart (bytes 1), gangs := (records 8 (bytes 2)).map decodeGang, roads := (records 8 (bytes 3)).map decodeRoad,
    links := (records 8 (bytes 4)).map decodeLinkRes, progs := (decodeProgs (bytes 5).length (bytes 5)).getD [],
    funcs := (decodeFuncs (bytes 6)).getD [], wires := (decodeWires (bytes 7).length (bytes 7)).getD [],
    itin := (decodeItin (bytes 8)).getD [] }

/-- The partitions that an image binds, in the order of their PART sections. -/
def bindsOf (b : List Byte) (ss : List Section) : List Comp :=
  (ss.filter (fun s => s.type == 1)).map (fun s => decodeComp b ss s.pnum)

/-- The REBIND records of a delta: PNUM and MODE (R73). -/
def rebindsOf (b : List Byte) (ss : List Section) : List (Nat × Nat) :=
  (records 4 (sectionBytes b ss 9 0xFF)).map (fun r => (byteAt r 0, byteAt r 1))

/-- The content of one section within its own type's limits (R46 to R62, R73, R578). -/
def contentChecks (b : List Byte) (i : Nat) (s : Section) : List Check :=
  let bytes := slice b s.offset s.len
  match s.type with
  | 1 =>
    let r := decodePart bytes
    [(partOk bytes s.pnum, 0x0D, i), (r.discipline == boolNat (decide (16 < r.ntiles)), 0x0E, i)]
  | 2 => [(bytes.length % 8 == 0 && (records 8 bytes).all gangOk, 0x10, i)]
  | 3 => [(bytes.length % 8 == 0 && decide (bytes.length ≤ 2048) && (records 8 bytes).all (fun r => zeroAt r 6 2), 0x12, i)]
  | 4 => [(bytes.length % 8 == 0 && (records 8 bytes).all (fun r => decide (1 ≤ byteAt r 2) && decide (byteAt r 2 ≤ 64) && zeroAt r 3 5), 0x13, i)]
  | 5 =>
    let ok := match decodeProgs bytes.length bytes with
      | some ps => (ps.map (·.id)).eraseDups.length == ps.length
      | none => false
    [(ok, 0x16, i)]
  | 6 => [((decodeFuncs bytes).isSome, 0x17, i)]
  | 7 => [((decodeWires bytes.length bytes).isSome, 0x18, i)]
  | 8 => [((decodeItin bytes).isSome, 0x1B, i)]
  | _ => [(bytes.length % 4 == 0 && (records 4 bytes).all rebindOk, 0x03, i)]

/-- The form of the image (R39 to R45, R578). A wrong number of sections of a type, or of REBIND sections, lies in no one section and
reports 0xFFFF (DESIGN CHOICE, log 82). -/
def formChecks (b : List Byte) (length : Nat) : List Check :=
  let h := decodeHeader b
  let ss := sectionsOf b
  let n := List.range h.count
  [(headerOk b && h.length == length, 0x02, 0xFFFF)] ++ n.map (fun i => (entryOk b ss i, 0x02, i))
    ++ n.map (fun i => (entryType b h ss i, 0x03, i)) ++ [(countsOk h ss, 0x03, 0xFFFF)]

/-- A SET key slot with purpose IMG whose KEYID is given (R64, R506). -/
def Fuses.imageKey (f : Fuses) (keyid : List Byte) : Option KeySlot :=
  [f.slot0, f.slot1, f.slot2, f.slot3].find? (fun k => k.state == .set && bitOf k.purposes 0 && sha384 k.key == keyid)

/-- The signed region of an image: header and section table (R63). -/
def signedRegion (b : List Byte) : List Byte := b.take (0x80 + 64 * (decodeHeader b).count)

/-- Key, signature, hashes, rollback, target and base (R63, R64, R74). -/
def trustChecks (s : State) (b : List Byte) : List Check :=
  let h := decodeHeader b
  let sig := slice b h.sigOff 160
  let key := s.fuse.imageKey (slice sig 0 48)
  let good := match key with
    | some k => ecdsaVerify k.key (sha384 (signedRegion b)) (slice sig 48 48) (slice sig 96 48)
    | none => false
  [(key.isSome, 0x06, 0xFFFF), (good, 0x05, 0xFFFF)]
    ++ (indexed (sectionsOf b)).map (fun e => (sha384 (slice b e.2.offset e.2.len) == e.2.hash, 0x04, e.1))
    ++ [(decide (s.led.counter0 ≤ h.rollback), 0x07, 0xFFFF), (h.rev == 0x00B1 && bitOf h.stackMask s.stackId, 0x08, 0xFFFF),
        (h.kind == 0 || h.baseId == s.load.compId.toNat, 0x09, 0xFFFF)]

/-- Each new composition with those that stand before it: the survivors and the earlier ones of the image. -/
def withBefore (surv binds : List Comp) : List (Comp × List Comp) := (indexed binds).map (fun e => (e.2, surv ++ binds.take e.1))

/-- No element stands twice. -/
def distinct {α : Type} [DecidableEq α] (l : List α) : Bool := l.eraseDups.length == l.length

/-- The (tile, side) pairs that gangs cover, and those of one composition (R53). -/
def Comp.covered (c : Comp) : List (Nat × Nat) :=
  c.gangs.flatMap (fun g => ([0, 1].filter (bitOf g.sides)).flatMap (fun x => g.tiles.map (fun t => (t, x))))

/-- No gang column's union of detours holds more than two columns (R214). -/
def gangColumnsOk (s : State) (g : Gang) : Bool :=
  ([Side.a, Side.b].filter (fun x => bitOf g.sides (sideNat x))).all (fun x => (List.range g.w).all (fun i =>
    decide (((List.range g.h).flatMap (fun j => ((s.tile (tileAt (g.x0 + i) (g.y0 + j))).arr x).detours)).eraseDups.length ≤ 2)))

/-- Router outputs of a road reservation; 4 is the output into DST's road port (R54). -/
def roadOutputs (r : RoadRes) : List (Nat × Nat) := pathLinks (pathOf r.src r.dst) ++ [(r.dst, 4)]

/-- Two reservations share a slot of a router output (R55). -/
def roadsMeet (a b : RoadRes) : Bool := (a.slots &&& b.slots) != 0 && (roadOutputs a).any (roadOutputs b).contains

/-- Shares declared on a module (R56). -/
def Comp.shareOn (c : Comp) (m : Nat) : Nat := ((c.links.filter (fun l => bitOf l.modules m)).map (·.share)).sum

/-- A range of `n` bytes lies wholly in usable columns of some tiles of this stack (R47, R52). -/
def State.rangeIn (s : State) (ts : List Nat) (a n : Nat) : Bool :=
  let lo := bits a 0 34
  let last := (lo + n - 1) / colSize
  bits a 58 6 == s.stackId && bits a 56 2 == 1 && bits a 34 22 == 0 && decide (last < 512)
    && (List.range (last + 1 - lo / colSize)).all (fun i =>
      let t := lo / colSize + i
      ts.contains t && (s.tile t).usable && !s.fab.lostColumns.contains t)

/-- The (tile, semaphore) pairs of a composition's wires on this stack, each once for a wire that names it twice: R61 forbids a pair in
two wires. -/
def Comp.semPairs (c : Comp) : List (Nat × Nat) :=
  c.wires.flatMap (fun w => ((if farTile w.ptile then [] else [(w.ptile, w.psem)]) ++ w.cons.filter (fun e => !farTile e.1)).eraseDups)

/-- The (tile, LINK) pairs of a composition's wires on this stack (R61). -/
def Comp.linkPairs (c : Comp) : List (Nat × Nat) :=
  c.wires.flatMap (fun w => ((w.ptile :: w.cons.map (·.1)).filter (fun t => !farTile t)).eraseDups.map (fun t => (t, w.link)))

/-- One wire within its rules; `ts` are the tiles of the partitions that will be bound (R60, R61, R415). -/
def wireOk (stack : Nat) (c : Comp) (ts : List Nat) (w : Wire) : Bool :=
  let other (t : Nat) : Bool := bits t 9 6 != stack
  (if farTile w.ptile then other w.ptile && w.init == 0 && w.cons.length == 1 && w.cons.all (fun e => c.part.tiles.contains e.1)
   else c.part.tiles.contains w.ptile && decide (1 ≤ w.init) && decide (w.psem < 64))
    && w.cons.all (fun e => if farTile e.1 then other e.1 else ts.contains e.1)

/-- A local consumer of a wire lies among some tiles. -/
def Wire.into (w : Wire) (ts : List Nat) : Bool := w.cons.any (fun e => !farTile e.1 && ts.contains e.1)

/-- Some tile has no path from the router of a listed module, over which the loader reaches it (R82, R487). -/
def State.loaderCut (s : State) (ts : List Nat) : Bool :=
  let rs := s.listedModules.flatMap moduleTiles
  ts.any (fun t => rs.all (fun u => s.fab.pathDead u t))

/-- The partitions that a delta leaves as they are; a full image leaves none (R71, R73). -/
def State.survivors (s : State) (full : Bool) (named : List Nat) : List Nat :=
  if full then [] else s.boundParts.filter (fun p => (s.part p).state != .killing && !named.contains p)

/-- A bound partition as it stands now: its composition with the tiles that it has not lost and the wires in force (R76, R77, R390). -/
def Part.liveComp (p : Part) : Option Comp := p.comp.map (fun c => { c with part := { c.part with tiles := p.tiles }, wires := p.wires })

def State.compsOf (s : State) (ps : List Nat) : List Comp := ps.filterMap (fun p => (s.part p).liveComp)

/-- The stack as it will stand (R47 to R56, R61, R62, R75 to R77, R487), in the order of R89. A wire that a delta breaks and that none of
its own sections holds is reported at the REBIND section (DESIGN CHOICE, log 82). -/
def stackChecks (s : State) (b : List Byte) : List Check :=
  let h := decodeHeader b
  let ss := sectionsOf b
  let full := h.kind == 0
  let binds := bindsOf b ss
  let named := (rebindsOf b ss).map (·.1)
  let ps := s.survivors full named
  let surv := s.compsOf ps
  let both := withBefore surv binds
  let after := surv ++ binds
  let at' (t : Nat) (c : Comp) : Nat := sectionIx ss t c.part.pnum
  let reb := match sectionAt ss 9 0xFF with
    | some (i, _) => i
    | none => 0xFFFF
  let held (t : Nat) : Bool := match s.partOf t with
    | some q => !full && !named.contains q && (s.part q).tiles.contains t
    | none => false
  let allTiles := after.flatMap (·.part.tiles)
  let survTiles := ps.flatMap (fun p => (s.part p).tiles)
  let moved := (named.flatMap (fun p => (s.part p).tiles ++ (s.part p).lost)) ++ binds.flatMap (·.part.tiles)
  let ws := after.flatMap (·.wires)
  let class0 := after.filter (fun c => c.part.cls == 0)
  both.map (fun (c, pre) => (!c.part.tiles.any (fun t => held t || pre.any (fun d => d.part.tiles.contains t)), 0x0A, at' 1 c))
    ++ binds.map (fun c => (c.part.tiles.all (fun t => (s.tile t).good), 0x0B, at' 1 c))
    ++ binds.map (fun c => (full || !(s.part c.part.pnum).isBound || named.contains c.part.pnum, 0x0C, at' 1 c))
    ++ both.map (fun (c, pre) => (c.part.cls != 0 ||
        decide ((((pre ++ [c]).filter (fun d => d.part.cls == 0)).map (fun d => d.part.tiles.length)).sum ≤ 128), 0x0F, at' 1 c))
    ++ both.map (fun (c, pre) => (c.gangs.all (fun g => g.tiles.all c.part.tiles.contains && gangColumnsOk s g)
        && distinct c.covered && !c.covered.any (fun e => pre.any (fun d => d.covered.contains e)), 0x10, at' 2 c))
    ++ both.map (fun (c, pre) => ((indexed c.roads).all (fun (i, r) =>
        !(pre.flatMap (·.roads) ++ c.roads.take i).any (roadsMeet r)), 0x11, at' 3 c))
    ++ binds.map (fun c => ((sectionAt ss 3 c.part.pnum).isNone || (c.part.cls == 0 && c.roads.all (fun r =>
        c.part.tiles.contains r.src && c.part.tiles.contains r.dst)), 0x12, at' 3 c))
    ++ both.map (fun (c, pre) => ((List.range 16).all (fun m =>
        c.shareOn m == 0 || decide (((pre ++ [c]).map (·.shareOn m)).sum ≤ 48)), 0x13, at' 4 c))
    ++ both.map (fun (c, pre) => (decide (((pre ++ [c]).map (·.part.floorShare)).sum ≤ 1024), 0x14, at' 1 c))
    ++ binds.map (fun c =>
        let r := c.part
        (s.rangeIn r.tiles r.reqRing (128 * 2 ^ r.ringLog2) && s.rangeIn r.tiles r.cplRing (384 * 2 ^ r.ringLog2)
          && (r.spillBase == 0 || s.rangeIn r.tiles r.spillBase r.spillSize), 0x15, at' 1 c))
    ++ both.map (fun (c, pre) => (c.wires.all (wireOk s.stackId c allTiles) && distinct (c.wires.map (·.link)) && distinct c.semPairs
        && distinct c.linkPairs && !c.semPairs.any (fun e => pre.any (fun d => d.semPairs.contains e))
        && !c.linkPairs.any (fun e => pre.any (fun d => d.linkPairs.contains e)), 0x18, at' 7 c))
    ++ binds.map (fun c => (c.part.cls != 0 || c.wires.all (fun w => farTile w.ptile || decide (w.cons.length ≤ 1) ||
        w.cons.all (fun e => farTile e.1 || class0.any (fun d => d.part.tiles.contains e.1))), 0x19, at' 7 c))
    ++ [(!(surv.flatMap (·.wires)).any (fun w => w.into moved), 0x1A, reb),
        (!(s.compsOf named).any (fun c => c.wires.any (fun w => w.into survTiles)), 0x1A, reb)]
    ++ binds.map (fun c => (!c.wires.any (fun w => w.into survTiles), 0x1A, at' 7 c))
    ++ binds.map (fun c => (itinOk s.stackId c ws, 0x1B, at' 8 c))
    ++ binds.map (fun c => (!s.cutOff c.part.tiles && !s.loaderCut c.part.tiles, 0x1F, at' 1 c))

/-- The verify pass: the first check that fails, with its section (R67). The checks of the form come first, then trust, then the
sections' content, then the stack (DESIGN CHOICE, log 37). -/
def verifyImage (s : State) (b : List Byte) (length : Nat) : Option (Nat × Nat) :=
  match firstFail (formChecks b length) with
  | some e => some e
  | none => match firstFail (trustChecks s b) with
    | some e => some e
    | none => match firstFail ((indexed (sectionsOf b)).flatMap (fun e => contentChecks b e.1 e.2)) with
      | some e => some e
      | none => firstFail (stackChecks s b)

end Sys2Proof.Machine
end

