-- ==== Sys2Proof/Machine/Load.lean ====
section
/-! DEFINITION. Loading a composition image: the LOAD write with its verify pass (R66, R67, R70, R72, R533 to R535), the apply pass (R65,
R71, R73, R78), the sweep and its verification (R518 to R523), the second pass (R68, R69, R407) and the start of a partition (R78,
R84). -/
namespace Sys2Proof.Machine

/-- A load ends FAILED before its apply pass (R67). -/
def State.failLoad (s : State) (code sectionIx : Nat) : State :=
  { s with load := { s.load with state := 4, code := code, sectionIx := sectionIx, cur := none } }.loadMessage

/-- The load that an image begins. -/
def newLoad (s : State) (handle : Nat) (cached : Bool) (b : List Byte) : Load :=
  let h := decodeHeader b
  let ss := sectionsOf b
  { handle := handle, length := b.length, cached := cached, delta := h.kind == 1, imageId := h.imageId, rollback := h.rollback,
    cacheFlag := bitOf h.flags 0, image := b, headDigest := sha384 (signedRegion b), sections := ss, comps := bindsOf b ss,
    named := if h.kind == 1 then rebindsOf b ss else s.boundParts.map (fun p => (p, 0)), todo := [], reads := [], received := [],
    applied := false, failCode := 0, failSection := 0 }

/-- An accepted LOAD: the status is cleared, and the verify pass runs on the image, if there is one (R66, R67, R535, R536). A first pass
that goes unanswered and a cached image that is missing fail in no section and report 0xFFFF (DESIGN CHOICE, log 82). -/
def State.beginLoad (s : State) (handle length : Nat) (cached : Bool) (image : Option (List Byte)) (missing : Nat) : State :=
  let s := { s with load := { s.load with state := 1, code := 0, sectionIx := 0, lastReject := 0, stretch := 0, failmap := 0 } }
  match image with
  | none => s.failLoad missing 0xFFFF
  | some b =>
    match verifyImage s b length with
    | some (code, ix) => s.failLoad code ix
    | none => { s with load := { s.load with cur := some (newLoad s handle cached b) } }

/-- A LOAD write: ignored with BUSY during VERIFY and APPLY, ended with NOT_READY before the capability report or under the lockout,
otherwise accepted (R70, R425, R535). -/
def State.loadWrite (s : State) (go : State → State) : State :=
  if !s.stewardRuns then s
  else if s.load.state == 1 || s.load.state == 2 then { s with load := { s.load with lastReject := 1 } }
  else if s.boot.state != .ready || s.boot.orderFault then { s with load := { s.load with state := 4, code := 0x1E } }.loadMessage
  else go s

/-- IMAGE_LOAD: the first pass reads `served`, or goes unanswered (R66 to R70, R533). -/
def execImageLoad (served : Option (List Byte)) (s : State) : Host.Outcome State Fault Refusal :=
  .next (s.loadWrite (fun s => s.beginLoad (bits s.load.imgSrc.toNat 32 32) (bits s.load.imgSrc.toNat 0 27) false served 0x1D))

/-- CACHED_IMAGE_LOAD: the whole of GL_IMG_SRC names the image; it passes every check of the verify pass (R72, R533, R534). -/
def execCachedImageLoad (s : State) : Host.Outcome State Fault Refusal :=
  .next (s.loadWrite (fun s =>
    match s.led.cache.find? (fun c => c.imageId == s.load.imgSrc.toNat) with
    | some c => s.beginLoad 0 c.bytes.length true (some c.bytes) 0x21
    | none => s.beginLoad 0 0 true none 0x21))

/-- The oldest cached images whose removal makes room for `n` more bytes in the 16 MiB cache (R467). -/
def cacheEvict : List CachedImage → Nat → List CachedImage
  | [], _ => []
  | c :: cs, n => if ((c :: cs).map (·.bytes.length)).sum + n ≤ 0x1000000 then [] else c :: cacheEvict cs n

/-- The committed image joins the image cache (R72). -/
def State.cacheImage (s : State) (l : Load) : State :=
  if !l.cacheFlag || l.cached || decide (0x1000000 < l.length) then s
  else
    let others := s.led.cache.filter (fun c => c.imageId != l.imageId)
    let gone := cacheEvict others l.length
    let led := gone.foldl (fun (d : Ledger) c => d.append (.evict c.imageId)) s.led
    { s with led := { led.append (.image l.imageId l.image) with cache := others.drop gone.length ++ [⟨l.imageId, l.image⟩] } }

/-- The load ends once every partition it concerns has started or stays unbound: GL_COMP_ID takes the IMAGE_ID, and the state reads DONE
or FAILED (R69, R71, R74, R517). -/
def State.finishLoad (s : State) : State :=
  match s.load.cur with
  | none => s
  | some l =>
    if !l.applied || s.load.rebinds.any (·.ofLoad) then s
    else
      let ok := l.failCode == 0
      let s := { (s.cacheImage l) with
        load := { s.load with
          cur := none, compId := BitVec.ofNat 64 l.imageId, state := if ok then 3 else 4, code := l.failCode,
          sectionIx := if ok then 0 else l.failSection, chain := sha384 (s.load.chain ++ l.headDigest) },
        se := { s.se with loadedSince := true } }
      s.loadMessage

/-- A partition number whose partition is being bound; ring positions read as before until it is bound (R80, R539). -/
def Part.binding (r : Part) : Part := { Part.init with state := .starting, reqHead := r.reqHead, cplTail := r.cplTail }

/-- The first step of one partition's re-binding: under QUIESCE it takes no new work item, otherwise it is killed; an unbound number
waits for its tiles to wake (R73, R78). -/
def State.beginRebind (s : State) (mode : Nat → Nat) (e : Rebind) : State :=
  let r := s.part e.pnum
  if !r.isBound then
    { s.updPart e.pnum Part.binding with load := { s.load with
      rebinds := s.load.rebinds.map (fun x => if x.pnum == e.pnum then { x with phase := .kill } else x) } }
  else if mode e.pnum == 1 then
    s.updPart e.pnum (fun r => { r with state := if r.state == .running then .quiesce else r.state })
  else s.killPartition e.pnum none true false

/-- A tile that is to be newly bound wakes (R78, R428). -/
def Tile.wake (x : Tile) : Tile := if x.powered || x.fenced || !x.good then x else { x with waking := true }

/-- APPLY_PASS: a rollback record is appended first; then each partition concerned begins its re-binding. It waits for sweeps that are
still going on, and for the ledger (R65, R71, R73, R78; log 38). Of two REBIND records with one PNUM the first gives the MODE, and a
record of an unbound partition changes nothing (DESIGN CHOICE, log 83). -/
def execApplyPass (s : State) : Host.Outcome State Fault Refusal :=
  match s.load.cur with
  | none => .next s
  | some l =>
    let raise := decide (s.led.counter0 < l.rollback)
    if l.applied || s.load.state != 1 || !s.load.rebinds.isEmpty || !s.stewardRuns || (raise && (s.led.dead || decide (ledgerFull ≤ s.led.pos))) then
      .next s
    else
      let s := if raise then { s with led := { s.led.append (.counter 0 l.rollback) with counter0 := l.rollback } } else s
      let old := (l.named.map (·.1)).filter (fun p => (s.part p).isBound)
      let new := l.comps.map (·.part.pnum)
      let compOf (p : Nat) : Option Comp := l.comps.find? (fun c => c.part.pnum == p)
      let entry (p : Nat) : Rebind :=
        { pnum := p, phase := .quiesce, comp := compOf p, tiles := (compOf p).elim [] (·.part.tiles), ofLoad := true, all := false }
      let es := (old ++ new.filter (fun p => !old.contains p)).eraseDups.map entry
      let mode (p : Nat) : Nat := ((l.named.find? (fun n => n.1 == p)).map (·.2)).getD 0
      let s := { s with load := { s.load with state := 2, cur := some { l with applied := true }, rebinds := es } }
      let s := es.foldl (fun s e => s.beginRebind mode e) s
      let s := (l.comps.flatMap (·.part.tiles)).foldl (fun s t => s.updTile t Tile.wake) s
      .next (s.rePll.finishLoad)

/-- QUIESCE_END: the last work item has completed or LIMIT has run out; the partition is drained as under KILL (R73). -/
def execQuiesceEnd (p : Nat) (s : State) : Host.Outcome State Fault Refusal :=
  if s.quiescing p && s.stewardRuns then .next (s.killPartition p none true false) else .next s

/-- A swept array: taps, lanes and front buffer are gone, its form, power and detours stay (R519, R545). -/
def Arr.swept (a : Arr) : Arr :=
  { Arr.init with
    form := a.form, suspect := !a.requal.isEmpty, requal := a.requal, ramp := a.ramp, ramping := a.ramping, waiting := a.waiting,
    gated := a.gated, opening := a.opening, detours := a.detours }

/-- A swept tile: what R519 lists is reset, error counters stay (R520, R529). -/
def Tile.swept (x : Tile) : Tile :=
  { Tile.init with
    good := x.good, usable := x.usable, bound := x.bound, fenced := x.fenced, powered := x.powered, waking := x.waking, a := x.a.swept,
    b := x.b.swept, vgated := x.vgated, vopening := x.vopening, nbr := { Engine.init with stopped := x.nbr.stopped }, spCe := x.spCe, dsCe := x.dsCe,
    dsLast := x.dsLast, hotRefresh := x.hotRefresh, refreshRow := x.refreshRow, failSeq := x.failSeq, failBlock := x.failBlock,
    spCeOpen := x.spCeOpen, dsCeOpen := x.dsCeOpen }

def State.setRebind (s : State) (p : Nat) (g : Rebind → Rebind) : State :=
  { s with load := { s.load with rebinds := s.load.rebinds.map (fun e => if e.pnum == p then g e else e) } }

/-- The re-binding of a partition when it stands at a phase. -/
def State.rebindAt (s : State) (p : Nat) (ph : Phase) : Option Rebind := s.load.rebinds.find? (fun e => e.pnum == p && e.phase == ph)

/-- The slew limit of the accepted site record, in units of 0.01 W per 10 µs (R83, R458). -/
def State.slewLimit (s : State) : Nat := (s.boot.site.map (·.slewLim)).getD 0

/-- Time, in units of 10 µs, by which the quotient of a change in stack power (in units of 0.01 W) and the slew limit exceeds a step's
maximum of `max` units; a part of a unit counts as one (R83; rounding: DESIGN CHOICE, log 84). -/
def State.slewTime (s : State) (change max : Nat) : Nat := ceilDiv change s.slewLimit - max

/-- Time that the slew limit adds to a step of the load is reported in STRETCH (R83, R535). -/
def State.addStretch (s : State) (e : Rebind) (change max : Nat) : State :=
  if e.ofLoad then { s with load := { s.load with stretch := satTo 16 (s.load.stretch + s.slewTime change max) } } else s

/-- SWEEP: once the kill's drain is complete, new tiles are awake and the regions that the composition needs have locked, every tile's
scratchpad, column and volatile state is cleared; `change` is what it does to the stack's power, and 250 µs its maximum time (R26,
R78, R83, R335, R519). -/
def execSweep (p : Nat) (change : Nat) (s : State) : Host.Outcome State Fault Refusal :=
  match s.rebindAt p .kill with
  | none => .next s
  | some e =>
    let ready (t : Nat) : Bool := !(s.tile t).access && !(s.tile t).waking && (s.tile t).atSafePoint
    let locked := ((e.comp.map (Comp.regions s.moduleRegions)).getD []).all s.pow.pllOn.contains
    if !s.stewardRuns || !s.pins.stops.isEmpty || !e.tiles.all ready || !locked then .next s
    else
      let s := e.tiles.foldl (fun s t => (s.updFab (fun f => f.clearTile t)).updTile t Tile.swept) s
      let s := if e.comp.isSome then s.updPart p (fun r => r.binding) else s
      .next ((s.setRebind p (fun e => { e with phase := .swept })).addStretch e change 25)

/-- A tile that stays unbound is power-gated (R75, R428). -/
def Tile.unbind (x : Tile) : Tile :=
  let off (a : Arr) : Arr := { a.gate with opening := false }
  { x with bound := none, access := false, powered := false, waking := false, a := off x.a, b := off x.b, vgated := true, vopening := false }

/-- A partition stays unbound after its sweep; its ring positions keep their values (R75, R80). -/
def State.leaveUnbound (s : State) (e : Rebind) : State :=
  let s := e.tiles.foldl (fun s t => if (s.claimed e.pnum).contains t then s else s.updTile t Tile.unbind) s
  let s := s.updPart e.pnum (fun r => { Part.init with reqHead := r.reqHead, cplTail := r.cplTail })
  { s with load := { s.load with rebinds := s.load.rebinds.filter (fun x => x.pnum != e.pnum) } }.rePll

/-- The load records that it leaves a partition unbound; the first cause is its final code (R69, R522, R536). -/
def State.failPartition (s : State) (p code ix : Nat) : State :=
  { s with load := { s.load with
    failmap := s.load.failmap ||| 2 ^ p,
    cur := s.load.cur.map (fun l => if l.failCode == 0 then { l with failCode := code, failSection := ix } else l) } }

/-- Columns that a partition's rings and spill area lie in (R52). -/
def PartRec.areaColumns (r : PartRec) : List Nat :=
  let cols (a n : Nat) : List Nat := (List.range ((bits a 0 34 + n - 1) / colSize + 1 - bits a 0 34 / colSize)).map (· + bits a 0 34 / colSize)
  cols r.reqRing (128 * 2 ^ r.ringLog2) ++ cols r.cplRing (384 * 2 ^ r.ringLog2) ++ (if r.spillSize == 0 then [] else cols r.spillBase r.spillSize)

/-- The sections of a partition with their indices. -/
def Load.sectionsFor (l : Load) (p : Nat) : List (Nat × Section) := (indexed l.sections).filter (fun e => e.2.pnum == p && e.2.type != 9)

/-- The image reads of a partition's sections, at most 2,048 B each (R66, R400). -/
def Load.readsFor (l : Load) (p : Nat) : List ImageRead :=
  (l.sectionsFor p).flatMap (fun e => (remoteUnits e.2.len).map (fun u => { tag := 0, pnum := p, offset := e.2.offset + u.1, len := u.2 }))

/-- Image reads leave while the management channel has credit (R66, R402). -/
def State.pumpImage : Nat → State → State
  | 0, s => s
  | n + 1, s =>
    match s.load.cur with
    | none => s
    | some l =>
      match l.todo with
      | [] => s
      | r :: rs =>
        let tag := s.link.freshTag
        let (s', sent) := s.emit stewardTile 64 2 1 (some tag) (.imageRead tag l.handle r.offset r.len)
        if !sent then s
        else
          State.pumpImage n { s' with
            link := s'.link.useTag tag .image,
            load := { s'.load with cur := some { l with todo := rs, reads := l.reads ++ [{ r with tag := tag }] } } }

/-- The second pass of a partition begins: a cached image is read from the ledger, any other through image reads (R68, R72). -/
def State.secondPass (s : State) (p : Nat) : State :=
  match s.load.cur with
  | none => s
  | some l =>
    if l.cached then
      let got := (l.readsFor p).map (fun r => (r.offset, slice l.image r.offset r.len))
      { s with load := { s.load with cur := some { l with received := l.received ++ got } } }
    else
      State.pumpImage 65536 { s with load := { s.load with cur := some { l with todo := l.todo ++ l.readsFor p } } }

/-- A scratchpad that fails verification is a permanent core failure of its tile (R480, R522). -/
def State.failPad (s : State) (t : Nat) : State :=
  (s.recordFault (.faultTile t)).updTile t (fun x => { x.unbind with good := false, fenced := false, bound := x.bound })

/-- SWEEP_VERIFICATION: failing tiles and columns are recorded, SE_SWEEP reports, and a partition with nothing more to bind is unbound
(R521 to R523). -/
def execSweepVerification (p : Nat) (found : SweepFindings) (s : State) : Host.Outcome State Fault Refusal :=
  match s.rebindAt p .swept with
  | none => .next s
  | some e =>
    if !s.stewardRuns then .next s
    else
      let pads := found.spFail.filter e.tiles.contains
      let cols := found.colFail.filter e.tiles.contains
      let s := pads.foldl State.failPad s
      let s := (cols ++ found.lostMats.filter e.tiles.contains).foldl State.unusable s
      let n := pads.length + cols.length
      let s := { s with se := { s.se with
        sweepPnum := p, sweepResult := if n == 0 then 1 else 2, sweepFailed := n % 1024, sweepAll := e.all, sweepSeq := s.pow.seq } }
      match e.comp with
      | none => .next ((s.leaveUnbound e).finishLoad)
      | some c =>
        if c.part.areaColumns.any cols.contains then
          let ix := match s.load.cur with
            | some l => sectionIx l.sections 1 p
            | none => 0xFFFF
          .next (((s.failPartition p 0x20 ix).leaveUnbound e).finishLoad)
        else
          let left := e.tiles.filter (fun t => !c.part.tiles.contains t && !(s.claimed p).contains t)
          let s := left.foldl (fun s t => s.updTile t Tile.unbind) s
          .next ((s.setRebind p (fun e => { e with phase := .verified })).secondPass p)

/-- IMAGE_DATA: a message answers the image read of its TAG, handle and offset, or is counted in VL_DROP.LATE (R407). -/
def execImageData (tag handle offset : Nat) (data : List Byte) (s : State) : Host.Outcome State Fault Refusal :=
  let late : State := { s with link := { s.link with dropLate := satTo 16 (s.link.dropLate + 1) } }
  if !s.stewardRuns then .next s
  else match s.load.cur with
    | none => .next late
    | some l =>
      match l.reads.find? (fun r => r.tag == tag && r.offset == offset) with
      | none => .next late
      | some r =>
        if handle != l.handle then .next late
        else
          let l := { l with reads := l.reads.erase r, received := l.received ++ [(offset, data.take r.len)] }
          let s := { s with
            link := { s.link with tags := s.link.tags.filter (fun t => !(t.1 == tag && t.2 == .image)) },
            load := { s.load with cur := some l } }
          .next (State.pumpImage 65536 s)

/-- A partition's sections fail the second check or go unanswered: it stays unbound and is swept (R69). -/
def State.abandon (s : State) (p code ix : Nat) : State :=
  let s : State := s.failPartition p code ix
  let mine : List Nat := match s.load.cur with
    | some l => (l.reads.filter (fun r => r.pnum == p)).map (·.tag)
    | none => []
  let s : State := { s with
    link := { s.link with tags := s.link.tags.filter (fun t => !(mine.contains t.1 && t.2 == TagUse.image)) },
    load := { s.load with cur := s.load.cur.map (fun l =>
      { l with todo := l.todo.filter (fun r => r.pnum != p), reads := l.reads.filter (fun r => r.pnum != p) }) } }
  (s.updPart p (fun r => { r with state := .killing })).setRebind p (fun e => { e with comp := none, phase := .kill })

/-- IMAGE_READ_TIMEOUT: the reads of a partition's sections went unanswered for 10 ms (R69, R407). -/
def execImageReadTimeout (p : Nat) (s : State) : Host.Outcome State Fault Refusal :=
  match s.rebindAt p .verified, s.load.cur with
  | some _, some l =>
    match (l.reads ++ l.todo).find? (fun r => r.pnum == p) with
    | none => .next s
    | some r =>
      let ix := ((l.sectionsFor p).find? (fun e => decide (e.2.offset ≤ r.offset) && decide (r.offset < e.2.offset + e.2.len))).map (·.1)
      if s.stewardRuns then .next (s.abandon p 0x1D (ix.getD 0xFFFF)) else .next s
  | _, _ => .next s

/-- The bytes of a section as the second pass received them. -/
def Load.receivedBytes (l : Load) (e : Section) : List Byte :=
  (remoteUnits e.len).flatMap (fun u => ((l.received.find? (fun r => r.1 == e.offset + u.1)).map (·.2)).getD [])

/-- SECTION_LOAD: each section is checked against its HASH and written into the partition's tiles (R68, R69, R78). -/
def execSectionLoad (p : Nat) (s : State) : Host.Outcome State Fault Refusal :=
  match s.rebindAt p .verified, s.load.cur with
  | some _, some l =>
    if (l.reads ++ l.todo).any (fun r => r.pnum == p) || !s.stewardRuns then .next s
    else match (l.sectionsFor p).find? (fun e => sha384 (l.receivedBytes e.2) != e.2.hash) with
      | some (ix, _) => .next (s.abandon p 0x1C ix)
      | none => .next (s.setRebind p (fun e => { e with phase := .loaded }))
  | _, _ => .next s

/-- No unit of a tile is power-gated: a class-0 tile is kept at least clock-gated while it is bound (R50, R393). -/
def Tile.warm (x : Tile) : Tile :=
  { x with a := { x.a with gated := false, opening := false }, b := { x.b with gated := false, opening := false }, vgated := false, vopening := false }

/-- A tile of a partition of class `cls` that starts: bound, reached, its sequencer at ITIN_ENTRY (R50, R367). -/
def Tile.started (x : Tile) (p cls entry : Nat) : Tile :=
  { (if cls == 0 then x.warm else x) with bound := some p, access := true, seq := { Seq.init with running := true, pc := entry } }

/-- The register block and the wires of a partition that starts with the tiles that are still good (R84, R529). -/
def startedPart (c : Comp) (live lost : List Nat) : Part :=
  { Part.init with
    state := .running, comp := some c, lead := if live.contains c.part.lead then c.part.lead else (nextAfter live c.part.lead).getD c.part.lead,
    tiles := live, lost := lost, point := { ReplayPoint.init with step := c.part.itinEntry } }

/-- A tile lost between the verify pass and the start counts as one lost while running: its gang sides are impaired, and the host is
told (R84, R216, R480). -/
def State.lostAtStart (s : State) (p t : Nat) : State := ((s.impair p t .a).impair p t .b).recovered t p

/-- PARTITION_START: once no tile is under re-test or re-qualification or still waking, semaphores are set and every sequencer starts;
tiles lost since the verify pass are left out, and every partition's wires to them move. `change` is what the start does to the
stack's power, and 10 µs its maximum time (R60, R78, R83, R84, R529). -/
def execPartitionStart (p : Nat) (change : Nat) (s : State) : Host.Outcome State Fault Refusal :=
  match s.rebindAt p .loaded with
  | none => .next s
  | some e =>
    match e.comp with
    | none => .next s
    | some c =>
      let live := c.part.tiles.filter (fun t => (s.tile t).good)
      let lost := c.part.tiles.filter (fun t => !(s.tile t).good)
      let ready (t : Nat) : Bool :=
        !(s.tile t).fenced && !(s.tile t).waking && (s.tile t).powered && (s.tile t).a.requal.isEmpty && (s.tile t).b.requal.isEmpty
      if !live.all ready || !s.stewardRuns || !s.pins.stops.isEmpty then .next s
      else if live.isEmpty then
        let s := (s.health evPartitionLost p).raiseFault 4
        .next ((s.updPart p (fun r => { r with state := .killing })).setRebind p (fun e => { e with comp := none, phase := .kill }))
      else
        let s := (s.setPart p (startedPart c live lost)).addStretch e change 1
        let s := live.foldl (fun s t => s.updTile t (fun x => x.started p c.part.cls c.part.itinEntry)) s
        let s := lost.foldl (fun s t => s.updTile t (fun x => { x with bound := some p })) s
        let s := s.updPart p (fun r => { r with redirects := r.gapRedirects })
        let s := s.updPart p (fun r => { r with wires := s.liveWires p })
        let s := if lost.isEmpty then s else s.boundParts.foldl (fun s q => s.updPart q (fun r => { r with wires := s.liveWires q })) s
        let s := s.loadWires (s.part p).wires
        let s := lost.foldl (fun s t => s.lostAtStart p t) s
        let s := { s with load := { s.load with rebinds := s.load.rebinds.filter (fun x => x.pnum != p) } }
        .next (s.rePll.finishLoad)

end Sys2Proof.Machine
end

