-- ==== Sys2Proof/Machine/Flags.lean ====
section
/-! DEFINITION. What control space reads: the word of every register (R526 to R555). No register has a side effect on read (R528);
write-only and reserved fields read zero (R10). -/
namespace Sys2Proof.Machine

/-- Values at bit positions, added up; each is cut to its width. -/
def packFields (fs : List (Nat × Nat × Nat)) : Nat := (fs.map (fun f => f.2.2 % 2 ^ f.2.1 * 2 ^ f.1)).sum

/-- A flag as a field: position, width and value. -/
def flagField (pos : Nat) (b : Bool) : Nat × Nat × Nat := (pos, 1, boolNat b)

/-- Bits set at the listed places. -/
def maskOf (n : Nat) (f : Nat → Bool) : Nat := ((List.range n).map (fun i => boolNat (f i) * 2 ^ i)).sum

/-- Bytes `8n` to `8n + 7`, little-endian. -/
def wordOf (bs : List Byte) (n : Nat) : Nat := fieldAt bs (8 * n) 8

def BootState.code : BootState → Nat
  | .reset => 0
  | .rom => 1
  | .selftest => 2
  | .waitSite => 3
  | .ledger => 4
  | .train => 5
  | .test => 6
  | .ready => 7
  | .stopped => 8

def PState.code : PState → Nat
  | .unbound => 0
  | .starting => 1
  | .running => 2
  | .quiesce => 3
  | .held => 4
  | .recovering => 5
  | .killing => 6

def QState.code : QState → Nat
  | .idle => 0
  | .run => 1
  | .last => 2
  | .halt => 3
  | .stop => 4
  | .error => 5

def SlotState.code : SlotState → Nat
  | .empty => 0
  | .set => 1
  | .revoked => 2

/-- GL_ID (R532). -/
def idWord (s : State) : Nat :=
  packFields ((0, 16, 0x00B1) :: match s.boot.site with
    | some r => [(16, 6, r.stackId), (22, 1, 1), (32, 16, r.package), (48, 2, r.slot)]
    | none => [])

/-- GL_BOOT_STATE (R456). -/
def Boot.word (b : Boot) : Nat :=
  packFields [(0, 4, b.state.code), (4, 4, b.stop), (8, 4, b.siteErr), (12, 1, b.fwSlot), flagField 13 b.fresh, flagField 14 b.torn,
    (16, 8, b.vcoreMin)]

/-- GL_DOORBELL_DROP (R536). -/
def Loader.dropWord (l : Loader) : Nat := packFields [(0, 32, l.dbDrop), (32, 6, l.dbPnum)]

/-- GL_CAP: the published report, zero before it is published (R537). -/
def Boot.capWord (b : Boot) (n : Nat) : Nat := if b.state == .ready then wordOf b.report n else 0

/-- Global block (R531). -/
def globalRead (s : State) (off : Nat) : Option Nat :=
  if off == 0x0000 then some (idWord s)
  else if off == 0x0008 then some s.boot.word
  else if off == 0x0010 || off == 0x0018 || off == 0x0308 then some 0
  else if decide (0x0100 ≤ off) && decide (off ≤ 0x0248) then some (wordOf s.boot.window ((off - 0x0100) / 8))
  else if off == 0x0300 then some s.load.imgSrc.toNat
  else if off == 0x0310 then some s.load.word
  else if off == 0x0318 then some s.load.failmap
  else if off == 0x0320 then some s.load.compId.toNat
  else if off == 0x0328 then some s.load.dropWord
  else if decide (0x1000 ≤ off) && decide (off ≤ 0x18B8) then some (s.boot.capWord ((off - 0x1000) / 8))
  else none

/-- PT_STATE (R539). -/
def ptStateWord (s : State) (p : Nat) : Nat :=
  let r := s.part p
  let disc := r.comp.elim 0 (·.part.discipline)
  packFields [(0, 3, r.state.code), (3, 2, r.cls), (5, 1, disc), flagField 6 r.exactInt, (7, 9, r.lead), (16, 10, r.tiles.length),
    flagField 26 r.inWork, flagField 27 (r.tiles.any (fun t => (s.tile t).inSkip)), (28, 16, r.replays)]

/-- PT_RING_POS (R80, R383). -/
def Part.ringPos (r : Part) : Nat := packFields [(0, 32, r.reqHead), (32, 32, r.cplTail)]

/-- PT_FP_FAULT: the oldest fault still pending (R331). -/
def Part.faultWord (r : Part) : Nat :=
  match r.faults with
  | [] => 0
  | f :: fs => packFields [(0, 9, f.tile), (9, 3, f.queue), (12, 2, f.cause), (14, 1, 1), (15, 35, f.page), flagField 63 (!fs.isEmpty)]

/-- A partition block (R538); every field of an unbound partition reads its reset value, except PT_RING_POS (R542). -/
def partRead (s : State) (p off : Nat) : Option Nat :=
  let r := s.part p
  let live (v : Nat) : Option Nat := some (if r.isBound then v else 0)
  if off == 0x0000 then some (ptStateWord s p)
  else if off == 0x0008 then some r.ringPos
  else if off == 0x0010 then live r.cplHead
  else if off == 0x0018 then live (packFields [flagField 0 r.hold, flagField 1 r.holdBusy])
  else if off == 0x0020 then live r.remoteMask
  else if off == 0x0028 then live r.fptBase
  else if off == 0x0030 then live r.fptLen
  else if off == 0x0038 then some 0
  else if off == 0x0040 then live r.faultWord
  else if off == 0x0048 then some 0
  else if off == 0x0050 then live r.workId.toNat
  else if decide (0x0100 ≤ off) && decide (off ≤ 0x0138) then
    live (maskOf 64 (fun b => r.tiles.contains (8 * (off - 0x0100) + b)))
  else none

/-- PWR of TL_STATE (R428, R544): a tile is active while it has work or an enabled array (DEDUCED, log 40). -/
def Tile.pwr (x : Tile) : Nat :=
  if !x.powered then 0
  else if x.a.ramp != 0 || x.b.ramp != 0 || x.seq.inWork || !x.seq.issued.isEmpty then 3
  else if x.a.gated && x.b.gated && x.vgated then 1
  else 2

/-- TL_STATE; GOOD is set at READY (R544). -/
def tlStateWord (s : State) (t : Nat) : Nat :=
  let x := s.tile t
  let p := x.bound.getD 0
  let bound := x.access
  packFields ([(0, 2, x.pwr), flagField 2 (x.good && s.boot.state == .ready), flagField 3 x.usable, flagField 4 bound,
    flagField 5 (bound && (s.part p).lead == t), flagField 6 x.fenced, flagField 7 x.inSkip, (16, 12, x.seq.lastStep)]
    ++ if bound then [(8, 6, p), (14, 2, (s.part p).cls)] else [])

/-- The columns bypassed in an array: its own detours, or the union of its gang column (R214, R545). -/
def State.bypassed (s : State) (t : Nat) (x : Side) (g : Option (Nat × Gang)) : List Nat :=
  let own := ((s.tile t).arr x).detours
  match g with
  | none => own
  | some (_, g) => (g.tiles.filter (fun u => tileX u == tileX t)).foldl (fun l u => ((s.tile u).arr x).detours.foldl insertNew l) own

/-- The `i`-th lowest physical column of a list, counted from 0. -/
def nthColumn (cs : List Nat) (i : Nat) : Option Nat := ((List.range 32).filter cs.contains)[i]?

/-- One half of TL_ARR_STATE (R545). While a ramp runs, RAMP is between 1 and 8, which one depends on time: a free value (log 87). -/
def arrWord (s : State) (t : Nat) (x : Side) : Nat :=
  let y := s.tile t
  let a := y.arr x
  let g := match y.bound with
    | some p => ((s.part p).gangsAt t x).head?
    | none => none
  let cs := s.bypassed t x g
  let d (i pos : Nat) : List (Nat × Nat × Nat) := match nthColumn cs i with
    | some c => [(pos, 1, 1), (pos + 1, 5, c)]
    | none => []
  let ramp := if a.ramping == 0 then a.ramp else 1 + Config.freeNat s.free % 8
  let pwr := if a.gated || !y.powered then 0 else if a.ramp == 0 then 1 else 2
  packFields ([(0, 2, a.form), flagField 2 (!a.requal.isEmpty), flagField 3 a.busy, (4, 4, ramp)] ++ d 0 8 ++ d 1 14
    ++ (match g with
        | some (_, g) => [(20, 1, 1), (21, 3, tileX t - g.x0), (24, 3, tileY t - g.y0)]
        | none => [])
    ++ [flagField 27 a.impaired, (28, 2, pwr), flagField 30 (x == .a && y.vbusy)])

/-- A block on its way has no beat credit: the next tile's engine is not at the step that receives it (R351, R361). -/
def State.beatBlocked (s : State) (t : Nat) (r : RelayRun) : Bool :=
  r.sending && (match neighbour t (r.desc.outDir - 1) with
    | some u => !(s.tile u).nbr.relays.any (fun k => !k.ended && k.inLink == r.outLink)
    | none => false)

/-- TL_NBR_STATE (R361). -/
def State.nbrWord (s : State) (t : Nat) : Nat :=
  let x := s.tile t
  let waits (d : Nat) : Bool := x.waits.any (fun w => w.2 == .nbr d) ||
    x.nbr.relays.any (fun r => r.desc.outDir == d + 1 && (x.waits.any (fun w => w.2 == .nbr (4 + r.outLink)) || s.beatBlocked t r))
  packFields [flagField 0 (x.nbr.relays.any (!·.ended)), flagField 1 x.nbr.halo.isSome, flagField 2 x.nbr.busy, (4, 4, maskOf 4 waits),
    (8, 4, maskOf 4 x.nbr.linkDown.contains), (16, 32, x.nbr.blk)]

/-- TL_STRM_STATE of a queue (R328). -/
def queueWord (s : State) (t q : Nat) : Nat :=
  let x := s.tile t
  let u := x.queue q
  let cls := x.bound.elim 3 (fun p => (s.part p).cls)
  packFields [(0, 3, u.state.code), flagField 3 u.busy, flagField 4 u.shadow.isSome, flagField 5 u.rearm,
    flagField 6 (cls == 0 && u.cur.elim false (·.desc.prio)), (8, 7, u.out.length), (16, 2, u.full), (18, 2, u.free), (24, 8, u.status),
    (32, 10, u.cur.elim 0 (·.desc.prog))]

/-- TL_STRM_POS (R329). -/
def Queue.posWord (u : Queue) : Nat := packFields [(0, 48, u.posSeq), (48, 4, u.posInstr), flagField 52 u.posValid]

/-- TL_STRM_STALL (R347). -/
def Queue.stallWord (u : Queue) : Nat := packFields [(0, 32, u.stall), (32, 6, u.slow), (38, 10, u.slowLink)]

/-- Four 16-bit counts in one word (R359, R546). -/
def fourCounts (f : Nat → Nat) (n : Nat) : Nat := packFields ((List.range 4).map (fun i => (16 * i, 16, f (4 * n + i))))

/-- A tile status block (R543). -/
def tileRead (s : State) (t off : Nat) : Option Nat :=
  let x := s.tile t
  let at' (lo n : Nat) : Option Nat := if decide (lo ≤ off) && decide (off < lo + 8 * n) then some ((off - lo) / 8) else none
  if off == 0x0000 then some (tlStateWord s t)
  else if off == 0x0008 then some (arrWord s t .a + arrWord s t .b * 2 ^ 32)
  else if off == 0x0010 then some (s.nbrWord t)
  else if off == 0x0018 then some (packFields [(0, 32, x.spCe)])
  else if off == 0x0020 then some (maskOf 64 (fun i => (x.sem i).tag))
  else if off == 0x0028 then some x.semOvf
  else if off == 0x0030 then some x.xtag
  else match at' 0x0040 8, at' 0x0080 8, at' 0x00C0 8, at' 0x0100 16, at' 0x0180 16 with
    | some q, _, _, _, _ => some (queueWord s t q)
    | _, some q, _, _, _ => some (x.queue q).posWord
    | _, _, some q, _, _ => some (x.queue q).stallWord
    | _, _, _, some n, _ => some (fourCounts (fun i => (x.sem i).count) n)
    | _, _, _, _, some n => some (fourCounts (fun i => tabGet 0 x.xtake i) n)
    | _, _, _, _, _ => none

/-- PW_SHAPE (R441). -/
def Power.shapeWord (w : Power) : Nat := packFields [(0, 10, w.floor), (16, 9, w.slew), (32, 10, w.cap), flagField 48 w.clamped]

/-- PW_STATE (R442). -/
def Power.stateWord (w : Power) : Nat :=
  packFields [(0, 7, w.cap1), (8, 7, w.cap2), (16, 10, w.ballast), flagField 32 w.shortfall, flagField 33 w.capHit, flagField 34 w.thermShed,
    (48, 16, w.slewExc)]

/-- PW_REGION (R548). -/
def regionWord (s : State) : Nat :=
  let wait := s.waitingTiles.map regionOf
  packFields [(0, 16, maskOf 16 (fun r => s.pins.stops.isEmpty && s.pow.pllOn.contains r)), (16, 16, maskOf 16 s.pow.locking.contains), (32, 16, maskOf 16 wait.contains)]

/-- The power block (R547). -/
def powerRead (s : State) (off : Nat) : Option Nat :=
  if off == 0x0000 then some s.pow.shapeWord
  else if off == 0x0008 then some s.pow.stateWord
  else if off == 0x0010 then some (regionWord s)
  else if decide (0x0040 ≤ off) && decide (off ≤ 0x0078) then some (wordOf s.pow.tel ((off - 0x0040) / 8))
  else none

/-- HL_LOSS (R490). -/
def Health.lossWord (h : Health) : Nat :=
  match h.losses with
  | [] => boolNat h.ovf * 2 ^ 37
  | l :: ls => l.word + boolNat h.ovf * 2 ^ 37 + boolNat (!ls.isEmpty) * 2 ^ 63

/-- HL_DS_CE of a column (R550). -/
def Tile.dsWord (x : Tile) : Nat := packFields [(0, 32, x.dsCe), (32, 19, x.dsLast)]

/-- The health block (R549). -/
def healthRead (s : State) (off : Nat) : Option Nat :=
  if off == 0x0000 then some s.hl.fault
  else if off == 0x0008 then some s.hl.lossWord
  else if off == 0x0010 then some 0
  else if decide (0x1000 ≤ off) && decide (off ≤ 0x1FF8) then some (s.tile ((off - 0x1000) / 8)).dsWord
  else none

/-- SE_STATUS (R553). -/
def statusWord (s : State) : Nat :=
  let e := s.se
  let f := s.fuse
  packFields [(0, 2, if e.busy then 1 else if e.done then 2 else 0), flagField 2 e.reject, flagField 3 e.everUnlocked, flagField 4 e.core,
    flagField 5 e.steward, flagField 6 f.debugFused, (8, 8, e.result), (16, 10, e.rlen), (32, 2, f.slot0.state.code),
    (34, 2, f.slot1.state.code), (36, 2, f.slot2.state.code), (38, 2, f.slot3.state.code), (48, 8, e.lastCmd)]

/-- SE_SWEEP (R523). -/
def Enclave.sweepWord (e : Enclave) : Nat :=
  packFields [(0, 6, e.sweepPnum), (6, 2, e.sweepResult), (8, 10, e.sweepFailed), flagField 18 e.sweepAll, (19, 32, e.sweepSeq)]

/-- The security block; the window reads zero during BUSY (R551, R554). -/
def mailboxRead (s : State) (off : Nat) : Option Nat :=
  if off == 0x0000 then some 0
  else if off == 0x0008 then some (statusWord s)
  else if off == 0x0010 then some s.se.sweepWord
  else if decide (0x0100 ≤ off) && decide (off ≤ 0x02F8) then some (if s.se.busy then 0 else wordOf s.se.data ((off - 0x0100) / 8))
  else none

/-- VL_DROP (R412). -/
def Link.dropWord (l : Link) : Nat := packFields [(0, 16, l.dropUndef), (16, 16, l.dropTarget), (32, 16, l.dropAtomic), (48, 16, l.dropLate)]

/-- The link block (R555). -/
def linkRead (s : State) (off : Nat) : Option Nat :=
  if off == 0x0000 then some s.link.dropWord
  else if decide (0x0100 ≤ off) && decide (off ≤ 0x0178) then some (s.module ((off - 0x0100) / 8)).word
  else none

/-- The register at a control-space offset; none is a hole or an offset that is no multiple of 8 (R526, R527). -/
def ctlRead (s : State) (off : Nat) : Option Nat :=
  if off % 8 != 0 then none
  else if off < 0x10000 then globalRead s off
  else if off < 0x50000 then partRead s (off / 0x1000 - 0x10) (off % 0x1000)
  else if decide (0x100000 ≤ off) && decide (off < 0x180000) then tileRead s ((off - 0x100000) / 0x400) (off % 0x400)
  else if decide (0x200000 ≤ off) && decide (off < 0x210000) then powerRead s (off - 0x200000)
  else if decide (0x210000 ≤ off) && decide (off < 0x220000) then healthRead s (off - 0x210000)
  else if decide (0x220000 ≤ off) && decide (off < 0x230000) then mailboxRead s (off - 0x220000)
  else if decide (0x230000 ≤ off) && decide (off < 0x240000) then linkRead s (off - 0x230000)
  else none

/-- The registers that I3C reaches (R455). -/
def onI3c (off : Nat) : Bool :=
  off % 8 == 0 && (off == 0x0008 || off == 0x0010 || off == 0x0018 || (decide (0x0100 ≤ off) && decide (off ≤ 0x0248)))

/-- An I3C private read of the register at the last offset set; offsets outside R455's list read as zero (R530). -/
def i3cRead (s : State) : Nat := if onI3c s.boot.i3cOffset then (ctlRead s s.boot.i3cOffset).getD 0 else 0

/-- A host's control read by its Varmlink address: status and value (R403, R527). -/
def controlAnswer (s : State) (addr : Nat) : Nat × Nat :=
  if bits addr 56 2 != 3 then (stSpace, 0)
  else if bits addr 32 24 != 0 then (stAddrRsv, 0)
  else match ctlRead s (bits addr 0 32) with
    | some v => (stOk, v)
    | none => (stAddrRsv, 0)

end Sys2Proof.Machine
end

