-- ==== Sys2Proof/Machine/Registers.lean ====
section
/-! DEFINITION. Writes to control space that have no row of their own (R10, R11, R526 to R530, R533, R541, R552 to R554), and the
I3C target (R455, R530, R570). -/
namespace Sys2Proof.Machine

/-- Bytes `8n` to `8n + 7` of a window replaced. -/
def setWord (bs : List Byte) (n : Nat) (v : Word) : List Byte := bs.take (8 * n) ++ leBytes 8 v.toNat ++ bs.drop (8 * n + 8)

/-- Bits that a write of 1 clears, within a mask (R10). -/
def clearBits (x v : Nat) : Nat := x &&& (2 ^ 64 - 1 - v)

/-- HL_FAULT: bits 0 to 4 clear; RAIL and THERM_STOP come back at once while their cause lasts (R495). -/
def faultWrite (s : State) (v : Nat) : State :=
  let f := clearBits s.hl.fault (v % 32)
  let rail := s.pins.stops.any (fun c => match c with
    | .rail _ => true
    | _ => false)
  let f := if rail then f ||| 4 else f
  let f := if s.pins.stops.contains .thermal then f ||| 8 else f
  { s with hl := { s.hl with fault := f } }

/-- The commands of the mailbox (R510). -/
def knownCommand (c : Nat) : Bool := decide (1 ≤ c) && decide (c ≤ 9)

/-- The window holds a response of `bs`, zeros beyond it, and STATE reads DONE (R554). -/
def Enclave.finish (e : Enclave) (result : Nat) (bs : List Byte) : Enclave :=
  { e with cmd := none, busy := false, done := true, result := result, rlen := bs.length, data := padTo 512 bs }

/-- SE_CMD: a GO during BUSY is ignored with REJECT; any other takes a copy of the payload; an undefined CMD or a LEN out of range ends at
once (R508, R510, R552). -/
def seCmdWrite (s : State) (v : Nat) : State :=
  let c := bits v 0 8
  let len := bits v 8 10
  if !bitOf v 31 then s
  else if s.se.busy then { s with se := { s.se with reject := true } }
  else
    let e := { s.se with
      cmd := some (c, s.se.data.take len), busy := true, done := false, result := 0, rlen := 0, lastCmd := c }
    { s with se := if knownCommand c && decide (len ≤ 512) then e else e.finish 1 [] }

/-- A write to the global block (R457, R533). -/
def globalWrite (s : State) (off : Nat) (v : Word) : State :=
  if off == 0x0300 then { s with load := { s.load with imgSrc := v } }
  else if decide (0x0100 ≤ off) && decide (off ≤ 0x0248) && s.boot.state == .waitSite then
    { s with boot := { s.boot with window := setWord s.boot.window ((off - 0x0100) / 8) v } }
  else s

/-- A write to a partition block; ignored while the number is unbound, or counts as unbound from its kill on (R81, R404, R541, R542). -/
def partWrite (s : State) (p off : Nat) (v : Word) : State :=
  let r := s.part p
  if !r.isBound || r.state == .killing then s
  else if off == 0x0020 then s.setPart p { r with remoteMask := v.toNat }
  else if off == 0x0028 then s.setPart p { r with fptBase := v.toNat }
  else if off == 0x0030 then s.setPart p { r with fptLen := bits v.toNat 0 36 }
  else s

/-- A write to a tile status block: REARM_OVERRUN and TL_SEM_OVF clear (R328, R360). -/
def tileWrite (s : State) (t off : Nat) (v : Word) : State :=
  if off == 0x0028 then s.updTile t (fun x => { x with semOvf := clearBits x.semOvf v.toNat })
  else if decide (0x0040 ≤ off) && decide (off < 0x0080) && bitOf v.toNat 5 then
    s.updTile t (fun x => x.setQueue ((off - 0x0040) / 8) { x.queue ((off - 0x0040) / 8) with rearm := false })
  else s

/-- A write to the security block (R552 to R554). -/
def mailboxWrite (s : State) (off : Nat) (v : Word) : State :=
  if off == 0x0000 then seCmdWrite s v.toNat
  else if off == 0x0008 then { s with se := { s.se with reject := s.se.reject && !bitOf v.toNat 2 } }
  else if decide (0x0100 ≤ off) && decide (off ≤ 0x02F8) && !s.se.busy then
    { s with se := { s.se with data := setWord s.se.data ((off - 0x0100) / 8) v } }
  else s

/-- A whole word written at a control-space offset. Registers with a row of their own, read-only fields, holes and misaligned offsets are
left as they are (R10, R527). -/
def ctlWrite (s : State) (off : Nat) (v : Word) : State :=
  if off % 8 != 0 then s
  else if off < 0x10000 then globalWrite s off v
  else if off < 0x50000 then partWrite s (off / 0x1000 - 0x10) (off % 0x1000) v
  else if decide (0x100000 ≤ off) && decide (off < 0x180000) then tileWrite s ((off - 0x100000) / 0x400) (off % 0x400) v
  else if off == 0x210000 then faultWrite s v.toNat
  else if decide (0x220000 ≤ off) && decide (off < 0x230000) then mailboxWrite s (off - 0x220000) v
  else s

/-- REGISTER_WRITE: over Varmlink to any register; over I3C, a private write of 12 bytes sets the offset and reaches only the registers of
R455 (R10, R455, R530). -/
def execRegisterWrite (via : Via) (offset : Nat) (v : Word) (s : State) : Host.Outcome State Fault Refusal :=
  if !s.stewardRuns then .next s
  else match via with
    | .varmlink => .next (ctlWrite s offset v)
    | .i3c =>
      let s := { s with boot := { s.boot with i3cOffset := offset % 2 ^ 32 } }
      .next (if onI3c (offset % 2 ^ 32) then ctlWrite s (offset % 2 ^ 32) v else s)

/-- I3C_OFFSET_WRITE: a private write of 4 bytes (R530). -/
def execI3cOffsetWrite (offset : Nat) (s : State) : Host.Outcome State Fault Refusal :=
  if s.stewardRuns then .next { s with boot := { s.boot with i3cOffset := offset % 2 ^ 32 } } else .next s

/-- The static I3C address (R570). -/
def State.staticAddr (s : State) : Nat := 0x28 + s.pins.straps

/-- SETDASA: the static address names the steward; it takes the dynamic address (R570). -/
def execSetdasa (static dynamic : Nat) (s : State) : Host.Outcome State Fault Refusal :=
  if s.stewardRuns && static == s.staticAddr && s.boot.i3cAddr.isNone then
    .next { s with boot := { s.boot with i3cAddr := some (dynamic % 128) } }
  else .next s

/-- ENTDAA: a target without a dynamic address takes the one assigned (R570). -/
def execEntdaa (dynamic : Nat) (s : State) : Host.Outcome State Fault Refusal :=
  if s.stewardRuns && s.boot.i3cAddr.isNone then .next { s with boot := { s.boot with i3cAddr := some (dynamic % 128) } } else .next s

end Sys2Proof.Machine
end

