-- ==== Sys2Proof/Machine/Enclave.lean ====
section
/-! DEFINITION. The enclave's commands (R506 to R514): each row runs the command that SE_CMD started, when the mailbox is BUSY with its
CMD. The manual names the arguments and not their layout; the layouts here are the model's (DESIGN CHOICE, log 41). -/
namespace Sys2Proof.Machine

def Fuses.slot (f : Fuses) (k : Nat) : KeySlot :=
  match k with
  | 0 => f.slot0
  | 1 => f.slot1
  | 2 => f.slot2
  | 3 => f.slot3
  | _ => ⟨.empty, 0, []⟩

def Fuses.setSlot (f : Fuses) (k : Nat) (x : KeySlot) : Fuses :=
  match k with
  | 0 => { f with slot0 := x }
  | 1 => { f with slot1 := x }
  | 2 => { f with slot2 := x }
  | 3 => { f with slot3 := x }
  | _ => f

/-- Fuses program an EMPTY slot, and only an EMPTY one (R506). -/
def Fuses.program (f : Fuses) (k purposes : Nat) (key : List Byte) : Fuses :=
  match (f.slot k).state with
  | .empty => f.setSlot k ⟨.set, purposes, key⟩
  | _ => f

/-- Fuses revoke a SET slot, and only a SET one (R506). -/
def Fuses.revoke (f : Fuses) (k : Nat) : Fuses :=
  match (f.slot k).state with
  | .set => f.setSlot k { f.slot k with state := .revoked }
  | _ => f

/-- The payload of the command that the mailbox runs, when it is `c`. -/
def State.running (s : State) (c : Nat) : Option (List Byte) :=
  match s.se.cmd with
  | some (d, bs) => if s.se.busy && d == c && s.stewardRuns then some bs else none
  | none => none

/-- A command ends with a RESULT and a response. -/
def State.seEnd (s : State) (result : Nat) (bs : List Byte) : State := { s with se := s.se.finish result bs }

/-- RESULT codes (R510). -/
def rOk : Nat := 0
def rBadCmd : Nat := 1
def rBadNonce : Nat := 2
def rBadSig : Nat := 3
def rSlotState : Nat := 4
def rNotAllowed : Nat := 5

/-- What a signed command's signature covers (R509). -/
def signedMessage (keyId : List Byte) (c : Nat) (nonce args : List Byte) : List Byte := leBytes 1 c ++ keyId ++ nonce ++ args

/-- A SET slot with the purpose verifies (R506). -/
def Fuses.mayVerify (f : Fuses) (k purpose : Nat) : Bool :=
  (f.slot k).state == .set && bitOf (f.slot k).purposes purpose

/-- The checks of a signed command with `n` bytes of arguments, in the order of the RESULT codes except that a slot that may not verify
comes before its signature (R506, R509, R510; log 41). -/
def checkSigned (s : State) (c n purpose : Nat) (pl : List Byte) : Nat :=
  let nonce := pl.take 32
  let args := slice pl 32 n
  let k := byteAt pl (32 + n)
  if pl.length != 129 + n then rBadCmd
  else if s.se.nonce != some nonce then rBadNonce
  else if !s.fuse.mayVerify k purpose then rSlotState
  else if !ecdsaVerify (s.fuse.slot k).key (sha384 (signedMessage s.fuse.identityKeyId c nonce args)) (slice pl (33 + n) 48) (slice pl (81 + n) 48) then rBadSig
  else rOk

/-- The nonce that a command carries is spent, whether it succeeds or fails (R509, R510). -/
def State.spend (s : State) (pl : List Byte) : State :=
  if s.se.nonce == some (pl.take 32) then { s with se := { s.se with nonce := none } } else s

/-- A signed command: a failure spends the nonce and changes nothing else (R510). `go` gives the RESULT and the state. -/
def State.signed (s : State) (c n purpose : Nat) (go : State → List Byte → Nat → Nat × State) : State :=
  match s.running c with
  | none => s
  | some pl =>
    let r := checkSigned s c n purpose pl
    let s := s.spend pl
    if r != rOk then s.seEnd r []
    else
      let (r, s') := go s (slice pl 32 n) (byteAt pl (32 + n))
      s'.seEnd r []

/-- GET_NONCE: 32 bytes of the DRBG; an earlier nonce is withdrawn (R509, R510). -/
def execGetNonce (s : State) : Host.Outcome State Fault Refusal :=
  match s.running 1 with
  | none => .next s
  | some pl =>
    if !pl.isEmpty then .next (s.seEnd rBadCmd [])
    else
      let n := (List.range 32).map (Config.drbg s.free)
      .next ({ s with free := s.free + 1, se := { s.se with nonce := some n } }.seEnd rOk n)

/-- TAKE_OWNERSHIP: slot 1 takes the supplied key while it is EMPTY and no image has been loaded since reset (R506, R510). -/
def execTakeOwnership (s : State) : Host.Outcome State Fault Refusal :=
  match s.running 2 with
  | none => .next s
  | some pl =>
    if pl.length != 97 then .next (s.seEnd rBadCmd [])
    else if s.fuse.slot1.state != .empty then .next (s.seEnd rSlotState [])
    else if s.se.loadedSince then .next (s.seEnd rNotAllowed [])
    else .next ({ s with fuse := s.fuse.program 1 7 pl }.seEnd rOk [])

/-- SLOT_PROGRAM: slot, purposes and key; slots 2 and 3 only, and never OWN (R506, R510). -/
def execSlotProgram (s : State) : Host.Outcome State Fault Refusal :=
  .next (s.signed 3 99 2 (fun s args _ =>
    let k := byteAt args 0
    let u := byteAt args 1
    if 8 ≤ u then (rBadCmd, s)
    else if (k != 2 && k != 3) || bitOf u 2 then (rNotAllowed, s)
    else if (s.fuse.slot k).state != .empty then (rSlotState, s)
    else (rOk, { s with fuse := s.fuse.program k u (args.drop 2) })))

/-- SLOT_REVOKE: any SET slot, its own among them (R506, R510). -/
def execSlotRevoke (s : State) : Host.Outcome State Fault Refusal :=
  .next (s.signed 4 1 2 (fun s args _ =>
    let k := byteAt args 0
    if (s.fuse.slot k).state != .set then (rSlotState, s) else (rOk, { s with fuse := s.fuse.revoke k })))

/-- COUNTER_RAISE: counter index and an 8-byte value, by a COUNTER record; a value below the counter is no raise (R467, R510). -/
def execCounterRaise (s : State) : Host.Outcome State Fault Refusal :=
  .next (s.signed 5 9 2 (fun s args _ =>
    let id := byteAt args 0
    let v := fieldAt args 1 8
    let now := if id == 0 then s.led.counter0 else s.led.counter1
    if 2 ≤ id then (rBadCmd, s)
    else if v < now then (rNotAllowed, s)
    else
      let l := s.led.append (.counter id v)
      (rOk, { s with led := if id == 0 then { l with counter0 := v } else { l with counter1 := v } })))

/-- DEBUG_UNLOCK: scopes, bit 0 CORE and bit 1 STEWARD; NOT_ALLOWED for ever after DEBUG_FUSE (R510, R512). -/
def execDebugUnlock (s : State) : Host.Outcome State Fault Refusal :=
  match s.running 6 with
  | none => .next s
  | some pl =>
    if s.fuse.debugFused then .next ((s.spend pl).seEnd rNotAllowed [])
    else .next (s.signed 6 1 1 (fun s args k =>
      let u := byteAt args 0
      if 4 ≤ u then (rBadCmd, s)
      else
        let s : State := { s with se := { s.se with
          core := s.se.core || bitOf u 0, steward := s.se.steward || bitOf u 1, everUnlocked := true } }
        (rOk, s.health evDebugUnlock (u + k * 2 ^ 8))))

/-- DEBUG_LOCK: both scopes lock (R510, R513). -/
def execDebugLock (s : State) : Host.Outcome State Fault Refusal :=
  match s.running 7 with
  | none => .next s
  | some pl =>
    if !pl.isEmpty then .next (s.seEnd rBadCmd [])
    else .next ({ s with se := { s.se with core := false, steward := false } }.seEnd rOk [])

/-- DEBUG_FUSE: debug is locked for ever (R510, R512). -/
def execDebugFuse (s : State) : Host.Outcome State Fault Refusal :=
  .next (s.signed 8 0 2 (fun s _ _ =>
    (rOk, { s with fuse := { s.fuse with debugFused := true }, se := { s.se with core := false, steward := false } })))

/-- Zeroisation: a load in progress ends ABORTED, everything is killed and swept, the enclave's volatile secrets go, and a cold reset
follows (R448, R514, R525, R534). One step, so BUSY is never seen between (log 42). -/
def State.zeroise (s : State) : State :=
  let s := if s.load.cur.isSome then s.failLoad 0x22 0xFFFF else s
  let c := s.cold
  { c with fab := Fabric.init }

/-- A ZEROISE command whose MODE is `mode`; a MODE above 1 is a bad command. -/
def State.runZeroise (s : State) (decommission : Bool) : State :=
  match s.running 9 with
  | none => s
  | some pl =>
    let mode := byteAt pl 32
    if (mode == 1) != decommission then s
    else
      let r := if 2 ≤ mode then rBadCmd else checkSigned s 9 1 2 pl
      if r != rOk then (s.spend pl).seEnd r []
      else
        let z := s.zeroise
        { z with fuse := { z.fuse with udsDisabled := z.fuse.udsDisabled || decommission } }

/-- ZEROISE_CLEAR (R514). -/
def execZeroiseClear (s : State) : Host.Outcome State Fault Refusal := .next (s.runZeroise false)

/-- ZEROISE_DECOMMISSION: then a fuse disables the UDS for ever (R514). -/
def execZeroiseDecommission (s : State) : Host.Outcome State Fault Refusal := .next (s.runZeroise true)

/-- NONCE_EXPIRY: 1 s after its issue (R509). -/
def execNonceExpiry (s : State) : Host.Outcome State Fault Refusal := .next { s with se := { s.se with nonce := none } }

end Sys2Proof.Machine
end

