-- ==== Sys2Proof/Machine/Attest.lean ====
section
/-! DEFINITION. SPDM attestation (R505, R515 to R517) and the JTAG port (R511 to R513, R572). What SPDM 1.3 itself lays down of a
response is taken from the standard or left to an opaque body (PRESUMED, log 13). -/
namespace Sys2Proof.Machine

/-- A response leaves by the path of its request: at once over I3C, as one management message over Varmlink (R515). -/
def State.spdmSend (s : State) (via : Via) (body : List Byte) : State :=
  match via with
  | .i3c => { s with out := s.out ++ [.spdm .i3c body] }
  | .varmlink => s.send stewardTile 64 2 (flitsOf body.length) (.spdm .varmlink body)

/-- The steward answers SPDM once its firmware runs, or once it has stopped (R452, R515). -/
def State.answersSpdm (s : State) : Bool := s.stewardRuns && s.boot.state != .reset && s.boot.state != .rom

/-- An ERROR response: SPDM version 1.3, code 0x7F, the error code and its data. -/
def spdmError (code data : Nat) : List Byte := [0x13, 0x7F, BitVec.ofNat 8 code, BitVec.ofNat 8 data]

/-- Error codes: invalid request, request out of its order, unspecified, unsupported request. -/
def errInvalid : Nat := 1
def errUnexpected : Nat := 4
def errUnspecified : Nat := 5
def errUnsupported : Nat := 7

/-- The digest of the running firmware; the alias key and its certificate exist while the UDS does (R505, R514). -/
def State.aliasFirmware (s : State) : Option (List Byte) := if s.fuse.udsDisabled then none else s.boot.fw.map (·.digest)

/-- A response that needs the request order `ok` and answers with `body`, or an ERROR. -/
def State.spdmAnswer (s : State) (via : Via) (ok : Bool) (body : List Byte) : State :=
  if !s.answersSpdm then s else s.spdmSend via (if ok then body else spdmError errUnexpected 0)

/-- A response that needs a key: an ERROR without one (R514). -/
def State.keyedAnswer (s : State) (via : Via) (body : List Byte → List Byte) : State :=
  s.spdmAnswer via s.link.spdmAlgs (match s.aliasFirmware with
    | some d => body d
    | none => spdmError errUnspecified 0)

/-- GET_VERSION begins an SPDM exchange anew (R515). -/
def execGetVersion (via : Via) (request : List Byte) (s : State) : Host.Outcome State Fault Refusal :=
  let s := if s.answersSpdm then { s with link := { s.link with spdmVersion := true, spdmCaps := false, spdmAlgs := false } } else s
  .next (s.spdmAnswer via true ([0x10, 0x04] ++ Config.spdmBody 0x04 request))

/-- GET_CAPABILITIES, after GET_VERSION (R515). -/
def execGetCapabilities (via : Via) (request : List Byte) (s : State) : Host.Outcome State Fault Refusal :=
  let ok := s.link.spdmVersion
  let s := if s.answersSpdm && ok then { s with link := { s.link with spdmCaps := true } } else s
  .next (s.spdmAnswer via ok ([0x13, 0x61] ++ Config.spdmBody 0x61 request))

/-- NEGOTIATE_ALGORITHMS, after GET_CAPABILITIES: ECDSA P-384 and SHA-384 only (R515). -/
def execNegotiateAlgorithms (via : Via) (request : List Byte) (s : State) : Host.Outcome State Fault Refusal :=
  let ok := s.link.spdmCaps
  let s := if s.answersSpdm && ok then { s with link := { s.link with spdmAlgs := true } } else s
  .next (s.spdmAnswer via ok ([0x13, 0x63] ++ Config.spdmBody 0x63 request))

/-- GET_DIGESTS: the SHA-384 digest of the chain of slot 0, the only slot populated (R515, R516). -/
def execGetDigests (via : Via) (request : List Byte) (s : State) : Host.Outcome State Fault Refusal :=
  .next (s.keyedAnswer via (fun d => [0x13, 0x01, 0x01, 0x01] ++ sha384 (Config.certChain d) ++ Config.spdmBody 0x01 request))

/-- GET_CERTIFICATE: a portion of at most 1,024 B of slot 0's chain, with its length and what remains (R515, R516). -/
def execGetCertificate (via : Via) (slot offset length : Nat) (s : State) : Host.Outcome State Fault Refusal :=
  .next (s.keyedAnswer via (fun d =>
    let chain := Config.certChain d
    let part := slice chain offset (Nat.min length 1024)
    if slot != 0 || decide (chain.length < offset) then spdmError errInvalid 0
    else [0x13, 0x02, 0x00, 0x00] ++ leBytes 2 part.length ++ leBytes 2 (chain.length - offset - part.length) ++ part))

/-- CHALLENGE: signed by the alias key; slot 0 only (R515, R516). -/
def execChallenge (via : Via) (slot : Nat) (request : List Byte) (s : State) : Host.Outcome State Fault Refusal :=
  let fresh := (List.range 32).map (Config.drbg s.free)
  let s := if s.answersSpdm then { s with free := s.free + 1 } else s
  .next (s.keyedAnswer via (fun d =>
    let body := [0x13, 0x03, 0x00, 0x01] ++ sha384 (Config.certChain d) ++ fresh ++ Config.spdmBody 0x03 request
    if slot != 0 then spdmError errInvalid 0 else body ++ Config.aliasSign d (request ++ body)))

/-- A key slot as measurement 8 shows it: state, purposes and KEYID (R506, R517). -/
def KeySlot.measured (k : KeySlot) : List Byte := leBytes 1 k.state.code ++ leBytes 1 k.purposes ++ sha384 k.key

/-- The measurements (R517): digests, and raw values at 3, 4 and 5. -/
def measurement (s : State) (i : Nat) : List Byte :=
  match i with
  | 1 => Config.romDigest
  | 2 => match s.boot.fw with
    | some f => sha384 (f.digest ++ leBytes 4 f.version ++ leBytes 1 s.boot.fwSlot)
    | none => []
  | 3 => leBytes 8 s.led.counter0 ++ leBytes 8 s.led.counter1
  | 4 => leBytes 8 s.load.compId.toNat ++ s.load.chain
  | 5 => [BitVec.ofNat 8 (boolNat s.se.core + 2 * boolNat s.se.steward), BitVec.ofNat 8 (boolNat s.se.everUnlocked),
          BitVec.ofNat 8 (boolNat s.fuse.debugFused)]
  | 6 => if s.boot.site.isSome then sha384 s.boot.window else []
  | 7 => sha384 s.boot.report
  | 8 => sha384 (s.fuse.slot0.measured ++ s.fuse.slot1.measured ++ s.fuse.slot2.measured ++ s.fuse.slot3.measured)
  | _ => []

/-- One measurement block: index and length before the value. -/
def measurementBlock (s : State) (i : Nat) : List Byte :=
  leBytes 1 i ++ leBytes 2 (measurement s i).length ++ measurement s i

/-- GET_MEASUREMENTS: index 0 asks how many there are, 0xFF asks for all; signed by the alias key when asked (R515 to R517). -/
def execGetMeasurements (via : Via) (index : Nat) (signed : Bool) (request : List Byte) (s : State) : Host.Outcome State Fault Refusal :=
  let blocks := if index == 0xFF then (List.range 8).flatMap (fun i => measurementBlock s (i + 1))
    else if index == 0 then [] else measurementBlock s index
  let body := [0x13, 0x60, if index == 0 then 0x08 else 0x00, 0x00] ++ blocks ++ Config.spdmBody 0x60 request
  if 8 < index && index != 0xFF then .next (s.spdmAnswer via s.link.spdmAlgs (spdmError errInvalid 0))
  else if signed then .next (s.keyedAnswer via (fun d => body ++ Config.aliasSign d (request ++ body)))
  else .next (s.spdmAnswer via s.link.spdmAlgs body)

/-- SPDM_UNSUPPORTED: an ERROR response of UnsupportedRequest (R515). -/
def execSpdmUnsupported (via : Via) (code : Nat) (s : State) : Host.Outcome State Fault Refusal :=
  .next (if s.answersSpdm then s.spdmSend via (spdmError errUnsupported code) else s)

/-- The boundary register at its length (R511, log 12). -/
def boundaryOf (bs : List Bool) : List Bool :=
  bs.take Config.boundaryLength ++ List.replicate (Config.boundaryLength - bs.length) false

/-- Bits shifted through the one-bit bypass register (R511). -/
def Jtag.shiftBypass (j : Jtag) (tdi : List Bool) : Jtag :=
  let bs := j.bypassBit :: tdi
  { j with ir := 1, driven := none, tdo := j.tdo ++ bs.dropLast, bypassBit := bs.getLast?.getD false }

/-- BYPASS: TDI passes to TDO through one bit (R511). -/
def execBypass (tdi : Bool) (s : State) : Host.Outcome State Fault Refusal := .next { s with jtag := s.jtag.shiftBypass [tdi] }

/-- IDCODE: the 32 bits of the device identification, least significant first (R511, log 12). -/
def execIdcode (s : State) : Host.Outcome State Fault Refusal :=
  let code := (List.range 32).map (bitOf Config.idcode.toNat)
  .next { s with jtag := { s.jtag with ir := 0, driven := none, tdo := s.jtag.tdo ++ code } }

/-- SAMPLE/PRELOAD: the pins are captured and shifted out, and the boundary register is loaded (R511). -/
def execSamplePreload (pins load : List Bool) (s : State) : Host.Outcome State Fault Refusal :=
  .next { s with jtag := { s.jtag with ir := 2, driven := none, boundary := boundaryOf load, tdo := s.jtag.tdo ++ boundaryOf pins } }

/-- EXTEST takes effect only in WAIT_SITE and STOPPED (R511). -/
def State.extestAllowed (s : State) : Bool := s.boot.state == .waitSite || s.boot.state == .stopped

/-- EXTEST: the boundary register drives the pins while the boot state allows it, and otherwise the instruction acts as BYPASS (R511). -/
def execExtest (pins load : List Bool) (s : State) : Host.Outcome State Fault Refusal :=
  if s.extestAllowed then
    .next { s with jtag := { s.jtag with
      ir := 3, boundary := boundaryOf load, driven := some (boundaryOf load), tdo := s.jtag.tdo ++ boundaryOf pins } }
  else .next { s with jtag := s.jtag.shiftBypass load }

/-- What the boundary register drives now (R511). -/
def State.pinsDriven (s : State) : Option (List Bool) := if s.extestAllowed then s.jtag.driven else none

/-- TAP_RESET: IDCODE is selected and nothing is driven (R572). -/
def execTapReset (s : State) : Host.Outcome State Fault Refusal := .next { s with jtag := { s.jtag with ir := 0, driven := none } }

/-- The bits of bytes, each least significant first. -/
def byteBits (bs : List Byte) : List Bool := bs.flatMap (fun b => (List.range 8).map (bitOf b.toNat))

/-- The key of a space-0 or space-1 address (R273). -/
def cellKey (a : Nat) : Nat := if bits a 56 2 == 0 then spKey (devAddr a).tile (devAddr a).off else colKey (devAddr a).tile (devAddr a).off

/-- CORE_INSTRUMENT_ACCESS: with CORE unlocked, a memory-test instrument reads or writes any scratchpad or column (R511, R513). -/
def execCoreInstrumentAccess (addr : Word) (data : Option (List Byte)) (len : Nat) (s : State) : Host.Outcome State Fault Refusal :=
  let a := addr.toNat
  let n := match data with
    | some bs => bs.length
    | none => len
  if !s.se.core || rangeStatus a n != stOk then .next s
  else match data with
    | some bs => .next (s.updFab (fun f => { f with mem := memWrites f.mem (cellKey a) bs }))
    | none => .next { s with jtag := { s.jtag with tdo := s.jtag.tdo ++ byteBits (memReads s.fab.mem (cellKey a) len) } }

end Sys2Proof.Machine
end

