-- ==== Sys2Proof/Machine/Varmlink.lean ====
section
/-! DEFINITION. Varmlink: flits, replay and the loss of a module (R398 to R412, R491), messages that reach a tile (R403 to R405, R415 to
R417), completions (R405, R407, R413), and accesses over the roads (R317, R318, R349, R579). -/
namespace Sys2Proof.Machine

def State.updModule (s : State) (m : Nat) (g : Module → Module) : State := s.setModule m (g (s.module m))

/-- A module takes part: it is UP and does not retrain (R408, R412). -/
def State.moduleRuns (s : State) (m : Nat) : Bool := decide (m < 16) && (s.module m).state == 2 && !(s.module m).retraining

/-- The four counters of VL_DROP (R412). -/
def State.countUndef (s : State) : State := { s with link := { s.link with dropUndef := satTo 16 (s.link.dropUndef + 1) } }
def State.countTarget (s : State) : State := { s with link := { s.link with dropTarget := satTo 16 (s.link.dropTarget + 1) } }
def State.countAtomic (s : State) : State := { s with link := { s.link with dropAtomic := satTo 16 (s.link.dropAtomic + 1) } }
def State.countLate (s : State) : State := { s with link := { s.link with dropLate := satTo 16 (s.link.dropLate + 1) } }

/-- Everything that waits for room leaves as far as it can (R406, R410, R444). -/
def State.pump (s : State) : State := State.pumpImage 65536 (State.flushNotices 17 s.flushWaiting)

/-- Flits up to and including ACK are acknowledged (R399, R411). -/
def dropAcked (sent : List SentFlit) (ack : Nat) : List SentFlit :=
  if sent.any (·.fseq == ack) then (sent.dropWhile (·.fseq != ack)).drop 1 else sent

/-- Capacities of the three channels' buffers (R410). -/
def creditCap (ch : Nat) : Nat := if ch == 1 then 192 else 32

/-- A flit returns 8 credits of a channel (R399, R410). -/
def Module.returnCredit (m : Module) (ch : Nat) : Module :=
  { m with credits := updateAt m.credits ch (fun c => Nat.min (creditCap ch) (c + 8)) }

/-- A head or body flit has left its channel's buffer; the eighth since the last return sends 8 credits back (R399, R410). -/
def State.freeBuffer (s : State) (m : Nat) (flit : List Byte) : State :=
  let w := fieldAt flit 0 2
  let ch := bits w 14 2
  let x := s.module m
  if bits w 12 2 == 0 || decide (2 < ch) then s
  else if x.taken.getD ch 0 < 7 then s.setModule m { x with taken := updateAt x.taken ch (· + 1) }
  else { s.setModule m { x with taken := updateAt x.taken ch (fun _ => 0) } with out := s.out ++ [.credit m ch] }

/-- A dropped flit: the first of a run is answered by NAK with the last flit received in order (R411). -/
def State.refuseFlit (s : State) (m : Nat) : State :=
  let x := s.module m
  if x.nakPending then s
  else { s.setModule m { x with nakPending := true } with out := s.out ++ [.nak m ((x.nextRecv + 4095) % 4096)] }

/-- A message type and subtype that the device receives (R402). -/
def receivable (mtype sub : Nat) : Bool :=
  match mtype with
  | 0 | 1 | 3 | 4 => sub == 0
  | 2 | 5 => decide (sub < 2)
  | 6 => sub == 0 || sub == 1 || sub == 4 || sub == 6
  | _ => false

/-- The form of a head flit: type, reserved bits of the header and of the extension, and LEN (R399, R400, R402). -/
def headOk (flit : List Byte) : Bool :=
  receivable (bits (byteAt flit 4) 0 4) (bits (byteAt flit 4) 4 4) && byteAt flit 5 < 128 && zeroAt flit 0x16 2
    && decide (fieldAt flit 0x10 2 ≤ 2048)

/-- A control access arrives: without HOST, or for another stack, it is counted; otherwise the steward answers, a read with the
register's value (R403, R527, R528). A write's effect is the command of its register. -/
def State.controlAccess (s : State) (flit : List Byte) : State :=
  let addr := fieldAt flit 8 8
  if !bitOf (byteAt flit 5) 6 || bits addr 58 6 != s.stackId then s.countTarget
  else if !s.stewardRuns then s
  else
    let (st, v) := controlAnswer s addr
    s.send stewardTile 64 2 1 (.control (fieldAt flit 6 2) st (if bits (byteAt flit 4) 4 4 == 0 then leBytes 8 v else []))

/-- An accepted head flit: a malformed one is counted, a control access is answered; every other message acts by its own command. -/
def State.acceptHead (s : State) (flit : List Byte) : State :=
  if !headOk flit then s.countUndef
  else if bits (byteAt flit 4) 0 4 == 6 && bits (byteAt flit 4) 4 4 < 2 then s.controlAccess flit
  else s

/-- What an accepted flit carries, by FKIND (R399, R402). -/
def State.acceptFlit (s : State) (flit : List Byte) : State :=
  match bits (fieldAt flit 0 2) 12 2 with
  | 1 => s.acceptHead flit
  | 2 => if zeroAt flit 0x0D 3 then s else s.countUndef
  | _ => s

/-- The CRC of a flit stands in its last 8 bytes (R398). -/
def flitCrcOk (flit : List Byte) : Bool := flit.length == 256 && fieldAt flit 248 8 == crc64 (flit.take 248)

/-- FLIT_RECEIVE: a flit with a bad CRC or out of sequence is dropped; one in sequence is accepted, with its ACK and its credit return
(R399, R410, R411, R412). -/
def execFlitReceive (m : Nat) (flit : List Byte) (s : State) : Host.Outcome State Fault Refusal :=
  if !s.moduleRuns m then .next s
  else if !flitCrcOk flit then
    .next ((s.updModule m (fun x => { x with crcErr := satTo 16 (x.crcErr + 1) })).refuseFlit m)
  else
    let x := s.module m
    let w := fieldAt flit 2 2
    if bits (fieldAt flit 0 2) 0 12 != x.nextRecv then .next (s.refuseFlit m)
    else
      let x := { x with nextRecv := (x.nextRecv + 1) % 4096, nakPending := false, sent := dropAcked x.sent (bits w 0 12) }
      let x := if bitOf w 15 then x.returnCredit (bits w 13 2) else x
      let s : State := { s.setModule m x with out := s.out ++ [.ack m (s.module m).nextRecv] }
      .next ((s.acceptFlit flit).freeBuffer m flit).pump

/-- Every unacknowledged flit is sent again, in order; a flit resent 16 times waits for the module to retrain (R411, R412). -/
def State.resendAll (s : State) (m : Nat) : State :=
  let x := s.module m
  if x.sent.any (fun f => decide (16 ≤ f.resends)) then s
  else { s.setModule m { x with
      sent := x.sent.map (fun f => { f with resends := f.resends + 1 }), replays := satTo 16 (x.replays + x.sent.length) }
    with out := s.out ++ x.sent.map (fun f => .resend m f.fseq) }

/-- NAK: flits up to ACK are acknowledged and every later one is sent again (R411). -/
def execNak (m ack : Nat) (s : State) : Host.Outcome State Fault Refusal :=
  if !s.moduleRuns m then .next s
  else .next ((s.updModule m (fun x => { x with sent := dropAcked x.sent ack })).resendAll m).pump

/-- FLIT_ACK_TIMEOUT: as a NAK (R411). -/
def execFlitAckTimeout (m fseq : Nat) (s : State) : Host.Outcome State Fault Refusal :=
  if s.moduleRuns m && (s.module m).sent.any (·.fseq == fseq) then .next (s.resendAll m) else .next s

/-- MODULE_RETRAIN: a flit has been resent 16 times (R412). -/
def execModuleRetrain (m : Nat) (s : State) : Host.Outcome State Fault Refusal :=
  if s.moduleRuns m && (s.module m).sent.any (fun f => decide (16 ≤ f.resends)) then
    .next (s.updModule m (fun x => { x with retraining := true, retrains := satTo 8 (x.retrains + 1) }))
  else .next s

/-- A message of a transfer ends: the bytes it brought, or its status. With nothing left in flight the transfer is answered (R312, R407,
R412, R413). -/
def Xfer.ended (x : Xfer) (tag status : Nat) (data : List Byte) : Xfer :=
  match x.sent.find? (fun u => u.1 == tag) with
  | none => x
  | some u =>
    let left := x.sent.erase u
    if status == stOk then
      let off := u.2.1
      let len := u.2.2
      let data' := match x.path with
        | .remote false => x.data.take off ++ padTo len data ++ x.data.drop (off + len)
        | _ => x.data
      { x with sent := left, data := data', answered := left.isEmpty && x.unsent.isEmpty }
    else
      { x with
        sent := left, unsent := [], status := if x.status == stOk then status else x.status, answered := left.isEmpty }

/-- The message with a TAG ends; a transfer that its queue has given up takes no notice (R334). -/
def State.endTag (s : State) (tag status : Nat) (data : List Byte) : State :=
  match s.link.tags.find? (fun e => e.1 == tag) with
  | some (_, .xfer t q _) =>
    let s := { s with link := { s.link with tags := s.link.tags.filter (fun e => e.1 != tag) } }
    s.updTile t (fun y => y.setQueue q { y.queue q with out := (y.queue q).out.map (fun x => x.ended tag status data) })
  | _ => s

/-- An ATOMIC of a tile was lost with its module: its work item ends with LINK_DOWN (R412, R491). -/
def State.loseAtomic (s : State) (t : Nat) : State :=
  s.updTile t (fun x => if x.seq.inWork then x.enterSkip ⟨stLinkDown, x.seq.lastStep, t⟩ else x)

/-- The link-map entry of a stack lists a module (R458, R491). -/
def State.entryLists (s : State) (stack m : Nat) : Bool :=
  match s.boot.site with
  | some r => (linkModules r stack).contains m
  | none => false

/-- The tagged increments of one wire when a module is lost: full semaphores of a remote-producer wire, and the lags of remote consumers
(R491). -/
def State.wireLost (s : State) (m p : Nat) (w : Wire) : State :=
  if farTile w.ptile then
    (if s.entryLists (bits w.ptile 9 6) m then
      (List.range w.cons.length).foldl (fun s e => match w.cons[e]? with
        | some c => s.applySem ⟨p, w.link, false, e, true, c.1, true⟩
        | none => s) s
     else s)
  else
    (List.range w.cons.length).foldl (fun s e => match w.cons[e]? with
      | some c => if farTile c.1 && s.entryLists (bits c.1 9 6) m then s.applySem ⟨p, w.link, true, e, true, w.ptile, true⟩ else s
      | none => s) s

/-- A module goes DOWN: its unacknowledged messages end with LINK_DOWN and none is sent again (R412, R491). -/
def State.moduleDown (s : State) (m : Nat) : State :=
  let lost := (s.module m).sent
  let s := s.updModule m (fun x => { x with state := 3, retraining := false, sent := [], nakPending := false })
  let s := (lost.filterMap (·.tag)).eraseDups.foldl (fun s tag => s.endTag tag stLinkDown []) s
  let s := ((lost.filter (·.tag.isNone)).filterMap (·.src)).eraseDups.foldl State.loseAtomic s
  let s := s.boundParts.foldl (fun s p => (s.part p).wires.foldl (fun s w => s.wireLost m p w) s) s
  (s.health evModule (m + (s.module m).word * 2 ^ 16)).pump

/-- MODULE_RETRAIN_DONE: every flit after ACK is sent again, or the module goes DOWN (R412). -/
def execModuleRetrainDone (m : Nat) (pass : Bool) (s : State) : Host.Outcome State Fault Refusal :=
  if !((s.module m).state == 2 && (s.module m).retraining) then .next s
  else if pass then
    let s := s.updModule m (fun x => { x with retraining := false, sent := x.sent.map (fun f => { f with resends := 0 }) })
    let x := s.module m
    .next ({ s.setModule m { x with replays := satTo 16 (x.replays + x.sent.length) } with
      out := s.out ++ x.sent.map (fun f => .resend m f.fseq) } : State).pump
  else .next (s.moduleDown m)

/-- The COMPLETION that answers a message, from the tile it reached (R402, R405). -/
def State.answer (s : State) (h : MsgHead) (t sub status : Nat) (data : List Byte) : State :=
  s.send t (if h.host then 64 else h.srcStack % 64) (s.channel t) (flitsOf data.length)
    (.completion sub (if h.host then 0 else h.srcStack % 64 * 2 ^ 58 + h.srcTile % 1024) h.tag status data)

/-- The status with which a tile meets an access of HOST or of a stack: unbound, not permitted, fenced, or accepted (R19, R27, R404,
R579). -/
def State.remoteStatus (s : State) (h : MsgHead) (d : DevAddr) : Nat :=
  let x := s.tile d.tile
  let reached := if d.space == 0 then x.access else s.columnServed d.tile
  if !reached || !(moduleTiles h.module).any (fun e => s.pathRuns e d.tile) then stUnbound
  else if !h.host && !bitOf (x.bound.elim 0 (fun p => (s.part p).remoteMask)) (h.srcStack % 64) then stPartition
  else if (x.fenced || x.fired) && d.space == 0 then stTileFenced
  else stOk

/-- A message reaches the stack: one with a LEN out of range or a reserved field, and one for another stack, is counted; `go` acts on it
(R402, R403). -/
def State.arrive (s : State) (h : MsgHead) (len : Nat) (rsv other : Bool) (go : State) : State :=
  if !s.moduleRuns h.module || !s.pins.stops.isEmpty then s
  else if rsv || decide (2048 < len) then s.countUndef
  else if other then s.countTarget
  else go

/-- READ: served and answered with its bytes, or with the status that refused it (R274, R403 to R405). -/
def execRead (h : MsgHead) (len : Nat) (s : State) : Host.Outcome State Fault Refusal :=
  let a := h.addr.toNat
  let d := devAddr a
  let st := if rangeStatus a len != stOk then rangeStatus a len else s.remoteStatus h d
  let (f, st, bs) := if st != stOk then (s.fab, st, []) else s.fab.checkedRead d len
  .next (s.arrive h len (h.aux != 0) (d.stack != s.stackId) ((s.setFab f).answer h d.tile 0 st bs))

/-- A WRITE or an MCAST copy at this stack, answered once its bytes have landed (R404, R405, R417). -/
def State.landWrite (s : State) (h : MsgHead) (data : List Byte) : State :=
  let a := h.addr.toNat
  let d := devAddr a
  let st := if rangeStatus a data.length != stOk then rangeStatus a data.length else s.remoteStatus h d
  if st != stOk then s.answer h d.tile 1 st []
  else
    let (st, f) := s.fab.localWrite d data
    (s.setFab f).answer h d.tile 1 st []

/-- WRITE (R403 to R405). -/
def execWrite (h : MsgHead) (data : List Byte) (s : State) : Host.Outcome State Fault Refusal :=
  .next (s.arrive h data.length (h.aux != 0) ((devAddr h.addr.toNat).stack != s.stackId) (s.landWrite h data))

/-- MCAST: taken as a WRITE to this stack, whose bit the mask holds; the stack field of ADDR is ignored (R402, R417). -/
def execMcast (h : MsgHead) (data : List Byte) (s : State) : Host.Outcome State Fault Refusal :=
  .next (s.arrive h data.length false (!bitOf h.aux.toNat s.stackId) (s.landWrite h data))

/-- The form of an ATOMIC's ADDR (R402, R403). -/
def atomicForm (a : Nat) : Bool := bits a 56 2 == 3 && bits a 25 31 == 0

/-- The remote-producer wire that a SIGNAL names at tile `t`, with its partition (R402, R415). -/
def State.signalledWire (s : State) (h : MsgHead) (t : Nat) : Option (Nat × Wire) :=
  (s.boundParts.flatMap (fun p => (s.part p).wires.map (fun w => (p, w)))).find? (fun e =>
    e.2.link == bits h.addr.toNat 0 16 && farTile e.2.ptile && bits e.2.ptile 9 6 == h.srcStack && bits e.2.ptile 0 9 == h.srcTile
      && e.2.cons.any (fun c => c.1 == t))

/-- The wire whose remote consumer entry a RELEASE names at tile `t`, with its partition (R402, R415). -/
def State.releasedWire (s : State) (h : MsgHead) (t : Nat) : Option (Nat × Wire) :=
  (s.boundParts.flatMap (fun p => (s.part p).wires.map (fun w => (p, w)))).find? (fun e =>
    e.2.link == bits h.addr.toNat 0 16 && e.2.ptile == t && (match e.2.cons[bits h.aux.toNat 8 6]? with
      | some c => farTile c.1 && bits c.1 9 6 == h.srcStack && bits c.1 0 9 == h.srcTile
      | none => false))

/-- ATOMIC SIGNAL: applied to the full semaphore of the remote-producer wire with that LINK and that producer at the tile named (R402,
R403, R415, R416). -/
def execAtomicSignal (h : MsgHead) (s : State) : Host.Outcome State Fault Refusal :=
  let a := h.addr.toNat
  let t := bits a 16 9
  let go := match s.signalledWire h t with
    | some (p, w) =>
      if (s.tile t).access && !h.host then
        s.applySem ⟨p, w.link, false, (w.cons.findIdx? (fun c => c.1 == t)).getD 0, bitOf h.aux.toNat 0, t, true⟩
      else s.countAtomic
    | none => s.countAtomic
  .next (s.arrive h 0 (!atomicForm a || bits h.aux.toNat 1 63 != 0) ((devAddr a).stack != s.stackId) go)

/-- ATOMIC RELEASE: a lag of the remote consumer entry that AUX names (R342, R402, R403, R415, R416). -/
def execAtomicRelease (h : MsgHead) (s : State) : Host.Outcome State Fault Refusal :=
  let a := h.addr.toNat
  let t := bits a 16 9
  let i := bits h.aux.toNat 8 6
  let go := match s.releasedWire h t with
    | some (p, w) => if (s.tile t).access && !h.host then s.applySem ⟨p, w.link, true, i, false, t, true⟩ else s.countAtomic
    | none => s.countAtomic
  .next (s.arrive h 0 (!atomicForm a || bits h.aux.toNat 0 8 != 0 || bits h.aux.toNat 14 50 != 0) ((devAddr a).stack != s.stackId) go)

/-- The outstanding message with a TAG is a READ (false) or a WRITE (true) of a queue (R413). -/
def State.awaits (s : State) (tag : Nat) (isWrite : Bool) : Bool :=
  match s.link.tags.find? (fun e => e.1 == tag) with
  | some (_, .xfer t q _) =>
    !(((s.tile t).queue q).out.any (fun x => x.sent.any (fun u => u.1 == tag) && x.path == .remote (!isWrite)))
  | _ => false

/-- READ_DATA_COMPLETION: matched by TAG and delivered to its transfer, or discarded as late (R405, R407, R413). -/
def execReadDataCompletion (tag status : Nat) (data : List Byte) (s : State) : Host.Outcome State Fault Refusal :=
  .next (if s.awaits tag false then s.endTag tag status data else s.countLate)

/-- WRITE_ACKNOWLEDGEMENT: matched by TAG, or discarded as late (R405, R407, R413). -/
def execWriteAcknowledgement (tag status : Nat) (s : State) : Host.Outcome State Fault Refusal :=
  .next (if s.awaits tag true then s.endTag tag status [] else s.countLate)

/-- REMOTE_TIMEOUT: no completion within 1 ms (R407). -/
def execRemoteTimeout (tag : Nat) (s : State) : Host.Outcome State Fault Refusal :=
  .next (s.endTag tag stRemoteTimeout [])

/-- DOORBELL: one whose ADDR is not 0 beside the stack is counted, as is one without HOST or for another stack; any other reaches the
partition's lead (R380, R402, R403). -/
def execDoorbell (h : MsgHead) (s : State) : Host.Outcome State Fault Refusal :=
  .next (s.arrive h 0 (bits h.addr.toNat 0 58 != 0) (!h.host || (devAddr h.addr.toNat).stack != s.stackId) (s.doorbell (h.pnum % 64) (bits h.aux.toNat 0 32)))

/-- The transfer `n` of a queue, when it is a road access that still has to be answered; a write waits for earlier ones to the same bytes
(R311), and every access for links that retrain (R475). A disabled queue hands no further unit (R333). -/
def State.roadXfer (s : State) (t q n : Nat) (isWrite : Bool) : Option Xfer :=
  match ((s.tile t).queue q).out[n]? with
  | some x => match x.path with
    | .road u w =>
      if w == isWrite && s.fab.roadOpen t u && s.fab.roadOpen u t && !x.answered && s.pins.stops.isEmpty && ((s.tile t).queue q).state != .stop && (!w || ((s.tile t).queue q).landsNow n) then some x
      else none
    | _ => none
  | none => none

/-- The other tile `u` has answered the transfer: beats have crossed the roads to it and back. -/
def State.roadAnswer (s : State) (t u q n status : Nat) (data : List Byte) : State :=
  (s.updFab (fun f => (f.crossed t u).crossed u t)).updTile t (fun y => y.setQueue q { y.queue q with
    out := updateAt (y.queue q).out n (fun x => { x with answered := true, status := status, data := data }) })

/-- ROAD_WRITE: the bytes of the sender's own memory land at the other tile, or the access completes with its status (R317, R318). -/
def execRoadWrite (t q n : Nat) (s : State) : Host.Outcome State Fault Refusal :=
  match s.roadXfer t q n true with
  | none => .next s
  | some x =>
    let d := devAddr x.dst
    let (f, sr, bs) := s.fab.checkedRead (devAddr x.src) x.len
    let s := s.setFab f
    let st := s.roadStatus t d true
    if sr == stTileFenced then .next s
    else if sr != stOk then .next (s.roadAnswer t d.tile q n sr [])
    else if st != stOk then .next (s.roadAnswer t d.tile q n st [])
    else
      let (st, f) := s.fab.localWrite d bs
      .next (((s.setFab f).markDirty t x.page).roadAnswer t d.tile q n st [])

/-- ROAD_READ_REQUEST: the other tile's bytes return, or the access completes with its status; the column of an unbound tile reads as zeros
(R19, R317, R318). -/
def execRoadReadRequest (t q n : Nat) (s : State) : Host.Outcome State Fault Refusal :=
  match s.roadXfer t q n false with
  | none => .next s
  | some x =>
    let d := devAddr x.src
    let st := s.roadStatus t d false
    if st != stOk then .next (s.roadAnswer t d.tile q n st (if st == stUnbound && d.space == 1 then List.replicate x.len 0 else []))
    else
      let (f, st, bs) := s.fab.checkedRead d x.len
      .next ((s.setFab f).roadAnswer t d.tile q n st bs)

end Sys2Proof.Machine
end

