-- ==== Sys2Proof/Machine/Dispatch.lean ====
section
/-! DEFINITION. One arm for each command. -/
namespace Sys2Proof.Machine

def exec (i : Instr) (s : State) : Host.Outcome State Fault Refusal :=
  match i with
  | .powerOnReset => Sys2Proof.Machine.execPowerOnReset s
  | .rstNAssert => Sys2Proof.Machine.execRstNAssert s
  | .resetRelease straps fw0 fw1 => Sys2Proof.Machine.execResetRelease straps fw0 fw1 s
  | .bootSelftest pass => Sys2Proof.Machine.execBootSelftest pass s
  | .siteRecordSubmit flashAnswers => Sys2Proof.Machine.execSiteRecordSubmit flashAnswers s
  | .moduleTrainDone m repaired => Sys2Proof.Machine.execModuleTrainDone m repaired s
  | .trainingTimeout m => Sys2Proof.Machine.execTrainingTimeout m s
  | .bootTest found => Sys2Proof.Machine.execBootTest found s
  | .bootReady => Sys2Proof.Machine.execBootReady s
  | .ledgerCompact => Sys2Proof.Machine.execLedgerCompact s
  | .coldResetWrite => Sys2Proof.Machine.execColdResetWrite s
  | .coldReset => Sys2Proof.Machine.execColdReset s
  | .unbindReset => Sys2Proof.Machine.execUnbindReset s
  | .railOrderBreach first second => Sys2Proof.Machine.execRailOrderBreach first second s
  | .railExcursion rail reading => Sys2Proof.Machine.execRailExcursion rail reading s
  | .railRecovery failedCores => Sys2Proof.Machine.execRailRecovery failedCores s
  | .pwrGoodLoss => Sys2Proof.Machine.execPwrGoodLoss s
  | .refclkLoss => Sys2Proof.Machine.execRefclkLoss s
  | .imageLoad served => Sys2Proof.Machine.execImageLoad served s
  | .cachedImageLoad => Sys2Proof.Machine.execCachedImageLoad s
  | .imageData tag handle offset data => Sys2Proof.Machine.execImageData tag handle offset data s
  | .imageReadTimeout p => Sys2Proof.Machine.execImageReadTimeout p s
  | .applyPass => Sys2Proof.Machine.execApplyPass s
  | .quiesceEnd p => Sys2Proof.Machine.execQuiesceEnd p s
  | .sweep p change => Sys2Proof.Machine.execSweep p change s
  | .sweepVerification p found => Sys2Proof.Machine.execSweepVerification p found s
  | .sectionLoad p => Sys2Proof.Machine.execSectionLoad p s
  | .partitionStart p change => Sys2Proof.Machine.execPartitionStart p change s
  | .pllLock r => Sys2Proof.Machine.execPllLock r s
  | .tileWake t => Sys2Proof.Machine.execTileWake t s
  | .unitGateReopen t u => Sys2Proof.Machine.execUnitGateReopen t u s
  | .class1IdleGate p => Sys2Proof.Machine.execClass1IdleGate p s
  | .startGrant => Sys2Proof.Machine.execStartGrant s
  | .onRampComplete t x => Sys2Proof.Machine.execOnRampComplete t x s
  | .offRampComplete t x => Sys2Proof.Machine.execOffRampComplete t x s
  | .outputPositionIssue t x => Sys2Proof.Machine.execOutputPositionIssue t x s
  | .slotReload t x => Sys2Proof.Machine.execSlotReload t x s
  | .movingFront t x => Sys2Proof.Machine.execMovingFront t x s
  | .stoppedReload t x => Sys2Proof.Machine.execStoppedReload t x s
  | .psumOut t x j => Sys2Proof.Machine.execPsumOut t x j s
  | .rescaleRetry t x => Sys2Proof.Machine.execRescaleRetry t x s
  | .drainComplete t x => Sys2Proof.Machine.execDrainComplete t x s
  | .columnCheckFail t x c => Sys2Proof.Machine.execColumnCheckFail t x c s
  | .columnRequalifyDone t x bad => Sys2Proof.Machine.execColumnRequalifyDone t x bad s
  | .gangParityMismatch t x d => Sys2Proof.Machine.execGangParityMismatch t x d s
  | .neighbourParityMismatch t d => Sys2Proof.Machine.execNeighbourParityMismatch t d s
  | .linkRetestDone t d pass => Sys2Proof.Machine.execLinkRetestDone t d pass s
  | .pairBlockFill t => Sys2Proof.Machine.execPairBlockFill t s
  | .fusedPairPeriod t => Sys2Proof.Machine.execFusedPairPeriod t s
  | .take t => Sys2Proof.Machine.execTake t s
  | .workContextArrival t => Sys2Proof.Machine.execWorkContextArrival t s
  | .done t => Sys2Proof.Machine.execDone t s
  | .reportMerge t => Sys2Proof.Machine.execReportMerge t s
  | .completionRecordWrite p => Sys2Proof.Machine.execCompletionRecordWrite p s
  | .itinLoop t => Sys2Proof.Machine.execItinLoop t s
  | .branch t => Sys2Proof.Machine.execBranch t s
  | .ckpt t => Sys2Proof.Machine.execCkpt t s
  | .checkpointCommit p => Sys2Proof.Machine.execCheckpointCommit p s
  | .sync t => Sys2Proof.Machine.execSync t s
  | .single t => Sys2Proof.Machine.execSingle t s
  | .paired t => Sys2Proof.Machine.execPaired t s
  | .elem t => Sys2Proof.Machine.execElem t s
  | .softmax t => Sys2Proof.Machine.execSoftmax t s
  | .add t => Sys2Proof.Machine.execAdd t s
  | .sub t => Sys2Proof.Machine.execSub t s
  | .mul t => Sys2Proof.Machine.execMul t s
  | .mad t => Sys2Proof.Machine.execMad t s
  | .div t => Sys2Proof.Machine.execDiv t s
  | .min t => Sys2Proof.Machine.execMin t s
  | .max t => Sys2Proof.Machine.execMax t s
  | .abs t => Sys2Proof.Machine.execAbs t s
  | .neg t => Sys2Proof.Machine.execNeg t s
  | .scale2 t => Sys2Proof.Machine.execScale2 t s
  | .select t => Sys2Proof.Machine.execSelect t s
  | .func t => Sys2Proof.Machine.execFunc t s
  | .dfunc t => Sys2Proof.Machine.execDfunc t s
  | .rsum t => Sys2Proof.Machine.execRsum t s
  | .rmax t => Sys2Proof.Machine.execRmax t s
  | .rmin t => Sys2Proof.Machine.execRmin t s
  | .rmaxi t => Sys2Proof.Machine.execRmaxi t s
  | .rmini t => Sys2Proof.Machine.execRmini t s
  | .jadd t => Sys2Proof.Machine.execJadd t s
  | .conv t => Sys2Proof.Machine.execConv t s
  | .junct t => Sys2Proof.Machine.execJunct t s
  | .stepComplete t n => Sys2Proof.Machine.execStepComplete t n s
  | .launch t => Sys2Proof.Machine.execLaunch t s
  | .relay t => Sys2Proof.Machine.execRelay t s
  | .halo t => Sys2Proof.Machine.execHalo t s
  | .wbuf t => Sys2Proof.Machine.execWbuf t s
  | .swing t => Sys2Proof.Machine.execSwing t s
  | .shadowStart t q => Sys2Proof.Machine.execShadowStart t q s
  | .base t q => Sys2Proof.Machine.execBase t q s
  | .strmLoop t q => Sys2Proof.Machine.execStrmLoop t q s
  | .xfer t q => Sys2Proof.Machine.execXfer t q s
  | .fptEntryRead t q => Sys2Proof.Machine.execFptEntryRead t q s
  | .tend t q => Sys2Proof.Machine.execTend t q s
  | .signal t q => Sys2Proof.Machine.execSignal t q s
  | .wait t q => Sys2Proof.Machine.execWait t q s
  | .transferComplete t q n => Sys2Proof.Machine.execTransferComplete t q n s
  | .columnBurst t burst errors => Sys2Proof.Machine.execColumnBurst t burst errors s
  | .queueSafePoint t q => Sys2Proof.Machine.execQueueSafePoint t q s
  | .semaphoreTake t k => Sys2Proof.Machine.execSemaphoreTake t k s
  | .semaphoreMessage n => Sys2Proof.Machine.execSemaphoreMessage n s
  | .semaphoreRelease t => Sys2Proof.Machine.execSemaphoreRelease t s
  | .relayBlockSend t => Sys2Proof.Machine.execRelayBlockSend t s
  | .relayBeatArrival t => Sys2Proof.Machine.execRelayBeatArrival t s
  | .relaySlotRelease t => Sys2Proof.Machine.execRelaySlotRelease t s
  | .haloDirection t d => Sys2Proof.Machine.execHaloDirection t d s
  | .neighbourEngineSafePoint t => Sys2Proof.Machine.execNeighbourEngineSafePoint t s
  | .roadWrite t q n => Sys2Proof.Machine.execRoadWrite t q n s
  | .roadReadRequest t q n => Sys2Proof.Machine.execRoadReadRequest t q n s
  | .roadBeatCrcFail t d => Sys2Proof.Machine.execRoadBeatCrcFail t d s
  | .roadLinkRetrain t d => Sys2Proof.Machine.execRoadLinkRetrain t d s
  | .roadRetrainDone t d pass wires => Sys2Proof.Machine.execRoadRetrainDone t d pass wires s
  | .gatherFlush t => Sys2Proof.Machine.execGatherFlush t s
  | .spPatrolScrub t line cells => Sys2Proof.Machine.execSpPatrolScrub t line cells s
  | .dsPatrolScrub t codeword errors => Sys2Proof.Machine.execDsPatrolScrub t codeword errors s
  | .refreshRow t => Sys2Proof.Machine.execRefreshRow t s
  | .refreshForce t => Sys2Proof.Machine.execRefreshForce t s
  | .sensorSample compute holeile => Sys2Proof.Machine.execSensorSample compute holeile s
  | .controlPeriod power class0Power => Sys2Proof.Machine.execControlPeriod power class0Power s
  | .telemetrySample iVcore rails => Sys2Proof.Machine.execTelemetrySample iVcore rails s
  | .pwShapeWrite v => Sys2Proof.Machine.execPwShapeWrite v s
  | .tileCoreFailure t block => Sys2Proof.Machine.execTileCoreFailure t block s
  | .partitionSafePoint p => Sys2Proof.Machine.execPartitionSafePoint p s
  | .coreRetestDone t pass => Sys2Proof.Machine.execCoreRetestDone t pass s
  | .hold p => Sys2Proof.Machine.execHold p s
  | .holdRelease p => Sys2Proof.Machine.execHoldRelease p s
  | .ptFptInval p => Sys2Proof.Machine.execPtFptInval p s
  | .ptFpResume p v => Sys2Proof.Machine.execPtFpResume p v s
  | .ptCplHeadWrite p v => Sys2Proof.Machine.execPtCplHeadWrite p v s
  | .hlLossPop v => Sys2Proof.Machine.execHlLossPop v s
  | .registerWrite via offset v => Sys2Proof.Machine.execRegisterWrite via offset v s
  | .i3cOffsetWrite offset => Sys2Proof.Machine.execI3cOffsetWrite offset s
  | .setdasa static dynamic => Sys2Proof.Machine.execSetdasa static dynamic s
  | .entdaa dynamic => Sys2Proof.Machine.execEntdaa dynamic s
  | .getNonce => Sys2Proof.Machine.execGetNonce s
  | .takeOwnership => Sys2Proof.Machine.execTakeOwnership s
  | .slotProgram => Sys2Proof.Machine.execSlotProgram s
  | .slotRevoke => Sys2Proof.Machine.execSlotRevoke s
  | .counterRaise => Sys2Proof.Machine.execCounterRaise s
  | .debugUnlock => Sys2Proof.Machine.execDebugUnlock s
  | .debugLock => Sys2Proof.Machine.execDebugLock s
  | .debugFuse => Sys2Proof.Machine.execDebugFuse s
  | .zeroiseClear => Sys2Proof.Machine.execZeroiseClear s
  | .zeroiseDecommission => Sys2Proof.Machine.execZeroiseDecommission s
  | .nonceExpiry => Sys2Proof.Machine.execNonceExpiry s
  | .getVersion via request => Sys2Proof.Machine.execGetVersion via request s
  | .getCapabilities via request => Sys2Proof.Machine.execGetCapabilities via request s
  | .negotiateAlgorithms via request => Sys2Proof.Machine.execNegotiateAlgorithms via request s
  | .getDigests via request => Sys2Proof.Machine.execGetDigests via request s
  | .getCertificate via slot offset length => Sys2Proof.Machine.execGetCertificate via slot offset length s
  | .challenge via slot request => Sys2Proof.Machine.execChallenge via slot request s
  | .getMeasurements via index signed request => Sys2Proof.Machine.execGetMeasurements via index signed request s
  | .spdmUnsupported via code => Sys2Proof.Machine.execSpdmUnsupported via code s
  | .flitReceive m flit => Sys2Proof.Machine.execFlitReceive m flit s
  | .nak m ack => Sys2Proof.Machine.execNak m ack s
  | .flitAckTimeout m fseq => Sys2Proof.Machine.execFlitAckTimeout m fseq s
  | .moduleRetrain m => Sys2Proof.Machine.execModuleRetrain m s
  | .moduleRetrainDone m pass => Sys2Proof.Machine.execModuleRetrainDone m pass s
  | .read h len => Sys2Proof.Machine.execRead h len s
  | .write h data => Sys2Proof.Machine.execWrite h data s
  | .atomicSignal h => Sys2Proof.Machine.execAtomicSignal h s
  | .atomicRelease h => Sys2Proof.Machine.execAtomicRelease h s
  | .mcast h data => Sys2Proof.Machine.execMcast h data s
  | .doorbell h => Sys2Proof.Machine.execDoorbell h s
  | .readDataCompletion tag status data => Sys2Proof.Machine.execReadDataCompletion tag status data s
  | .writeAcknowledgement tag status => Sys2Proof.Machine.execWriteAcknowledgement tag status s
  | .remoteTimeout tag => Sys2Proof.Machine.execRemoteTimeout tag s
  | .bypass tdi => Sys2Proof.Machine.execBypass tdi s
  | .idcode => Sys2Proof.Machine.execIdcode s
  | .samplePreload pins load => Sys2Proof.Machine.execSamplePreload pins load s
  | .extest pins load => Sys2Proof.Machine.execExtest pins load s
  | .tapReset => Sys2Proof.Machine.execTapReset s
  | .coreInstrumentAccess addr data len => Sys2Proof.Machine.execCoreInstrumentAccess addr data len s
  | .vectorUnitSafePoint t => Sys2Proof.Machine.execVectorUnitSafePoint t s
  | .shellFailure t => Sys2Proof.Machine.execShellFailure t s
  | .ledgerReplayDone => Sys2Proof.Machine.execLedgerReplayDone s

end Sys2Proof.Machine
end

