-- ==== Sys2Proof/WellFormed.lean ====
section
/-! DEFINITION. Which operands name something of the device: tiles (R9), queues (R302), semaphores (R337), partitions (R46),
modules (R15), regions (R24), bursts, codewords and lines with their symbols and cells (R282, R286, R290, R292), flits and message data (R398, R400).
The operands are the model's own (log 2); a command that names nothing of the device has no effect of its own there. -/
namespace Sys2Proof.WellFormed

def tile (t : Nat) : Bool := decide (t < 512)
def queue (q : Nat) : Bool := decide (q < 8)
def semaphore (i : Nat) : Bool := decide (i < 64)
def partition (p : Nat) : Bool := decide (p < 64)
def link (m : Nat) : Bool := decide (m < 16)
def region (r : Nat) : Bool := decide (r < 16)
def column (c : Nat) : Bool := decide (c < 32)
def symbol (i : Nat) : Bool := decide (i < 72)
def tag (n : Nat) : Bool := decide (n < 2 ^ 16)
def statusCode (n : Nat) : Bool := decide (n < 256)

/-- The self-test of the boot names tiles of the grid and columns of their arrays (R462). -/
def findings (f : TestFindings) : Bool :=
  f.badTiles.all tile && f.badColumns.all (fun c => tile c.tile && column c.col) && f.unusable.all tile

def sweepFindings (f : SweepFindings) : Bool :=
  f.spFail.all tile && f.colFail.all tile && f.lostMats.all tile

/-- The fields of a message head have the widths of R400. -/
def head (h : MsgHead) : Bool :=
  link h.module && tag h.tag && decide (h.srcStack < 64) && decide (h.srcTile ≤ 0x200) && decide (h.pnum < 64)

end Sys2Proof.WellFormed

namespace Sys2Proof

open WellFormed in
/-- Every operand of the command names something of the device. -/
def Instr.wf (i : Instr) : Bool :=
  match i with
  | .powerOnReset | .rstNAssert | .bootSelftest _ | .siteRecordSubmit _ | .bootReady | .ledgerCompact | .coldResetWrite
  | .coldReset | .unbindReset | .railOrderBreach _ _ | .railExcursion _ _ | .pwrGoodLoss | .refclkLoss | .imageLoad _
  | .cachedImageLoad | .applyPass | .startGrant | .sensorSample _ _ | .controlPeriod _ _ | .telemetrySample _ _
  | .pwShapeWrite _ | .hlLossPop _ | .getNonce | .takeOwnership | .slotProgram | .slotRevoke | .counterRaise | .debugUnlock
  | .debugLock | .debugFuse | .zeroiseClear | .zeroiseDecommission | .nonceExpiry | .bypass _ | .idcode | .samplePreload _ _
  | .extest _ _ | .tapReset | .ledgerReplayDone | .semaphoreMessage _ => true
  | .resetRelease straps _ _ => decide (straps < 4)
  | .moduleTrainDone m repaired => link m && decide (repaired ≤ 4)
  | .trainingTimeout m | .moduleRetrain m | .moduleRetrainDone m _ => link m
  | .bootTest found => findings found
  | .railRecovery cores => cores.all tile
  | .imageData n _ _ data => tag n && decide (data.length ≤ 2048)
  | .imageReadTimeout p | .quiesceEnd p | .sectionLoad p | .class1IdleGate p | .completionRecordWrite p | .checkpointCommit p
  | .partitionSafePoint p | .hold p | .holdRelease p | .ptFptInval p | .ptFpResume p _ | .ptCplHeadWrite p _ => partition p
  | .sweep p _ | .partitionStart p _ => partition p
  | .sweepVerification p found => partition p && sweepFindings found
  | .pllLock r => region r
  | .tileWake t | .pairBlockFill t | .fusedPairPeriod t | .take t | .workContextArrival t | .done t | .reportMerge t
  | .itinLoop t | .branch t | .ckpt t | .sync t | .single t | .paired t | .elem t | .softmax t | .add t | .sub t | .mul t
  | .mad t | .div t | .min t | .max t | .abs t | .neg t | .scale2 t | .select t | .func t | .dfunc t | .rsum t | .rmax t
  | .rmin t | .rmaxi t | .rmini t | .jadd t | .conv t | .junct t | .launch t | .relay t | .halo t | .wbuf t | .swing t
  | .semaphoreRelease t | .relayBlockSend t | .relayBeatArrival t | .relaySlotRelease t | .neighbourEngineSafePoint t
  | .gatherFlush t | .refreshRow t | .refreshForce t | .vectorUnitSafePoint t | .shellFailure t => tile t
  | .unitGateReopen t _ | .onRampComplete t _ | .offRampComplete t _ | .outputPositionIssue t _ | .slotReload t _
  | .movingFront t _ | .stoppedReload t _ | .rescaleRetry t _ | .drainComplete t _ | .gangParityMismatch t _ _
  | .neighbourParityMismatch t _ | .linkRetestDone t _ _ | .stepComplete t _ | .haloDirection t _ | .roadBeatCrcFail t _
  | .roadLinkRetrain t _ | .coreRetestDone t _ => tile t
  | .tileCoreFailure t block => tile t && decide (block < 256)
  | .psumOut t _ j => tile t && decide (j < 2 ^ 32)
  | .columnCheckFail t _ c => tile t && column c
  | .columnRequalifyDone t _ bad => tile t && bad.all column
  | .shadowStart t q | .base t q | .strmLoop t q | .xfer t q | .fptEntryRead t q | .tend t q | .signal t q | .wait t q
  | .queueSafePoint t q => tile t && queue q
  | .transferComplete t q _ | .roadWrite t q _ | .roadReadRequest t q _ => tile t && queue q
  | .columnBurst t burst es => tile t && decide (burst < 2 ^ 16) && decide (es.length ≤ 8) && es.all (fun e => e.all symbol)
  | .semaphoreTake t i => tile t && semaphore i
  | .roadRetrainDone t _ _ wires => tile t && decide (wires ≤ 4)
  | .spPatrolScrub t line cells => tile t && decide (line < 2 ^ 11) && cells.all (fun c => decide (c.1 < 32) && decide (c.2 < 1152))
  | .dsPatrolScrub t codeword es => tile t && decide (codeword < 2 ^ 19) && es.all symbol
  | .registerWrite _ offset _ => decide (offset < 2 ^ 56)
  | .i3cOffsetWrite offset => decide (offset < 2 ^ 32)
  | .setdasa s d => decide (s < 128) && decide (d < 128)
  | .entdaa d => decide (d < 128)
  | .getVersion _ _ | .getCapabilities _ _ | .negotiateAlgorithms _ _ | .getDigests _ _ => true
  | .getCertificate _ slot offset length => decide (slot < 8) && decide (offset < 2 ^ 16) && decide (length < 2 ^ 16)
  | .challenge _ slot _ => decide (slot < 8)
  | .getMeasurements _ index _ _ => decide (index < 256)
  | .spdmUnsupported _ code => statusCode code
  | .flitReceive m flit => link m && decide (flit.length = 256)
  | .nak m ack => link m && decide (ack < 4096)
  | .flitAckTimeout m fseq => link m && decide (fseq < 4096)
  | .read h _ | .atomicSignal h | .atomicRelease h | .doorbell h => head h
  | .write h data | .mcast h data => head h && decide (data.length ≤ 2048)
  | .readDataCompletion n status data => tag n && statusCode status && decide (data.length ≤ 2048)
  | .writeAcknowledgement n status => tag n && statusCode status
  | .remoteTimeout n => tag n
  | .coreInstrumentAccess _ _ _ => true

end Sys2Proof
end

