-- ==== Sys2Proof/Safety.lean ====
section
/-! DEFINITION. The terms in which statements speak of states: where a sequencer and a stream stand, and which parts of the
device a command leaves as they were. -/
namespace Sys2Proof.Machine

/-- Tile `t` of partition `pn` is ready to issue step `st`: its sequencer runs, `q` is its sequencer once the steps that do not
concern it are passed over, and the step has no WSEM or its take has been granted (R367, R368). -/
def State.StandsAt (s : State) (t pn : Nat) (p : Part) (st : ItinStep) (q : Seq) : Prop :=
  s.partAt t = some (pn, p) ∧ s.seqRuns t = true ∧ seqSettle p t (p.itin.length + 1) (s.tile t).seq = q ∧
  p.itin[q.pc]? = some st ∧ (q.hold = .granted ∨ (q.hold = .run ∧ st.wsem = none))

/-- Tile `t`'s queue `q` is ready for instruction `i` of the stream of launch `l` (R309, R325). -/
def State.StreamAt (s : State) (t q : Nat) (l : Launch) (i : StreamInstr) : Prop :=
  s.streamGoes t q = true ∧ ((s.tile t).queue q).instr = some (l, i)

/-- Only the grid, the links and what the device has sent differ: no supply, register, ledger record, fuse or pin of the steward. -/
def State.SameSteward (s s' : State) : Prop :=
  s'.pending = s.pending ∧ s'.pins = s.pins ∧ s'.boot = s.boot ∧ s'.led = s.led ∧ s'.load = s.load ∧ s'.pow = s.pow ∧
  s'.hl = s.hl ∧ s'.se = s.se ∧ s'.fuse = s.fuse ∧ s'.jtag = s.jtag

/-- The queue of commands, the mailbox, the fuses and the debug port are as before. -/
def State.SameBase (s s' : State) : Prop := s'.pending = s.pending ∧ s'.se = s.se ∧ s'.fuse = s.fuse ∧ s'.jtag = s.jtag

/-- Every byte of every scratchpad and column reads as before. -/
def State.SameMemory (s s' : State) : Prop := ∀ k, memRead s'.fab.mem k = memRead s.fab.mem k

/-- Every byte outside the scratchpad of tile `t` reads as before. -/
def State.SameMemoryBut (s s' : State) (t : Nat) : Prop :=
  ∀ k, (k < spKey t 0 ∨ spKey (t + 1) 0 ≤ k) → memRead s'.fab.mem k = memRead s.fab.mem k

/-- Every tile but `t`, and every partition, is as before. -/
def State.SameTilesBut (s s' : State) (t : Nat) : Prop :=
  (∀ u, u ≠ t → s'.tile u = s.tile u) ∧ ∀ p, s'.part p = s.part p

/-- The mailbox command has ended with a RESULT: the mailbox is idle again, and grid, links' bindings, loader and pins are as before
(R510, R554). -/
def State.EnclaveEnds (s s' : State) (result : Nat) : Prop :=
  s'.se.cmd = none ∧ s'.se.busy = false ∧ s'.se.done = true ∧ s'.se.result = result ∧ s'.fab = s.fab ∧ s'.boot = s.boot ∧
  s'.load = s.load ∧ s'.pins = s.pins ∧ s'.pending = s.pending

/-- One message is due from `src` to `dest` on a channel, and nothing waits before it: it leaves over the module that R408 chooses, waits
for room there, or goes where no route is left (R408, R410). -/
def State.Sends (s s' : State) (src dest ch flits : Nat) (msg : Sent) : Prop :=
  s.link.waiting = [] →
    (s.routeFor src dest = none → s'.out = s.out ∧ s'.link.waiting = []) ∧
    ∀ m, s.routeFor src dest = some m →
      ((s.module m).room ch flits = true → s'.out = s.out ++ [msg] ∧ s'.link.waiting = [] ∧
        (s'.module m).credit ch = (s.module m).credit ch - flits) ∧
      ((s.module m).room ch flits = false → s'.out = s.out ∧ s'.link.waiting = [⟨src, dest, ch, flits, msg⟩])

/-- No cell of tile `t`'s scratchpad holds a wrong bit (R283). -/
def State.CleanPad (s : State) (t : Nat) : Prop := ∀ e ∈ s.fab.flips, e.1 ≠ t

/-- Offset `off` of tile `t`'s scratchpad is a byte that the tile's gather buffer holds (R280). -/
def Tile.Gathered (x : Tile) (off : Nat) : Prop := ∃ e ∈ x.gather, ∃ i b, e.bytes[i]? = some (some b) ∧ off = 32 * e.line + i

/-- Every byte reads as before but the bytes that tile `t` has gathered, where memory is in its canonical form and the tile's scratchpad
holds no wrong bit. -/
def State.SameMemoryButGathered (s s' : State) (t : Nat) : Prop :=
  Memory.wf s.fab.mem = true → s.CleanPad t →
    ∀ k, (∀ off, (s.tile t).Gathered off → k ≠ spKey t off) → memRead s'.fab.mem k = memRead s.fab.mem k

/-- The ranges that a unit of tile `t` reads lie in its scratchpad, which holds no wrong bit (R274, R284). -/
def State.ReadsWell (s : State) (t : Nat) (rs : List (Nat × Nat)) : Prop := s.CleanPad t ∧ ∀ e ∈ rs, e.1 + e.2 ≤ spSize

/-- Tile `t`'s vector unit is powered and idle, no vector step of the sequencer `q` is listed, and the tile's partition runs. -/
def State.VectorFree (s : State) (t : Nat) (q : Seq) : Prop :=
  s.working t = true ∧ (s.tile t).vbusy = false ∧ (s.tile t).vgated = false ∧ ∀ r ∈ q.issued, r.unit ≠ .vector

/-- The commands of the element-wise VEC operations by VOP, and those of the row reductions (R373). -/
def rowwiseCommands : List (Nat × (Nat → Instr)) :=
  [(0, .add), (1, .sub), (2, .mul), (3, .mad), (4, .div), (5, .min), (6, .max), (7, .abs), (8, .neg), (9, .scale2),
   (10, .select), (11, .func), (12, .dfunc), (18, .jadd), (19, .conv)]
def reductionCommands : List (Nat × (Nat → Instr)) := [(13, .rsum), (14, .rmax), (15, .rmin), (16, .rmaxi), (17, .rmini)]

/-- The command of tile `t` that runs a step of a body (R373). -/
def StepBody.RunBy (b : StepBody) (t : Nat) (c : Instr) : Prop :=
  (b = .take ∧ c = .take t) ∨ (b = .done ∧ c = .done t) ∨ (∃ n l o, b = .loop n l o ∧ c = .itinLoop t) ∨
  (∃ k n a v, b = .branch k n a v ∧ c = .branch t) ∨ (∃ a, b = .ckpt a ∧ c = .ckpt t) ∨ (b = .sync ∧ c = .sync t) ∨
  (∃ o, b = .oper o ∧ o.mode = 0 ∧ c = .single t) ∨ (∃ o, b = .oper o ∧ o.mode = 1 ∧ c = .paired t) ∨
  (∃ o, b = .oper o ∧ o.mode = 2 ∧ c = .elem t) ∨ (∃ o, b = .oper o ∧ o.mode = 3 ∧ c = .softmax t) ∨
  (∃ v k, b = .vec v ∧ (v.vop, k) ∈ rowwiseCommands ++ reductionCommands ∧ c = k t) ∨ (∃ j, b = .junct j ∧ c = .junct t) ∨
  (∃ d ps, b = .launch d ps ∧ c = .launch t) ∨ (∃ es, b = .relay es ∧ c = .relay t) ∨ (∃ es, b = .halo es ∧ c = .halo t) ∨
  (∃ a n, b = .wbuf a n ∧ c = .wbuf t) ∨ (b = .swing ∧ c = .swing t)

end Sys2Proof.Machine
end

