-- ==== Sys2Proof/Certificates/Slice0/Obligations.lean ====
section
/-! DEFINITION. The statements for the provers. -/
open Sys2Proof Sys2Proof.Machine

/-- For every command c and every state whose queue begins with c, step is exec of c on the state with the queue's rest; on an
empty queue the block idles (the model's choice, log 1). -/
def Obligations.StepRunsFrontCommand : Prop :=
  (∀ (c : Instr) (cs : List Instr) (s : State), s.pending = c :: cs → step s = exec c { s with pending := cs }) ∧
  ∀ s : State, s.pending = [] → step s = .next s

/-- Completion of ITIN_LOOP and BRANCH. A tile that is ready to issue a LOOP step takes it: with a COUNT of 0 the sequencer goes on behind
the END step as if the body had ended, and otherwise it stands at the step after LOOP inside a new loop of COUNT iterations whose last
step is END, counted down under ORDER 1 and in turns of the loop around it under ORDER 2. At a BRANCH step the sequencer goes to TARGET
when COND holds (0 always, 1 OPSEL equals VALUE, 2 SH[N] equals VALUE, 3 SH[N] is 0) and behind the step otherwise. No partition, no
state of the steward and no byte of memory changes, but for bytes that the tile had gathered. -/
def Obligations.LoopAndBranchSteps : Prop :=
  (∀ (s : State) (t pn : Nat) (p : Part) (st : ItinStep) (q : Seq) (count : Dim) (last order : Nat),
    s.StandsAt t pn p st q → st.body = .loop count last order →
    ∃ s', exec (.itinLoop t) s = .next s' ∧ (s'.tile t).seq.hold = .run ∧ (s'.tile t).seq.lastStep = q.pc ∧
      (dimValue q.ctx count = 0 → ((s'.tile t).seq.loops, (s'.tile t).seq.pc) = seqNext q.loops last) ∧
      (dimValue q.ctx count ≠ 0 → (s'.tile t).seq.pc = q.pc + 1 ∧
        ∃ f, (s'.tile t).seq.loops = f :: q.loops ∧ f.step = q.pc ∧ f.last = last ∧ f.iter = 0 ∧ f.count = dimValue q.ctx count ∧
          (order = 0 → f.desc = false) ∧ (order = 1 → f.desc = true) ∧
          (order = 2 → ∀ g, q.loops.head? = some g → f.desc = decide (g.iter % 2 = 1))) ∧
      (∀ p', s'.part p' = s.part p') ∧ s.SameMemoryButGathered s' t ∧ s.SameSteward s') ∧
  ∀ (s : State) (t pn : Nat) (p : Part) (st : ItinStep) (q : Seq) (cond n target value : Nat),
    s.StandsAt t pn p st q → st.body = .branch cond n target value → cond < 4 →
    ∃ s', exec (.branch t) s = .next s' ∧ (s'.tile t).seq.hold = .run ∧ (s'.tile t).seq.lastStep = q.pc ∧
      (if cond = 0 ∨ (cond = 1 ∧ q.ctx.opsel = value) ∨ (cond = 2 ∧ q.ctx.sh.getD n 0 = value) ∨ (cond = 3 ∧ q.ctx.sh.getD n 0 = 0)
       then (s'.tile t).seq.pc = target ∧ (s'.tile t).seq.loops = q.loops
       else ((s'.tile t).seq.loops, (s'.tile t).seq.pc) = seqNext q.loops q.pc) ∧
      (∀ p', s'.part p' = s.part p') ∧ s.SameMemoryButGathered s' t ∧ s.SameSteward s'

/-- Completion of SYNC, WBUF and SWING. A tile ready to issue SYNC passes it at once and then makes its link, if it names one, behind its
gathered bytes. Out of skip mode, WBUF sets BASE and SIZE with the compute half at BASE, and SWING exchanges the halves once no WB
or WBR stream is at work and no step with WBC is unfinished; until then the sequencer stays at SWING. In skip mode WBUF and SWING are
issued as finished without effect on the working buffer. WBUF and SWING change nothing but the tile. -/
def Obligations.WorkingBufferSteps : Prop :=
  ∀ (s : State) (t pn : Nat) (p : Part) (st : ItinStep) (q : Seq), s.StandsAt t pn p st q →
    (st.body = .sync → ∃ s', exec (.sync t) s = .next s' ∧
      (linkAt p st (q.ranks.headD 0) = none → s' = s.updTile t (fun x => { x with seq := q }.passStep)) ∧
      (∀ l, linkAt p st (q.ranks.headD 0) = some l → s' = ((s.updTile t (fun x => { x with seq := q }.passStep)).gatherAll t).makeLink t l) ∧
      (s'.tile t).seq.issued = q.issued ∧ (s'.tile t).seq.hold = .run ∧
      (q.ranks.length ≤ 1 → ((s'.tile t).seq.loops, (s'.tile t).seq.pc) = seqNext q.loops q.pc) ∧
      (1 < q.ranks.length → (s'.tile t).seq.pc = q.pc ∧ (s'.tile t).seq.ranks = q.ranks.tail)) ∧
    (∀ base size, st.body = .wbuf base size → (q.skip = none →
        exec (.wbuf t) s = .next (s.updTile t (fun x =>
          { x with seq := q, wbBase := base, wbSize := size, swung := false }.issue p st .none true))) ∧
      (q.skip ≠ none → exec (.wbuf t) s = .next (s.updTile t (fun x => { x with seq := q }.issue p st .none true)))) ∧
    (st.body = .swing →
      (q.skip ≠ none → exec (.swing t) s = .next (s.updTile t (fun x => { x with seq := q }.issue p st .none true))) ∧
      (q.skip = none → (s.tile t).wbActive true true = false → (∀ r ∈ q.issued, r.wbc = true → r.finished = true) →
        exec (.swing t) s = .next (s.updTile t (fun x => { x with seq := q, swung := !x.swung }.issue p st .none true))) ∧
      (q.skip = none → ((s.tile t).wbActive true true = true ∨ ∃ r ∈ q.issued, r.wbc = true ∧ r.finished = false) →
        exec (.swing t) s = .next (s.updTile t (fun x => { x with seq := q }))))

/-- Issuing a step appends one run with the step's number, the PASS count of the step, the first rank left and its wire; the
sequencer then takes the next rank of the same step, or counts one more pass and leaves the step. No other field of the
tile changes. When the sequencer of a tile comes to a step that names a WSEM, the step's command begins the take and does
nothing else; DONE and CKPT do so while a work item is in progress. -/
def Obligations.StepsIssueOrWait : Prop :=
  (∀ (x : Tile) (p : Part) (st : ItinStep) (u : StepUnit) (fin : Bool),
    (x.issue p st u fin).seq.issued = x.seq.issued ++ [{ id := x.seq.nextId, step := x.seq.pc, pass := tabGet 0 x.seq.passes x.seq.pc, rank := x.seq.ranks.headD 0, unit := u, dlink := linkAt p st (x.seq.ranks.headD 0), finished := fin, wbc := st.wbc, skip := x.inSkip }] ∧
    (x.issue p st u fin).seq.nextId = x.seq.nextId + 1 ∧ (x.issue p st u fin).seq.lastStep = x.seq.pc ∧
    (x.seq.ranks.length ≤ 1 →
      ((x.issue p st u fin).seq.loops, (x.issue p st u fin).seq.pc) = seqNext x.seq.loops x.seq.pc ∧
      tabGet 0 (x.issue p st u fin).seq.passes x.seq.pc = tabGet 0 x.seq.passes x.seq.pc + 1) ∧
    (1 < x.seq.ranks.length → (x.issue p st u fin).seq.pc = x.seq.pc ∧ (x.issue p st u fin).seq.ranks = x.seq.ranks.tail ∧
      (x.issue p st u fin).seq.passes = x.seq.passes) ∧
    { x.issue p st u fin with seq := x.seq } = x) ∧
  (∀ (s : State) (t pn : Nat) (p : Part) (st : ItinStep) (q : Seq) (i : Nat) (c : Instr),
    s.partAt t = some (pn, p) → s.seqRuns t = true → seqSettle p t (p.itin.length + 1) (s.tile t).seq = q →
    p.itin[q.pc]? = some st → q.hold = .run → st.wsem = some i → st.body.RunBy t c →
    (st.body = .done ∨ (∃ a, st.body = .ckpt a) → (s.tile t).seq.inWork = true) →
      exec c s = .next (s.updTile t (fun x => { x with seq := { q with hold := .wsem }, waits := x.waits ++ [(i, .seq)] })))

/-- Completion of STEP_COMPLETE and GATHER_FLUSH. Relay steps whose blocks have all moved are marked finished first. On a working tile the
n-th issued step, once finished, then leaves the tile's list; a step of the vector unit and a step with a DLINK have every gathered byte
written before that, the DLINK is made, and the vector unit begins its next step, if it has one. An unfinished step stays. GATHER_FLUSH
takes the oldest entry of the gather buffer and, in a scratchpad without a wrong bit, writes the bytes it holds that lie in the
scratchpad and no other byte; no other tile changes. -/
def Obligations.StepCompleteMakesItsLink : Prop :=
  (∀ (s : State) (t n : Nat) (r : StepRun), ((s.updTile t Tile.settleRelays).tile t).seq.issued[n]? = some r → s.tileRuns t = true →
    let s0 := s.updTile t Tile.settleRelays
    let s1 := s0.updTile t (fun x => { x with seq := { x.seq with issued := x.seq.issued.eraseIdx n } })
    let s2 := if r.unit = .vector ∨ r.dlink ≠ none then s1.gatherAll t else s1
    let s3 := match r.dlink with
      | some l => s2.makeLink t l
      | none => s2
    (r.finished = false → exec (.stepComplete t n) s = .next s0) ∧
    (r.finished = true → exec (.stepComplete t n) s = .next (s3.vectorStart t)) ∧
    (s3.tile t).seq.issued = (s0.tile t).seq.issued.eraseIdx n ∧ (r.unit = .vector ∨ r.dlink ≠ none → (s3.tile t).gather = []) ∧
    s.SameMemoryButGathered s3 t ∧ s.SameSteward s3 ∧
    ((∀ u ∈ (s3.tile t).seq.issued, u.unit ≠ .vector) → s3.vectorStart t = s3)) ∧
  ∀ (s : State) (t : Nat) (e : GatherEntry) (es : List GatherEntry), (s.tile t).gather = e :: es → s.tileRuns t = true →
    ∃ s', exec (.gatherFlush t) s = .next s' ∧ (s'.tile t).gather = es ∧
      (Memory.wf s.fab.mem = true → s.CleanPad t →
        (∀ i b, e.bytes[i]? = some (some b) → 32 * e.line + i < spSize → memRead s'.fab.mem (spKey t (32 * e.line + i)) = b) ∧
        (∀ k, (∀ i b, e.bytes[i]? = some (some b) → k ≠ spKey t (32 * e.line + i)) → memRead s'.fab.mem k = memRead s.fab.mem k)) ∧
      s.SameTilesBut s' t ∧ s.SameSteward s'

/-- Completion of ADD, SUB, MUL, MAD, DIV, MIN, MAX, ABS, NEG, SCALE2, SELECT, FUNC, DFUNC, JADD and CONV. A tile that is ready for a VEC step
of one of these operations, out of skip mode, with its vector unit free, a shape within its maxima, a tile in the ring the step names,
if any, and operands that lie in its scratchpad without a wrong bit, issues the step and runs it to its end row by row: row r of the
result, for each operation VOP and for FP32 or INT32 operands, is converted, written and counted by the output plane of the step. A ring
that supplies operand A gives up its full slot. Behind a finished step that has not completed, the step only enters the unit's queue. On
FP32, ADD, SUB and MUL round once, MAD rounds the product and then the sum, DIV rounds the quotient, MIN and MAX take the order of R197,
ABS and NEG act on the sign, SCALE2 scales by the signed IMM, SELECT takes a when c compared with +0 holds, and JADD adds. On INT32,
sums and products wrap, and MIN, MAX and SELECT read the words as signed. -/
def Obligations.ElementwiseSteps : Prop :=
  (∀ (s : State) (t pn : Nat) (p : Part) (st : ItinStep) (q : Seq) (v : Vec) (c : Nat → Instr), (v.vop, c) ∈ rowwiseCommands →
    s.StandsAt t pn p st q → st.body = .vec v → q.skip = none →
    0 < dimValue q.ctx v.rows → dimValue q.ctx v.rows ≤ v.maxR → 0 < dimValue q.ctx v.cols → dimValue q.ctx v.cols ≤ v.maxC →
    (s.VectorFree t q → (∀ k, v.ringOf = some k → 1 ≤ ((s.tile t).queue k).full) →
      s.ReadsWell t ((s.updTile t (fun x => { x with seq := q })).vecReads t p st v) →
      let rows := dimValue q.ctx v.rows
      let cols := dimValue q.ctx v.cols
      let base := if st.wbc then (s.tile t).computeBase p.discipline else 0
      let srcA := match v.ringOf with
        | some k => ((s.tile t).queue k).ringBase + ((s.tile t).queue k).consN % 3 * ((s.tile t).queue k).ringSlot + v.srcA
        | none => base + v.srcA
      let row (r : Nat) : List (BitVec 32) := (List.range cols).map (fun i =>
        let a := (s.operandRow t (srcA + r * v.pitch) st.ifmtA cols).getD i 0
        let b := (s.operandRow t (base + v.srcB + r * v.pitch) st.ifmtB cols).getD i 0
        let d := (s.operandRow t (base + v.srcC + r * v.pitch) st.ifmtC cols).getD i 0
        if st.ifmtA = fmtINT32 then vecOpInt v.vop v.imm a b d else vecOp v.vop v.imm (p.func v.func) a b d)
      let w := (List.range rows).foldl (fun (a : Fabric × Hist) r =>
        putRow a.1 a.2 t (outPlane v.dst v.pitch v.dstAux v.conv cols st.raw (st.ifmtA == fmtINT32))
          ⟨q.ctx.workId, q.pc, tabGet 0 q.passes q.pc⟩ r (row r)) (s.fab, q.rep.hist)
      ∃ s', exec (c t) s = .next s' ∧
        (s'.tile t).seq = (({ s.tile t with seq := { q with rep := { q.rep with hist := w.2 } } }.issue p st .vector false).finishRun q.nextId).seq ∧
        (∀ k, v.ringOf = some k → (s'.tile t).queue k = { (s.tile t).queue k with full := ((s.tile t).queue k).full - 1, free := ((s.tile t).queue k).free + 1, consN := ((s.tile t).queue k).consN + 1 }) ∧
        s'.fab.mem = w.1.mem ∧ s.SameTilesBut s' t ∧ s'.link = s.link ∧ s'.out = s.out ∧ s.SameSteward s') ∧
    (∀ r, q.issued.find? (fun r => r.unit == .vector) = some r → r.finished = true → (q.issued.filter (fun r => r.unit == .vector)).length < 5 →
      exec (c t) s = .next (s.updTile t (fun x => { x with seq := q }.issue p st .vector false)))) ∧
  ((∀ (imm : Nat) (f : Bool → F32 → F32) (a b c : F32),
    vecOp 0 imm f a b c = fadd a b ∧ vecOp 1 imm f a b c = fsub a b ∧ vecOp 2 imm f a b c = fmul a b ∧
    vecOp 3 imm f a b c = fadd (fmul a b) c ∧ vecOp 4 imm f a b c = fdiv a b ∧ vecOp 5 imm f a b c = fmin a b ∧
    vecOp 6 imm f a b c = fmax a b ∧ vecOp 7 imm f a b c = fabs a ∧ vecOp 8 imm f a b c = fneg a ∧
    vecOp 9 imm f a b c = fscale a (signedOf 32 imm) ∧ vecOp 10 imm f a b c = canon (if selectHolds imm c then a else b) ∧
    vecOp 11 imm f a b c = f false a ∧ vecOp 12 imm f a b c = f true a ∧ vecOp 18 imm f a b c = fadd a b ∧ vecOp 19 imm f a b c = canon a) ∧
  ∀ (imm : Nat) (a b c : BitVec 32),
    vecOpInt 0 imm a b c = a + b ∧ vecOpInt 1 imm a b c = a - b ∧ vecOpInt 2 imm a b c = a * b ∧
    (vecOpInt 5 imm a b c).toInt = Min.min a.toInt b.toInt ∧ (vecOpInt 6 imm a b c).toInt = Max.max a.toInt b.toInt ∧
    vecOpInt 8 imm a b c = 0 - a ∧ vecOpInt 10 0 a b c = (if c.toInt < 0 then a else b) ∧
    vecOpInt 10 1 a b c = (if c.toInt ≤ 0 then a else b) ∧ vecOpInt 10 2 a b c = (if c = 0 then a else b))

/-- Writing the rows of an output plane with RAW set, with a pitch of at least four bytes for each element and every row inside the
scratchpad, leaves word i of row r at base + r × pitch + 4 i as the 32 bits of the result, a NaN as the canonical one unless the results
are INT32, leaves every byte outside the rows as it was and counts nothing. -/
def Obligations.RawResultsLieAtDst : Prop :=
  ∀ (f : Fabric) (h : Hist) (t : Nat) (o : OutPlane) (k : SrKey) (rows cols : Nat) (x : Nat → List (BitVec 32)),
    Memory.wf f.mem = true → o.raw = true → 4 * cols ≤ o.pitch → (∀ r, (x r).length = cols) →
    (∀ r, r < rows → o.base + r * o.pitch + 4 * cols ≤ spSize) →
    let w := (List.range rows).foldl (fun (a : Fabric × Hist) r => putRow a.1 a.2 t o k r (x r)) (f, h)
    w.2 = h ∧ Memory.wf w.1.mem = true ∧
    (∀ r i, r < rows → i < cols → memReads w.1.mem (spKey t (o.base + r * o.pitch + 4 * i)) 4 =
      leBytes 4 (if o.int then (x r).getD i 0 else canon ((x r).getD i 0)).toNat) ∧
    ∀ a, (∀ r j, r < rows → j < 4 * cols → a ≠ spKey t (o.base + r * o.pitch + j)) → memRead w.1.mem a = memRead f.mem a

/-- Completion of RSUM, RMAX, RMIN, RMAXI and RMINI. A tile that is ready for a row reduction, out of skip mode, with its vector unit free, a
shape within its maxima, a tile in the ring the step names, if any, and operands that lie in its scratchpad without a wrong bit, issues
the step and runs it to its end. With RAW or an FP32 conversion the result of row r passes through the gather buffer to DST + 4 r;
otherwise the results are one converted row. RMAXI and RMINI also pass the winner's index through the gather buffer to DSTAUX + 4 r. RAW
results are not counted, and the others are. -/
def Obligations.RowReductionCompletes : Prop :=
  ∀ (s : State) (t pn : Nat) (p : Part) (st : ItinStep) (q : Seq) (v : Vec) (c : Nat → Instr), (v.vop, c) ∈ reductionCommands →
    s.StandsAt t pn p st q → st.body = .vec v → q.skip = none → s.VectorFree t q →
    (∀ k, v.ringOf = some k → 1 ≤ ((s.tile t).queue k).full) →
    s.ReadsWell t ((s.updTile t (fun x => { x with seq := q })).vecReads t p st v) →
    0 < dimValue q.ctx v.rows → dimValue q.ctx v.rows ≤ v.maxR → 0 < dimValue q.ctx v.cols → dimValue q.ctx v.cols ≤ v.maxC →
    let rows := dimValue q.ctx v.rows
    let base := if st.wbc then (s.tile t).computeBase p.discipline else 0
    let srcA := match v.ringOf with
      | some k => ((s.tile t).queue k).ringBase + ((s.tile t).queue k).consN % 3 * ((s.tile t).queue k).ringSlot + v.srcA
      | none => base + v.srcA
    let res (r : Nat) : F32 × Nat := reduceRow v.vop (s.operandRow t (srcA + r * v.pitch) st.ifmtA (dimValue q.ctx v.cols))
    let o := outPlane v.dst 0 v.dstAux v.conv rows st.raw false
    let small := st.raw = true ∨ o.conv.fmt = fmtFP32
    let w : Fabric × Hist := if st.raw = true then (s.fab, q.rep.hist)
      else if o.conv.fmt = fmtFP32 then (s.fab, (List.range rows).foldl (fun h r => histCount h (res r).1 (fp32Class (res r).1)) q.rep.hist)
      else putRow s.fab q.rep.hist t o ⟨q.ctx.workId, q.pc, tabGet 0 q.passes q.pc⟩ 0 ((List.range rows).map (fun r => (res r).1))
    let s1 := s.setFab w.1
    let s2 := if small then (List.range rows).foldl (fun z r => z.smallWrite t (v.dst + 4 * r) (leBytes 4 (res r).1.toNat)) s1 else s1
    let s3 := if v.vop = 16 ∨ v.vop = 17 then (List.range rows).foldl (fun z r => z.smallWrite t (v.dstAux + 4 * r) (leBytes 4 (res r).2)) s2 else s2
    ∃ s', exec (c t) s = .next s' ∧
      (s'.tile t).seq = (({ s.tile t with seq := { q with rep := { q.rep with hist := w.2 } } }.issue p st .vector false).finishRun q.nextId).seq ∧
      s'.fab.mem = s3.fab.mem ∧ (s'.tile t).gather = (s3.tile t).gather ∧
      (∀ k, v.ringOf = some k → (s'.tile t).queue k = { (s.tile t).queue k with full := ((s.tile t).queue k).full - 1, free := ((s.tile t).queue k).free + 1, consN := ((s.tile t).queue k).consN + 1 }) ∧
      s.SameTilesBut s' t ∧ s'.link = s.link ∧ s'.out = s.out ∧ s.SameSteward s'

/-- Completion of JUNCT. A tile that is ready for a JUNCT step, out of skip mode, with its vector unit free, a COUNT of 1 to MAX and leaves
that lie in its scratchpad without a wrong bit, writes element i as the junction tree of the present leaves' elements i, +0 or 0 where
no leaf is present, and issues the step as finished. -/
def Obligations.JunctionStepCompletes : Prop :=
  ∀ (s : State) (t pn : Nat) (p : Part) (st : ItinStep) (q : Seq) (j : Junct),
    s.StandsAt t pn p st q → st.body = .junct j → q.skip = none → s.VectorFree t q →
    s.ReadsWell t ((s.updTile t (fun x => { x with seq := q })).junctReads t p st j) →
    0 < dimValue q.ctx j.count → dimValue q.ctx j.count ≤ j.max →
    let n := dimValue q.ctx j.count
    let base := if st.wbc then (s.tile t).computeBase p.discipline else 0
    let leaf (i : Nat) : Option (List (BitVec 32)) := if bitOf j.present i then some (s.operandRow t (base + j.srcs.getD i 0) st.ifmtA n) else none
    let w := putRow s.fab q.rep.hist t (outPlane j.dst 0 j.dstAux j.conv n st.raw (st.ifmtA == fmtINT32)) ⟨q.ctx.workId, q.pc, tabGet 0 q.passes q.pc⟩ 0
      ((List.range n).map (fun i => (junctionTree (st.ifmtA == fmtINT32) 3 ((List.range j.nr).map (fun k => (leaf k).map (fun l => l.getD i 0)))).getD 0))
    ∃ s', exec (.junct t) s = .next s' ∧
      (s'.tile t).seq = (({ s.tile t with seq := { q with rep := { q.rep with hist := w.2 } } }.issue p st .vector false).finishRun q.nextId).seq ∧
      s'.fab.mem = w.1.mem ∧ s.SameTilesBut s' t ∧ s'.link = s.link ∧ s'.out = s.out ∧ s.SameSteward s'

/-- With a dimension above its maximum a VEC step that names no ring completes without running and the tile enters skip mode with OVERSIZE
at that step; with none above and one equal to 0 it passes at once and makes its DLINK behind the gathered bytes. In skip mode it
completes without running. A step in skip mode that names a ring holding a tile takes that tile and gives its slot back when the vector
unit is free. -/
def Obligations.VectorShapesOutOfRange : Prop :=
  ∀ (s : State) (t pn : Nat) (p : Part) (st : ItinStep) (q : Seq) (v : Vec) (c : Nat → Instr),
    (v.vop, c) ∈ rowwiseCommands ++ reductionCommands → s.StandsAt t pn p st q → st.body = .vec v →
    (v.ringOf = none →
      (q.skip ≠ none → exec (c t) s = .next (s.updTile t (fun x => { x with seq := q }.issue p st .none true))) ∧
      (q.skip = none → v.maxR < dimValue q.ctx v.rows ∨ v.maxC < dimValue q.ctx v.cols →
        exec (c t) s = .next (s.updTile t (fun x => ({ x with seq := q }.enterSkip ⟨stOversize, q.pc, t⟩).issue p st .none true))) ∧
      (q.skip = none → dimValue q.ctx v.rows ≤ v.maxR → dimValue q.ctx v.cols ≤ v.maxC →
        dimValue q.ctx v.rows = 0 ∨ dimValue q.ctx v.cols = 0 →
        exec (c t) s = .next ((s.updTile t (fun x => { x with seq := q })).completeNow t p st))) ∧
    (∀ k, v.ringOf = some k → q.skip ≠ none → s.VectorFree t q → 1 ≤ ((s.tile t).queue k).full →
      exec (c t) s = .next (s.updTile t (fun x => (({ x with seq := q }.issue p st .vector false).passRing k).finishRun q.nextId)))

/-- Completion of LAUNCH and SHADOW_START. A tile that is ready for a LAUNCH step issues it to the descriptor's queue with the value of every
parameter source, for the tile whose rank it serves; a launch for another tile's rank waits while the shadow is full. The launch starts
on an idle queue, in LAST when the stream issues no transfer and else in RUN; goes to the shadow of a queue at work, REARM telling that
one stood there; and is discarded with REARM on a queue in STOP or ERROR. In a running partition, a queue in LAST whose program has ended
with nothing outstanding starts its shadow with registers, loops and position 0; with a transfer outstanding or in another state nothing
happens. -/
def Obligations.LaunchArmsItsQueue : Prop :=
  (∀ (s : State) (t pn : Nat) (p : Part) (st : ItinStep) (q : Seq) (d : Desc) (ps : List PSource) (k : Comp),
    s.StandsAt t pn p st q → st.body = .launch d ps → p.comp = some k →
    let rank := q.ranks.headD 0
    let home := (stepTargets k st).getD rank t
    let l : Launch := { desc := d, params := ps.map (paramValue s.stackId t home rank q), run := q.nextId, step := q.pc, prog := (k.progs.find? (fun g => g.id == d.prog)).getD ⟨d.prog, []⟩, rank := if (stepTargets k st).length ≤ 1 then 0 else rank }
    let u := (s.tile t).queue d.queue
    (home ≠ t → u.shadow ≠ none → exec (.launch t) s = .next s) ∧
    (home = t ∨ u.shadow = none → ∃ s', exec (.launch t) s = .next s' ∧
      s' = s.updTile t (fun x => ({ x with seq := q }.issue p st (.queue d.queue) false).armQueue l) ∧
      let w := (s'.tile t).queue d.queue
      (u.state = .idle → l.prog.instrs ≠ [] →
        w = (if (u.start l q.skip.isSome).issuesMore l then u.start l q.skip.isSome else { u.start l q.skip.isSome with state := .last })) ∧
      (u.state ∈ [QState.run, .last, .halt] → w = { u with shadow := some l, rearm := u.rearm || u.shadow.isSome }) ∧
      (u.state ∈ [QState.stop, .error] → w = { u with rearm := true }) ∧
      (∀ j, j ≠ d.queue → (s'.tile t).queue j = (s.tile t).queue j))) ∧
  ∀ (s : State) (t q : Nat) (l c : Launch),
    let u := (s.tile t).queue q
    u.shadow = some l → u.cur = some c →
    (s.working t = true → u.state = .last → u.out = [] → c.prog.instrs.length ≤ u.pc → l.prog.instrs ≠ [] → ∃ s', exec (.shadowStart t q) s = .next s' ∧
      let v := { u.start l (s.tile t).inSkip with shadow := none }
      (s'.tile t).queue q = (if v.issuesMore l then v else { v with state := .last }) ∧
      (∀ j, j ≠ q → (s'.tile t).queue j = (s.tile t).queue j) ∧ s.SameTilesBut s' t ∧ s.SameMemory s' ∧ s.SameSteward s') ∧
    (u.state ≠ .last ∨ u.out ≠ [] → exec (.shadowStart t q) s = .next s)

/-- Completion of BASE and STRM_LOOP. A stream that stands at BASE sets the register that the instruction names to its parameter plus its
offset, modulo 2^64, and leaves the other. One that stands at LOOP takes the count from a parameter's low 32 bits or from the
instruction; 0 goes on behind the body and any other count opens the loop. Memory, the tile's other queues, other tiles and the
steward's state stay as they were. -/
def Obligations.BaseAndLoopInstructions : Prop :=
  ∀ (s : State) (t q : Nat) (l : Launch),
    (∀ (dest : Bool) (psel off : Nat), s.StreamAt t q l (.base dest psel off) → ∃ s', exec (.base t q) s = .next s' ∧
      let u := (s.tile t).queue q
      let w := (s'.tile t).queue q
      (w.loops, w.pc) = loopNext u.loops u.pc ∧ w.srcReg = (if dest then u.srcReg else (l.params.getD psel 0 + off) % 2 ^ 64) ∧
      w.dstReg = (if dest then (l.params.getD psel 0 + off) % 2 ^ 64 else u.dstReg) ∧ w.out = u.out ∧
      (∀ j, j ≠ q → (s'.tile t).queue j = (s.tile t).queue j) ∧ s.SameTilesBut s' t ∧ s.SameMemory s' ∧ s.SameSteward s') ∧
    ∀ (last csel count : Nat) (ss ds : Int), s.StreamAt t q l (.loop last csel count ss ds) → ∃ s', exec (.strmLoop t q) s = .next s' ∧
      let u := (s.tile t).queue q
      let w := (s'.tile t).queue q
      let n := if csel < 8 then l.params.getD csel 0 % 2 ^ 32 else count
      (n = 0 → (w.loops, w.pc) = loopNext u.loops last) ∧
      (n ≠ 0 → w.pc = u.pc + 1 ∧ w.loops = ⟨u.pc + 1, last, 0, n, ss, ds⟩ :: u.loops) ∧
      w.srcReg = u.srcReg ∧ w.dstReg = u.dstReg ∧ w.out = u.out ∧
      (∀ j, j ≠ q → (s'.tile t).queue j = (s.tile t).queue j) ∧ s.SameTilesBut s' t ∧ s.SameMemory s' ∧ s.SameSteward s'

/-- Completion of TEND. With no transfer outstanding and its slots at hand, a stream at TEND ends its scratchpad tile: into a ring, FULL of
its queue and the producer's count grow by one, the slot is taken from FREE if it was not yet taken, and nothing is held any more; out of
a ring, FREE there grows by one, one more is consumed, and the tile is taken from FULL if it was not yet taken. A vector step that waits
begins thereafter. With a transfer outstanding, with no free slot to fill, or with no full one to empty, the stream waits. A stream
that both fills and empties its own queue's ring is left out. -/
def Obligations.TendHandsTheTileOver : Prop :=
  ∀ (s : State) (t q : Nat) (l : Launch), s.StreamAt t q l .tend →
    let u := (s.tile t).queue q
    let r := (s.tile t).queue l.desc.ringq
    (l.desc.dest = 1 → u.ringBase = l.desc.ringBase ∧ u.ringSlot = l.desc.slot) →
    (u.out ≠ [] → exec (.tend t q) s = .next (s.vectorStart t)) ∧
    (l.desc.dest = 1 → u.prodHeld = false → u.free = 0 → exec (.tend t q) s = .next (s.vectorStart t)) ∧
    (l.desc.dest ≠ 1 → l.desc.src = 1 → u.consHeld = false → r.full = 0 → exec (.tend t q) s = .next (s.vectorStart t)) ∧
    (u.out = [] → (l.desc.dest = 1 → u.prodHeld = true ∨ 1 ≤ u.free) → (l.desc.src = 1 → u.consHeld = true ∨ 1 ≤ r.full) →
      (l.desc.dest = 1 → l.desc.src = 1 → l.desc.ringq ≠ q) →
      ∃ s', exec (.tend t q) s = .next (s'.vectorStart t) ∧
        let w := (s'.tile t).queue q
        let r' := (s'.tile t).queue l.desc.ringq
        (l.desc.dest = 1 → w.full = u.full + 1 ∧ w.free = (if u.prodHeld then u.free else u.free - 1) ∧ w.prodN = u.prodN + 1 ∧ w.prodHeld = false) ∧
        (l.desc.src = 1 → r'.free = r.free + 1 ∧ r'.consN = r.consN + 1 ∧ r'.full = (if u.consHeld then r.full else r.full - 1)) ∧
        w.consHeld = false ∧ (w.loops, w.pc) = loopNext u.loops u.pc ∧
        ((∀ k ∈ (s.tile t).seq.issued, k.unit ≠ .vector) → s'.vectorStart t = s') ∧
        s.SameTilesBut s' t ∧ s.SameMemory s' ∧ s.SameSteward s')

/-- Completion of SIGNAL and WAIT. A stream at SIGNAL with nothing outstanding writes the gather buffer out, goes on and signals the wire of
its rank, if the tile has one; while a transfer is outstanding it waits. A stream at WAIT stops issuing and its take joins the
semaphore's waits behind those that began before; met again while the take waits, it counts one stalled cycle when the wire is a
multicast one on which some consumer has no lag and another has, and names that consumer. For a wire that crosses no partition
boundary, signalling adds 1 to the semaphore of a sole consumer on the producer's own tile, and puts one message on the roads for every
consumer when all are on other tiles, tagged when the producer is in skip mode. -/
def Obligations.StreamSignalsAndWaits : Prop :=
  (∀ (s : State) (t q : Nat) (l : Launch),
    (∀ link, s.StreamAt t q l (.signal link) →
      (((s.tile t).queue q).out ≠ [] → exec (.signal t q) s = .next s) ∧
      (((s.tile t).queue q).out = [] → ∃ s', exec (.signal t q) s = .next s' ∧
        (((s'.tile t).queue q).loops, ((s'.tile t).queue q).pc) = loopNext ((s.tile t).queue q).loops ((s.tile t).queue q).pc ∧
        (let s1 := (s.gatherAll t).updTile t (fun x => x.setQueue q ((s.tile t).queue q).advance)
         s' = (match s.wireOf t (link + l.rank) with
           | some (p, w) => s1.signalWire t p w
           | none => s1).updTile t (fun x => x.settleQueue q)) ∧
        (s'.tile t).gather = [] ∧ s.SameMemoryButGathered s' t ∧ s.SameSteward s')) ∧
    (∀ sem, s.StreamAt t q l (.wait sem) → exec (.wait t q) s = .next (s.updTile t (fun x =>
      { x.setQueue q { x.queue q with waiting := true } with waits := x.waits ++ [(sem, .queue q)] }))) ∧
    ∀ sem, ((s.tile t).queue q).instr = some (l, .wait sem) → ((s.tile t).queue q).waiting = true →
      (s.multicastAt t sem = none → exec (.wait t q) s = .next s) ∧
      ∀ w, s.multicastAt t sem = some w →
        (slowest (tabGet (List.replicate w.cons.length 0) (s.tile t).lags w.link) = none → exec (.wait t q) s = .next s) ∧
        ∀ i, slowest (tabGet (List.replicate w.cons.length 0) (s.tile t).lags w.link) = some i →
          exec (.wait t q) s = .next (s.updTile t (fun x => x.setQueue q
            { x.queue q with stall := Min.min ((x.queue q).stall + 1) 0xFFFFFFFF, slow := i, slowLink := w.link % 2 ^ 10 }))) ∧
  (∀ (s : State) (t p : Nat) (w : Wire), s.crosses w = false → w.ptile = t →
    ((∀ c ∈ w.cons, farTile c.1 = false ∧ c.1 ≠ t) →
      (s.signalWire t p w).fab.semMsgs =
        s.fab.semMsgs ++ (List.range w.cons.length).map (fun e => ⟨p, w.link, false, e, (s.tile t).inSkip, (w.cons.getD e (0, 0)).1, false⟩) ∧
      ∀ u, (s.signalWire t p w).tile u = s.tile u) ∧
    ∀ sem, w.cons = [(t, sem)] → (s.part p).wires.find? (fun v => v.link == w.link) = some w →
      ((s.signalWire t p w).tile t).sem sem = ⟨Min.min (((s.tile t).sem sem).count + 1) 0xFFFF, ((s.tile t).sem sem).tag || (s.tile t).inSkip⟩ ∧
      (s.signalWire t p w).fab.semMsgs = s.fab.semMsgs)

/-- Completion of XFER. A stream at XFER that is not an unexecuted remainder, with fewer transfers outstanding than OUTST and its ring slots
at hand, issues the transfer with its path and checks as the newest outstanding one and goes on; at the limit, or without its slots, it
waits. A far-page end is replaced by the address of its translation; a miss makes the stream wait for the entry, and a fault halts it
with one record more in the partition's list. Two far-page ends, an other end that is not near, and a range that leaves its page end the transfer with SPACE. In a
remainder the stream only goes on. No other tile changes, and no byte of memory where the tile's scratchpad holds no wrong bit. -/
def Obligations.TransferIsIssued : Prop :=
  ∀ (s : State) (t q pn : Nat) (p : Part) (l : Launch) (tr : Nat) (es : Bool) (tp len : Nat),
    s.StreamAt t q l (.xfer tr es tp len) → s.partAt t = some (pn, p) →
    let u := (s.tile t).queue q
    (u.remainder = true → ∃ s', exec (.xfer t q) s = .next s' ∧ (((s'.tile t).queue q).loops, ((s'.tile t).queue q).pc) = loopNext u.loops u.pc ∧
      s.SameTilesBut s' t ∧ s.SameMemory s' ∧ s.SameSteward s') ∧
    (u.remainder = false → l.desc.outst ≤ u.out.length → exec (.xfer t q) s = .next s) ∧
    (u.remainder = false → (l.desc.dest = 1 → u.ringBase = l.desc.ringBase ∧ u.ringSlot = l.desc.slot) →
      ((s.tile t).setQueue q u).takeRings q l = none → exec (.xfer t q) s = .next s) ∧
    ∀ x, u.remainder = false → u.out.length < l.desc.outst → (l.desc.dest = 1 → u.ringBase = l.desc.ringBase ∧ u.ringSlot = l.desc.slot) →
      ((s.tile t).setQueue q u).takeRings q l = some x →
      let src := xferSrc x s.stackId t p.discipline (x.queue q) l
      let dst := xferDst x s.stackId t p.discipline (x.queue q) l
      let farS := l.desc.dest < 2 ∧ (devAddr src).space = 2
      let farD := l.desc.dest < 2 ∧ (devAddr dst).space = 2
      let far := if farS then src else dst
      let other := if farS then dst else src
      let issues (v : Xfer) : Prop := ∃ s', exec (.xfer t q) s = .next s' ∧ let w := (s'.tile t).queue q
        (w.loops, w.pc) = loopNext u.loops u.pc ∧ w.issuedN = u.issuedN + 1 ∧ w.out.length = u.out.length + 1 ∧
        (∀ i, i < u.out.length → w.out[i]? = u.out[i]?) ∧
        (v.unsent = [] → w.out = u.out ++ [{ v with seq := u.issuedN, instr := u.pc }] ∧ s'.out = s.out ∧ s'.link = s.link) ∧
        s.SameTilesBut s' t ∧ (s.CleanPad t → s.SameMemory s') ∧ s.SameSteward s'
      (¬ farS → ¬ farD → issues (makeXfer p s.stackId t l src dst tr es tp len)) ∧
      (farS ∨ farD → (farS ∧ farD) ∨ isNear s.stackId t other = false ∨ 2 ^ 21 < bits far 0 21 + len →
        issues { makeXfer p s.stackId t l src dst tr es tp len with status := stSpace }) ∧
      (farS ∨ farD → ¬ (farS ∧ farD) → isNear s.stackId t other = true → bits far 0 21 + len ≤ 2 ^ 21 →
        (farLookup s.stackId p x u.fptGot (decide farD) far = .miss → ∃ s', exec (.xfer t q) s = .next s' ∧
          ((s'.tile t).queue q).fptWait = some (bits far 21 35) ∧ ((s'.tile t).queue q).out = u.out ∧ ((s'.tile t).queue q).pc = u.pc ∧
          s.SameTilesBut s' t ∧ s.SameMemory s' ∧ s.SameSteward s') ∧
        (∀ c, farLookup s.stackId p x u.fptGot (decide farD) far = .fault c → ∃ s', exec (.xfer t q) s = .next s' ∧
          ((s'.tile t).queue q).state = .halt ∧ ((s'.tile t).queue q).posValid = true ∧ ((s'.tile t).queue q).posInstr = u.pc ∧
          ((s'.tile t).queue q).out = u.out ∧ (s'.part pn).faults = p.faults ++ [⟨t, q, c, bits far 21 35⟩] ∧ s.SameMemory s') ∧
        ∀ a e, farLookup s.stackId p x u.fptGot (decide farD) far = .ok a e →
          issues (if farS then makeXfer p s.stackId t l a dst tr es tp len else
            { makeXfer p s.stackId t l src a tr es tp len with page := if bitOf e.toNat 2 then none else some (bits far 21 35) }))

/-- Completion of TRANSFER_COMPLETE. On a working tile, an outstanding transfer that has sent its units, is answered and is not overtaken by
an earlier overlapping one (to a port: is the oldest) completes and leaves the list. One within the tile with its source readable has
put the bytes of its source range in its destination range, and on the first write to a far page has set D of its entry; a read over the
roads or Varmlink has put the bytes of its answer there; a write there has changed no byte. A port transfer that its port takes whole
has filled lanes, front buffer, pair rows or scales. One that ends with another status puts its running queue into ERROR with its
position and the tile in skip mode, and writes nothing but the bytes of its answer. In STOP the transfer leaves the list. -/
def Obligations.NearTransferMovesItsBytes : Prop :=
  ∀ (s : State) (t q n : Nat) (l : Launch) (u : Xfer),
    let k := (s.tile t).queue q
    k.cur = some l → k.out[n]? = some u → s.tileRuns t = true → k.state ≠ .idle →
    (l.desc.dest < 2 → ∀ v ∈ k.out.take n, overlapping u v = false) → (2 ≤ l.desc.dest → n = 0) →
    (k.state = .stop → ∃ s', exec (.transferComplete t q n) s = .next s' ∧ ((s'.tile t).queue q).out = k.out.eraseIdx n ∧
      ((s'.tile t).queue q).state = .stop ∧ (2 ≤ l.desc.dest → s.SameMemory s') ∧ s.SameSteward s') ∧
    (k.state ≠ .stop → u.unsent = [] → u.answered = true →
      (u.status = stOk → u.path = .near → l.desc.dest < 2 → u.tr = 0 →
        (∀ e ∈ s.fab.flips, e.1 ≠ (devAddr u.src).tile ∧ e.1 ≠ (devAddr u.dst).tile) →
        (s.fab.localRead (devAddr u.src) u.len).1 = stOk → (s.fab.localWrite (devAddr u.dst) (s.fab.localRead (devAddr u.src) u.len).2).1 = stOk →
        ∃ s', exec (.transferComplete t q n) s = .next s' ∧ ((s'.tile t).queue q).out = k.out.eraseIdx n ∧
          s'.fab.mem = ((s.setFab (s.fab.localWrite (devAddr u.dst) (s.fab.localRead (devAddr u.src) u.len).2).2).markDirty t u.page).fab.mem ∧
          (u.page = none → s'.fab.mem = (s.fab.localWrite (devAddr u.dst) (s.fab.localRead (devAddr u.src) u.len).2).2.mem) ∧
          (s'.tile t).seq.skip = (s.tile t).seq.skip ∧ s.SameTilesBut s' t ∧ s.SameSteward s') ∧
      (u.status = stOk → u.path = .near → 2 ≤ l.desc.dest → s.CleanPad t → (devAddr u.src).space = 0 → (devAddr u.src).tile = t →
        let bs := s.fab.spRead t (devAddr u.src).off (srcSpan u.tr u.esize u.tpitch u.len)
        let y := (s.tile t).deliver l u bs (s.laneRoom t (destSide l.desc.dest)) (s.pairRoom t)
        y.2 = u.len → ∃ s', exec (.transferComplete t q n) s = .next s' ∧ ((s'.tile t).queue q).out = k.out.eraseIdx n ∧
          (s'.tile t).a = y.1.a ∧ (s'.tile t).b = y.1.b ∧ (s'.tile t).pairRows = y.1.pairRows ∧ s.SameTilesBut s' t ∧ s.SameMemory s' ∧ s.SameSteward s') ∧
      (∀ w, u.status = stOk → ((∃ v, u.path = .road v w) ∨ u.path = .remote w) → (∀ e ∈ s.fab.flips, e.1 ≠ (devAddr u.dst).tile) →
        (w = false → (s.fab.localWrite (devAddr u.dst) u.data).1 = stOk) →
        ∃ s', exec (.transferComplete t q n) s = .next s' ∧ ((s'.tile t).queue q).out = k.out.eraseIdx n ∧
          s'.fab.mem = (if w then s.fab.mem else (s.fab.localWrite (devAddr u.dst) u.data).2.mem) ∧
          (s'.tile t).seq.skip = (s.tile t).seq.skip ∧ s.SameTilesBut s' t ∧ s.SameSteward s') ∧
      (u.status ≠ stOk → k.state = .run ∨ k.state = .last ∨ k.state = .halt →
        ∃ s', exec (.transferComplete t q n) s = .next s' ∧ let w := (s'.tile t).queue q
          w.state = .error ∧ w.status = u.status ∧ w.posSeq = u.seq % 2 ^ 48 ∧ w.posInstr = u.instr ∧ w.posValid = true ∧ w.shadow = none ∧
          (s'.tile t).seq.skip ≠ none ∧ ((s.tile t).seq.skip = none → (s'.tile t).seq.skip = some ⟨u.status, l.step, t⟩) ∧
          (u.data = [] → s.SameMemory s' ∧ s.SameTilesBut s' t) ∧
          (u.data ≠ [] → s'.fab.mem = (s.fab.localWrite (devAddr u.dst) u.data).2.mem) ∧ s.SameSteward s'))

/-- Completion of FPT_ENTRY_READ, PT_FPT_INVAL, PT_FP_RESUME and QUEUE_SAFE_POINT. In a running partition a completed entry read that meets
no loss and no fault puts the entry in the tile's cache of 16 and lets the stream go on with it; one that faults halts the queue with a
record, and one that meets a loss issues a transfer that ends with DS_UNCORR. PT_FPT_INVAL empties the caches of the partition's tiles;
PT_FP_RESUME takes the halted queue's record away and lets it run. A disabled queue reaches its safe point with nothing outstanding and
its busy bit clear, IDLE if it stood in STOP; where its transfers within the stack name no far page and no scratchpad cell holds a
wrong bit, no byte outside their destinations changes. A queue that is not busy has no safe point to reach. -/
def Obligations.FarPageCacheAndFaults : Prop :=
  (∀ (s : State) (t q f pn : Nat) (p : Part) (l : Launch) (tr : Nat) (es : Bool) (tp len : Nat), ((s.tile t).queue q).fptWait = some f →
    s.partAt t = some (pn, p) → ((s.tile t).queue q).instr = some (l, .xfer tr es tp len) → s.working t = true →
    let d := devAddr (p.fptBase + 8 * f)
    let u := (s.tile t).queue q
    let e (bs : List Byte) : Word := BitVec.ofNat 64 (leNat bs)
    let isWrite : Bool := (devAddr (xferDst (s.tile t) s.stackId t p.discipline u l)).space == 2
    (∀ bs a w, s.fab.colRead d.tile d.off 8 = (stOk, bs) → judgeEntry s.stackId p isWrite 0 (e bs) = .ok a w →
      ∃ s', exec (.fptEntryRead t q) s = .next s' ∧ ((s'.tile t).queue q).fptWait = none ∧ ((s'.tile t).queue q).fptGot = some (f, e bs) ∧
        (f, e bs) ∈ (s'.tile t).fptCache ∧ ((s.tile t).fptCache.length ≤ 16 → (s'.tile t).fptCache.length ≤ 16) ∧
        s.SameTilesBut s' t ∧ s.SameMemory s' ∧ s.SameSteward s') ∧
    (∀ bs c, s.fab.colRead d.tile d.off 8 = (stOk, bs) → judgeEntry s.stackId p isWrite 0 (e bs) = .fault c →
      ∃ s', exec (.fptEntryRead t q) s = .next s' ∧ ((s'.tile t).queue q).state = .halt ∧ (s'.part pn).faults = p.faults ++ [⟨t, q, c, f⟩] ∧
        s.SameMemory s') ∧
    ((s.fab.colRead d.tile d.off 8).1 ≠ stOk → ∃ s', exec (.fptEntryRead t q) s = .next s' ∧ ((s'.tile t).queue q).fptWait = none ∧
      ∃ v, ((s'.tile t).queue q).out = u.out ++ [v] ∧ v.status = stDsUncorr ∧ v.answered = true ∧ s.SameTilesBut s' t ∧ s.SameMemory s' ∧ s.SameSteward s')) ∧
  (∀ (s : State) (p : Nat), (s.part p).isBound = true → s.stewardRuns = true → ∃ s', exec (.ptFptInval p) s = .next s' ∧
    (∀ t ∈ (s.part p).tiles, s'.tile t = { s.tile t with fptCache := [] }) ∧ (∀ t, t ∉ (s.part p).tiles → s'.tile t = s.tile t) ∧
    (∀ r, s'.part r = s.part r) ∧ s.SameMemory s' ∧ s.SameSteward s') ∧
  (∀ (s : State) (p : Nat) (v : Word), let t := bits v.toNat 0 9; let q := bits v.toNat 9 3
    (s.part p).isBound = true → (s.tile t).bound = some p → ((s.tile t).queue q).state = .halt → s.stewardRuns = true →
    ∃ s', exec (.ptFpResume p v) s = .next s' ∧ (s'.tile t).queue q = { (s.tile t).queue q with state := .run, posValid := false } ∧
      (∀ f, f ∈ (s'.part p).faults ↔ f ∈ (s.part p).faults ∧ ¬ (f.tile = t ∧ f.queue = q)) ∧
      (∀ u, u ≠ t → s'.tile u = s.tile u) ∧ (∀ r, r ≠ p → s'.part r = s.part r) ∧ s.SameMemory s' ∧ s.SameSteward s') ∧
  ∀ (s : State) (t q : Nat), let u := (s.tile t).queue q
    (u.busy = true → ∃ s', exec (.queueSafePoint t q) s = .next s' ∧ let w := (s'.tile t).queue q
      w.state = (if u.state = .stop then .idle else u.state) ∧ w.busy = false ∧ w.out = [] ∧ w.cur = none ∧
      (u.out = [] → s.SameTilesBut s' t ∧ s.SameMemory s') ∧
      (Memory.wf s.fab.mem = true → s.fab.flips = [] → (∀ v ∈ u.out, v.page = none ∧ ∀ w, v.path ≠ .remote w) →
        ∀ k, (∀ v ∈ u.out, ∀ i, i < v.len → k ≠ (if (devAddr v.dst).space = 0 then spKey (devAddr v.dst).tile ((devAddr v.dst).off + i)
          else colKey (devAddr v.dst).tile ((devAddr v.dst).off + i))) → memRead s'.fab.mem k = memRead s.fab.mem k) ∧ s.SameSteward s') ∧
    (u.busy = false → exec (.queueSafePoint t q) s = .next s)

/-- Completion of SEMAPHORE_TAKE. On a working tile the take that began first on a semaphore with a count of at least 1 is granted: the count
falls by one, the tag is cleared, the take no longer waits, and its taker goes on: the sequencer holds a granted step, a stream goes
behind its WAIT, and a halo direction holds its credit. A tagged take leaves the tile in skip mode. With a count of 0 nothing changes. -/
def Obligations.SemaphoreTakeIsGranted : Prop :=
  ∀ (s : State) (t i : Nat) (w : Nat × Taker), (s.tile t).waits.find? (fun w => w.1 == i) = some w →
    (((s.tile t).sem i).count = 0 → exec (.semaphoreTake t i) s = .next s) ∧
    (s.tileRuns t = true → 1 ≤ ((s.tile t).sem i).count → ∃ s', exec (.semaphoreTake t i) s = .next s' ∧
      (s'.tile t).sem i = ⟨((s.tile t).sem i).count - 1, false⟩ ∧ (∀ j, j ≠ i → (s'.tile t).sem j = (s.tile t).sem j) ∧
      (s'.tile t).waits = (s.tile t).waits.erase w ∧
      (w.2 = .seq → (s'.tile t).seq.hold = .granted) ∧
      (∀ q, w.2 = .queue q → (((s'.tile t).queue q).loops, ((s'.tile t).queue q).pc) = loopNext ((s.tile t).queue q).loops ((s.tile t).queue q).pc ∧
        ((s'.tile t).queue q).waiting = false) ∧
      (∀ d h, w.2 = .nbr d → d < 4 → (s.tile t).nbr.halo = some h → ∃ h', (s'.tile t).nbr.halo = some h' ∧ d ∈ h'.credits) ∧
      (((s.tile t).sem i).tag = true → (s'.tile t).seq.skip ≠ none) ∧
      (((s.tile t).sem i).tag = false → (s'.tile t).seq.skip = (s.tile t).seq.skip) ∧
      s.SameTilesBut s' t ∧ s.SameMemory s' ∧ s'.link = s.link ∧ s'.out = s.out ∧ s.SameSteward s')

/-- Completion of SEMAPHORE_MESSAGE for a signal. Every increment of a semaphore that would carry its count above 0xFFFF leaves it at 0xFFFF
and sets the semaphore's overflow bit, and any other adds up. While clocks run and no link of its path retrains, the signal numbered n
leaves the roads and, at a consumer tile that is reached with the clocks of its path running, adds 1 to the semaphore of its entry in
this way; toward a tile that is unbound or through a region that is stopped it is dropped. While a link of its path retrains it waits. -/
def Obligations.SignalsArriveAndSaturate : Prop :=
  (∀ (x : Tile) (i n : Nat) (tagged : Bool), ((x.incSem i n tagged).sem i).count = Min.min ((x.sem i).count + n) 0xFFFF ∧
    (x.incSem i n tagged).semOvf = (if 0xFFFF < (x.sem i).count + n then x.semOvf ||| 2 ^ i else x.semOvf)) ∧
  ∀ (s : State) (n : Nat) (m : SemMsg) (w : Wire) (c : Nat × Nat), s.fab.semMsgs[n]? = some m → s.pins.stops = [] → m.release = false →
    (s.part m.pnum).wires.find? (fun w => w.link == m.link) = some w → w.cons[m.entry]? = some c →
    (s.fab.roadOpen w.ptile m.dest = false → exec (.semaphoreMessage n) s = .next s) ∧
    (s.fab.roadOpen w.ptile m.dest = true → ∃ s', exec (.semaphoreMessage n) s = .next s' ∧ s'.fab.semMsgs = s.fab.semMsgs.eraseIdx n ∧
      (∀ u, u ≠ m.dest → s'.tile u = s.tile u) ∧ (∀ p, s'.part p = s.part p) ∧ s.SameMemory s' ∧ s'.out = s.out ∧ s'.link = s.link ∧ s.SameSteward s' ∧
      let x := s.tile m.dest
      let y := s'.tile m.dest
      ((x.access = false ∨ s.pathRuns w.ptile m.dest = false) → y = x) ∧
      (x.access = true → s.pathRuns w.ptile m.dest = true →
        (y.sem c.2).count = Min.min ((x.sem c.2).count + 1) 0xFFFF ∧ (y.sem c.2).tag = ((x.sem c.2).tag || m.tagged) ∧
        (∀ j, j ≠ c.2 → y.sem j = x.sem j) ∧ (y.semOvf = if (x.sem c.2).count + 1 < 2 ^ 16 then x.semOvf else x.semOvf ||| 2 ^ c.2)))

/-- Completion of SEMAPHORE_RELEASE, and of SEMAPHORE_MESSAGE for a release. Every lag starts at 0. The oldest release made at a working tile
toward a producer on the same tile, held back by nothing, and a release that reaches its producer tile over the roads, with the clocks of
its path running, add one to their consumer's lag; whenever every lag of the wire is then at least one, each falls by one and the
producer's semaphore grows by one (R340's limit standing); otherwise the semaphore stays. Toward a producer on another tile of the stack
the oldest release of a wire that crosses no partition boundary goes on the roads. -/
def Obligations.ReleaseAdvancesEveryLag : Prop :=
  (∀ (t : Nat) (w : Wire), tabGet (List.replicate w.cons.length 0) (State.reset.tile t).lags w.link = List.replicate w.cons.length 0) ∧
  ∀ (s : State) (t : Nat) (m : SemMsg) (w : Wire), (s.part m.pnum).wires.find? (fun w => w.link == m.link) = some w → m.release = true →
    let lags := (tabGet (List.replicate w.cons.length 0) (s.tile m.dest).lags w.link).modify m.entry (· + 1)
    let advanced (s' : State) : Prop :=
      ((∀ n ∈ lags, 1 ≤ n) → tabGet [] (s'.tile m.dest).lags w.link = lags.map (· - 1) ∧
        ((s'.tile m.dest).sem w.psem).count = Min.min (((s.tile m.dest).sem w.psem).count + 1) 0xFFFF) ∧
      ((∃ n ∈ lags, n = 0) → tabGet [] (s'.tile m.dest).lags w.link = lags ∧ (s'.tile m.dest).sem w.psem = (s.tile m.dest).sem w.psem)
    (∀ ms, (s.tile t).releases = m :: ms → s.tileRuns t = true → m.dest = t → m.letGo = true → ∃ s', exec (.semaphoreRelease t) s = .next s' ∧
      (s'.tile t).releases = ms ∧ s.SameTilesBut s' t ∧ s.SameMemory s' ∧ s'.link = s.link ∧ s.SameSteward s' ∧ advanced s') ∧
    (∀ ms, (s.tile t).releases = m :: ms → s.tileRuns t = true → m.dest ≠ t → farTile m.dest = false → s.crosses w = false →
      exec (.semaphoreRelease t) s = .next ((s.updTile t (fun x => { x with releases := ms })).updFab (fun f => { f with semMsgs := f.semMsgs ++ [m] }))) ∧
    ∀ n c, s.fab.semMsgs[n]? = some m → s.pins.stops = [] → w.cons[m.entry]? = some c → s.fab.roadOpen c.1 m.dest = true → (s.tile m.dest).access = true →
      s.pathRuns c.1 m.dest = true → ∃ s', exec (.semaphoreMessage n) s = .next s' ∧ s'.fab.semMsgs = s.fab.semMsgs.eraseIdx n ∧
      (s'.tile m.dest).releases = (s.tile m.dest).releases ∧ s.SameTilesBut s' m.dest ∧ s.SameMemory s' ∧ s'.link = s.link ∧ s.SameSteward s' ∧ advanced s'

/-- Completion of RELAY and HALO. A tile that is ready for a RELAY or HALO step, with room in the engine's step queue, the engine not disabled
and nothing waiting in it, issues the step to the engine for the tile whose rank it serves. When the part of the engine that the step
needs is free, the relay step starts beside those there, or the halo step with every direction that has lines; a step with no entry to
run is finished at once. A relay of the tile's own entry starts with its descriptor and no block sent. With the queue full or the engine
disabled the step waits. -/
def Obligations.EngineStepsStart : Prop :=
  ∀ (s : State) (t pn : Nat) (p : Part) (k : Comp) (st : ItinStep) (q : Seq), s.StandsAt t pn p st q → p.comp = some k → (s.tile t).nbr.steps = [] →
    let home := (stepTargets k st).getD (q.ranks.headD 0) t
    let y : Tile := { s.tile t with seq := q }
    ((∃ es, st.body = .relay es) → 5 ≤ y.unitLoad .engine ∨ (s.tile t).nbr.busy = true → exec (.relay t) s = .next s) ∧
    ((∃ es, st.body = .halo es) → 5 ≤ y.unitLoad .engine ∨ (s.tile t).nbr.busy = true → exec (.halo t) s = .next s) ∧
    (y.unitLoad .engine < 5 → (s.tile t).nbr.busy = false →
      (∀ es, st.body = .relay es → (∀ r ∈ (s.tile t).nbr.relays, r.ended = true ∨ (r.taken = true ↔ home = t)) →
        (∀ r, relayStart s p st t home es q.nextId q.skip.isSome = some r → ∃ s', exec (.relay t) s = .next s' ∧
          (s'.tile t).seq = (y.issue p st .engine false).seq ∧ (s'.tile t).nbr.relays = (s.tile t).nbr.relays ++ [r] ∧
          s.SameTilesBut s' t ∧ s.SameMemory s' ∧ s.SameSteward s') ∧
        (relayStart s p st t home es q.nextId q.skip.isSome = none → ∃ s', exec (.relay t) s = .next s' ∧
          (s'.tile t).seq = ((y.issue p st .engine false).finishRun q.nextId).seq ∧ (s'.tile t).nbr.relays = (s.tile t).nbr.relays ∧
          s.SameTilesBut s' t ∧ s.SameMemory s' ∧ s.SameSteward s') ∧
        ∀ d, home = t → relayEntry es t = some d → ∃ r, relayStart s p st t home es q.nextId q.skip.isSome = some r ∧ r.run = q.nextId ∧
          r.desc = d ∧ r.sent = 0 ∧ r.landed = 0 ∧ r.released = 0 ∧ r.ended = false ∧ r.dry = q.skip.isSome) ∧
      (∀ es, st.body = .halo es → (s.tile t).nbr.halo = none →
        let hs := ((es.find? (fun e => e.1 == home)).map (·.2)).getD []
        ((∃ d h, d < 4 ∧ hs[d]? = some h ∧ h.lines ≠ 0) → ∃ s', exec (.halo t) s = .next s' ∧
          (s'.tile t).seq = (y.issue p st .engine false).seq ∧
          (∃ r, (s'.tile t).nbr.halo = some r ∧ r.run = q.nextId ∧ r.home = home ∧ r.credits = [] ∧ r.dry = q.skip.isSome ∧
            (∀ d h, (d, h) ∈ r.left ↔ d < 4 ∧ hs[d]? = some h ∧ h.lines ≠ 0)) ∧
          s.SameTilesBut s' t ∧ s.SameMemory s' ∧ s.SameSteward s') ∧
        ((∀ d h, d < 4 → hs[d]? = some h → h.lines = 0) → ∃ s', exec (.halo t) s = .next s' ∧
          (s'.tile t).seq = ((y.issue p st .engine false).finishRun q.nextId).seq ∧ (s'.tile t).nbr.halo = none ∧
          s.SameTilesBut s' t ∧ s.SameMemory s' ∧ s.SameSteward s')))

/-- Completion of RELAY_BLOCK_SEND, RELAY_BEAT_ARRIVAL and RELAY_SLOT_RELEASE, at an engine with no step waiting. The first relay step that
can go on, in a tile whose engine goes, begins the take of its outgoing wire's credit; with the credit, and the block's signal or its
first beats, it begins the block over the neighbour port, or over the roads writes the block to every destination and signals; skipped,
it signals only. A beat of 64 B of a block that the upstream tile is sending, and has itself, lands in the slot of the block at this
tile, and no byte changes outside it but what the upstream tile had gathered; the beat, or after the last one the block, is counted.
The first slot that may be released is counted and its wire released; a slot may be when its block has arrived, has gone on where there
is an outgoing side, and has had its local release where LOCAL is set. With none to release nothing changes. -/
def Obligations.RelayBlocksMove : Prop :=
  ((∀ (s : State) (t p : Nat) (r : RelayRun) (w : Wire) (as bs : List RelayRun), (s.tile t).nbr.relays = as ++ r :: bs → (∀ a ∈ as, s.relaySend t a = none) →
    (s.tile t).nbr.steps = [] → s.engineGoes t = true → r.ended = false → r.dests ≠ [] → r.sending = false → r.sent < r.desc.nblk →
    s.wireOf t r.outLink = some (p, w) →
    (r.credit = false → (w.psem, Taker.nbr (4 + r.outLink)) ∉ (s.tile t).waits →
      exec (.relayBlockSend t) s = .next (s.updTile t (fun x => { x with waits := x.waits ++ [(w.psem, .nbr (4 + r.outLink))] }))) ∧
    (r.credit = true → r.dry = false → r.byRoad = false → (r.sent < r.signals ∨ r.sent < r.landed ∨ 0 < r.beat) →
      exec (.relayBlockSend t) s = .next (s.updTile t (fun x => x.updRelay r.run (fun k => { k with sending := true })))) ∧
    (r.credit = true → r.dry = true → exec (.relayBlockSend t) s = .next (s.blockSent t r)) ∧
    (r.credit = true → r.dry = false → r.byRoad = true → (r.sent < r.signals ∨ r.sent < r.landed) → s.CleanPad t →
      let block := s.fab.spRead t (r.desc.base + r.sent % r.desc.nslot * r.desc.blen) r.desc.blen
      exec (.relayBlockSend t) s =
        .next ((s.setFab (r.dests.foldl (fun f d => f.spWrite d.1 (d.2.1 + r.sent % d.2.2 * r.desc.blen) block) s.fab)).blockSent t r))) ∧
  ∀ (s : State) (t u : Nat) (r k : RelayRun) (as bs : List RelayRun), (s.tile t).nbr.relays = as ++ r :: bs → (∀ a ∈ as, s.upstream t a = none) →
    (s.tile t).nbr.steps = [] → s.upstream t r = some (u, k) → s.tileRuns t = true → s.tileRuns u = true →
    (s.tile t).nbr.stopped = [] → (s.tile u).nbr.stopped = [] → k.sent = r.landed → (k.sent < k.signals ∨ k.sent < k.landed ∨ r.beat < k.beat) →
    Memory.wf s.fab.mem = true → s.CleanPad u →
    let from' := k.desc.base + k.sent % k.desc.nslot * k.desc.blen + 64 * r.beat
    let to' := r.desc.base + r.landed % r.desc.nslot * r.desc.blen + 64 * r.beat
    from' + 64 ≤ spSize → to' + 64 ≤ spSize →
    ∃ s', exec (.relayBeatArrival t) s = .next s' ∧ memReads s'.fab.mem (spKey t to') 64 = memReads s.fab.mem (spKey u from') 64 ∧
      (∀ a, (a < spKey t to' ∨ spKey t to' + 64 ≤ a) → (∀ off, (s.tile u).Gathered off → a ≠ spKey u off) → memRead s'.fab.mem a = memRead s.fab.mem a) ∧
      s.SameSteward s' ∧
      (64 * (r.beat + 1) < r.desc.blen → s'.tile t = (s.tile t).updRelay r.run (fun k => { k with beat := k.beat + 1 }) ∧ s.SameTilesBut s' t) ∧
      (r.desc.blen ≤ 64 * (r.beat + 1) → s'.tile t = (s.tile t).updRelay r.run (fun k => { k with beat := 0, landed := k.landed + 1 }))) ∧
  (∀ r : RelayRun, r.mayRelease = true ↔ r.released < r.desc.nblk ∧ (r.dests = [] ∨ r.released < r.sent) ∧
    (r.desc.loc = false ∨ r.released < r.localRel) ∧ (r.released < r.signals ∨ r.released < r.landed)) ∧
  ∀ (s : State) (t : Nat),
    ((s.tile t).nbr.relays.find? RelayRun.mayRelease = none → exec (.relaySlotRelease t) s = .next s) ∧
    ∀ r, (s.tile t).nbr.relays.find? RelayRun.mayRelease = some r → s.engineGoes t = true → ∃ s', exec (.relaySlotRelease t) s = .next s' ∧
      (r.desc.inDir ≠ 0 → ∀ p w, s.wireOf t r.inLink = some (p, w) →
        s' = (((s.updTile t (fun x => x.updRelay r.run (fun k => { k with released := k.released + 1 }))).sendOrHold t w
          (w.releaseMsg p t r.csem)).updTile t Tile.settleRelays).engineNext t) ∧
      (r.released + 1 < r.desc.nblk → ∃ r' ∈ (s'.tile t).nbr.relays, r'.run = r.run ∧ r'.released = r.released + 1 ∧ r'.sent = r.sent ∧ r'.landed = r.landed) ∧
      s.SameMemory s' ∧ s.SameSteward s'

/-- Completion of HALO_DIRECTION, NEIGHBOUR_PARITY_MISMATCH and NEIGHBOUR_ENGINE_SAFE_POINT. With credit for the direction, the lines of the
entry land at the neighbour, or at the tile that took its rank if it is lost, what the tile had gathered is written, and the direction is
done; after the last direction the halo step is over. A skipped step lands no line. Without credit the take of the wire's semaphore
begins. A parity mismatch stops the engines on both sides of the link, and a disabled engine with no block on its way out or in reaches
its safe point. -/
def Obligations.HaloLinesLandAtTheNeighbour : Prop :=
  (∀ (s : State) (t pn pw : Nat) (p : Part) (d : Dir) (h : HaloRun) (e : HaloEntry) (w : Wire), (s.tile t).nbr.halo = some h →
    s.partAt t = some (pn, p) → h.left.find? (fun e => e.1 == dirNat d) = some (dirNat d, e) → s.engineGoes t = true →
    s.wireOf t e.link = some (pw, w) →
    (h.credits.contains (dirNat d) = false → (w.psem, Taker.nbr (dirNat d)) ∉ (s.tile t).waits →
      exec (.haloDirection t d) s = .next (s.updTile t (fun x => { x with waits := x.waits ++ [(w.psem, .nbr (dirNat d))] }))) ∧
    (h.credits.contains (dirNat d) = true → s.CleanPad t → ∃ s', exec (.haloDirection t d) s = .next s' ∧
      (h.dry = true → s'.fab.mem = (s.gatherAll t).fab.mem) ∧
      (h.dry = false → ∀ u, neighbour h.home (dirNat d) = some u →
        (p.lost.contains u = false → s'.fab.mem = ((s.setFab (haloLand s.fab t u e)).gatherAll t).fab.mem) ∧
        (∀ r st v, p.lost.contains u = true → (s.tile t).seq.issued.find? (fun r => r.id == h.run) = some r → p.itin[r.step]? = some st → p.takerOf st u = some v →
          s'.fab.mem = ((s.setFab (haloLand s.fab t v e)).gatherAll t).fab.mem)) ∧
      (∀ g ∈ h.left, g.1 ≠ dirNat d → (s'.tile t).nbr.halo = some { h with left := h.left.filter (fun e => e.1 != dirNat d), credits := h.credits.erase (dirNat d) }) ∧
      ((∀ g ∈ h.left, g.1 = dirNat d) → (s.tile t).nbr.steps = [] → (s'.tile t).nbr.halo = none ∧ ∀ r ∈ (s'.tile t).seq.issued, r.id = h.run → r.finished = true) ∧
      s.SameSteward s')) ∧
  (∀ (s : State) (t u : Nat) (d : Dir), neighbour t (dirNat d) = some u → ∃ s', exec (.neighbourParityMismatch t d) s = .next s' ∧
    dirNat d ∈ (s'.tile t).nbr.stopped ∧ opposite (dirNat d) ∈ (s'.tile u).nbr.stopped ∧ s'.engineGoes t = false ∧ s'.engineGoes u = false ∧
    (∀ v, v ≠ t → v ≠ u → s'.tile v = s.tile v) ∧ (∀ p, s'.part p = s.part p) ∧ s.SameMemory s' ∧ s.SameSteward s') ∧
  ∀ (s : State) (t : Nat), (s.tile t).nbr.busy = true → (∀ r ∈ (s.tile t).nbr.relays, r.sending = false ∧ s.upstream t r = none) →
    exec (.neighbourEngineSafePoint t) s = .next (s.updTile t (fun x => { x with nbr := { x.nbr with busy := false } }))

/-- Completion of TAKE and WORK_CONTEXT_ARRIVAL. The lead of a running partition that is ready for TAKE with a request rung for reads entry
REQ_HEAD, counts it taken, begins the work item with no pass counted and goes on, and sends each other tile its context; with none rung
for, or in QUIESCE, it waits. Every other tile waits for its context. A context marked failed puts the tile in skip mode with that
status. A tile that waits for its context, with its sequencer running and no link of the road from the lead retraining, takes the first
context sent to it off the roads, begins the work item in the same way and goes on behind TAKE. A tile that does not wait, or that none
was sent to, changes nothing. -/
def Obligations.WorkItemsBegin : Prop :=
  (∀ (s : State) (t pn : Nat) (p : Part) (st : ItinStep) (q : Seq), s.StandsAt t pn p st q → st.body = .take →
    (p.lead ≠ t → exec (.take t) s = .next (s.updTile t (fun x => { x with seq := { q with hold := .context } }))) ∧
    (p.lead = t → (p.tail = p.reqHead ∨ p.state ≠ .running) → exec (.take t) s = .next s) ∧
    (p.lead = t → p.tail ≠ p.reqHead → p.state = .running → ∃ s', exec (.take t) s = .next s' ∧
      let c := s.readRequest p p.reqHead
      (s'.tile t).seq.ctx = c ∧ (s'.tile t).seq.inWork = true ∧ (s'.tile t).seq.passes = [] ∧
      ((s'.tile t).seq.loops, (s'.tile t).seq.pc) = seqNext q.loops q.pc ∧
      ((s'.tile t).seq.skip = if c.failed = 0 then none else some ⟨c.failed, q.pc, t⟩) ∧
      (s'.part pn).reqHead = (p.reqHead + 1) % 2 ^ 32 ∧ (s'.part pn).inWork = true ∧ (s'.part pn).replays = 0 ∧
      (s'.part pn).workId = c.workId ∧ (s'.part pn).idle = false ∧ (∀ r, r ≠ pn → s'.part r = s.part r) ∧
      s'.fab.contexts = s.fab.contexts ++ (p.tiles.filter (· != t)).map (fun u => (u, c)) ∧ s.SameMemoryButGathered s' t ∧ s.SameSteward s')) ∧
  ∀ (s : State) (t pn : Nat) (p : Part) (e : Nat × WorkCtx), s.partAt t = some (pn, p) →
    (s.fab.contexts.find? (fun c => c.1 == t) = none → exec (.workContextArrival t) s = .next s) ∧
    (s.fab.contexts.find? (fun c => c.1 == t) = some e → (s.tile t).seq.hold ≠ .context → exec (.workContextArrival t) s = .next s) ∧
    (s.fab.contexts.find? (fun c => c.1 == t) = some e → (s.tile t).seq.hold = .context → s.seqRuns t = true → s.fab.roadOpen p.lead t = true →
      (∃ st, p.itin[(s.tile t).seq.pc]? = some st) →
      ∃ s', exec (.workContextArrival t) s = .next s' ∧ s'.fab.contexts = s.fab.contexts.erase e ∧ (s'.tile t).seq.ctx = e.2 ∧
        (s'.tile t).seq.inWork = true ∧ (s'.tile t).seq.passes = [] ∧ (s'.tile t).seq.rep.hist = histZero ∧
        ((s'.tile t).seq.skip = if e.2.failed = 0 then none else some ⟨e.2.failed, (s.tile t).seq.pc, p.lead⟩) ∧
        ((s'.tile t).seq.loops, (s'.tile t).seq.pc) = seqNext (s.tile t).seq.loops (s.tile t).seq.pc ∧ (s'.tile t).seq.hold = .run ∧
        (∀ k, s'.part k = s.part k) ∧ s.SameMemoryButGathered s' t ∧ s.SameSteward s')

/-- Completion of DONE, CKPT and REPORT_MERGE. With every step issued in the work item complete, a tile ready for DONE or CKPT contributes its
report, holds, and passes the report on or waits for those below it; the lead of a partition of one tile then has the partition's report.
While a step issued in the work item is incomplete it stays. With no work item in progress the step is passed over. On a working tile
that has contributed, the first report that stands before it is merged: counters and histogram classes add saturating, and the status
that the report keeps is the one of the lowest step, then the lowest tile, with UPSTREAM behind every other. Before the tile has
contributed the report waits. -/
def Obligations.ReportsAreMadeAndMerged : Prop :=
  (∀ (s : State) (t pn : Nat) (p : Part) (st : ItinStep) (q : Seq) (c : Instr), s.StandsAt t pn p st q →
    ((st.body = .done ∧ c = .done t) ∨ ∃ a, st.body = .ckpt a ∧ c = .ckpt t) →
    (q.inWork = true → (∃ r ∈ q.issued, q.workFrom ≤ r.id) → exec c s = .next s) ∧
    (q.inWork = true → (∀ r ∈ q.issued, r.id < q.workFrom) → ∃ s', exec c s = .next s' ∧
      s' = (s.updTile t (fun x => { x with seq := { q with hold := .report, contributed := true, lastStep := q.pc } })).passReport t ∧
      (s'.tile t).seq = { q with hold := .report, contributed := true, lastStep := q.pc } ∧
      (p.mergeOrder = [t] → q.merged = 0 → (s'.part pn).report = some q.rep) ∧ s.SameMemory s' ∧ s.SameSteward s') ∧
    (q.inWork = false → exec c s = .next (s.updTile t (fun x => { x with seq := { q with lastStep := q.pc }.advance })))) ∧
  ((∀ (s : State) (t : Nat) (m : ReportMsg), s.fab.reports.find? (fun m => m.dest == t) = some m →
    ((s.tile t).seq.contributed = false → exec (.reportMerge t) s = .next s) ∧
    ((s.tile t).seq.contributed = true → s.tileRuns t = true → ∃ s', exec (.reportMerge t) s = .next s' ∧
      (s'.tile t).seq.merged = (s.tile t).seq.merged + 1 ∧ (s'.tile t).seq.rep.status = worse (s.tile t).seq.rep.status m.rep.status ∧
      (s'.tile t).seq.rep.counters = List.zipWith (fun a b => Min.min (a + b) (2 ^ 32 - 1)) (s.tile t).seq.rep.counters m.rep.counters ∧
      (s'.tile t).seq.rep.hist = histMerge (s.tile t).seq.rep.hist m.rep.hist ∧ (∃ l, s'.fab.reports = s.fab.reports.erase m ++ l) ∧
      (∀ u, u ≠ t → s'.tile u = s.tile u) ∧ s.SameMemory s' ∧ s.SameSteward s')) ∧
  ∀ a b : Status, (a.code = stOk → worse a b = b) ∧ (a.code ≠ stOk → b.code = stOk → worse a b = a) ∧
    (a.code = stUpstream → b.code ≠ stOk → b.code ≠ stUpstream → worse a b = b ∧ worse b a = b) ∧
    (a.code ≠ stOk → b.code ≠ stOk → a.code ≠ stUpstream → b.code ≠ stUpstream →
      worse a b = if b.step < a.step ∨ (b.step = a.step ∧ b.tile < a.tile) then b else a))

/-- Completion of COMPLETION_RECORD_WRITE. With room in the completion ring, the report at hand, the lead at DONE and running, and the
work-done message away or without a route, the record of 384 B stands in its slot, CPL_TAIL grows by one, and no tile that stood at its
DONE has a work item in progress; where no tile had gathered bytes no other byte changes. With the ring full the partition's registers
and the lead stay as they were, and the other tiles that stand at DONE go on. The record of a work item holds WORKID at byte 0, the
record's sequence number at byte 8, STATUS at 12, the status's step at 14 and tile at 16, and the replay count at 18, each
little-endian; the record is 384 B long when its report has 6 counters and the histogram's 70 words. -/
def Obligations.CompletionRecordIsWritten : Prop :=
  (∀ (s : State) (p : Nat) (rep : Report) (c : Comp), (s.part p).report = some rep → (s.part p).comp = some c →
    s.bodyAt (s.part p).lead = some .done → s.seqRuns (s.part p).lead = true →
    (2 ^ c.part.ringLog2 ≤ ((s.part p).cplTail + 2 ^ 32 - (s.part p).cplHead) % 2 ^ 32 → ∃ s', exec (.completionRecordWrite p) s = .next s' ∧
      (∀ r, s'.part r = s.part r) ∧ s'.tile (s.part p).lead = s.tile (s.part p).lead ∧
      (∀ t ∈ (s.part p).tiles, t ≠ (s.part p).lead → (s.tile t).seq.hold = .report → (s'.tile t).seq.inWork = false) ∧ s.SameSteward s') ∧
    (((s.part p).cplTail + 2 ^ 32 - (s.part p).cplHead) % 2 ^ 32 < 2 ^ c.part.ringLog2 → (s.routeFor (s.part p).lead 64 = none ∨
        (s.emit (s.part p).lead 64 (s.channel (s.part p).lead) 1 none (.workDone (s.part p).lead p (s.part p).cplTail (s.part p).workId)).2 = true) →
      ∃ s', exec (.completionRecordWrite p) s = .next s' ∧ (s'.part p).cplTail = ((s.part p).cplTail + 1) % 2 ^ 32 ∧ (s'.part p).inWork = false ∧
        (s'.part p).idle = true ∧ (s'.part p).report = none ∧ (s'.part p).reqHead = (s.part p).reqHead ∧ (∀ r, r ≠ p → s'.part r = s.part r) ∧
        (∀ t ∈ (s.part p).tiles, (s.tile t).seq.hold = .report → (s'.tile t).seq.inWork = false) ∧
        (s.routeFor (s.part p).lead 64 ≠ none → ∃ l, s'.out = s.out ++ .workDone (s.part p).lead p (s.part p).cplTail (s.part p).workId :: l) ∧
        ((∀ t ∈ (s.part p).tiles, (s.tile t).gather = []) →
          s'.fab.mem = (s.writeAt (c.part.cplRing + 384 * ((s.part p).cplTail % 2 ^ c.part.ringLog2)) (completionRecord (s.part p) c.part.ringLog2 rep)).fab.mem) ∧
        s.SameSteward s')) ∧
  (∀ (p : Part) (log2 : Nat) (r : Report), r.counters.length = 6 → r.hist.length = 70 →
    let bs := completionRecord p log2 r
    fieldAt bs 0 8 = p.workId.toNat ∧ fieldAt bs 8 4 = p.cplTail % 2 ^ 32 ∧ fieldAt bs 12 1 = r.status.code % 2 ^ 8 ∧
    fieldAt bs 14 2 = r.status.step % 2 ^ 16 ∧ fieldAt bs 16 2 = r.status.tile % 2 ^ 16 ∧ fieldAt bs 18 2 = Min.min p.replays 0xFFFF ∧
    fieldAt bs 20 2 = p.tiles.length % 2 ^ 16 ∧ bs.length = 384)

/-- Completion of CHECKPOINT_COMMIT. With the report at hand and the running lead at CKPT, the commit changes halves, makes the step behind
CKPT with the loops and the report the point from which a replay starts, puts every tile in skip mode under a status other than OK, and
every tile's sequencer goes on. The bytes of the record's half are free values (log 27), so the statement says nothing about them. -/
def Obligations.CheckpointCommits : Prop :=
  ∀ (s : State) (p addr : Nat) (rep : Report), (s.part p).report = some rep → s.bodyAt (s.part p).lead = some (.ckpt addr) →
    s.seqRuns (s.part p).lead = true → (s.part p).lead ∈ (s.part p).tiles → (s.part p).tiles.Nodup →
    ∃ s', exec (.checkpointCommit p) s = .next s' ∧ (s'.part p).ckptHalf = 1 - (s.part p).ckptHalf ∧ (s'.part p).report = none ∧
      (s'.part p).point.atTake = false ∧ (s'.part p).point.rep = rep ∧
      ((s'.part p).point.loops, (s'.part p).point.step) = seqNext (s.tile (s.part p).lead).seq.loops (s.tile (s.part p).lead).seq.pc ∧
      ((s'.part p).point.skip = if rep.status.code = stOk then none else some rep.status) ∧
      (s'.part p).reqHead = (s.part p).reqHead ∧ (s'.part p).cplTail = (s.part p).cplTail ∧ (∀ r, r ≠ p → s'.part r = s.part r) ∧
      (∀ t ∈ (s.part p).tiles, (s'.tile t).seq.hold = .run ∧ (rep.status.code ≠ stOk → (s'.tile t).seq.skip ≠ none)) ∧ s.SameSteward s'

/-- Completion of PT_CPL_HEAD_WRITE and DOORBELL. PT_CPL_HEAD of a bound partition that is not being killed takes the low 32 bits written. A
DOORBELL of the host carries a partition number and TAIL; the lead keeps the latest TAIL accepted. One whose TAIL lies behind it, taken
as a signed 32-bit difference, is ignored and not counted, tested first; any other that asks for more than the ring holds past REQ_HEAD
is discarded and counted with its partition, and the rest are accepted. -/
def Obligations.HostMovesTheRings : Prop :=
  (∀ (s : State) (p : Nat) (v : Word), (s.part p).isBound = true → s.stewardRuns = true → (s.part p).state ≠ .killing →
    exec (.ptCplHeadWrite p v) s = .next (s.updPart p (fun r => { r with cplHead := v.toNat % 2 ^ 32 }))) ∧
  ∀ (s : State) (h : MsgHead) (c : Comp), s.moduleRuns h.module = true → s.pins.stops = [] → h.host = true → h.addr.toNat = s.stackId * 2 ^ 58 →
    h.pnum < 64 → (s.part h.pnum).comp = some c → (s.part h.pnum).state ≠ .unbound → (s.part h.pnum).state ≠ .killing → (s.part h.pnum).state ≠ .starting →
    (s.part h.pnum).tail < 2 ^ 32 →
    let tail := h.aux.toNat % 2 ^ 32
    let ahead := (tail + 2 ^ 32 - (s.part h.pnum).tail) % 2 ^ 32
    let asked := (tail + 2 ^ 32 - (s.part h.pnum).reqHead) % 2 ^ 32
    (2 ^ 31 ≤ ahead → exec (.doorbell h) s = .next s) ∧
    (ahead < 2 ^ 31 → 2 ^ c.part.ringLog2 < asked → exec (.doorbell h) s =
      .next { s with load := { s.load with dbDrop := Min.min (s.load.dbDrop + 1) (2 ^ 32 - 1), dbPnum := h.pnum } }) ∧
    (ahead < 2 ^ 31 → asked ≤ 2 ^ c.part.ringLog2 → exec (.doorbell h) s = .next (s.updPart h.pnum (fun k => { k with tail := tail })))

/-- Completion of SINGLE, PAIRED, ELEM and SOFTMAX. A tile ready for such a step, out of skip mode, with no WB stream loading under
DISCIPLINE 0, dimensions within their maxima, M and N not 0 and room in the step queues, issues it, and the head of its array's queue
begins if it can. For a step of the tile alone (not of a gang) with no step before it, arrays that admit work and hold no job, and K above
0: a SINGLE step's job stands in the array it names with the walk's weight sets, if the walk has one; a PAIRED step's jobs stand in both
arrays with their blocks, if there is one; an ELEM or SOFTMAX step's jobs stand in both and its fused pair is in period 0. A SINGLE step
with K = 0 is finished at once with its accumulate input or zeros as its outputs. -/
def Obligations.OperatorStepsEnterTheirArrays : Prop :=
  ∀ (s : State) (t pn : Nat) (p : Part) (st : ItinStep) (q : Seq) (o : Oper) (c : Nat → Instr),
    (o.mode, c) ∈ ([(0, .single), (1, .paired), (2, .elem), (3, .softmax)] : List (Nat × (Nat → Instr))) →
    s.StandsAt t pn p st q → st.body = .oper o → q.skip = none → (s.tile t).wbLoads p.discipline = false →
    0 < dimValue q.ctx o.dimM → dimValue q.ctx o.dimM ≤ o.maxM → 0 < dimValue q.ctx o.dimN → dimValue q.ctx o.dimN ≤ o.maxN →
    dimValue q.ctx o.dimK ≤ o.maxK →
    let m := dimValue q.ctx o.dimM
    let n := dimValue q.ctx o.dimN
    let k := dimValue q.ctx o.dimK
    let side : Side := if o.array = 0 then .a else .b
    let issued := if o.mode = 0
      then s.updTile t (fun x => ({ x with seq := q }.issue p st (.array side) false).gateIdle (otherSide side) p.cls)
      else s.updTile t (fun x => { x with seq := q }.issue p st .pair false)
    let y : Tile := { s.tile t with seq := q }
    ((o.mode = 0 → y.arrayLoad side < 5) → (o.mode ≠ 0 → y.arrayLoad .a < 5 ∧ y.arrayLoad .b < 5) →
      exec (c t) s = .next (issued.startHead t (if o.mode = 0 then side else .a))) ∧
    ((∀ i, st.tgt ≠ .gang i) → (∀ r ∈ q.issued, r.finished = false → r.unit ≠ .array .a ∧ r.unit ≠ .array .b ∧ r.unit ≠ .pair) →
      (s.tile t).a.job = none → (s.tile t).b.job = none → s.admits t .a = true → s.admits t .b = true →
      let df := lanesOf o.form * o.beat * o.rate
      let w (z : Side) := widthOf (slicesOf o.form) (s.fab.columns z (tileX t) (tileY t) 1 1)
      let v := Nat.min (w .a) (w .b)
      (0 < k → ∃ s', exec (c t) s = .next s' ∧ s.SameTilesBut s' t ∧ s.SameMemory s' ∧ s.SameSteward s' ∧
        (∃ run, (s'.tile t).seq.issued = q.issued ++ [run] ∧ run.id = q.nextId ∧ run.step = q.pc ∧
          run.unit = if o.mode = 0 then .array side else .pair) ∧
        (o.mode = 0 → walkPasses o df (w side) 0 m 0 n k ≠ [] → ∃ j, ((s'.tile t).arr side).job = some j ∧ j.role = .single ∧ j.oper = o ∧
          j.runs = [(t, q.nextId)] ∧ (j.m, j.n, j.k) = (m, n, k) ∧ j.step = q.pc ∧ j.workId = q.ctx.workId ∧ j.passes = walkPasses o df (w side) 0 m 0 n k) ∧
        (o.mode = 1 → pairPassesA df v m n 0 k ≠ [] → ∃ ja jb, (s'.tile t).a.job = some ja ∧ (s'.tile t).b.job = some jb ∧ ja.role = .pairA ∧
          jb.role = .pairB ∧ (ja.m, ja.n, ja.k) = (m, k, n) ∧ (jb.m, jb.n, jb.k) = (n, k, m) ∧
          ja.passes = pairPassesA df v m n 0 k ∧ jb.passes = pairPassesB df v m n 0 k) ∧
        (2 ≤ o.mode → ∃ ja jb f, (s'.tile t).a.job = some ja ∧ (s'.tile t).b.job = some jb ∧ (s'.tile t).fusedRun = some f ∧
          ja.role = .fusedA ∧ jb.role = .fusedB ∧ f.run = q.nextId ∧ f.period = 0 ∧ f.blocks = ceilDiv n o.kb ∧ f.m = m ∧ f.n = n)) ∧
      (k = 0 → o.mode = 0 → ∀ run, ({ s.tile t with seq := q }.issue p st (.array side) false).seq.issued = q.issued ++ [run] →
        exec (c t) s = .next ((issued.emptyOutputs side (issued.newJob p st o run t side .single [(t, q.nextId)] ⟨[t], false, 0, 1⟩) (0, m) (0, n)).finishRuns
          [(t, q.nextId)])))

/-- Completion of OUTPUT_POSITION_ISSUE. When a job's present weight set is loaded, its arrays are ready, no interlock holds the position, no
retry is owed at the set's boundary, its window slots are resident or room has been made by a spill that its column takes, the other
array of a paired step does not hold it back, and its vectors are whole, the position enters: each of the set's columns gets one partial
sum in flight, made outside a paired step of the canonical feeds of its chunk, and the walk goes on to the next position or weight set.
While the arrays are not ready or the set is not loaded nothing changes. Without room in the window and the spill area the step ends its
work item with WINDOW_FULL on every tile of the array. -/
def Obligations.OutputPositionEnters : Prop :=
  ∀ (s : State) (t : Nat) (x : Side) (job : Job) (p : Pass) (rest : List Pass), ((s.tile t).arr x).job = some job → job.passes = p :: rest →
    (s.jobReady x job = false ∨ job.loaded < p.loads → exec (.outputPositionIssue t x) s = .next s) ∧
    (s.jobReady x job = true → p.loads ≤ job.loaded → s.slotsFor (s.jobPart t) x job p = .full → ∃ s', exec (.outputPositionIssue t x) s = .next s' ∧
      s' = s.failJob t x job stWindowFull (s.fab.gangColumn x job p.n0) ∧ ∀ u ∈ job.tiles, (s'.tile u).seq.skip ≠ none) ∧
    (∀ job1 spills s1 vs, s.jobReady x job = true → p.loads ≤ job.loaded → job.q < p.nq →
      ¬ (p.k0 ≠ 0 ∧ (job.oper.acc ≠ 0 ∨ p.k0 % 256 ≠ 0) ∧ ∃ f ∈ job.flights, f.slot = p.slot ∧ f.q = p.q0 + job.q ∧ f.n0 = p.n0) →
      (job.q ≠ 0 ∨ job.retries = []) → s.slotsFor (s.jobPart t) x job p = .ready job1 spills → s.lockstep t x job p = true →
      s.takeVectors t x job p = some (s1, vs) → (s1.writeSpills (s.jobPart t) x job spills).2 = stOk →
      ∃ s' j, exec (.outputPositionIssue t x) s = .next s' ∧ ((s'.tile t).arr x).job = some j ∧
        j.flights = job1.flights ++ s.positionFlights x job p vs ∧
        (job.q + 1 < p.nq → j.q = job.q + 1 ∧ j.passes = job.passes ∧ j.loaded = job.loaded) ∧
        (p.nq = job.q + 1 → j.q = 0 ∧ j.passes = rest ∧ j.loaded = 0) ∧
        j.slots = job1.slots ∧ ((s'.tile t).arr x).nextIssue = (s.issueCycle t x job p (s.jobInterval t x job)).1 + s.jobInterval t x job ∧
        (spills = [] → s.SameMemory s') ∧ s.SameSteward s') ∧
    ∀ vs, job.role.paired = false → s.positionFlights x job p vs = (List.range p.ncols).map (fun i =>
      let place := placeOf (slicesOf job.form) 0 (s.fab.columns x job.gx job.gy job.gw job.gh) i
      { slot := p.slot, col := place.1, tap := p.tap, part := p.part, q := p.q0 + job.q, j := p.n0 + i, block := p.block, n0 := p.n0, ncols := p.ncols, k0 := p.k0,
        feeds := chunkFeeds job.oper (if p.last then p.kEnd else p.kEnd + 1) p.k0 p.kEnd (s.fab.columnOperands x job vs p.tap place) })

/-- Completion of PSUM_OUT. The oldest partial sum of a logical column of arrays under no suspicion leaves the array and is fed to its
output's accumulator in the window of its gang column. One that raises the overflow flag owes a retry of its chunk; one that leaves the
reduction open stays in the slot; one that ends it gives its root to the job's output and frees its place. -/
def Obligations.PartialSumLands : Prop :=
  ∀ (s : State) (t : Nat) (x : Side) (j : Nat) (job : Job) (f : Flight), ((s.tile t).arr x).job = some job →
    job.flights.find? (fun f => f.j == j) = some f → (∀ u ∈ job.tiles, ((s.tile u).arr x).suspect = false ∧ s.coreRuns u = true) → job.slots ≠ [] →
    let idx := f.q * job.n + f.j
    let a := (job.accAt f.slot f.col idx).feed job.plan f.feeds
    let out : Job := { job with flights := job.flights.erase f }
    let kept : Job := out.setAcc f.slot f.col idx a
    let owing : Job := { kept with retries := insertNew job.retries ⟨f.slot, f.n0, f.ncols, f.k0⟩ }
    (a.flag = true → exec (.psumOut t x j) s = .next (s.updTile t (fun y => y.updArr x (fun k => { k with job := some owing })))) ∧
    (a.flag = false → a.root = none → exec (.psumOut t x j) s = .next (s.updTile t (fun y => y.updArr x (fun k => { k with job := some kept })))) ∧
    (a.flag = false → a.root ≠ none → exec (.psumOut t x j) s = .next
      (let r := s.rootDone t x out f.block f.q f.j a; r.1.keepJob t x (r.2.freeAcc f.slot f.col idx)))

/-- Completion of RESCALE_RETRY and SLOT_RELOAD. Between weight sets, with the slots resident and no sum in flight, a retry brings the kept
weight sets of its chunk back by stopped reload, replaces every flagged accumulator of its column chunk by its retry at the next offset,
lands it and counts the weight sets repeated. The spilled slot that a retry or the walk needs next is resident after its reload, whenever
room can be made for it; one with a lost codeword ends the work item with DS_UNCORR. -/
def Obligations.RetriesAndReloads : Prop :=
  (∀ (s : State) (t : Nat) (x : Side) (job : Job) (r : RetryMark) (rs : List RetryMark), ((s.tile t).arr x).job = some job → job.retries = r :: rs →
    let slots := job.slots.filter (fun v => v.key == r.slot)
    job.q = 0 → job.flights = [] → slots ≠ [] → (∀ v ∈ slots, v.spilled = none) → s.jobReady x job = true →
    let owed := slots.flatMap (fun v => (v.accs.filter (fun e =>
      e.2.flag && decide (r.n0 ≤ e.1 % job.n) && decide (e.1 % job.n < r.n0 + r.ncols))).map (fun e => (v.col, e)))
    let g := owed.foldl (fun g e => Nat.min g e.2.2.g) ((owed.head?.map (fun e => e.2.2.g)).getD 0)
    let sets := job.retrySets r g
    let back := (sets.foldl (fun s k => s.repeatSet t x job (s.jobInterval t x job) k) s).afterRetry s t x { job with retries := rs } sets.getLast?
    let later := ((job.kept.filter (fun k => k.slot == r.slot && k.n0 == r.n0)).map (·.k0)).foldl Nat.max r.k0
    let z := owed.foldl (fun (c : State × Job) e => c.1.landAcc t x c.2 r.slot e.1 r.slot (e.2.1 / job.n) (e.2.1 % job.n)
      (if (e.2.2.retry job.plan).g == e.2.2.g then r else { r with k0 := later }) (e.2.2.retry job.plan)) back
    exec (.rescaleRetry t x) s = .next ((z.1.updTile t (fun y => y.bump 4 sets.length)).keepJob t x z.2)) ∧
  ∀ (s : State) (t : Nat) (x : Side) (job j : Job) (v : Slot) (i : Nat) (spills : List (Nat × Nat)), ((s.tile t).arr x).job = some job →
    s.wantedSlot x job = some v → v.spilled = some i → s.jobReady x job = true →
    Job.makeRoom { job with slots := job.slots.erase v } (((s.jobPart t).spillShare (job.bottom v.col) x job).2) v.key v.col = .ready j spills →
    (s.readSpill (s.jobPart t) x job v.col i ≠ stOk → exec (.slotReload t x) s = .next (s.failJob t x job stDsUncorr v.col)) ∧
    (s.readSpill (s.jobPart t) x job v.col i = stOk → (s.writeSpills (s.jobPart t) x job spills).2 = stOk →
      ∃ s' j', exec (.slotReload t x) s = .next s' ∧ ((s'.tile t).arr x).job = some j' ∧
        j'.slots = j.slots ++ [{ v with spilled := none, stamp := j.stamp }] ∧ j'.passes = job.passes ∧ j'.retries = job.retries ∧
        (spills = [] → s.SameMemory s') ∧ s.SameSteward s')

/-- Completion of MOVING_FRONT and STOPPED_RELOAD. When the next weight set changes by the given kind and is not yet whole, no position of it
has entered, no retry is owed, the arrays are ready, every tile of the logical array has a whole tap in its front buffer and no sum in
flight can name the tap (for a stopped reload: none is in flight), one tap of every tile moves from the front buffer into the array. The
tap goes to the set's own tap for a set of one, and to the next in order for a larger one. While one of these fails nothing changes. -/
def Obligations.WeightSetsLoad : Prop :=
  ∀ (s : State) (t : Nat) (x : Side) (job : Job) (p : Pass) (rest : List Pass) (c : Instr) (kind : LoadKind),
    (c = .movingFront t x ∧ kind = .moving) ∨ (c = .stoppedReload t x ∧ kind = .stopped) →
    ((s.tile t).arr x).job = some job → job.passes = p :: rest → job.tiles.Nodup → t ∈ job.tiles →
    let tap := if p.loads = 1 then p.tap else job.loaded
    let clear := (kind = .moving ∧ ∀ f ∈ job.flights, f.tap ≠ tap) ∨ (kind = .stopped ∧ job.flights = [])
    (p.kind ≠ kind ∨ p.loads ≤ job.loaded ∨ job.q ≠ 0 ∨ job.retries ≠ [] ∨ ¬ clear ∨ (∃ u ∈ job.tiles, ((s.tile u).arr x).front = []) ∨ s.jobReady x job = false →
      exec c s = .next s) ∧
    (p.kind = kind → job.loaded < p.loads → job.q = 0 → job.retries = [] → clear → (∀ u ∈ job.tiles, ((s.tile u).arr x).front ≠ []) →
      s.jobReady x job = true → ∃ s', exec c s = .next s' ∧
        (∀ u ∈ job.tiles, ((s'.tile u).arr x).front = ((s.tile u).arr x).front.tail ∧
          ((s'.tile u).arr x).taps = tabSet ((s.tile u).arr x).taps tap (((s.tile u).arr x).front.headD ⟨[], []⟩)) ∧
        ((s'.tile t).arr x).job = some { job with loaded := job.loaded + 1 } ∧ (∀ u, u ∉ job.tiles → s'.tile u = s.tile u) ∧
        s.SameMemory s' ∧ s.SameSteward s')

/-- Completion of PAIR_BLOCK_FILL, FUSED_PAIR_PERIOD, DRAIN_COMPLETE and VECTOR_UNIT_SAFE_POINT. With the block before it used up by both
arrays and the rows of the next whole in the pair buffer, that block is presented at every tile of the logical array and its rows leave
the buffer. A fused pair whose arrays have done their blocks, in a partition that admits work, with the vector unit powered and nothing
draining or suspect, runs its vector stages and begins the next period, until its blocks and three more are over; then its steps are
finished. A busy array whose job has no sum in flight (or that takes part in no job) clears BUSY and stays as it is otherwise; one with
sums in flight and under no suspicion stays busy. A busy vector unit clears VBUSY, with a fused pair at the end of its period only. -/
def Obligations.PairBlocksPeriodsAndDrains : Prop :=
  ((∀ (s : State) (t blk n : Nat) (job : Job), (s.tile t).pairWant = some (blk, n, job) →
    (s.admits t .a = true → n ≤ (s.tile t).pairRows.length → (∀ b rows, (s.tile t).pairNow = some (b, rows) → (s.tile t).pairFree b = true) →
      ∃ s', exec (.pairBlockFill t) s = .next s' ∧ (s'.tile t).pairRows = (s.tile t).pairRows.drop n ∧
        (∀ u ∈ job.tiles, (s'.tile u).pairNow = some (blk, (s.tile t).pairRows.take n)) ∧
        (∀ u, u ∉ job.tiles → u ≠ t → s'.tile u = s.tile u) ∧ (∀ p, s'.part p = s.part p) ∧ s.SameMemory s' ∧ s.SameSteward s') ∧
    ((s.tile t).pairRows.length < n → exec (.pairBlockFill t) s = .next s)) ∧
  (∀ (s : State) (t : Nat) (f : Fused) (job : Job), (s.tile t).fusedRun = some f → (s.tile t).b.job = some job →
    ((s.tile t).periodDone f = false → exec (.fusedPairPeriod t) s = .next s) ∧
    (s.admits t .a = true → (s.tile t).vgated = false → (s.tile t).vbusy = false → (s.tile t).a.busy = false → (s.tile t).b.busy = false →
      (s.tile t).a.suspect = false → (s.tile t).b.suspect = false → (s.tile t).periodDone f = true →
      (f.period + 1 < f.blocks + 3 → ∃ f', exec (.fusedPairPeriod t) s = .next (s.updTile t (fun y => { y with fusedRun := some f' })) ∧
        f'.period = f.period + 1 ∧ f'.oper = f.oper ∧
        (f.period = 0 → f' = { f with period := 1 }) ∧
        (f.period = 1 ∨ f.period = 2 → f' = { f.vectorStage ((s.jobPart t).func f.oper.func false) (f.period - 1) with period := f.period + 1 }) ∧
        (3 ≤ f.period → f' = { (f.vectorStage ((s.jobPart t).func f.oper.func false) (f.period - 1)).updateStage (f.period - 3) with period := f.period + 1 })) ∧
      (f.blocks + 3 ≤ f.period + 1 → ∃ s', exec (.fusedPairPeriod t) s = .next s' ∧
        (∀ g, (s'.tile t).fusedRun = some g → g.run ≠ f.run ∨ g.period = 0) ∧
        (∀ i, (t, i) ∈ job.runs → ∀ r ∈ (s'.tile t).seq.issued, r.id = i → r.finished = true) ∧ s.SameSteward s')))) ∧
  ((∀ (s : State) (t : Nat) (x : Side), ((s.tile t).arr x).busy = true →
    (s.drained t x = true → exec (.drainComplete t x) s = .next (s.updTile t (fun y => y.updArr x (fun a => { a with busy := false })))) ∧
    (s.drained t x = false → ((s.tile t).arr x).suspect = false → exec (.drainComplete t x) s = .next s) ∧
    (s.jobOf t x = none → s.drained t x = true) ∧
    (∀ o j, s.jobOf t x = some (o, j) → (s.tile o).fusedRun = none → s.drained t x = j.flights.isEmpty)) ∧
  ∀ (s : State) (t : Nat), (s.tile t).vbusy = true →
    ((s.tile t).fusedRun = none ∨ (∃ f, (s.tile t).fusedRun = some f ∧ (s.tile t).periodDone f = true) →
      exec (.vectorUnitSafePoint t) s = .next (s.updTile t (fun y => { y with vbusy := false }))) ∧
    (∀ f, (s.tile t).fusedRun = some f → (s.tile t).periodDone f = false → (s.tile t).a.suspect = false → (s.tile t).b.suspect = false →
      exec (.vectorUnitSafePoint t) s = .next s))

/-- After reset the boot state is RESET with no stop cause, no site record, no error and no order fault, the internal reset is
held, no clock region runs, every tile is unpowered, unbound and not fenced with its semaphores at 0 and its queues IDLE,
every partition is unbound with its registers 0, every module is OFF with full credit, slot 0 alone holds a key, no
composition is bound, no load runs, no health bit is set, the mailbox is idle with no nonce and memory is canonical. Which
pins stand how and what unlisted memory reads as are the model's choices (logs 5, 6). -/
def Obligations.ResetState : Prop :=
  let s := State.reset
  s.pending = [] ∧ s.boot.state = .reset ∧ s.boot.stop = 0 ∧ s.boot.site = none ∧ s.boot.siteErr = 0 ∧ s.boot.orderFault = false ∧
  s.pins.resetHeld = true ∧ s.pow.pllOn = [] ∧ s.pow.locking = [] ∧ s.stewardRuns = false ∧
  (∀ t, (s.tile t).powered = false ∧ (s.tile t).bound = none ∧ (s.tile t).fenced = false ∧ (∀ i, (s.tile t).sem i = ⟨0, false⟩) ∧
    (∀ q, ((s.tile t).queue q).state = .idle ∧ ((s.tile t).queue q).full = 0 ∧ ((s.tile t).queue q).free = 3) ∧ (s.tile t).seq.running = false) ∧
  (∀ p, (s.part p).state = .unbound ∧ (s.part p).reqHead = 0 ∧ (s.part p).cplTail = 0 ∧ (s.part p).cplHead = 0 ∧ (s.part p).fptLen = 0) ∧
  (∀ m, (s.module m).state = 0 ∧ (s.module m).credits = [32, 192, 32]) ∧
  s.fuse.slot0.state = .set ∧ s.fuse.slot1.state = .empty ∧ s.fuse.slot2.state = .empty ∧ s.fuse.slot3.state = .empty ∧
  s.load.compId = 0 ∧ s.load.cur = none ∧ s.load.state = 0 ∧ s.hl.fault = 0 ∧ s.hl.losses = [] ∧ s.se.busy = false ∧ s.se.nonce = none ∧
  s.se.everUnlocked = false ∧ s.pow.slew = 5 ∧ Memory.wf s.fab.mem = true

/-- Completion of POWER_ON_RESET, RST_N_ASSERT, COLD_RESET_WRITE, COLD_RESET and UNBIND_RESET. A power-on reset gives the reset state but
for the two halves of the ledger flash, the fuses, the fused VCORE_MIN, what has been sent, and the model's queue and free-value counter.
RST_N_ASSERT without a power loss, and COLD_RESET when a cold reset has been requested, give the reset state but for these, the levels of
the pins, the order lockout, the debug port, every column's bytes and its lost codewords; every scratchpad reads as after reset. After a
power loss RST_N_ASSERT changes only the pin, and COLD_RESET without a request nothing. COLD_RESET_WRITE requests a cold reset while the
steward runs. An unbind reset outside VERIFY and APPLY clears GL_COMP_ID; every bound partition then stands in KILLING, the tiles of one
that was neither being bound nor killed are unbound for access, every re-binding is a kill that nothing follows, and memory, ledger, boot
state and fuses stay; during VERIFY and APPLY, and while the steward does not run, it changes nothing. -/
def Obligations.ResetsKeepWhatOutlivesThem : Prop :=
  (∀ s : State, exec .powerOnReset s = .next { State.reset with
    pending := s.pending, free := s.free, boot := { State.reset.boot with vcoreMin := s.boot.vcoreMin },
    led := { State.reset.led with half0 := s.led.half0, half1 := s.led.half1 }, fuse := s.fuse, out := s.out }) ∧
  (∀ s : State,
    let kept : State := { State.reset with
      pending := s.pending, free := s.free, pins := { State.reset.pins with rstN := s.pins.rstN, pwrGood := s.pins.pwrGood, refclk := s.pins.refclk },
      boot := { State.reset.boot with vcoreMin := s.boot.vcoreMin, orderFault := s.boot.orderFault },
      led := { State.reset.led with half0 := s.led.half0, half1 := s.led.half1 }, fuse := s.fuse, jtag := s.jtag, out := s.out,
      fab := { State.reset.fab with mem := s.fab.mem.filter (fun c => decide (colKey 0 0 ≤ c.1)),
                                    lostWords := s.fab.lostWords, lostColumns := s.fab.lostColumns, restored := s.fab.restored } }
    (s.pins.dead = false → exec .rstNAssert s = .next { kept with pins := { kept.pins with rstN := false } }) ∧
    (s.pins.dead = true → exec .rstNAssert s = .next { s with pins := { s.pins with rstN := false } }) ∧
    (s.boot.coldWaiting = true → exec .coldReset s = .next kept) ∧ (s.boot.coldWaiting = false → exec .coldReset s = .next s) ∧
    (Memory.wf s.fab.mem = true → ∀ t off, t < 512 → (off < spSize → memRead kept.fab.mem (spKey t off) = memRead State.reset.fab.mem (spKey t off)) ∧
      (off < colSize → memRead kept.fab.mem (colKey t off) = memRead s.fab.mem (colKey t off)))) ∧
  (∀ s : State, (s.stewardRuns = true → exec .coldResetWrite s = .next { s with boot := { s.boot with coldWaiting := true } }) ∧
    (s.stewardRuns = false → exec .coldResetWrite s = .next s)) ∧
  (∀ s : State, s.stewardRuns = true → s.load.state ≠ 1 → s.load.state ≠ 2 → ∃ s', exec .unbindReset s = .next s' ∧ s'.load.compId = 0 ∧
    (∀ p, p < 64 → (s.part p).isBound = true → (s'.part p).state = .killing ∧
      ((s.part p).state ≠ .killing → (s.part p).state ≠ .starting → (∃ e ∈ s'.load.rebinds, e.pnum = p) ∧
        ∀ t ∈ (s.part p).tiles, (s'.tile t).access = false)) ∧
    (∀ e ∈ s'.load.rebinds, e.comp = none ∧ e.phase = .kill ∧ e.all = true) ∧
    s.SameMemory s' ∧ s.SameBase s' ∧ s'.boot = s.boot ∧ s'.pins = s.pins ∧ s'.led = s.led ∧ s'.hl = s.hl) ∧
  ∀ s : State, (s.load.state = 1 ∨ s.load.state = 2) ∨ s.stewardRuns = false → exec .unbindReset s = .next s

/-- Completion of RESET_RELEASE and BOOT_SELFTEST. With power good, release samples the straps and starts the verified slot of the higher
version, slot 0 on a tie, or stops with FW_NONE when none verifies. The self-test then lets the steward wait for a site record, unless it
fails, the UDS is disabled or a rail order was breached, which stop it; a stop raises bit 6 of HL_FAULT. -/
def Obligations.BootStartsTheFirmwareThatVerifies : Prop :=
  (∀ (s : State) (straps : Nat) (fw0 fw1 : Option Firmware), s.pins.resetHeld = true → s.pins.pwrGood = true → s.pins.dead = false →
    (∀ a b, fw0 = some a → fw1 = some b → ∃ s', exec (.resetRelease straps fw0 fw1) s = .next s' ∧ s'.boot.state = .selftest ∧ s'.pins.straps = straps % 4 ∧
      s'.pins.resetHeld = false ∧ (if a.version < b.version then s'.boot.fwSlot = 1 ∧ s'.boot.fw = some b else s'.boot.fwSlot = 0 ∧ s'.boot.fw = some a)) ∧
    (∀ a, fw0 = some a → fw1 = none → ∃ s', exec (.resetRelease straps fw0 fw1) s = .next s' ∧ s'.boot.state = .selftest ∧ s'.boot.fwSlot = 0 ∧ s'.boot.fw = some a) ∧
    (∀ b, fw0 = none → fw1 = some b → ∃ s', exec (.resetRelease straps fw0 fw1) s = .next s' ∧ s'.boot.state = .selftest ∧ s'.boot.fwSlot = 1 ∧ s'.boot.fw = some b) ∧
    (fw0 = none → fw1 = none → ∃ s', exec (.resetRelease straps fw0 fw1) s = .next s' ∧ s'.boot.state = .stopped ∧ s'.boot.stop = 1 ∧ s'.hl.fault = s.hl.fault ||| 2 ^ 6)) ∧
  ∀ (s : State) (pass : Bool), s.boot.state = .selftest →
    (pass = true → s.fuse.udsDisabled = false → s.boot.orderFault = false →
      exec (.bootSelftest pass) s = .next { s with boot := { s.boot with state := .waitSite } }) ∧
    (pass = false ∨ s.fuse.udsDisabled = true → ∃ s', exec (.bootSelftest pass) s = .next s' ∧ s'.boot.state = .stopped ∧ s'.boot.stop = 2 ∧ s'.hl.fault = s.hl.fault ||| 2 ^ 6) ∧
    (pass = true → s.fuse.udsDisabled = false → s.boot.orderFault = true → ∃ s', exec (.bootSelftest pass) s = .next s' ∧ s'.boot.state = .stopped ∧ s'.boot.stop = 3)

/-- Completion of SITE_RECORD_SUBMIT and LEDGER_COMPACT. A submitted record that fails a check only sets SITE_ERR. One that passes is taken
with its fields, the power cap becomes its envelope, every listed module trains and the ledger is replayed from the valid half of the
higher EPOCH, or from the only valid one; blank halves are formatted with EPOCH 1; a flash that does not answer stops the steward with
cause 6 and one with no valid half that is not blank with cause 5; the grid and the fuses stay. Past 24 MiB, with a flash that answers, the
other half is written with a header record of EPOCH one greater, every record of the live set and every waiting append, of which each is in
the new half or still waits; the old half is erased, and counters, fault map and image cache stay. Up to 24 MiB nothing happens. -/
def Obligations.SiteRecordAndLedger : Prop :=
  (∀ (s : State) (answers : Bool), s.stewardRuns = true →
    (siteCheck s s.boot.window ≠ 0 → exec (.siteRecordSubmit answers) s = .next { s with boot := { s.boot with siteErr := siteCheck s s.boot.window } }) ∧
    (siteCheck s s.boot.window = 0 → ∃ s', exec (.siteRecordSubmit answers) s = .next s' ∧
      s'.boot.site = some (decodeSite s.boot.window) ∧ s'.boot.siteErr = 0 ∧ s'.pow.cap = (decodeSite s.boot.window).envelope ∧
      s'.fab = s.fab ∧ s'.fuse = s.fuse ∧
      (∀ m, m ∈ s'.listedModules → (s'.module m).state = 1) ∧ (∀ m, m ∉ s'.listedModules → s'.module m = s.module m) ∧
      (answers = false → s'.boot.state = .stopped ∧ s'.boot.stop = 6) ∧
      (answers = true → s.led.half0.blankHead = true → s.led.half1.blankHead = true → s'.boot.state = .ledger ∧ s'.boot.fresh = true ∧ s'.led.epoch = 1 ∧
        s'.led.half0.records = [halfRecord 1 0]) ∧
      (answers = true → s.led.half0.head = none → s.led.half1.head = none → (s.led.half0.blankHead = false ∨ s.led.half1.blankHead = false) →
        s'.boot.state = .stopped ∧ s'.boot.stop = 5) ∧
      (∀ e r, answers = true → (s.led.half0.head = some (e, r) ∧ s.led.half1.head = none) ∨ (s.led.half0.head = none ∧ s.led.half1.head = some (e, r)) →
        s'.boot.state = .ledger ∧ s'.led.epoch = e ∧ s'.led.cur = if s.led.half0.head = none then 1 else 0) ∧
      (∀ e r e' r', answers = true → s.led.half0.head = some (e, r) → s.led.half1.head = some (e', r') → s'.boot.state = .ledger ∧
        s'.led.epoch = Max.max e e' ∧ s'.led.cur = if e < e' then 1 else 0))) ∧
  (∀ s : State, s.led.pos ≤ 0x1800000 → exec .ledgerCompact s = .next s) ∧
  ∀ s : State, 0x1800000 < s.led.pos → s.led.dead = false → s.stewardRuns = true → s.led.cur ≤ 1 →
    ∃ l, exec .ledgerCompact s = .next { s with led := l } ∧ l.cur = 1 - s.led.cur ∧ l.epoch = s.led.epoch + 1 ∧
      (l.half l.cur).records.head? = some (halfRecord (s.led.epoch + 1) s.led.rseq) ∧ (l.half s.led.cur) = ⟨[], 0⟩ ∧
      (∀ b ∈ s.led.liveSet ++ s.led.waiting, b ∈ (l.half l.cur).records.map (·.body) ∨ b ∈ l.waiting) ∧
      l.counter0 = s.led.counter0 ∧ l.counter1 = s.led.counter1 ∧ l.faults = s.led.faults ∧ l.cache = s.led.cache ∧ l.bootCount = s.led.bootCount ∧
      l.health = s.led.keptHealth

/-- Completion of MODULE_TRAIN_DONE, TRAINING_TIMEOUT, LEDGER_REPLAY_DONE, BOOT_TEST and BOOT_READY. While the steward runs, a module that
has trained becomes UP with at most 15 repaired lanes; a first timeout makes it train at half rate, and a second makes it DOWN and counts
an event of code 7. Once the replay has ended, the end of a training moves LEDGER or TRAIN to TEST when no other listed module still
trains, and to TRAIN otherwise; before the replay's end, and in every other boot state, the boot state stays. In LEDGER, the end of the
replay stops firmware whose SVN is below the ledger's counter with cause 4, and otherwise goes to TEST or TRAIN. The tests of TEST, run
once, leave every byte of memory as after reset and no codeword lost, record every bad column and unusable column, make a tile good just
if no test and no record says otherwise and each of its arrays needs at most two detours, and its column usable just if none says
otherwise; every tile is then unbound and unpowered. READY then publishes a report of 2,240 bytes, counts the boot and, while the flash
takes records, appends its BOOT record. -/
def Obligations.BootTestsAndReady : Prop :=
  (∀ (s : State) (m r : Nat), (s.module m).state = 1 → s.stewardRuns = true →
    let others := ∀ k ∈ s.listedModules, k ≠ m → (s.module k).state ≠ 1
    let after (b : Boot) : Prop :=
      (s.boot.state = .ledger ∨ s.boot.state = .train → s.boot.replayEnded = true →
        (others → b = { s.boot with state := .test }) ∧ (¬ others → b = { s.boot with state := .train })) ∧
      ((s.boot.state ≠ .ledger ∧ s.boot.state ≠ .train) ∨ s.boot.replayEnded = false → b = s.boot)
    (∃ b, exec (.moduleTrainDone m r) s = .next { s.setModule m { s.module m with state := 2, repaired := Min.min r 15 } with boot := b } ∧ after b) ∧
    ((s.module m).half = false → exec (.trainingTimeout m) s = .next (s.setModule m { s.module m with half := true })) ∧
    ((s.module m).half = true → ∃ s', exec (.trainingTimeout m) s = .next s' ∧ (s'.module m).state = 3 ∧ after s'.boot ∧
      (∀ k, k ≠ m → (s'.module k).state = (s.module k).state) ∧
      (tabGet (0, 0) s'.hl.events evModule).1 = Min.min ((tabGet (0, 0) s.hl.events evModule).1 + 1) 0xFFFF ∧
      s'.fab = s.fab ∧ s'.pins = s.pins ∧ s'.led = s.led ∧ s'.load = s.load ∧ s.SameBase s')) ∧
  (∀ (s : State) (m r : Nat), (s.module m).state ≠ 1 ∨ s.stewardRuns = false →
    exec (.moduleTrainDone m r) s = .next s ∧ exec (.trainingTimeout m) s = .next s) ∧
  (∀ (s : State), s.boot.state = .ledger → let svn := (s.boot.fw.map (·.svn)).getD 0
    (svn < s.led.counter1 → exec .ledgerReplayDone s = .next { s with
      boot := { s.boot with state := .stopped, stop := 4 }, hl := { s.hl with fault := s.hl.fault ||| 2 ^ 6 } }) ∧
    (s.led.counter1 ≤ svn → exec .ledgerReplayDone s = .next { s with boot := { s.boot with replayEnded := true, state := if s.trained then .test else .train } })) ∧
  (∀ (s : State) (f : TestFindings), s.boot.state = .test → s.boot.testDone = false → ∃ s', exec (.bootTest f) s = .next s' ∧
    s'.boot = { s.boot with testDone := true } ∧ (∀ k, memRead s'.fab.mem k = memRead State.reset.fab.mem k) ∧
    s'.fab.lostWords = [] ∧ s'.fab.lostColumns = [] ∧
    (∀ b ∈ f.badColumns, LedgerBody.faultColumn b.tile b.side b.col ∈ s'.led.faults) ∧ (∀ t ∈ f.unusable, LedgerBody.faultUnusable t ∈ s'.led.faults) ∧
    (∀ t, t < 512 →
      let cols (x : Side) := columnsFor s'.led.faults f.badColumns t x
      ((s'.tile t).good = true ↔ LedgerBody.faultTile t ∉ s.led.faults ∧ t ∉ f.badTiles ∧ (cols .a).length ≤ 2 ∧ (cols .b).length ≤ 2) ∧
      ((s'.tile t).usable = true ↔ LedgerBody.faultUnusable t ∉ s.led.faults ∧ t ∉ f.unusable) ∧
      (s'.tile t).a.detours = (cols .a).take 2 ∧ (s'.tile t).b.detours = (cols .b).take 2 ∧ (s'.tile t).bound = none ∧ (s'.tile t).powered = false) ∧
    s'.pins = s.pins ∧ s'.link = s.link ∧ s'.pow = s.pow ∧ s'.load = s.load ∧ s'.hl = s.hl ∧ s.SameBase s') ∧
  (∀ (s : State), s.boot.state = .test → s.boot.testDone = true → ∃ s', exec .bootReady s = .next s' ∧
    (∃ r, s'.boot = { s.boot with state := .ready, report := r } ∧ r.length = 2240) ∧ s'.led.bootCount = s.led.bootCount + 1 ∧
    (s.led.dead = false → s.led.pos < ledgerFull → ((s'.led.half s.led.cur).records.getLast?).map (·.body) =
      some (.boot (s.led.bootCount + 1) ((s.boot.fw.map (·.version)).getD 0) s.boot.window)) ∧
    s'.fab = s.fab ∧ s'.pins = s.pins ∧ s'.load = s.load ∧ s'.hl = s.hl ∧ s.SameBase s') ∧
  ∀ (s : State), (s.boot.state ≠ .ledger → exec .ledgerReplayDone s = .next s) ∧
    (s.boot.state ≠ .test ∨ s.boot.testDone = true → ∀ f, exec (.bootTest f) s = .next s) ∧
    (s.boot.state ≠ .test ∨ s.boot.testDone = false → exec .bootReady s = .next s)

/-- Completion of RAIL_EXCURSION, RAIL_RECOVERY, RAIL_ORDER_BREACH, PWR_GOOD_LOSS and REFCLK_LOSS. While the steward runs, a rail excursion
holds the clocks stopped, raises bit 2 of HL_FAULT, counts an event of code 8 and ends a load as FAILED; VDR and VPP also lose every
column, and VAON, alone, is a power loss. Loss of PWR_GOOD stops the clocks as a power loss, and loss of the reference clock stops them.
Movement of two rails in a wrong order is recorded, raises bit 5, and stops a bring-up with cause 3, but not RESET, READY or a stopped
steward. Recovery, while a rail holds the clocks, ends every rail's hold; after VDR or VPP it clears GL_COMP_ID and kills every bound
partition; after other rails no partition is killed if no core fails its re-test, a running one without a hold goes on running, and VIO
makes every UP module retrain. Without a rail's hold recovery changes nothing. -/
def Obligations.RailAndClockFailures : Prop :=
  (∀ (s : State) (r : Rail) (n : Nat), s.stewardRuns = true → ∃ s', exec (.railExcursion r n) s = .next s' ∧ StopCause.rail r ∈ s'.pins.stops ∧
    (∀ c ∈ s.pins.stops, c ∈ s'.pins.stops) ∧ s'.hl.fault.testBit 2 = true ∧ (r = .vaon ↔ s'.pins.dead = true) ∧ s'.load.cur = none ∧
    (tabGet (0, 0) s'.hl.events evRail).1 = Min.min ((tabGet (0, 0) s.hl.events evRail).1 + 1) 0xFFFF ∧
    (s.load.cur ≠ none → s'.load.state = 4) ∧ (s.load.cur = none → s'.load = s.load) ∧
    (r = .vdr ∨ r = .vpp → ∀ t, t < 512 → t ∈ s'.fab.lostColumns) ∧ (r ≠ .vdr → r ≠ .vpp → s'.fab.lostColumns = s.fab.lostColumns) ∧
    s.SameMemory s' ∧ s'.boot = s.boot ∧ s'.led = s.led ∧ s.SameBase s') ∧
  (∀ s : State, exec .pwrGoodLoss s = .next { s with pins := { s.pins with stops := insertNew s.pins.stops .pwrGood, pwrGood := false, dead := true }, hl := { s.hl with fault := s.hl.fault ||| 4 } }) ∧
  (∀ s : State, exec .refclkLoss s = .next { s with pins := { s.pins with stops := insertNew s.pins.stops .refclk, refclk := false }, hl := { s.hl with fault := s.hl.fault ||| 4 } }) ∧
  (∀ (s : State) (a b : Rail), ∃ s', exec (.railOrderBreach a b) s = .next s' ∧ s'.boot.orderFault = true ∧ s'.hl.fault.testBit 5 = true ∧
    (s.boot.state = .ready ∨ s.boot.state = .reset ∨ s.boot.state = .stopped → s'.boot = { s.boot with orderFault := true }) ∧
    (s.boot.state ≠ .ready → s.boot.state ≠ .reset → s.boot.state ≠ .stopped → s'.boot = { s.boot with orderFault := true, state := .stopped, stop := 3 }) ∧
    s'.fab = s.fab ∧ s'.pins = s.pins ∧ s'.link = s.link ∧ s'.pow = s.pow ∧ s'.load = s.load ∧ s.SameBase s') ∧
  (∀ (s : State) (cores : List Nat), s.stewardRuns = true → (∃ r, StopCause.rail r ∈ s.pins.stops) → ∃ s', exec (.railRecovery cores) s = .next s' ∧
    (∀ r, StopCause.rail r ∉ s'.pins.stops) ∧ (∀ c ∈ s.pins.stops, (∀ r, c ≠ .rail r) → c ∈ s'.pins.stops) ∧ s'.boot = s.boot ∧ s.SameBase s' ∧
    (StopCause.rail .vdr ∈ s.pins.stops ∨ StopCause.rail .vpp ∈ s.pins.stops → s'.load.compId = 0 ∧
      ∀ p, p < 64 → (s.part p).isBound = true → (s'.part p).state = .killing) ∧
    (StopCause.rail .vdr ∉ s.pins.stops → StopCause.rail .vpp ∉ s.pins.stops → cores = [] → s'.load = s.load ∧
      (∀ p, (s.part p).state ≠ .killing → (s'.part p).state ≠ .killing) ∧
      (∀ p, p < 64 → (s.part p).state = .running → (s.part p).hold = false → s.quiescing p = false → (s'.part p).state = .running) ∧
      (StopCause.rail .vio ∈ s.pins.stops → ∀ m, (s.module m).state = 2 → (s'.module m).retraining = true))) ∧
  ∀ (s : State) (cores : List Nat), (∀ r, StopCause.rail r ∉ s.pins.stops) ∨ s.stewardRuns = false → exec (.railRecovery cores) s = .next s

/-- Completion of PLL_LOCK, TILE_WAKE, UNIT_GATE_REOPEN, CLASS1_IDLE_GATE, START_GRANT, ON_RAMP_COMPLETE and OFF_RAMP_COMPLETE. A locking
PLL runs once locked. A waking tile in a running region is powered with its units open. Of a powered tile that is not fenced, an opening
array opens and asks for its ramp: it waits for a grant unless a ramp already runs or stands at 8; an opening vector unit opens and begins
its next step if it has one. A running class-1 partition without a work item gates its vector units and its arrays without a job. A start
grant moves the wheel to a region with a waiting array, one where a class-0 array waits for its on-ramp if there is one, and admits every
ramp that waits there, up from below 8 and down from 8. On a tile that works, a rising ramp ends with all eight column steps enabled, and a
falling one with none, after which an idle array beside one with a step is power-gated unless its partition is of class 0. -/
def Obligations.PowerGatesAndRamps : Prop :=
  (∀ (s : State) (r : Nat), r ∈ s.pow.locking → exec (.pllLock r) s = .next { s with pow := { s.pow with locking := s.pow.locking.filter (· != r), pllOn := insertNew s.pow.pllOn r } }) ∧
  (∀ (s : State) (t : Nat), (s.tile t).waking = true → s.pow.pllOn.contains (regionOf t) = true → exec (.tileWake t) s =
    .next (s.updTile t (fun x => { x with waking := false, powered := true, a := { x.a with gated := false }, b := { x.b with gated := false }, vgated := false }))) ∧
  (∀ (s : State) (t : Nat), (s.tile t).powered = true → (s.tile t).fenced = false →
    (∀ x u, (x = Side.a ∧ u = GatedUnit.arrayA) ∨ (x = Side.b ∧ u = GatedUnit.arrayB) → ((s.tile t).arr x).opening = true →
      exec (.unitGateReopen t u) s = .next (s.updTile t (fun y => y.updArr x (fun a => { a with
        gated := false, opening := false, ramping := if a.ramping = 2 then 1 else a.ramping,
        waiting := if a.ramping = 2 ∨ a.ramping = 1 then a.waiting else decide (a.ramp ≠ 8) })))) ∧
    ((s.tile t).vopening = true → exec (.unitGateReopen t .vector) s = .next ((s.updTile t (fun x => { x with vgated := false, vopening := false })).vectorStart t) ∧
      ((∀ r ∈ (s.tile t).seq.issued, r.unit ≠ .vector) →
        exec (.unitGateReopen t .vector) s = .next (s.updTile t (fun x => { x with vgated := false, vopening := false }))))) ∧
  (∀ (s : State) (p : Nat), (s.part p).isBound = true → (s.part p).state = .running → (s.part p).cls = 1 → (s.part p).inWork = false →
    ∃ s', exec (.class1IdleGate p) s = .next s' ∧ (∀ t ∈ (s.part p).tiles, (s'.tile t).vgated = true ∧ ((s.tile t).a.job = none → (s'.tile t).a.gated = true) ∧
      ((s.tile t).b.job = none → (s'.tile t).b.gated = true) ∧ ((s.tile t).a.job ≠ none → (s'.tile t).a = (s.tile t).a) ∧
      ((s.tile t).b.job ≠ none → (s'.tile t).b = (s.tile t).b)) ∧
      (∀ t, t ∉ (s.part p).tiles → s'.tile t = s.tile t) ∧ (∀ q, s'.part q = s.part q) ∧ s.SameMemory s' ∧ s.SameSteward s') ∧
  (∀ (s : State) (t : Nat) (x : Side), s.tileRuns t = true →
    (((s.tile t).arr x).ramping = 1 → ∃ s', exec (.onRampComplete t x) s = .next s' ∧ ((s'.tile t).arr x).ramp = 8 ∧ ((s'.tile t).arr x).ramping = 0 ∧
      ((s'.tile t).arr (otherSide x)) = ((s.tile t).arr (otherSide x)) ∧ s.SameTilesBut s' t ∧ s.SameMemory s' ∧ s.SameSteward s') ∧
    (((s.tile t).arr x).ramping = 2 → ∃ s', exec (.offRampComplete t x) s = .next s' ∧ ((s'.tile t).arr x).ramp = 0 ∧ ((s'.tile t).arr x).ramping = 0 ∧
      (((s.tile t).arrayHead (otherSide x)) ≠ none → (s.tile t).arrayHead x = none → ((s.tile t).arr x).job = none → ((s.tile t).arr x).opening = false →
        (∃ p, (s.tile t).bound = some p ∧ (s.part p).cls ≠ 0) → ((s'.tile t).arr x).gated = true) ∧
      (((s.tile t).arrayHead (otherSide x)) = none → s' = s.updTile t (fun y => y.updArr x (fun a => { a with ramp := 0, ramping := 0 }))) ∧
      ((s'.tile t).arr (otherSide x)) = ((s.tile t).arr (otherSide x)) ∧ s.SameTilesBut s' t ∧ s.SameMemory s' ∧ s.SameSteward s')) ∧
  ∀ (s : State), (∀ e ∈ s.fab.tiles, e.1 < 512) → (∃ e ∈ s.fab.tiles, e.2.a.waiting = true ∨ e.2.b.waiting = true) →
    ∃ s' r, exec .startGrant s = .next s' ∧ s'.pow = { s.pow with wheel := r } ∧ r < 16 ∧
      (∃ e ∈ s.fab.tiles, regionOf e.1 = r ∧ (e.2.a.waiting = true ∨ e.2.b.waiting = true)) ∧
      ((∃ t, s.class0Waits t = true) → ∃ t, regionOf t = r ∧ s.class0Waits t = true) ∧
      (∀ t x, regionOf t = r → ((s'.tile t).arr x).waiting = false ∧ (((s.tile t).arr x).waiting = true →
        ((s'.tile t).arr x).ramping = (if ((s.tile t).arr x).ramp = 8 then 2 else 1) ∧ ((s'.tile t).arr x).ramp = if ((s.tile t).arr x).ramp = 8 then 8 else 1)) ∧
      (∀ t, regionOf t ≠ r → s'.tile t = s.tile t) ∧ (∀ p, s'.part p = s.part p) ∧ s.SameMemory s' ∧ s'.pins = s.pins ∧ s'.boot = s.boot ∧
      s'.led = s.led ∧ s'.load = s.load ∧ s'.hl = s.hl ∧ s.SameBase s'

/-- Completion of PW_SHAPE_WRITE, CONTROL_PERIOD, TELEMETRY_SAMPLE and SENSOR_SAMPLE. With a site record, PW_SHAPE takes the floor, slew and
cap written, each clamped to the record's limits, and marks a cut value, until bit 48 clears the mark. A control period moves the reference
to the measured power within slew, floor and cap, and notes a ballast, a shortfall and whether class 0 passes the cap; the shortfall is a
power below the floor, or a power without ballast that all tiles of the loop at full hold could not lift to the floor. During thermal
shedding there is no ballast and every tile of the loop has hold level 0. A sample closes after 100 periods with the next sequence number,
the average of their power and 64 bytes, and clears every tile's open counts. A reading of 95.0 °C, or 92.0 °C in the Holeile, sheds load
and asserts THERM_ALERT_N, one of 105.0 °C, or 97.0 °C, stops the clocks and raises bit 3, and shedding ends when every reading is below
92.0 °C and 89.0 °C. How much ballast a period burns, within what its hold levels allow, is a free value (log 17). -/
def Obligations.PowerLoopAndShape : Prop :=
  (∀ (s : State) (v : Word) (r : Site), s.boot.site = some r → s.stewardRuns = true →
    let f := clampTo 0 r.floorLim (v.toNat % 2 ^ 10)
    let sl := clampTo 5 r.slewLim (v.toNat / 2 ^ 16 % 2 ^ 9)
    let c := clampTo 600 r.envelope (v.toNat / 2 ^ 32 % 2 ^ 10)
    ∃ cut, exec (.pwShapeWrite v) s = .next { s with pow := { s.pow with floor := f, slew := sl, cap := c, clamped := cut } } ∧
      (cut = true ↔ (f ≠ v.toNat % 2 ^ 10 ∨ sl ≠ v.toNat / 2 ^ 16 % 2 ^ 9 ∨ c ≠ v.toNat / 2 ^ 32 % 2 ^ 10) ∨
        (s.pow.clamped = true ∧ v.toNat / 2 ^ 48 % 2 = 0))) ∧
  (∀ (s : State) (w w0 : Nat), s.stewardRuns = true → s.boot.site ≠ none →
    let cap := 100 * s.pow.cap
    let floor := Min.min (100 * s.pow.floor) cap
    ∃ s' b, exec (.controlPeriod w w0) s = .next s' ∧ b ≤ mostBallast s.pow.levels ∧ s'.pow.ballast = b ∧
      s'.pow.ref = Min.min (Max.max w (Max.max floor (s.pow.ref - s.pow.slew))) (Min.min cap (s.pow.ref + s.pow.slew)) ∧
      (s'.pow.shortfall = true ↔ w < floor ∨ (w - 100 * b) + 155 * s.eligible.length < floor) ∧ s'.pow.capHit = decide (cap < w0) ∧
      s'.pow.periods = s.pow.periods ++ [⟨w, b, s'.pow.shortfall, s'.pow.capHit⟩] ∧
      (s.pow.thermShed = true → b = 0 ∧ ∀ e ∈ s.eligible, (tabGet ⟨64, 0⟩ s'.pow.levels e.1).hold = 0) ∧
      s'.fab = s.fab ∧ s'.link = s.link ∧ s'.pins = s.pins ∧ s'.boot = s.boot ∧ s'.led = s.led ∧ s'.load = s.load ∧ s'.hl = s.hl ∧ s'.out = s.out ∧ s.SameBase s') ∧
  (∀ (s : State) (i : Nat) (rails : List Nat), s.stewardRuns = true →
    (s.pow.periods.length < 100 → exec (.telemetrySample i rails) s = .next s) ∧
    (100 ≤ s.pow.periods.length → ∃ s', exec (.telemetrySample i rails) s = .next s' ∧ s'.pow.seq = (s.pow.seq + 1) % 2 ^ 32 ∧ s'.pow.periods = [] ∧
      s'.pow.pAvg = (s.pow.periods.map (·.power)).sum / s.pow.periods.length / 25 ∧ s'.hl.events = [] ∧ s'.pow.tel.length = 64 ∧
      (∀ t, s'.tile t = { s.tile t with spCeOpen := 0, dsCeOpen := 0 }) ∧ (∀ p, s'.part p = s.part p) ∧ s.SameMemory s' ∧
      s'.hl.fault = s.hl.fault ∧ s'.hl.losses = s.hl.losses ∧ s'.pins = s.pins ∧ s'.boot = s.boot ∧ s'.load = s.load ∧ s.SameBase s')) ∧
  (∀ (s : State) (c h : List (Option Int)), s.stewardRuns = true → ∃ s', exec (.sensorSample c h) s = .next s' ∧ s'.pow.sensors.compute = c ∧ s'.pow.sensors.holeile = h ∧
    ((∃ x, some x ∈ c ∧ 950 ≤ x) ∨ (∃ x, some x ∈ h ∧ 920 ≤ x) → s'.pow.thermShed = true ∧ (s.pow.thermShed = false → s'.pins.thermAlert = true)) ∧
    ((∃ x, some x ∈ c ∧ 1050 ≤ x) ∨ (∃ x, some x ∈ h ∧ 970 ≤ x) → StopCause.thermal ∈ s'.pins.stops ∧ s'.hl.fault.testBit 3 = true) ∧
    ((∀ x, some x ∈ c → x < 920) → (∀ x, some x ∈ h → x < 890) → s'.pow.thermShed = false) ∧
    (StopCause.thermal ∉ s.pins.stops → s'.fab.mem = s.fab.mem) ∧ s'.boot = s.boot ∧ s.SameBase s') ∧
  ∀ (s : State), s.stewardRuns = false → (∀ v, exec (.pwShapeWrite v) s = .next s) ∧ (∀ w w0, exec (.controlPeriod w w0) s = .next s) ∧
    (∀ i rails, exec (.telemetrySample i rails) s = .next s) ∧ ∀ c h, exec (.sensorSample c h) s = .next s

/-- Completion of TILE_CORE_FAILURE and CORE_RETEST_DONE. A core failure of a powered tile that is not fenced fences it with the failed
block, powers its core off and loses its scratchpad, while its semaphores stay; a partition at work that holds the tile recovers, with the
tile under re-test; other tiles outside that partition keep their sequencers, queues, semaphores and engines. An unpowered or fenced tile is
left alone. A passed re-test with no failure within the last 1,000,000 samples powers the tile again, counts an event of code 2, and lets a
partition whose only test it was, and whose drain is over, run again unless it is held or quiescing; after any other end the tile is not good
and is recorded as such. The re-test of a tile that is not fenced changes nothing. -/
def Obligations.CoreFailuresFenceAndRetest : Prop :=
  (∀ (s : State) (t b : Nat), ((s.tile t).powered = false ∨ (s.tile t).fenced = true → exec (.tileCoreFailure t b) s = .next s) ∧
    ((s.tile t).powered = true → (s.tile t).fenced = false → ∃ s', exec (.tileCoreFailure t b) s = .next s' ∧ (s'.tile t).fenced = true ∧
      (s'.tile t).powered = false ∧ (s'.tile t).fired = false ∧ (s'.tile t).failBlock = b ∧ (s'.tile t).sems = (s.tile t).sems ∧
      (Memory.wf s.fab.mem = true → (∀ k, spKey t 0 ≤ k → k < spKey (t + 1) 0 → memRead s'.fab.mem k = memDefault) ∧ s.SameMemoryBut s' t) ∧
      (∀ p, (s.tile t).bound = some p → t ∈ (s.part p).tiles → (s.part p).recovers = true →
        (s'.part p).state = .recovering ∧ (s'.part p).draining = true ∧ t ∈ (s'.part p).retest) ∧
      (∀ u, u ≠ t → (∀ p, (s.tile t).bound = some p → u ∉ (s.part p).tiles) → (s'.tile u).seq = (s.tile u).seq ∧
        (s'.tile u).queues = (s.tile u).queues ∧ (s'.tile u).sems = (s.tile u).sems ∧ (s'.tile u).nbr = (s.tile u).nbr) ∧ s.SameSteward s')) ∧
  (∀ (s : State) (t : Nat), (s.tile t).fenced = true →
    let recent := ∃ f, (s.tile t).failSeq = some f ∧ (s.pow.seq + 2 ^ 32 - f) % 2 ^ 32 ≤ 1000000
    let resumes (s' : State) : Prop := ∀ p, (s.tile t).bound = some p → (s.part p).state = .recovering → (s.part p).draining = false →
      (s.part p).retest = [t] → (s.part p).hold = false → s.quiescing p = false → (s'.part p).state = .running
    (¬ recent → ∃ s', exec (.coreRetestDone t true) s = .next s' ∧ (s'.tile t).fenced = false ∧ (s'.tile t).powered = true ∧ (s'.tile t).vgated = false ∧
      (s'.tile t).failSeq = some s.pow.seq ∧ (tabGet (0, 0) s'.hl.events evTransient).1 = Min.min ((tabGet (0, 0) s.hl.events evTransient).1 + 1) 0xFFFF ∧
      resumes s' ∧ ((s.tile t).bound = none → s.SameMemory s') ∧ s'.led = s.led ∧ s'.boot = s.boot ∧ s'.pins = s.pins ∧ s.SameBase s') ∧
    ∀ pass, pass = false ∨ recent → ∃ s', exec (.coreRetestDone t pass) s = .next s' ∧ (s'.tile t).fenced = false ∧ (s'.tile t).powered = false ∧
      (s'.tile t).good = false ∧ LedgerBody.faultTile t ∈ s'.led.faults ∧ s'.boot = s.boot ∧ s'.pins = s.pins ∧ s.SameBase s') ∧
  ∀ (s : State) (t : Nat) (pass : Bool), (s.tile t).fenced = false → exec (.coreRetestDone t pass) s = .next s

/-- Completion of HOLD, PARTITION_SAFE_POINT and HOLD_RELEASE. HOLD of a partition that runs or quiesces disables every tile, which abandons
its takes, and the partition is held and busy; during a recovery, or when it is held already, only the hold is set. At the safe point of all
its tiles a held partition is no longer busy, or is replayed when its hold was withdrawn, and a draining recovery waits for its re-tests, or
is replayed without any. Releasing a hold that is busy, or one set during a recovery, only withdraws it; a held partition that is not busy
is replayed. A partition so replayed without a hold or a QUIESCE runs, and with no work item in progress each of its tiles' sequencers
stands at the replay point. A partition in another state, and one with a tile short of its safe point, stays as it is. -/
def Obligations.HoldsAndSafePoints : Prop :=
  (∀ (s : State) (p : Nat), ((s.part p).state = .running ∨ (s.part p).state = .quiesce → ∃ s', exec (.hold p) s = .next s' ∧
      (s'.part p).state = .held ∧ (s'.part p).hold = true ∧ (s'.part p).holdBusy = true ∧
      (∀ t ∈ (s.part p).tiles, (s'.tile t).seq.running = false ∧ (s'.tile t).waits = []) ∧ (∀ t, t ∉ (s.part p).tiles → s'.tile t = s.tile t) ∧
      s.SameMemory s' ∧ s.SameSteward s') ∧
    ((s.part p).state = .recovering ∨ (s.part p).state = .held → exec (.hold p) s = .next (s.updPart p (fun r => { r with hold := true }))) ∧
    ((s.part p).state = .unbound ∨ (s.part p).state = .starting ∨ (s.part p).state = .killing →
      exec (.hold p) s = .next s ∧ exec (.holdRelease p) s = .next s ∧ exec (.partitionSafePoint p) s = .next s)) ∧
  (∀ (s : State) (p : Nat), (∀ t ∈ (s.part p).tiles, (s.tile t).atSafePoint = true) →
    ((s.part p).state = .held → (s.part p).holdBusy = true →
      ((s.part p).hold = true → exec (.partitionSafePoint p) s = .next (s.updPart p (fun r => { r with holdBusy := false }))) ∧
      ((s.part p).hold = false → exec (.partitionSafePoint p) s = .next (s.startReplay p))) ∧
    ((s.part p).state = .recovering → (s.part p).draining = true →
      ((s.part p).retest ≠ [] → exec (.partitionSafePoint p) s = .next (s.updPart p (fun r => { r with draining := false }))) ∧
      ((s.part p).retest = [] → exec (.partitionSafePoint p) s = .next (s.startReplay p)))) ∧
  (∀ (s : State) (p : Nat), (∃ t ∈ (s.part p).tiles, (s.tile t).atSafePoint = false) → exec (.partitionSafePoint p) s = .next s) ∧
  (∀ (s : State) (p : Nat), let withdrawn := s.updPart p (fun r => { r with hold := false })
    ((s.part p).state = .held → ((s.part p).holdBusy = true ∨ (s.part p).hold = false → exec (.holdRelease p) s = .next withdrawn) ∧
      ((s.part p).holdBusy = false → (s.part p).hold = true → exec (.holdRelease p) s = .next (withdrawn.startReplay p))) ∧
    ((s.part p).state = .recovering → exec (.holdRelease p) s = .next withdrawn)) ∧
  ∀ (s : State) (p : Nat), (s.part p).hold = false → s.quiescing p = false →
    ((s.startReplay p).part p).state = .running ∧ ((s.startReplay p).part p).tiles = (s.part p).tiles ∧
    ((s.part p).inWork = false → ((s.startReplay p).part p).replays = (s.part p).replays ∧ ∀ t ∈ (s.part p).tiles,
      ((s.startReplay p).tile t).seq.running = true ∧ ((s.startReplay p).tile t).seq.pc = (s.part p).point.step ∧ ((s.startReplay p).tile t).seq.issued = [])

/-- Completion of COLUMN_CHECK_FAIL, COLUMN_REQUALIFY_DONE, GANG_PARITY_MISMATCH, LINK_RETEST_DONE, ROAD_BEAT_CRC_FAIL, ROAD_LINK_RETRAIN,
ROAD_RETRAIN_DONE and SHELL_FAILURE. A column below 32 that fails its check on a powered tile without a fence stops its array and joins the
columns under re-qualification, and a partition at work recovers with the tile under test. Without a bad column the re-qualification ends
and the detours stay, and an array with nothing to replay is free; one bad suspect column becomes a detour that is recorded, and beside two
others it loses the tile. A parity mismatch between two tiles of a gang puts all 32 columns of both under re-qualification and stops their
link on both sides; between other tiles it changes nothing. A passed link test lets both sides go on, and a failed one sets LINKDOWN on both
and records the dead link. A CRC failure on a link between two tiles is counted and its beats are to be resent; from 8 failures on the link
retrains, which ends with the count at 0 and at most 4 repaired wires in all, or with the link dead and bit 0 of HL_FAULT. A failed shell's
router is dead, its tile is not good and unpowered, its column is lost, unusable and recorded, and bits 0 and 1 of HL_FAULT are set. -/
def Obligations.ColumnsLinksAndRoads : Prop :=
  (∀ (s : State) (t c : Nat) (x : Side),
    ((s.tile t).powered = true → (s.tile t).fenced = false → c < 32 →
      ∃ s', exec (.columnCheckFail t x c) s = .next s' ∧ ((s'.tile t).arr x).suspect = true ∧ c ∈ ((s'.tile t).arr x).requal ∧
        (∀ k ∈ ((s.tile t).arr x).requal, k ∈ ((s'.tile t).arr x).requal) ∧ ((s'.tile t).arr x).detours = ((s.tile t).arr x).detours ∧
        (∀ p, (s.tile t).bound = some p → (s.part p).recovers = true → (s'.part p).state = .recovering ∧ t ∈ (s'.part p).retest) ∧
        s.SameMemory s' ∧ s.SameSteward s') ∧
    ((s.tile t).powered = false ∨ (s.tile t).fenced = true ∨ 32 ≤ c → exec (.columnCheckFail t x c) s = .next s)) ∧
  (∀ (s : State) (t : Nat) (x : Side),
    (((s.tile t).arr x).requal ≠ [] → ∃ s', exec (.columnRequalifyDone t x []) s = .next s' ∧
      ((s'.tile t).arr x).requal = [] ∧ ((s'.tile t).arr x).detours = ((s.tile t).arr x).detours ∧
      ((s.tile t).bound = none → ((s'.tile t).arr x).suspect = false ∧ s.SameMemory s') ∧ s'.led = s.led ∧ s'.boot = s.boot ∧ s'.pins = s.pins ∧ s.SameBase s') ∧
    (∀ c, c ∈ ((s.tile t).arr x).requal → c ∉ ((s.tile t).arr x).detours → ∃ s', exec (.columnRequalifyDone t x [c]) s = .next s' ∧
      LedgerBody.faultColumn t x c ∈ s'.led.faults ∧
      (((s.tile t).arr x).detours.length < 2 → ((s'.tile t).arr x).requal = [] ∧ c ∈ ((s'.tile t).arr x).detours) ∧
      (((s.tile t).arr x).detours.length = 2 → (s'.tile t).good = false ∧ LedgerBody.faultTile t ∈ s'.led.faults) ∧
      s'.boot = s.boot ∧ s'.pins = s.pins ∧ s.SameBase s') ∧
    (((s.tile t).arr x).requal = [] → ∀ bad, exec (.columnRequalifyDone t x bad) s = .next s)) ∧
  (∀ (s : State) (t u p : Nat) (x : Side) (d : Dir), neighbour t (dirNat d) = some u → s.partOf t = some p →
    ((∃ g ∈ (s.part p).gangsAt t x, u ∈ g.2.tiles) → ∃ s', exec (.gangParityMismatch t x d) s = .next s' ∧
      (∀ c, c < 32 → c ∈ ((s'.tile t).arr x).requal ∧ c ∈ ((s'.tile u).arr x).requal) ∧ ((s'.tile t).arr x).suspect = true ∧ ((s'.tile u).arr x).suspect = true ∧
      dirNat d ∈ (s'.tile t).nbr.stopped ∧ opposite (dirNat d) ∈ (s'.tile u).nbr.stopped ∧ s.SameMemory s' ∧ s'.led = s.led ∧ s'.boot = s.boot ∧ s.SameBase s') ∧
    ((∀ g ∈ (s.part p).gangsAt t x, u ∉ g.2.tiles) → exec (.gangParityMismatch t x d) s = .next s)) ∧
  (∀ (s : State) (t u : Nat) (d : Dir), neighbour t (dirNat d) = some u →
    (dirNat d ∈ (s.tile t).nbr.stopped →
      (∃ s', exec (.linkRetestDone t d true) s = .next s' ∧ dirNat d ∉ (s'.tile t).nbr.stopped ∧ opposite (dirNat d) ∉ (s'.tile u).nbr.stopped ∧
        (s'.tile t).nbr.linkDown = (s.tile t).nbr.linkDown ∧ s'.led = s.led ∧ s'.boot = s.boot ∧ s.SameBase s') ∧
      ∃ s', exec (.linkRetestDone t d false) s = .next s' ∧ dirNat d ∈ (s'.tile t).nbr.linkDown ∧ opposite (dirNat d) ∈ (s'.tile u).nbr.linkDown ∧
        (t, dirNat d) ∈ s'.fab.deadNbr ∧ s'.led = s.led ∧ s'.boot = s.boot ∧ s.SameBase s') ∧
    (dirNat d ∉ (s.tile t).nbr.stopped → ∀ pass, exec (.linkRetestDone t d pass) s = .next s)) ∧
  (∀ (s : State) (t u : Nat) (d : Dir), neighbour t (dirNat d) = some u →
    exec (.roadBeatCrcFail t d) s = .next (s.updFab (fun f => { f with
      crcFails := tabSet f.crcFails (4 * t + dirNat d) (Min.min (tabGet 0 f.crcFails (4 * t + dirNat d) + 1) 0xFFFF),
      resending := insertNew f.resending (t, dirNat d) }))) ∧
  (∀ (s : State) (t : Nat) (d : Dir), (8 ≤ tabGet 0 s.fab.crcFails (4 * t + dirNat d) →
      exec (.roadLinkRetrain t d) s = .next (s.updFab (fun f => { f with retraining := insertNew f.retraining (t, dirNat d) }))) ∧
    (tabGet 0 s.fab.crcFails (4 * t + dirNat d) < 8 → exec (.roadLinkRetrain t d) s = .next s)) ∧
  (∀ (s : State) (t n : Nat) (d : Dir), (t, dirNat d) ∈ s.fab.retraining →
    (exec (.roadRetrainDone t d true n) s = .next (s.updFab (fun f => { f with
      retraining := f.retraining.erase (t, dirNat d), crcFails := tabSet f.crcFails (4 * t + dirNat d) 0,
      repaired := tabSet f.repaired (4 * t + dirNat d) (Min.min (tabGet 0 f.repaired (4 * t + dirNat d) + n) 4) }))) ∧
    ∃ s', exec (.roadRetrainDone t d false n) s = .next s' ∧ (t, dirNat d) ∈ s'.fab.deadLinks ∧ s'.fab.retraining = s.fab.retraining.erase (t, dirNat d) ∧
      s'.hl.fault.testBit 0 = true ∧ s.SameMemory s' ∧ s'.led = s.led ∧ s'.boot = s.boot ∧ s.SameBase s') ∧
  ∀ (s : State) (t : Nat), t < 512 → t ∉ s.fab.deadRouters → ∃ s', exec (.shellFailure t) s = .next s' ∧ t ∈ s'.fab.deadRouters ∧ (s'.tile t).good = false ∧
    (s'.tile t).powered = false ∧ (s'.tile t).usable = false ∧ t ∈ s'.fab.lostColumns ∧ t ∈ s'.fab.deadColumns ∧ LedgerBody.faultTile t ∈ s'.led.faults ∧
    LedgerBody.faultUnusable t ∈ s'.led.faults ∧ s'.hl.fault.testBit 0 = true ∧ s'.hl.fault.testBit 1 = true ∧ s'.boot = s.boot ∧ s.SameBase s'

/-- Completion of DS_PATROL_SCRUB, COLUMN_BURST, SP_PATROL_SCRUB, REFRESH_ROW and REFRESH_FORCE. A codeword of a column, not lost before,
with 1 to 4 wrong symbols is counted as corrected for its column by the patrol; one with more is lost, and the loss is listed, or OVF is set
while 256 stand, with bit 1 of HL_FAULT. A burst of a served column checks its eight codewords so: with at most 4 wrong symbols in each it
counts those with any, and each with more is lost. A scrub of line l of a powered tile without a fence upsets the given cells of the rows that
hold the line and then reads the line's codewords in every bank: where none has more than one wrong bit, those with one are counted and
whole again; where one has two, the tile is fenced and its core unpowered. A refreshed row counts on through 16,384 rows, and the interval
becomes 16 ms where the sensor is hot or gives no reading, or while the steward does not run. In each of these cases but the fence, memory
reads as before. A column that is not served takes no burst, and a tile without power or behind a fence no scrub. -/
def Obligations.ScrubsCorrectAndCount : Prop :=
  (∀ (s : State) (t w : Nat) (es : List Nat), t < 512 → w < 2 ^ 19 → s.fab.isLost t w = false →
    (wrongSymbols es = 0 → exec (.dsPatrolScrub t w es) s = .next s) ∧
    (1 ≤ wrongSymbols es → wrongSymbols es ≤ 4 → exec (.dsPatrolScrub t w es) s = .next (s.updTile t (fun x => { x with dsCe := Min.min (x.dsCe + 1) (2 ^ 32 - 1), dsLast := w, dsCeOpen := x.dsCeOpen + 1 }))) ∧
    (5 ≤ wrongSymbols es → ∃ s', exec (.dsPatrolScrub t w es) s = .next s' ∧ (t, w) ∈ s'.fab.lostWords ∧ s'.fab.isLost t w = true ∧ s'.hl.fault.testBit 1 = true ∧
      (s.hl.losses.length < 256 → s'.hl.losses.length = s.hl.losses.length + 1 ∧ s'.hl.ovf = s.hl.ovf) ∧
      (256 ≤ s.hl.losses.length → s'.hl.losses = s.hl.losses ∧ s'.hl.ovf = true) ∧ (∀ u, s'.tile u = s.tile u) ∧ s.SameMemory s' ∧ s'.boot = s.boot ∧ s.SameBase s')) ∧
  (∀ (s : State) (t b : Nat) (es : List (List Nat)), s.columnServed t = true → b < 65536 → let wrong (i : Nat) : Nat := wrongSymbols (es.getD i [])
    ((∀ i, i < 8 → wrong i ≤ 4 ∧ s.fab.isLost t (8 * b + i) = false) →
      ∃ s', exec (.columnBurst t b es) s = .next s' ∧ (s'.tile t).dsCeOpen = (s.tile t).dsCeOpen + ((List.range 8).filter (fun i => wrong i != 0)).length ∧
        s.SameTilesBut s' t ∧ s.SameMemory s' ∧ s.SameSteward s') ∧
    ∃ s', exec (.columnBurst t b es) s = .next s' ∧ (∀ i, i < 8 → 5 ≤ wrong i → s'.fab.isLost t (8 * b + i) = true) ∧ s.SameTilesBut s' t ∧ s.SameMemory s' ∧
      s'.boot = s.boot ∧ s.SameBase s') ∧
  (∀ (s : State) (t l : Nat) (cells : List (Nat × Nat)), (s.tile t).powered = true → (s.tile t).fenced = false → l < 2048 →
    let f := (cells.filter (fun c => decide (c.1 < 32 ∧ c.2 < 1152))).foldl (fun f c => f.upset t ⟨c.1, l / 4, c.2⟩) s.fab
    let words := (List.range 32).flatMap (fun b => spWords (spOffsetOf b l) 32)
    (s.CleanPad t → (∀ c ∈ cells, 32 ≤ c.1 ∨ 1152 ≤ c.2) → exec (.spPatrolScrub t l cells) s = .next s) ∧
    ((∀ a ∈ words, (f.wrongBits t a).length ≤ 1) → ∃ s', exec (.spPatrolScrub t l cells) s = .next s' ∧
      (s'.tile t).spCeOpen = (s.tile t).spCeOpen + (words.filter (fun a => (f.wrongBits t a).length == 1)).length ∧ (∀ a ∈ words, s'.fab.wrongBits t a = []) ∧
      s.SameTilesBut s' t ∧ s.SameMemory s' ∧ s.SameSteward s') ∧
    ((∃ a ∈ words, (f.wrongBits t a).length = 2) → ∃ s', exec (.spPatrolScrub t l cells) s = .next s' ∧ (s'.tile t).fenced = true ∧ (s'.tile t).powered = false ∧
      s.SameSteward s')) ∧
  (∀ (s : State) (t : Nat) (c : Instr), t < 512 → (c = .refreshRow t ∨ c = .refreshForce t) →
    let i := tileY t / 2 * 16 + tileX t / 2
    exec c s = .next (s.updTile t (fun x => { x with
      refreshRow := (x.refreshRow + 1) % 16384,
      hotRefresh := !s.stewardRuns || s.pow.sensors.hot.getD i false || (s.pow.sensors.holeile.getD i none).isNone }))) ∧
  ∀ (s : State) (t b l : Nat), (s.columnServed t = false → ∀ es, exec (.columnBurst t b es) s = .next s) ∧
    ((s.tile t).powered = false ∨ (s.tile t).fenced = true → ∀ cells, exec (.spPatrolScrub t l cells) s = .next s)

/-- Completion of IMAGE_LOAD, CACHED_IMAGE_LOAD, IMAGE_DATA and IMAGE_READ_TIMEOUT. With the report published and no lockout, a LOAD write
clears the status; an image that was not served, or that the cache does not hold, ends it FAILED with its code, one that the verify pass
refuses with that code and section, and one that passes begins the load. During VERIFY and APPLY a LOAD write only records BUSY; before
READY, and under the lockout, it ends with NOT_READY. Grid, ledger and boot state stay. Data that answers an outstanding image read is kept
and its read is over, any other is counted late, and a partition whose reads stay unanswered is to be killed, unbound, with its bit in the
fail map, no read left, and code 0x1D if the load had none. -/
def Obligations.LoadsAreAcceptedOrEnded : Prop :=
  (∀ (s : State), s.stewardRuns = true → (s.load.state = 1 ∨ s.load.state = 2) → ∀ c, (c = .cachedImageLoad ∨ ∃ i, c = .imageLoad i) →
    exec c s = .next { s with load := { s.load with lastReject := 1 } }) ∧
  (∀ (s : State), s.stewardRuns = true → s.load.state ≠ 1 → s.load.state ≠ 2 → s.boot.state = .ready → s.boot.orderFault = false →
    let clear : State := { s with load := { s.load with state := 1, code := 0, sectionIx := 0, lastReject := 0, stretch := 0, failmap := 0 } }
    let same (s' : State) : Prop := s'.fab = s.fab ∧ s'.led = s.led ∧ s'.boot = s.boot ∧ s'.pins = s.pins ∧ s'.hl = s.hl ∧ s.SameBase s'
    let ends (c : Instr) (code ix : Nat) : Prop := ∃ s', exec c s = .next s' ∧ s'.load.state = 4 ∧ s'.load.code = code ∧ s'.load.sectionIx = ix ∧
      s'.load.cur = none ∧ same s'
    let begins (c : Instr) (b : List Byte) (cached : Bool) : Prop := ∃ s' l, exec c s = .next s' ∧ s'.load.state = 1 ∧
      s'.load.cur = some l ∧ l.image = b ∧ l.cached = cached ∧ l.applied = false ∧ same s'
    ends (.imageLoad none) 0x1D 0xFFFF ∧
    (∀ b code ix, verifyImage clear b (s.load.imgSrc.toNat % 2 ^ 27) = some (code, ix) → ends (.imageLoad (some b)) code ix) ∧
    (∀ b, verifyImage clear b (s.load.imgSrc.toNat % 2 ^ 27) = none → begins (.imageLoad (some b)) b false) ∧
    (s.led.cache.find? (fun c => c.imageId == s.load.imgSrc.toNat) = none → ends .cachedImageLoad 0x21 0xFFFF) ∧
    (∀ k, s.led.cache.find? (fun c => c.imageId == s.load.imgSrc.toNat) = some k →
      (∀ code ix, verifyImage clear k.bytes k.bytes.length = some (code, ix) → ends .cachedImageLoad code ix) ∧
      (verifyImage clear k.bytes k.bytes.length = none → begins .cachedImageLoad k.bytes true))) ∧
  (∀ (s : State) (c : Instr), (c = .cachedImageLoad ∨ ∃ i, c = .imageLoad i) → s.stewardRuns = true → s.load.state ≠ 1 → s.load.state ≠ 2 →
    (s.boot.state ≠ .ready ∨ s.boot.orderFault = true) →
    ∃ s', exec c s = .next s' ∧ s'.load.state = 4 ∧ s'.load.code = 0x1E ∧ s'.fab = s.fab ∧ s'.led = s.led ∧ s'.boot = s.boot ∧ s.SameBase s') ∧
  (∀ (s : State) (tag h off : Nat) (d : List Byte), s.stewardRuns = true →
    ((s.load.cur = none ∨ ∃ l, s.load.cur = some l ∧ (l.handle ≠ h ∨ ∀ r ∈ l.reads, r.tag ≠ tag ∨ r.offset ≠ off)) →
      exec (.imageData tag h off d) s = .next { s with link := { s.link with dropLate := Min.min (s.link.dropLate + 1) 0xFFFF } }) ∧
    (∀ l r, s.load.cur = some l → l.reads.find? (fun r => r.tag == tag && r.offset == off) = some r → l.handle = h →
      ∃ s' l', exec (.imageData tag h off d) s = .next s' ∧ s'.load.cur = some l' ∧ l'.received = l.received ++ [(off, d.take r.len)] ∧
        (l.todo = [] → l'.reads = l.reads.erase r) ∧ s'.fab = s.fab ∧ s'.led = s.led ∧ s'.boot = s.boot ∧ s.SameBase s')) ∧
  (∀ (s : State) (p : Nat) (e : Rebind) (l : Load) (r : ImageRead), s.stewardRuns = true → s.rebindAt p .verified = some e → s.load.cur = some l →
    (l.reads ++ l.todo).find? (fun r => r.pnum == p) = some r → ∃ s' l', exec (.imageReadTimeout p) s = .next s' ∧ (s'.part p).state = .killing ∧
      s'.load.failmap = s.load.failmap ||| 2 ^ p ∧ s'.load.cur = some l' ∧ (∀ k ∈ l'.reads ++ l'.todo, k.pnum ≠ p) ∧
      (l.failCode = 0 → l'.failCode = 0x1D) ∧ (∃ e', s'.rebindAt p .kill = some e' ∧ e'.comp = none) ∧ s.SameMemory s' ∧ s'.led = s.led ∧ s'.boot = s.boot ∧ s.SameBase s') ∧
  ∀ (s : State) (c : Instr), s.stewardRuns = false → (c = .cachedImageLoad ∨ (∃ i, c = .imageLoad i) ∨ ∃ tag h off d, c = .imageData tag h off d) → exec c s = .next s

/-- Completion of APPLY_PASS, QUIESCE_END, SWEEP, SWEEP_VERIFICATION, SECTION_LOAD and PARTITION_START. The apply pass of a verified load, with
no re-binding still going on and a flash that takes its rollback record if it needs one, raises the rollback counter and begins each
re-binding: an unbound number starts, a bound one is killed, or quiesces under mode 1 if it runs, and good tiles without power or fence wake;
with nothing to do the load ends at once. The end of QUIESCE kills. A sweep, once its tiles are unbound for access, awake and at their safe
points and the regions of its composition locked, clears their scratchpads, columns, semaphores, queues, sequencers and taps, leaves other
tiles and bytes, and adds to STRETCH; before, it waits. Verification reports its result and failed tiles, records what failed, and leaves
the partition unbound if it gets no composition or a failed column holds one of its areas, and otherwise verified. Sections that match their
hashes are loaded, and any other leaves the partition to be killed, unbound. A partition starts on its good tiles once each is powered,
awake, not fenced and not under re-qualification: they are bound and reached, with their sequencers at ITIN_ENTRY, those of class 0 with
their units open, and nothing of its re-binding is left; with no good tile it is to be killed, unbound. -/
def Obligations.RebindingStepByStep : Prop :=
  (∀ (s : State) (l : Load), s.load.cur = some l → l.applied = false → s.load.state = 1 → s.load.rebinds = [] → s.stewardRuns = true →
    (l.rollback ≤ s.led.counter0 ∨ (s.led.dead = false ∧ s.led.pos < ledgerFull)) →
    let bound := (l.named.map (·.1)).filter (fun p => (s.part p).isBound)
    let mode (p : Nat) : Nat := ((l.named.find? (fun n => n.1 == p)).map (·.2)).getD 0
    ∃ s', exec .applyPass s = .next s' ∧ s'.led.counter0 = Max.max s.led.counter0 l.rollback ∧ s.SameMemory s' ∧ s'.boot = s.boot ∧ s'.fuse = s.fuse ∧
      (l.comps = [] → bound = [] → s'.load.cur = none ∧ s'.load.state = (if l.failCode = 0 then 3 else 4) ∧ s'.load.compId = BitVec.ofNat 64 l.imageId) ∧
      (l.comps ≠ [] ∨ bound ≠ [] → s'.load.cur = some { l with applied := true } ∧ s'.load.state = 2 ∧
        ∀ p, (p ∈ bound ∨ ∃ c ∈ l.comps, c.part.pnum = p) → (∃ e ∈ s'.load.rebinds, e.pnum = p ∧ e.ofLoad = true ∧ e.comp = l.comps.find? (fun c => c.part.pnum == p)) ∧
          ((s.part p).isBound = false → (s'.part p).state = .starting) ∧
          ((s.part p).isBound = true → mode p ≠ 1 → (s'.part p).state = .killing) ∧
          ((s.part p).state = .running → mode p = 1 → (s'.part p).state = .quiesce)) ∧
      ∀ t, (∃ c ∈ l.comps, t ∈ c.part.tiles) → (s.tile t).powered = false → (s.tile t).fenced = false → (s.tile t).good = true → (s'.tile t).waking = true) ∧
  (∀ (s : State) (p : Nat), s.quiescing p = true → s.stewardRuns = true → ∃ s' e, exec (.quiesceEnd p) s = .next s' ∧ (s'.part p).state = .killing ∧
    e ∈ s'.load.rebinds ∧ e.pnum = p ∧ e.phase = .kill ∧ (∀ t ∈ (s.part p).tiles, (s'.tile t).access = false) ∧ s.SameMemory s' ∧ s'.led = s.led ∧
    s'.boot = s.boot ∧ s.SameBase s') ∧
  (∀ (s : State) (p n : Nat) (e : Rebind), s.rebindAt p .kill = some e → s.stewardRuns = true → s.pins.stops = [] →
    let locked := ∀ c, e.comp = some c → ∀ r ∈ c.regions s.moduleRegions, r ∈ s.pow.pllOn
    ((∃ t ∈ e.tiles, (s.tile t).access = true ∨ (s.tile t).waking = true ∨ (s.tile t).atSafePoint = false) ∨ ¬ locked → exec (.sweep p n) s = .next s) ∧
    ((∀ t ∈ e.tiles, (s.tile t).access = false ∧ (s.tile t).waking = false ∧ (s.tile t).atSafePoint = true) → locked → ∃ s', exec (.sweep p n) s = .next s' ∧
      (Memory.wf s.fab.mem = true → (∀ t ∈ e.tiles, ∀ o, (o < spSize → memRead s'.fab.mem (spKey t o) = memDefault) ∧ (o < colSize → memRead s'.fab.mem (colKey t o) = memDefault)) ∧
        ∀ k, (∀ t ∈ e.tiles, (k < spKey t 0 ∨ spKey (t + 1) 0 ≤ k) ∧ (k < colKey t 0 ∨ colKey (t + 1) 0 ≤ k)) → memRead s'.fab.mem k = memRead s.fab.mem k) ∧
      (∀ t ∈ e.tiles, (s'.tile t).sems = [] ∧ (s'.tile t).queues = [] ∧ (s'.tile t).seq = Seq.init ∧ (s'.tile t).spCe = (s.tile t).spCe ∧
        (s'.tile t).bound = (s.tile t).bound ∧ (s'.tile t).a.detours = (s.tile t).a.detours ∧ (s'.tile t).a.taps = [] ∧ (s'.tile t).b.taps = []) ∧
      (∀ t, t ∉ e.tiles → s'.tile t = s.tile t) ∧ (e.comp ≠ none → (s'.part p).state = .starting ∧ (s'.part p).reqHead = (s.part p).reqHead) ∧
      (∃ e', s'.rebindAt p .swept = some e') ∧ (e.ofLoad = true → s'.load.stretch = Min.min (s.load.stretch + s.slewTime n 25) 0xFFFF) ∧
      s'.pins = s.pins ∧ s'.boot = s.boot ∧ s'.led = s.led ∧ s'.pow = s.pow ∧ s'.hl = s.hl ∧ s.SameBase s')) ∧
  (∀ (s : State) (p : Nat) (e : Rebind) (found : SweepFindings), s.rebindAt p .swept = some e → s.stewardRuns = true →
    let n := (found.spFail.filter e.tiles.contains).length + (found.colFail.filter e.tiles.contains).length
    let unbound (s' : State) : Prop := (s'.part p).state = .unbound ∧ (s'.part p).cplTail = (s.part p).cplTail ∧ (∀ k ∈ s'.load.rebinds, k.pnum ≠ p) ∧
      ∀ t ∈ e.tiles, t ∉ s.claimed p → (s'.tile t).bound = none ∧ (s'.tile t).powered = false
    ∃ s', exec (.sweepVerification p found) s = .next s' ∧ s'.se.sweepPnum = p ∧ s'.se.sweepResult = (if n = 0 then 1 else 2) ∧ s'.se.sweepFailed = n % 1024 ∧
      s'.se.sweepAll = e.all ∧ (∀ t ∈ found.spFail, t ∈ e.tiles → (s'.tile t).good = false ∧ LedgerBody.faultTile t ∈ s'.led.faults) ∧
      (∀ t ∈ found.colFail ++ found.lostMats, t ∈ e.tiles → (s'.tile t).usable = false ∧ LedgerBody.faultUnusable t ∈ s'.led.faults) ∧
      (e.comp = none → unbound s') ∧
      (∀ c, e.comp = some c → ((∃ k ∈ c.part.areaColumns, k ∈ found.colFail ∧ k ∈ e.tiles) → unbound s' ∧ s'.load.failmap = s.load.failmap ||| 2 ^ p) ∧
        ((∀ k ∈ c.part.areaColumns, k ∈ found.colFail → k ∉ e.tiles) → ∃ e', s'.rebindAt p .verified = some e')) ∧
      s.SameMemory s' ∧ s'.boot = s.boot ∧ s'.pins = s.pins ∧ s'.pending = s.pending ∧ s'.fuse = s.fuse) ∧
  (∀ (s : State) (p : Nat) (e : Rebind) (l : Load), s.rebindAt p .verified = some e → s.load.cur = some l → s.stewardRuns = true → (∀ r ∈ l.reads ++ l.todo, r.pnum ≠ p) →
    ((∀ k ∈ l.sectionsFor p, sha384 (l.receivedBytes k.2) = k.2.hash) → exec (.sectionLoad p) s = .next (s.setRebind p (fun e => { e with phase := .loaded }))) ∧
    (∀ ix k, (l.sectionsFor p).find? (fun e => sha384 (l.receivedBytes e.2) != e.2.hash) = some (ix, k) → ∃ s' l', exec (.sectionLoad p) s = .next s' ∧
      (s'.part p).state = .killing ∧ s'.load.failmap = s.load.failmap ||| 2 ^ p ∧ s'.load.cur = some l' ∧ (l.failCode = 0 → l'.failCode = 0x1C ∧ l'.failSection = ix) ∧
      s.SameMemory s')) ∧
  ∀ (s : State) (p n : Nat) (e : Rebind) (c : Comp), s.rebindAt p .loaded = some e → e.comp = some c → s.stewardRuns = true → s.pins.stops = [] →
    let live := c.part.tiles.filter (fun t => (s.tile t).good)
    let ready (t : Nat) : Prop := (s.tile t).fenced = false ∧ (s.tile t).waking = false ∧ (s.tile t).powered = true ∧ (s.tile t).a.requal = [] ∧ (s.tile t).b.requal = []
    ((∃ t ∈ live, ¬ ready t) → exec (.partitionStart p n) s = .next s) ∧
    (live = [] → ∃ s', exec (.partitionStart p n) s = .next s' ∧ (s'.part p).state = .killing ∧ s'.hl.fault.testBit 4 = true ∧
      (∀ k ∈ s'.load.rebinds, k.pnum = p → k.comp = none ∧ k.phase = .kill) ∧ s.SameMemory s' ∧ s.SameBase s') ∧
    (live ≠ [] → (∀ t ∈ live, ready t) →
      ∃ s', exec (.partitionStart p n) s = .next s' ∧ (s'.part p).state = .running ∧ (s'.part p).tiles = live ∧ (s'.part p).reqHead = 0 ∧ (s'.part p).cplTail = 0 ∧
        (∀ t ∈ live, (s'.tile t).bound = some p ∧ (s'.tile t).access = true ∧ (s'.tile t).seq.running = true ∧ (s'.tile t).seq.pc = c.part.itinEntry ∧
          (c.part.cls = 0 → (s'.tile t).a.gated = false ∧ (s'.tile t).b.gated = false ∧ (s'.tile t).vgated = false)) ∧
        (e.ofLoad = true → s'.load.stretch = Min.min (s.load.stretch + s.slewTime n 1) 0xFFFF) ∧
        (∀ k ∈ s'.load.rebinds, k.pnum ≠ p) ∧ s.SameMemory s' ∧ s'.boot = s.boot ∧ s'.pins = s.pins ∧ s'.pending = s.pending ∧ s'.fuse = s.fuse)

/-- Completion of REGISTER_WRITE over Varmlink. While the steward runs, a Varmlink write replaces a read-write word (GL_IMG_SRC, a
site-window word in WAIT_SITE, the partition words of a bound partition that is not being killed, a mailbox window word outside BUSY), clears
the write-one bits it names (TL_SEM_OVF, REARM_OVERRUN, REJECT, HL_FAULT, whose RAIL and THERM_STOP come back while their cause lasts) and
starts a mailbox command at SE_CMD, or ends one that the mailbox does not know with result 1; every other offset, and a word that may not be
written now, stays as it is. -/
def Obligations.RegisterWritesTakeEffect : Prop :=
  (∀ (s : State) (off : Nat) (v : Word), s.stewardRuns = false → exec (.registerWrite .varmlink off v) s = .next s) ∧
  ∀ (s : State) (v : Word), s.stewardRuns = true →
    (∀ off, ¬ (off % 8 = 0 ∧ (off = 0x300 ∨ (0x100 ≤ off ∧ off ≤ 0x248) ∨
        (0x10000 ≤ off ∧ off < 0x50000 ∧ (off % 0x1000 = 0x20 ∨ off % 0x1000 = 0x28 ∨ off % 0x1000 = 0x30)) ∨
        (0x100000 ≤ off ∧ off < 0x180000 ∧ (off % 0x400 = 0x28 ∨ (0x40 ≤ off % 0x400 ∧ off % 0x400 < 0x80))) ∨ off = 0x210000 ∨
        off = 0x220000 ∨ off = 0x220008 ∨ (0x220100 ≤ off ∧ off ≤ 0x2202F8))) →
      exec (.registerWrite .varmlink off v) s = .next s) ∧
    exec (.registerWrite .varmlink 0x300 v) s = .next { s with load := { s.load with imgSrc := v } } ∧
    (∀ n, n < 42 → (s.boot.state ≠ .waitSite → exec (.registerWrite .varmlink (0x100 + 8 * n) v) s = .next s) ∧
      (s.boot.state = .waitSite → s.boot.window.length = 336 → ∃ w, exec (.registerWrite .varmlink (0x100 + 8 * n) v) s = .next { s with boot := { s.boot with window := w } } ∧
        w.length = 336 ∧ wordOf w n = v.toNat ∧ ∀ m, m < 42 → m ≠ n → wordOf w m = wordOf s.boot.window m)) ∧
    (∀ p, p < 64 →
      ((s.part p).state = .unbound ∨ (s.part p).state = .killing → ∀ o, o < 0x1000 → exec (.registerWrite .varmlink (0x10000 + 0x1000 * p + o) v) s = .next s) ∧
      ((s.part p).state ≠ .unbound → (s.part p).state ≠ .killing →
        exec (.registerWrite .varmlink (0x10020 + 0x1000 * p) v) s = .next (s.updPart p (fun r => { r with remoteMask := v.toNat })) ∧
        exec (.registerWrite .varmlink (0x10028 + 0x1000 * p) v) s = .next (s.updPart p (fun r => { r with fptBase := v.toNat })) ∧
        exec (.registerWrite .varmlink (0x10030 + 0x1000 * p) v) s = .next (s.updPart p (fun r => { r with fptLen := v.toNat % 2 ^ 36 })))) ∧
    (∀ t, t < 512 →
      (∃ o, exec (.registerWrite .varmlink (0x100028 + 0x400 * t) v) s = .next (s.updTile t (fun x => { x with semOvf := o })) ∧
        ∀ i, i < 64 → o.testBit i = ((s.tile t).semOvf.testBit i && !v.toNat.testBit i)) ∧
      ∀ q, q < 8 → exec (.registerWrite .varmlink (0x100040 + 0x400 * t + 8 * q) v) s =
        .next (if v.toNat.testBit 5 then s.updTile t (fun x => x.setQueue q { x.queue q with rearm := false }) else s)) ∧
    (∃ f, exec (.registerWrite .varmlink 0x210000 v) s = .next { s with hl := { s.hl with fault := f } } ∧
      (∀ i, i < 64 → i ≠ 2 → i ≠ 3 → f.testBit i = (s.hl.fault.testBit i && (!v.toNat.testBit i || decide (5 ≤ i)))) ∧
      ((∃ r, StopCause.rail r ∈ s.pins.stops) → f.testBit 2 = true) ∧
      ((∀ r, StopCause.rail r ∉ s.pins.stops) → f.testBit 2 = (s.hl.fault.testBit 2 && !v.toNat.testBit 2)) ∧
      (StopCause.thermal ∈ s.pins.stops → f.testBit 3 = true) ∧
      (StopCause.thermal ∉ s.pins.stops → f.testBit 3 = (s.hl.fault.testBit 3 && !v.toNat.testBit 3))) ∧
    (let c := v.toNat % 256
     let len := v.toNat / 256 % 1024
     (v.toNat.testBit 31 = false → exec (.registerWrite .varmlink 0x220000 v) s = .next s) ∧
     (v.toNat.testBit 31 = true → s.se.busy = true → exec (.registerWrite .varmlink 0x220000 v) s = .next { s with se := { s.se with reject := true } }) ∧
     (v.toNat.testBit 31 = true → s.se.busy = false → 1 ≤ c → c ≤ 9 → len ≤ 512 → exec (.registerWrite .varmlink 0x220000 v) s = .next { s with se :=
       { s.se with cmd := some (c, s.se.data.take len), busy := true, done := false, result := 0, rlen := 0, lastCmd := c } }) ∧
     (v.toNat.testBit 31 = true → s.se.busy = false → c = 0 ∨ 9 < c ∨ 512 < len → ∃ e, exec (.registerWrite .varmlink 0x220000 v) s = .next { s with se := e } ∧
       e.busy = false ∧ e.done = true ∧ e.result = 1 ∧ e.rlen = 0 ∧ e.lastCmd = c ∧ e.nonce = s.se.nonce)) ∧
    exec (.registerWrite .varmlink 0x220008 v) s = .next { s with se := { s.se with reject := s.se.reject && !v.toNat.testBit 2 } } ∧
    ∀ n, n < 64 → (s.se.busy = true → exec (.registerWrite .varmlink (0x220100 + 8 * n) v) s = .next s) ∧
      (s.se.busy = false → s.se.data.length = 512 → ∃ d, exec (.registerWrite .varmlink (0x220100 + 8 * n) v) s = .next { s with se := { s.se with data := d } } ∧
        d.length = 512 ∧ wordOf d n = v.toNat ∧ ∀ m, m < 64 → m ≠ n → wordOf d m = wordOf s.se.data m)

/-- Completion of I3C_OFFSET_WRITE, SETDASA, ENTDAA and HL_LOSS_POP, and of REGISTER_WRITE over I3C. While the steward runs, a private write
of 4 bytes sets the offset; one with a value sets it too, and in WAIT_SITE replaces the site-window word at that offset, but changes no other
register. SETDASA to the static address 0x28 plus the straps gives a target without a dynamic address that address, ENTDAA gives one too, and
a target that has one keeps it (the last is the model's reading of the I3C standard, log 57). A 1 written to POP removes the oldest loss, and
OVF clears with the last; without a 1, and with no loss listed, nothing changes. While the steward does not run none of them does anything. -/
def Obligations.I3cTargetAndLossList : Prop :=
  (∀ (s : State), s.stewardRuns = true →
    (∀ off, exec (.i3cOffsetWrite off) s = .next { s with boot := { s.boot with i3cOffset := off % 2 ^ 32 } }) ∧
    (∀ (off : Nat) (v : Word),
      (s.boot.state ≠ .waitSite ∨ (∀ n, n < 42 → off % 2 ^ 32 ≠ 0x100 + 8 * n) →
        exec (.registerWrite .i3c off v) s = .next { s with boot := { s.boot with i3cOffset := off % 2 ^ 32 } }) ∧
      (∀ n, n < 42 → off % 2 ^ 32 = 0x100 + 8 * n → s.boot.state = .waitSite → s.boot.window.length = 336 → ∃ w,
        exec (.registerWrite .i3c off v) s = .next { s with boot := { s.boot with i3cOffset := off % 2 ^ 32, window := w } } ∧
        w.length = 336 ∧ wordOf w n = v.toNat ∧ ∀ m, m < 42 → m ≠ n → wordOf w m = wordOf s.boot.window m)) ∧
    (∀ a d, (s.boot.i3cAddr = none → a = 0x28 + s.pins.straps → exec (.setdasa a d) s = .next { s with boot := { s.boot with i3cAddr := some (d % 128) } }) ∧
      (s.boot.i3cAddr ≠ none ∨ a ≠ 0x28 + s.pins.straps → exec (.setdasa a d) s = .next s)) ∧
    (∀ d, (s.boot.i3cAddr = none → exec (.entdaa d) s = .next { s with boot := { s.boot with i3cAddr := some (d % 128) } }) ∧
      (s.boot.i3cAddr ≠ none → exec (.entdaa d) s = .next s)) ∧
    ∀ v : Word, (v.toNat.testBit 0 = false → exec (.hlLossPop v) s = .next s) ∧ (s.hl.losses = [] → exec (.hlLossPop v) s = .next s) ∧
      ∀ l ls, v.toNat.testBit 0 = true → s.hl.losses = l :: ls →
        exec (.hlLossPop v) s = .next { s with hl := { s.hl with losses := ls, ovf := s.hl.ovf && decide (ls ≠ []) } }) ∧
  ∀ (s : State), s.stewardRuns = false → ∀ off a d (v : Word), exec (.i3cOffsetWrite off) s = .next s ∧ exec (.registerWrite .i3c off v) s = .next s ∧
    exec (.setdasa a d) s = .next s ∧ exec (.entdaa d) s = .next s ∧ exec (.hlLossPop v) s = .next s

/-- Completion of GET_NONCE, TAKE_OWNERSHIP, DEBUG_LOCK and NONCE_EXPIRY. GET_NONCE without a payload answers 32 bytes that become the
outstanding nonce, and with one ends with BAD_CMD. TAKE_OWNERSHIP of 97 bytes programs an EMPTY slot 1 with them and the purposes IMG, DBG and
OWN while no image has been loaded; once one has been, it ends with NOT_ALLOWED, with a slot that is not EMPTY with SLOT_STATE, and with a
payload of another length with BAD_CMD. DEBUG_LOCK without a payload locks both scopes, and with one ends with BAD_CMD. NONCE_EXPIRY takes the
nonce away. A row whose command the mailbox does not run changes nothing. The order of the checks is the model's (log 41). -/
def Obligations.EnclaveCommandsWithoutKeys : Prop :=
  (∀ (s : State) (c : Instr) (n : Nat), (c, n) ∈ [(Instr.getNonce, 1), (.takeOwnership, 2), (.slotProgram, 3), (.slotRevoke, 4), (.counterRaise, 5),
      (.debugUnlock, 6), (.debugLock, 7), (.debugFuse, 8), (.zeroiseClear, 9), (.zeroiseDecommission, 9)] → s.running n = none → exec c s = .next s) ∧
  (∀ s : State, s.running 1 = some [] → ∃ s' n, exec .getNonce s = .next s' ∧ s.EnclaveEnds s' 0 ∧ n.length = 32 ∧ s'.se.nonce = some n ∧
    s'.se.rlen = 32 ∧ s'.se.data.take 32 = n ∧ s'.fuse = s.fuse ∧ s'.led = s.led ∧ s'.hl = s.hl) ∧
  (∀ (s : State) (b : Byte) (bs : List Byte), (s.running 1 = some (b :: bs) → ∃ s', exec .getNonce s = .next s' ∧ s.EnclaveEnds s' 1 ∧ s'.se.nonce = s.se.nonce ∧ s'.fuse = s.fuse) ∧
    (s.running 7 = some (b :: bs) → ∃ s', exec .debugLock s = .next s' ∧ s.EnclaveEnds s' 1 ∧ s'.se.core = s.se.core ∧ s'.se.steward = s.se.steward ∧ s'.fuse = s.fuse)) ∧
  (∀ (s : State) (pl : List Byte), s.running 2 = some pl →
    (pl.length = 97 → s.fuse.slot1.state = .empty → s.se.loadedSince = false → ∃ s', exec .takeOwnership s = .next s' ∧ s.EnclaveEnds s' 0 ∧
      s'.fuse = { s.fuse with slot1 := ⟨.set, 7, pl⟩ } ∧ s'.se.nonce = s.se.nonce ∧ s'.led = s.led ∧ s'.hl = s.hl) ∧
    (pl.length = 97 → s.fuse.slot1.state = .empty → s.se.loadedSince = true → ∃ s', exec .takeOwnership s = .next s' ∧ s.EnclaveEnds s' 5 ∧ s'.fuse = s.fuse) ∧
    (pl.length = 97 → s.fuse.slot1.state ≠ .empty → ∃ s', exec .takeOwnership s = .next s' ∧ s.EnclaveEnds s' 4 ∧ s'.fuse = s.fuse) ∧
    (pl.length ≠ 97 → ∃ s', exec .takeOwnership s = .next s' ∧ s.EnclaveEnds s' 1 ∧ s'.fuse = s.fuse)) ∧
  (∀ s : State, s.running 7 = some [] → ∃ s', exec .debugLock s = .next s' ∧ s.EnclaveEnds s' 0 ∧ s'.se.core = false ∧ s'.se.steward = false ∧
    s'.se.nonce = s.se.nonce ∧ s'.fuse = s.fuse ∧ s'.led = s.led ∧ s'.hl = s.hl) ∧
  ∀ s : State, exec .nonceExpiry s = .next { s with se := { s.se with nonce := none } }

/-- Completion of SLOT_PROGRAM, SLOT_REVOKE, COUNTER_RAISE, DEBUG_UNLOCK, DEBUG_FUSE, ZEROISE_CLEAR and ZEROISE_DECOMMISSION. A signed command
passes when its payload has its length, carries the outstanding nonce, and its slot may verify its purpose and does verify its signature. One
that fails ends with its code and only loses its nonce. One that passes programs an EMPTY slot 2 or 3 without OWN, revokes a SET slot, raises a
counter by a COUNTER record, unlocks the scopes given while debug is not fused, fuses debug for ever, or zeroises: grid, loader, enclave and
ledger counters are as after reset, the ledger flash stays, and a decommission also disables the UDS. A slot that is not EMPTY, or not SET,
ends it with SLOT_STATE; another slot, the purpose OWN, a counter value below the counter and a fused debug with NOT_ALLOWED; purposes above 7,
a counter above 1, scopes above 3 and a MODE above 1 with BAD_CMD. Each of the two ZEROISE rows runs its own MODE alone. Argument layouts and
the order of the checks are the model's (log 41). -/
def Obligations.SignedEnclaveCommands : Prop :=
  (∀ (s : State) (c n u : Nat) (pl : List Byte), checkSigned s c n u pl = 0 ↔ pl.length = 129 + n ∧ s.se.nonce = some (pl.take 32) ∧
    s.fuse.mayVerify (byteAt pl (32 + n)) u = true ∧
    ecdsaVerify (s.fuse.slot (byteAt pl (32 + n))).key (sha384 (signedMessage s.fuse.identityKeyId c (pl.take 32) (slice pl 32 n))) (slice pl (33 + n) 48) (slice pl (81 + n) 48) = true) ∧
  (∀ (s : State) (i : Instr) (c n u : Nat) (pl : List Byte), (i, c, n, u) ∈ [(Instr.slotProgram, 3, 99, 2), (.slotRevoke, 4, 1, 2), (.counterRaise, 5, 9, 2), (.debugFuse, 8, 0, 2)] ∨
      ((i, c, n, u) = (.debugUnlock, 6, 1, 1) ∧ s.fuse.debugFused = false) ∨ ((i, c, n, u) = (.zeroiseClear, 9, 1, 2) ∧ byteAt pl 32 = 0) ∨
      ((i, c, n, u) = (.zeroiseDecommission, 9, 1, 2) ∧ byteAt pl 32 = 1) →
    s.running c = some pl → checkSigned s c n u pl ≠ 0 → ∃ s', exec i s = .next s' ∧ s.EnclaveEnds s' (checkSigned s c n u pl) ∧ s'.fuse = s.fuse ∧ s'.led = s.led ∧
      s'.se.core = s.se.core ∧ s'.se.steward = s.se.steward ∧ s'.se.nonce = if s.se.nonce = some (pl.take 32) then none else s.se.nonce) ∧
  (∀ (s : State) (pl : List Byte), s.running 3 = some pl → checkSigned s 3 99 2 pl = 0 → let k := byteAt pl 32
    (byteAt pl 33 < 4 → (k = 2 ∧ s.fuse.slot2.state = .empty) ∨ (k = 3 ∧ s.fuse.slot3.state = .empty) → ∃ s', exec .slotProgram s = .next s' ∧ s.EnclaveEnds s' 0 ∧
      s'.fuse.slot k = ⟨.set, byteAt pl 33, slice pl 34 97⟩ ∧ (∀ j, j ≠ k → s'.fuse.slot j = s.fuse.slot j) ∧ s'.se.nonce = none ∧ s'.led = s.led) ∧
    (byteAt pl 33 < 4 → (k = 2 ∧ s.fuse.slot2.state ≠ .empty) ∨ (k = 3 ∧ s.fuse.slot3.state ≠ .empty) →
      ∃ s', exec .slotProgram s = .next s' ∧ s.EnclaveEnds s' 4 ∧ s'.fuse = s.fuse) ∧
    (byteAt pl 33 < 8 → (k ≠ 2 ∧ k ≠ 3) ∨ 4 ≤ byteAt pl 33 → ∃ s', exec .slotProgram s = .next s' ∧ s.EnclaveEnds s' 5 ∧ s'.fuse = s.fuse) ∧
    (8 ≤ byteAt pl 33 → ∃ s', exec .slotProgram s = .next s' ∧ s.EnclaveEnds s' 1 ∧ s'.fuse = s.fuse)) ∧
  (∀ (s : State) (pl : List Byte), s.running 4 = some pl → checkSigned s 4 1 2 pl = 0 → ∀ k, byteAt pl 32 = k →
    ((s.fuse.slot k).state = .set → ∃ s', exec .slotRevoke s = .next s' ∧ s.EnclaveEnds s' 0 ∧ (s'.fuse.slot k).state = .revoked ∧
      (∀ j, j ≠ k → s'.fuse.slot j = s.fuse.slot j) ∧ s'.se.nonce = none ∧ s'.led = s.led) ∧
    ((s.fuse.slot k).state ≠ .set → ∃ s', exec .slotRevoke s = .next s' ∧ s.EnclaveEnds s' 4 ∧ s'.fuse = s.fuse)) ∧
  (∀ (s : State) (pl : List Byte), s.running 5 = some pl → checkSigned s 5 9 2 pl = 0 → let v := fieldAt pl 33 8
    (byteAt pl 32 = 0 → s.led.counter0 ≤ v → ∃ s', exec .counterRaise s = .next s' ∧ s.EnclaveEnds s' 0 ∧ s'.led = { s.led.append (.counter 0 v) with counter0 := v } ∧ s'.fuse = s.fuse) ∧
    (byteAt pl 32 = 1 → s.led.counter1 ≤ v → ∃ s', exec .counterRaise s = .next s' ∧ s.EnclaveEnds s' 0 ∧ s'.led = { s.led.append (.counter 1 v) with counter1 := v } ∧ s'.fuse = s.fuse) ∧
    ((byteAt pl 32 = 0 ∧ v < s.led.counter0) ∨ (byteAt pl 32 = 1 ∧ v < s.led.counter1) → ∃ s', exec .counterRaise s = .next s' ∧ s.EnclaveEnds s' 5 ∧ s'.led = s.led) ∧
    (2 ≤ byteAt pl 32 → ∃ s', exec .counterRaise s = .next s' ∧ s.EnclaveEnds s' 1 ∧ s'.led = s.led)) ∧
  (∀ (s : State) (pl : List Byte), s.running 6 = some pl →
    (s.fuse.debugFused = true → ∃ s', exec .debugUnlock s = .next s' ∧ s.EnclaveEnds s' 5 ∧ s'.se.core = s.se.core ∧ s'.se.steward = s.se.steward) ∧
    (s.fuse.debugFused = false → checkSigned s 6 1 1 pl = 0 →
      (byteAt pl 32 < 4 → ∃ s', exec .debugUnlock s = .next s' ∧ s.EnclaveEnds s' 0 ∧ s'.se.everUnlocked = true ∧
        s'.se.core = (s.se.core || (byteAt pl 32).testBit 0) ∧ s'.se.steward = (s.se.steward || (byteAt pl 32).testBit 1) ∧ s'.se.nonce = none ∧ s'.fuse = s.fuse ∧ s'.led = s.led) ∧
      (4 ≤ byteAt pl 32 → ∃ s', exec .debugUnlock s = .next s' ∧ s.EnclaveEnds s' 1 ∧ s'.se.core = s.se.core ∧ s'.se.steward = s.se.steward))) ∧
  (∀ (s : State) (pl : List Byte), s.running 8 = some pl → checkSigned s 8 0 2 pl = 0 → ∃ s', exec .debugFuse s = .next s' ∧ s.EnclaveEnds s' 0 ∧
    s'.fuse = { s.fuse with debugFused := true } ∧ s'.se.core = false ∧ s'.se.steward = false ∧ s'.se.nonce = none ∧ s'.led = s.led) ∧
  (∀ (s : State) (pl : List Byte) (d : Bool), s.running 9 = some pl → checkSigned s 9 1 2 pl = 0 → byteAt pl 32 = (if d then 1 else 0) →
    ∃ s', exec (if d then .zeroiseDecommission else .zeroiseClear) s = .next s' ∧ s'.fab = State.reset.fab ∧ s'.load = State.reset.load ∧ s'.se = State.reset.se ∧
      s'.boot.state = .reset ∧ s'.pins.resetHeld = true ∧ s'.led = { State.reset.led with half0 := s.led.half0, half1 := s.led.half1 } ∧ s'.pending = s.pending ∧
      s'.fuse = { s.fuse with udsDisabled := s.fuse.udsDisabled || d }) ∧
  ∀ (s : State) (pl : List Byte), s.running 9 = some pl → (byteAt pl 32 ≠ 1 → exec .zeroiseDecommission s = .next s) ∧ (byteAt pl 32 = 1 → exec .zeroiseClear s = .next s) ∧
    (2 ≤ byteAt pl 32 → ∃ s', exec .zeroiseClear s = .next s' ∧ s.EnclaveEnds s' 1 ∧ s'.fuse = s.fuse)

/-- Completion of GET_VERSION, GET_CAPABILITIES, NEGOTIATE_ALGORITHMS, GET_DIGESTS, GET_CERTIFICATE, CHALLENGE, GET_MEASUREMENTS and
SPDM_UNSUPPORTED. Once firmware runs, every request has one response: over I3C it leaves at once, and over Varmlink the same body is sent to
the host on the management channel, with the same effect on the exchange; nothing of the grid or the steward changes. GET_VERSION is always
answered and begins the exchange anew, GET_CAPABILITIES follows it and NEGOTIATE_ALGORITHMS follows that. After the algorithms and with an
alias key, slot 0 gives the digest of its chain, a portion of at most 1,024 B of it, and a response to a challenge that the key signs;
measurements are given by index, all, or as their number, signed where asked. Another slot, an offset beyond the chain and an index from 9 to
254 get an ERROR of an invalid request, a request out of its order one of code 4, a keyed one without the alias key one of code 5, and an
unsupported one code 7. Before the firmware runs nothing answers. What SPDM lays down beyond the manual is PRESUMED (log 13). -/
def Obligations.AttestationAnswers : Prop :=
  (∀ (s : State) (v : Via) (r : List Byte) (n k : Nat) (g : Bool) (c : Instr), s.answersSpdm = false →
    c ∈ [Instr.getVersion v r, .getCapabilities v r, .negotiateAlgorithms v r, .getDigests v r, .getCertificate v n k k, .challenge v n r, .getMeasurements v n g r, .spdmUnsupported v n] →
    exec c s = .next s) ∧
  (∀ (s : State) (r : List Byte) (n off len : Nat) (g : Bool) (c : Via → Instr), s.answersSpdm = true →
    c ∈ [fun v => Instr.getVersion v r, fun v => .getCapabilities v r, fun v => .negotiateAlgorithms v r, fun v => .getDigests v r, fun v => .getCertificate v n off len,
      fun v => .challenge v n r, fun v => .getMeasurements v n g r, fun v => .spdmUnsupported v n] →
    ∃ s1 body, exec (c .i3c) s = .next { s1 with out := s.out ++ [.spdm .i3c body] } ∧ exec (c .varmlink) s = .next (s1.send 0x200 64 2 (flitsOf body.length) (.spdm .varmlink body)) ∧
      s1.out = s.out ∧ s1.link.waiting = s.link.waiting ∧ s1.link.modules = s.link.modules ∧ s1.fab = s.fab ∧ s.SameSteward s1) ∧
  (∀ (s : State) (r : List Byte), s.answersSpdm = true →
    (∃ b, exec (.getVersion .i3c r) s = .next { s with link := { s.link with spdmVersion := true, spdmCaps := false, spdmAlgs := false }, out := s.out ++ [.spdm .i3c ([0x10, 0x04] ++ b)] }) ∧
    (s.link.spdmVersion = true → ∃ b, exec (.getCapabilities .i3c r) s = .next { s with link := { s.link with spdmCaps := true }, out := s.out ++ [.spdm .i3c ([0x13, 0x61] ++ b)] }) ∧
    (s.link.spdmVersion = false → exec (.getCapabilities .i3c r) s = .next { s with out := s.out ++ [.spdm .i3c [0x13, 0x7F, 4, 0]] }) ∧
    (s.link.spdmCaps = true → ∃ b, exec (.negotiateAlgorithms .i3c r) s = .next { s with link := { s.link with spdmAlgs := true }, out := s.out ++ [.spdm .i3c ([0x13, 0x63] ++ b)] }) ∧
    (s.link.spdmCaps = false → exec (.negotiateAlgorithms .i3c r) s = .next { s with out := s.out ++ [.spdm .i3c [0x13, 0x7F, 4, 0]] }) ∧
    (s.link.spdmAlgs = false → ∀ n off len g c, c ∈ [Instr.getDigests .i3c r, .getCertificate .i3c n off len, .challenge .i3c n r, .getMeasurements .i3c n g r] →
      ∃ f, exec c s = .next { s with free := f, out := s.out ++ [.spdm .i3c [0x13, 0x7F, 4, 0]] }) ∧
    (s.link.spdmAlgs = true → ∀ i g, 8 < i → i ≠ 0xFF → exec (.getMeasurements .i3c i g r) s = .next { s with out := s.out ++ [.spdm .i3c [0x13, 0x7F, 1, 0]] }) ∧
    (∀ n, n < 256 → exec (.spdmUnsupported .i3c n) s = .next { s with out := s.out ++ [.spdm .i3c [0x13, 0x7F, 7, BitVec.ofNat 8 n]] })) ∧
  (∀ (s : State) (r d : List Byte), s.answersSpdm = true → s.link.spdmAlgs = true → s.aliasFirmware = some d →
    (∃ b, exec (.getDigests .i3c r) s = .next { s with out := s.out ++ [.spdm .i3c ([0x13, 0x01, 0x01, 0x01] ++ sha384 (Config.certChain d) ++ b)] }) ∧
    (∀ off len, off ≤ (Config.certChain d).length → exec (.getCertificate .i3c 0 off len) s = .next { s with out := s.out ++ [.spdm .i3c (
      let part := ((Config.certChain d).drop off).take (Min.min len 1024)
      [0x13, 0x02, 0x00, 0x00] ++ leBytes 2 part.length ++ leBytes 2 ((Config.certChain d).length - off - part.length) ++ part)] }) ∧
    (∀ slot off len, slot ≠ 0 ∨ (Config.certChain d).length < off →
      exec (.getCertificate .i3c slot off len) s = .next { s with out := s.out ++ [.spdm .i3c [0x13, 0x7F, 1, 0]] }) ∧
    (∃ f b, exec (.challenge .i3c 0 r) s = .next { s with free := f, out := s.out ++ [.spdm .i3c (
      let body := [0x13, 0x03, 0x00, 0x01] ++ sha384 (Config.certChain d) ++ b
      body ++ Config.aliasSign d (r ++ body))] }) ∧
    (∀ slot, slot ≠ 0 → ∃ f, exec (.challenge .i3c slot r) s = .next { s with free := f, out := s.out ++ [.spdm .i3c [0x13, 0x7F, 1, 0]] })) ∧
  (∀ (s : State) (r : List Byte) (i : Nat) (g : Bool), s.answersSpdm = true → s.link.spdmAlgs = true → (i ≤ 8 ∨ i = 0xFF) → (g = false ∨ s.aliasFirmware ≠ none) →
    ∃ b, exec (.getMeasurements .i3c i g r) s = .next { s with out := s.out ++ [.spdm .i3c (
      let body := [0x13, 0x60, if i = 0 then 0x08 else 0x00, 0x00] ++
        (if i = 0 then [] else if i = 0xFF then ((List.range 8).map (fun i => measurementBlock s (i + 1))).flatten else measurementBlock s i) ++ b
      body ++ (if g then Config.aliasSign (s.aliasFirmware.getD []) (r ++ body) else []))] }) ∧
  ∀ (s : State) (r : List Byte) (n off len i : Nat) (c : Instr), s.answersSpdm = true → s.link.spdmAlgs = true → s.aliasFirmware = none → (i ≤ 8 ∨ i = 0xFF) →
    c ∈ [Instr.getDigests .i3c r, .getCertificate .i3c n off len, .challenge .i3c n r, .getMeasurements .i3c i true r] →
    ∃ f, exec c s = .next { s with free := f, out := s.out ++ [.spdm .i3c [0x13, 0x7F, 5, 0]] }

/-- Completion of BYPASS, IDCODE, SAMPLE_PRELOAD, EXTEST, TAP_RESET and CORE_INSTRUMENT_ACCESS. BYPASS shifts one bit through, IDCODE shifts
its 32 bits out, SAMPLE/PRELOAD shifts the pins out and loads the boundary register without driving, and EXTEST drives it only in WAIT_SITE and
STOPPED and otherwise acts as BYPASS. A TAP reset selects IDCODE and drives nothing. An instrument reads and writes scratchpads and columns
while CORE is unlocked, and does nothing while it is locked or where the range is not one of theirs. The lengths are constants of the model
(log 12). -/
def Obligations.JtagPort : Prop :=
  (∀ (s : State) (b : Bool), exec (.bypass b) s = .next { s with jtag := { s.jtag with ir := 1, driven := none, tdo := s.jtag.tdo ++ [s.jtag.bypassBit], bypassBit := b } }) ∧
  (∀ s : State, ∃ bs, bs.length = 32 ∧ (∀ i, i < 32 → bs[i]? = some (Config.idcode.toNat.testBit i)) ∧
    exec .idcode s = .next { s with jtag := { s.jtag with ir := 0, driven := none, tdo := s.jtag.tdo ++ bs } }) ∧
  (∀ bs : List Bool, bs.length = Config.boundaryLength → boundaryOf bs = bs) ∧
  (∀ (s : State) (pins load : List Bool),
    exec (.samplePreload pins load) s = .next { s with jtag := { s.jtag with ir := 2, driven := none, boundary := boundaryOf load, tdo := s.jtag.tdo ++ boundaryOf pins } } ∧
    (s.boot.state = .waitSite ∨ s.boot.state = .stopped → exec (.extest pins load) s =
      .next { s with jtag := { s.jtag with ir := 3, boundary := boundaryOf load, driven := some (boundaryOf load), tdo := s.jtag.tdo ++ boundaryOf pins } }) ∧
    (s.boot.state ≠ .waitSite → s.boot.state ≠ .stopped → ∃ t b, t ++ [b] = s.jtag.bypassBit :: load ∧ exec (.extest pins load) s =
      .next { s with jtag := { s.jtag with ir := 1, driven := none, tdo := s.jtag.tdo ++ t, bypassBit := b } })) ∧
  (∀ s : State, exec .tapReset s = .next { s with jtag := { s.jtag with ir := 0, driven := none } }) ∧
  ∀ (s : State) (a : Word) (len : Nat) (bs : List Byte),
    (s.se.core = false ∨ rangeStatus a.toNat bs.length ≠ stOk → exec (.coreInstrumentAccess a (some bs) len) s = .next s) ∧
    (s.se.core = false ∨ rangeStatus a.toNat len ≠ stOk → exec (.coreInstrumentAccess a none len) s = .next s) ∧
    (s.se.core = true → Memory.wf s.fab.mem = true → rangeStatus a.toNat bs.length = stOk → ∃ m, exec (.coreInstrumentAccess a (some bs) len) s =
      .next (s.updFab (fun f => { f with mem := m })) ∧
      memReads m (cellKey a.toNat) bs.length = bs ∧ (∀ k, k < cellKey a.toNat ∨ cellKey a.toNat + bs.length ≤ k → memRead m k = memRead s.fab.mem k)) ∧
    (s.se.core = true → rangeStatus a.toNat len = stOk → ∃ bits, bits.length = 8 * len ∧ exec (.coreInstrumentAccess a none len) s =
      .next { s with jtag := { s.jtag with tdo := s.jtag.tdo ++ bits } } ∧
      ∀ i j, i < len → j < 8 → bits[8 * i + j]? = some ((memRead s.fab.mem (cellKey a.toNat + i)).toNat.testBit j))

/-- Completion of FLIT_RECEIVE, NAK, FLIT_ACK_TIMEOUT, MODULE_RETRAIN and MODULE_RETRAIN_DONE. On a module that runs and with nothing waiting
to be sent, a flit of a bad CRC is counted and refused and one out of sequence is refused, with one NAK for a run; one in sequence is
acknowledged, drops the flits that its ACK covers, adds the credits that it returns, and, unless its FKIND is 0, leaves its channel's buffer,
the eighth time with a credit return. A control access with HOST for this stack gets an answer while the steward runs, and one without HOST or
for another stack is counted TARGET; a malformed head or body is counted UNDEF, and any other changes nothing more. A NAK drops what it covers and
sends every later flit again, a late acknowledgement every one, unless one was resent 16 times, which alone lets the module retrain; a retrain
that passes sends all again, and one that fails takes the module DOWN with nothing left to send, ends its transfers' tags and keeps every byte
of memory. A module that does not run, or does not retrain, takes none of these. -/
def Obligations.FlitsAcknowledgedAndResent : Prop :=
  (∀ (s : State) (m : Nat) (flit : List Byte), s.moduleRuns m = true → s.link.waiting = [] → s.pow.notices = [] → s.load.cur = none →
    let x := s.module m
    let ack := fieldAt flit 2 2 % 4096
    let kind := fieldAt flit 0 2 / 2 ^ 12 % 4
    let nak : List Sent := if x.nakPending then [] else [.nak m ((x.nextRecv + 4095) % 4096)]
    let freed (y : State) : State :=
      let ch := fieldAt flit 0 2 / 2 ^ 14 % 4
      let z := y.module m
      if kind = 0 ∨ 2 < ch then y
      else if z.taken.getD ch 0 < 7 then y.setModule m { z with taken := z.taken.modify ch (· + 1) }
      else { y.setModule m { z with taken := z.taken.modify ch (fun _ => 0) } with out := y.out ++ [.credit m ch] }
    (flitCrcOk flit = false → exec (.flitReceive m flit) s = .next { (s.setModule m { x with crcErr := Min.min (x.crcErr + 1) 0xFFFF, nakPending := true }) with out := s.out ++ nak }) ∧
    (flitCrcOk flit = true → fieldAt flit 0 2 % 4096 ≠ x.nextRecv → exec (.flitReceive m flit) s = .next { (s.setModule m { x with nakPending := true }) with out := s.out ++ nak }) ∧
    (flitCrcOk flit = true → fieldAt flit 0 2 % 4096 = x.nextRecv → ∃ l c s1, s1 = { (s.setModule m { x with nextRecv := (x.nextRecv + 1) % 4096, nakPending := false, sent := l, credits := c }) with
        out := s.out ++ [.ack m x.nextRecv] } ∧
      ((∀ f ∈ x.sent, f.fseq ≠ ack) → l = x.sent) ∧ (∀ a f b, x.sent = a ++ f :: b → f.fseq = ack → (∀ g ∈ a, g.fseq ≠ ack) → l = b) ∧
      ((fieldAt flit 2 2).testBit 15 = false → c = x.credits) ∧
      ((fieldAt flit 2 2).testBit 15 = true → ∀ ch, ch < 3 → ch < x.credits.length → c.getD ch 0 = if ch = fieldAt flit 2 2 / 2 ^ 13 % 4 then Min.min (if ch = 1 then 192 else 32) (x.credits.getD ch 0 + 8) else x.credits.getD ch 0) ∧
      let undef : State := { s1 with link := { s1.link with dropUndef := Min.min (s.link.dropUndef + 1) 0xFFFF } }
      let target : State := { s1 with link := { s1.link with dropTarget := Min.min (s.link.dropTarget + 1) 0xFFFF } }
      let control := byteAt flit 4 = 0x06 ∨ byteAt flit 4 = 0x16
      let mine := (byteAt flit 5).testBit 6 = true ∧ fieldAt flit 8 8 / 2 ^ 58 % 64 = s.stackId
      (kind = 0 ∨ kind = 3 → exec (.flitReceive m flit) s = .next (freed s1)) ∧
      (kind = 1 → headOk flit = false → exec (.flitReceive m flit) s = .next (freed undef)) ∧
      (kind = 1 → headOk flit = true → ¬ control → exec (.flitReceive m flit) s = .next (freed s1)) ∧
      (kind = 1 → headOk flit = true → control → ¬ mine → exec (.flitReceive m flit) s = .next (freed target)) ∧
      (kind = 1 → headOk flit = true → control → mine → s.stewardRuns = true →
        ∃ s2, exec (.flitReceive m flit) s = .next (freed s2) ∧ s2.fab = s.fab ∧ s1.Sends s2 0x200 64 2 1
          (.control (fieldAt flit 6 2) (controlAnswer s1 (fieldAt flit 8 8)).1
            (if byteAt flit 4 = 0x06 then leBytes 8 (controlAnswer s1 (fieldAt flit 8 8)).2 else []))) ∧
      (kind = 2 → exec (.flitReceive m flit) s = .next (freed (if zeroAt flit 0x0D 3 then s1 else undef))))) ∧
  (∀ (s : State) (m : Nat), s.moduleRuns m = true → s.link.waiting = [] → s.pow.notices = [] → s.load.cur = none →
    let x := s.module m
    let again (l : List SentFlit) : State := { (s.setModule m { x with sent := l.map (fun f => { f with resends := f.resends + 1 }), replays := Min.min (x.replays + l.length) 0xFFFF }) with
      out := s.out ++ l.map (fun f => .resend m f.fseq) }
    (∀ k a f b, x.sent = a ++ f :: b → f.fseq = k → (∀ g ∈ a, g.fseq ≠ k) →
      ((∀ g ∈ b, g.resends < 16) → exec (.nak m k) s = .next (again b)) ∧
      ((∃ g ∈ b, 16 ≤ g.resends) → exec (.nak m k) s = .next (s.setModule m { x with sent := b }))) ∧
    (∀ k, (∀ f ∈ x.sent, f.fseq ≠ k) → ((∀ g ∈ x.sent, g.resends < 16) → exec (.nak m k) s = .next (again x.sent)) ∧ exec (.flitAckTimeout m k) s = .next s) ∧
    (∀ k, (∃ f ∈ x.sent, f.fseq = k) → ((∀ g ∈ x.sent, g.resends < 16) → exec (.flitAckTimeout m k) s = .next (again x.sent)) ∧
      ((∃ g ∈ x.sent, 16 ≤ g.resends) → exec (.flitAckTimeout m k) s = .next s)) ∧
    ((∀ g ∈ x.sent, g.resends < 16) → exec (.moduleRetrain m) s = .next s) ∧
    ((∃ g ∈ x.sent, 16 ≤ g.resends) → exec (.moduleRetrain m) s = .next (s.setModule m { x with retraining := true, retrains := Min.min (x.retrains + 1) 0xFF }))) ∧
  (∀ (s : State) (m : Nat), (s.module m).state = 2 → (s.module m).retraining = true → s.link.waiting = [] → s.pow.notices = [] → s.load.cur = none →
    let x := s.module m
    exec (.moduleRetrainDone m true) s = .next { (s.setModule m { x with retraining := false, sent := x.sent.map (fun f => { f with resends := 0 }), replays := Min.min (x.replays + x.sent.length) 0xFFFF }) with
      out := s.out ++ x.sent.map (fun f => .resend m f.fseq) } ∧
    ∃ s', exec (.moduleRetrainDone m false) s = .next s' ∧ (s'.module m).state = 3 ∧ (s'.module m).sent = [] ∧ (s'.module m).retraining = false ∧
      (∀ f ∈ x.sent, ∀ g t q n, f.tag = some g → s.link.tags.find? (fun e => e.1 == g) = some (g, .xfer t q n) → ∀ e ∈ s'.link.tags, e.1 ≠ g) ∧ s.SameMemory s' ∧
      s'.boot = s.boot ∧ s'.pins = s.pins ∧ s'.led = s.led ∧ s'.load = s.load ∧ s.SameBase s') ∧
  ∀ (s : State) (m k : Nat) (flit : List Byte) (pass : Bool),
    (s.moduleRuns m = false → exec (.flitReceive m flit) s = .next s ∧ exec (.nak m k) s = .next s ∧ exec (.flitAckTimeout m k) s = .next s ∧ exec (.moduleRetrain m) s = .next s) ∧
    ((s.module m).state ≠ 2 ∨ (s.module m).retraining = false → exec (.moduleRetrainDone m pass) s = .next s)

/-- Completion of READ, WRITE and MCAST. A message on a module that does not run, or with the clocks stopped, changes nothing. A LEN above
2,048 or a non-zero AUX of a READ or WRITE is counted UNDEF and another stack's address TARGET. Otherwise the range, then whether the tile or
column is reached by running roads from the module's tiles, then the permission of a stack, then the fence or a fired check give the status,
which is answered without effect unless it is OK. A READ then answers the bytes, after the check of a scratchpad's codewords, or DS_UNCORR
where one of a column is lost; a WRITE lands its bytes and no other byte before it is answered: in a scratchpad without a wrong bit, in a
column without a lost codeword, or in one that is not unusable with whole codewords, which it makes good; an unusable column answers
DS_UNCORR. An MCAST is a WRITE for the stacks whose bit its mask holds. -/
def Obligations.RemoteReadsAndWrites : Prop :=
  (∀ (s : State) (h : MsgHead) (len : Nat) (bs : List Byte), s.moduleRuns h.module = false ∨ s.pins.stops ≠ [] →
    exec (.read h len) s = .next s ∧ exec (.write h bs) s = .next s ∧ exec (.mcast h bs) s = .next s) ∧
  ∀ (s : State) (h : MsgHead) (len : Nat) (bs : List Byte), s.moduleRuns h.module = true → s.pins.stops = [] →
    let d := devAddr h.addr.toNat
    let key := cellKey h.addr.toNat
    let undef : State := { s with link := { s.link with dropUndef := Min.min (s.link.dropUndef + 1) 0xFFFF } }
    let target : State := { s with link := { s.link with dropTarget := Min.min (s.link.dropTarget + 1) 0xFFFF } }
    let dest := if h.host then 64 else h.srcStack % 64
    let home := if h.host then 0 else h.srcStack % 64 * 2 ^ 58 + h.srcTile % 1024
    let status (n : Nat) : Nat :=
      if rangeStatus h.addr.toNat n ≠ 0 then rangeStatus h.addr.toNat n
      else if (if d.space = 0 then (s.tile d.tile).access else s.columnServed d.tile) = false ∨ (∀ e ∈ moduleTiles h.module, s.pathRuns e d.tile = false) then 0x08
      else if h.host = false ∧ ((s.tile d.tile).bound.elim 0 (fun p => (s.part p).remoteMask)).testBit (h.srcStack % 64) = false then 0x07
      else if ((s.tile d.tile).fenced = true ∨ (s.tile d.tile).fired = true) ∧ d.space = 0 then 0x0D else 0
    let reads (st : Nat) (data : List Byte) (f : Fabric) : Prop := ∃ s', exec (.read h len) s = .next s' ∧ s'.fab = f ∧
      s.Sends s' d.tile dest (s.channel d.tile) (flitsOf data.length) (.completion 0 home h.tag st data) ∧ s.SameSteward s'
    let writes (c : Instr) : Prop :=
      (status bs.length ≠ 0 → ∃ s', exec c s = .next s' ∧ s'.fab = s.fab ∧ s.Sends s' d.tile dest (s.channel d.tile) 1 (.completion 1 home h.tag (status bs.length) []) ∧ s.SameSteward s') ∧
      (status bs.length = 0 → d.space = 1 → s.fab.deadColumns.contains d.tile = true → bs ≠ [] → ∃ s', exec c s = .next s' ∧ s'.fab = s.fab ∧
        s.Sends s' d.tile dest (s.channel d.tile) 1 (.completion 1 home h.tag 0x09 []) ∧ s.SameSteward s') ∧
      (status bs.length = 0 → (d.space = 0 ∧ s.CleanPad d.tile) ∨ (d.space = 1 ∧ ∀ w, s.fab.isLost d.tile w = false) ∨
          (d.space = 1 ∧ s.fab.deadColumns.contains d.tile = false ∧ d.off % 64 = 0 ∧ bs.length % 64 = 0) → Memory.wf s.fab.mem = true → ∃ s', exec c s = .next s' ∧
        memReads s'.fab.mem key bs.length = bs ∧ (∀ k, k < key ∨ key + bs.length ≤ k → memRead s'.fab.mem k = memRead s.fab.mem k) ∧ s'.fab.tiles = s.fab.tiles ∧
        (d.space = 1 → ∀ w ∈ wordsOf d.off bs.length, s'.fab.isLost d.tile w = false) ∧
        s.Sends s' d.tile dest (s.channel d.tile) 1 (.completion 1 home h.tag 0 []) ∧ s.SameSteward s')
    (h.aux ≠ 0 ∨ 2048 < len → exec (.read h len) s = .next undef) ∧ (h.aux ≠ 0 ∨ 2048 < bs.length → exec (.write h bs) s = .next undef) ∧
    (2048 < bs.length → exec (.mcast h bs) s = .next undef) ∧
    (h.aux = 0 → d.stack ≠ s.stackId → (len ≤ 2048 → exec (.read h len) s = .next target) ∧ (bs.length ≤ 2048 → exec (.write h bs) s = .next target)) ∧
    (h.aux.toNat.testBit s.stackId = false → bs.length ≤ 2048 → exec (.mcast h bs) s = .next target) ∧
    (h.aux = 0 → d.stack = s.stackId → len ≤ 2048 →
      (status len ≠ 0 → reads (status len) [] s.fab) ∧
      (status len = 0 → (d.space = 0 → reads (if (s.fab.spCheck d.tile d.off len).2 then 0 else 0x0D)
          (if (s.fab.spCheck d.tile d.off len).2 then (s.fab.spCheck d.tile d.off len).1.spRead d.tile d.off len else []) (s.fab.spCheck d.tile d.off len).1) ∧
        ((d.space = 0 ∧ s.CleanPad d.tile) ∨ (d.space = 1 ∧ ∀ w ∈ wordsOf d.off len, s.fab.isLost d.tile w = false) → reads 0 (memReads s.fab.mem key len) s.fab) ∧
        (d.space = 1 → (∃ w ∈ wordsOf d.off len, s.fab.isLost d.tile w = true) → reads 0x09 [] s.fab))) ∧
    (h.aux = 0 → d.stack = s.stackId → bs.length ≤ 2048 → writes (.write h bs)) ∧
    (h.aux.toNat.testBit s.stackId = true → bs.length ≤ 2048 → writes (.mcast h bs))

/-- Completion of ATOMIC_SIGNAL, ATOMIC_RELEASE, READ_DATA_COMPLETION, WRITE_ACKNOWLEDGEMENT and REMOTE_TIMEOUT. A SIGNAL or RELEASE of the
wrong form is counted UNDEF, one for another stack TARGET, and one of the host, toward an unbound tile, or that names no such wire of a bound
partition ATOMIC; a SIGNAL that names one adds 1 to its consumer's semaphore, with its tag, and a RELEASE adds to its consumer's lag, and to
the producer's semaphore when every lag is then at least 1. A completion is matched by TAG: it ends its message, with the bytes or the status it
brings, and a timeout ends it with REMOTE_TIMEOUT; a completion that matches nothing, or no message of its kind, is counted LATE, and a timeout
that matches nothing changes nothing. -/
def Obligations.AtomicsAndCompletions : Prop :=
  (∀ (s : State) (h : MsgHead), s.moduleRuns h.module = false ∨ s.pins.stops ≠ [] → exec (.atomicSignal h) s = .next s ∧ exec (.atomicRelease h) s = .next s) ∧
  (∀ (s : State) (h : MsgHead), s.moduleRuns h.module = true → s.pins.stops = [] →
    let a := h.addr.toNat
    let x := h.aux.toNat
    let t := a / 2 ^ 16 % 512
    let undef : State := { s with link := { s.link with dropUndef := Min.min (s.link.dropUndef + 1) 0xFFFF } }
    let target : State := { s with link := { s.link with dropTarget := Min.min (s.link.dropTarget + 1) 0xFFFF } }
    let atomic : State := { s with link := { s.link with dropAtomic := Min.min (s.link.dropAtomic + 1) 0xFFFF } }
    let formed := a / 2 ^ 56 % 4 = 3 ∧ a / 2 ^ 25 % 2 ^ 31 = 0
    (¬ formed ∨ 2 ≤ x → exec (.atomicSignal h) s = .next undef) ∧
    (¬ formed ∨ x % 256 ≠ 0 ∨ 2 ^ 14 ≤ x → exec (.atomicRelease h) s = .next undef) ∧
    (formed → a / 2 ^ 58 ≠ s.stackId → (x < 2 → exec (.atomicSignal h) s = .next target) ∧ (x % 256 = 0 → x < 2 ^ 14 → exec (.atomicRelease h) s = .next target)) ∧
    (formed → a / 2 ^ 58 = s.stackId → x < 2 →
      (s.signalledWire h t = none ∨ (s.tile t).access = false ∨ h.host = true → exec (.atomicSignal h) s = .next atomic) ∧
      (∀ p w c i, s.signalledWire h t = some (p, w) → (s.part p).wires.find? (fun v => v.link == w.link) = some w → w.cons.findIdx? (fun c => c.1 == t) = some i → w.cons[i]? = some c →
        (s.tile t).access = true → h.host = false → ∃ s', exec (.atomicSignal h) s = .next s' ∧ (s'.tile t).sem c.2 =
          ⟨Min.min (((s.tile t).sem c.2).count + 1) 0xFFFF, ((s.tile t).sem c.2).tag || x.testBit 0⟩ ∧ (∀ j, j ≠ c.2 → (s'.tile t).sem j = (s.tile t).sem j) ∧
        s.SameTilesBut s' t ∧ s.SameMemory s' ∧ s'.link = s.link ∧ s'.out = s.out ∧ s.SameSteward s')) ∧
    (formed → a / 2 ^ 58 = s.stackId → x % 256 = 0 → x < 2 ^ 14 →
      (s.releasedWire h t = none ∨ (s.tile t).access = false ∨ h.host = true → exec (.atomicRelease h) s = .next atomic) ∧
      (∀ p w, s.releasedWire h t = some (p, w) → (s.part p).wires.find? (fun v => v.link == w.link) = some w → (s.tile t).access = true → h.host = false →
        let lags := (tabGet (List.replicate w.cons.length 0) (s.tile t).lags w.link).modify (x / 256 % 64) (· + 1)
        ∃ s', exec (.atomicRelease h) s = .next s' ∧ s.SameTilesBut s' t ∧ s.SameMemory s' ∧ s'.link = s.link ∧ s'.out = s.out ∧ s.SameSteward s' ∧
        ((∀ n ∈ lags, 1 ≤ n) → tabGet [] (s'.tile t).lags w.link = lags.map (· - 1) ∧ ((s'.tile t).sem w.psem).count = Min.min (((s.tile t).sem w.psem).count + 1) 0xFFFF) ∧
        ((∃ n ∈ lags, n = 0) → tabGet [] (s'.tile t).lags w.link = lags ∧ (s'.tile t).sem w.psem = (s.tile t).sem w.psem)))) ∧
  (∀ (s : State) (tag st : Nat) (bs : List Byte), (∀ e ∈ s.link.tags, e.1 = tag → e.2 = .image) →
    let late : State := { s with link := { s.link with dropLate := Min.min (s.link.dropLate + 1) 0xFFFF } }
    exec (.readDataCompletion tag st bs) s = .next late ∧ exec (.writeAcknowledgement tag st) s = .next late ∧ exec (.remoteTimeout tag) s = .next s) ∧
  ∀ (s : State) (tag st off len t q n i : Nat) (bs : List Byte) (x : Xfer), s.link.tags.find? (fun e => e.1 == tag) = some (tag, .xfer t q n) →
    ((s.tile t).queue q).out[i]? = some x → x.sent.find? (fun u => u.1 == tag) = some (tag, off, len) → (∀ j y, ((s.tile t).queue q).out[j]? = some y → j ≠ i → ∀ u ∈ y.sent, u.1 ≠ tag) →
    let late : State := { s with link := { s.link with dropLate := Min.min (s.link.dropLate + 1) 0xFFFF } }
    let left := x.sent.erase (tag, off, len)
    let ends (c : Instr) (y : Xfer) : Prop := ∃ s', exec c s = .next s' ∧ ((s'.tile t).queue q).out = ((s.tile t).queue q).out.set i y ∧
      s'.link = { s.link with tags := s.link.tags.filter (fun e => e.1 != tag) } ∧ s.SameTilesBut s' t ∧ s.SameMemory s' ∧ s'.out = s.out ∧ s.SameSteward s'
    let failed (k : Nat) : Xfer := { x with sent := left, unsent := [], status := if x.status = 0 then k else x.status, answered := decide (left = []) }
    (x.path = .remote false → ends (.readDataCompletion tag 0 bs) { x with
      sent := left, data := x.data.take off ++ (bs.take len ++ List.replicate (len - bs.length) 0) ++ x.data.drop (off + len), answered := decide (left = [] ∧ x.unsent = []) }) ∧
    (x.path = .remote false → st ≠ 0 → ends (.readDataCompletion tag st bs) (failed st)) ∧
    (x.path = .remote true → ends (.writeAcknowledgement tag 0) { x with sent := left, answered := decide (left = [] ∧ x.unsent = []) }) ∧
    (x.path = .remote true → st ≠ 0 → ends (.writeAcknowledgement tag st) (failed st)) ∧
    (x.path = .remote true → exec (.readDataCompletion tag st bs) s = .next late) ∧ (x.path = .remote false → exec (.writeAcknowledgement tag st) s = .next late) ∧
    ends (.remoteTimeout tag) (failed 0x0C)

/-- Completion of ROAD_WRITE and ROAD_READ_REQUEST. With the clocks running, no link between the two tiles retraining and the queue not
disabled, a transfer of a queue toward another tile is answered, a write once no earlier one to the same bytes is outstanding: UNBOUND where
the tile or column is not reached or a region on the way is stopped, with zeros for the read of a column, PARTITION outside its own partition
but for a write to a wired tile's scratchpad, TILE_FENCED at the scratchpad of a fenced tile or one whose check has fired. With OK, in
scratchpads without a wrong bit and columns without a lost codeword, a read brings the other tile's bytes and a write lands its own bytes there
and nowhere else, and marks its far page dirty; a read from a column with a lost codeword is answered DS_UNCORR. Beats so cross the links
between the tiles. A transfer that is not such an access, one that has been answered and one that has to wait change nothing. -/
def Obligations.RoadAccessesAreAnswered : Prop :=
  (∀ (s : State) (t q n : Nat), (∀ x, ((s.tile t).queue q).out[n]? = some x → (∀ u w, x.path = .road u w → s.fab.roadOpen t u = false ∨ s.fab.roadOpen u t = false) ∨ x.answered = true) ∨
      s.pins.stops ≠ [] ∨ ((s.tile t).queue q).state = .stop →
    exec (.roadWrite t q n) s = .next s ∧ exec (.roadReadRequest t q n) s = .next s) ∧
  ∀ (s : State) (t q n u : Nat) (w : Bool) (x : Xfer), ((s.tile t).queue q).out[n]? = some x → x.path = .road u w → x.answered = false → s.pins.stops = [] →
    s.fab.roadOpen t u = true → s.fab.roadOpen u t = true → ((s.tile t).queue q).state ≠ .stop →
    let d := devAddr (if w then x.dst else x.src)
    let key := cellKey (if w then x.dst else x.src)
    let good (e : DevAddr) : Prop := (e.space = 0 ∧ s.CleanPad e.tile) ∨ (e.space = 1 ∧ ∀ v, s.fab.isLost e.tile v = false)
    let status : Nat :=
      if (if d.space = 0 then (s.tile d.tile).access else s.columnServed d.tile) = false ∨ s.pathRuns t d.tile = false then 0x08
      else if (s.tile d.tile).bound ≠ (s.tile t).bound ∧ ¬ (w = true ∧ d.space = 0 ∧ s.wired t d.tile = true) then 0x07
      else if ((s.tile d.tile).fenced = true ∨ (s.tile d.tile).fired = true) ∧ d.space = 0 then 0x0D else 0
    let answer (f : State) (st : Nat) (bs : List Byte) : State := (f.updFab (fun g => (g.crossed t d.tile).crossed d.tile t)).updTile t (fun y => y.setQueue q
      { y.queue q with out := (y.queue q).out.set n { x with answered := true, status := st, data := bs } })
    (w = false → exec (.roadWrite t q n) s = .next s ∧
      (status ≠ 0 → exec (.roadReadRequest t q n) s = .next (answer s status (if status = 0x08 ∧ d.space = 1 then List.replicate x.len 0 else []))) ∧
      (status = 0 → rangeStatus x.src x.len = 0 → good d → exec (.roadReadRequest t q n) s = .next (answer s 0 (memReads s.fab.mem key x.len))) ∧
      (status = 0 → d.space = 1 → (∃ v ∈ wordsOf d.off x.len, s.fab.isLost d.tile v = true) → exec (.roadReadRequest t q n) s = .next (answer s 0x09 []))) ∧
    (w = true → exec (.roadReadRequest t q n) s = .next s ∧
      (((s.tile t).queue q).landsNow n = false → exec (.roadWrite t q n) s = .next s) ∧
      (((s.tile t).queue q).landsNow n = true → rangeStatus x.src x.len = 0 →
        ((devAddr x.src).space = 1 → (∃ v ∈ wordsOf (devAddr x.src).off x.len, s.fab.isLost (devAddr x.src).tile v = true) → exec (.roadWrite t q n) s = .next (answer s 0x09 [])) ∧
        (good (devAddr x.src) → status ≠ 0 → exec (.roadWrite t q n) s = .next (answer s status [])) ∧
        (good (devAddr x.src) → status = 0 → rangeStatus x.dst x.len = 0 → good d → Memory.wf s.fab.mem = true → ∃ m, exec (.roadWrite t q n) s =
            .next (answer ((s.updFab (fun f => { f with mem := m })).markDirty t x.page) 0 []) ∧ memReads m key x.len = memReads s.fab.mem (cellKey x.src) x.len ∧
          ∀ k, k < key ∨ key + x.len ≤ k → memRead m k = memRead s.fab.mem k)))

/-- Whatever the command, a step from a state whose memory lists its bytes in rising order of address, none of them equal to
what an unlisted byte reads as, leaves such a memory: equal memories stay equal data. That it holds after reset is a
clause of ResetState. The form is the model's (log 5). -/
def Obligations.StepKeepsMemoryCanonical : Prop :=
  ∀ s s' : State, Memory.wf s.fab.mem = true → step s = .next s' → Memory.wf s'.fab.mem = true

/-- Whatever the command, a step leaves each key slot as it was, or programs an EMPTY slot, or revokes a SET slot with its key
and purposes kept; a REVOKED slot stays as it is; debug, once fused, stays fused, a UDS once disabled stays disabled, and
the device identity stays. -/
def Obligations.FusesOnlyMoveForward : Prop :=
  ∀ s s' : State, step s = .next s' →
    (∀ k, k < 4 → (s'.fuse.slot k = s.fuse.slot k ∨ ((s.fuse.slot k).state = .empty ∧ (s'.fuse.slot k).state = .set) ∨
      ((s.fuse.slot k).state = .set ∧ s'.fuse.slot k = { s.fuse.slot k with state := .revoked }))) ∧
    (s.fuse.debugFused = true → s'.fuse.debugFused = true) ∧ (s.fuse.udsDisabled = true → s'.fuse.udsDisabled = true) ∧
    s'.fuse.identityKeyId = s.fuse.identityKeyId
end

