-- ==== Sys2Proof/Laws/Tab.lean ====
section
/-! SUPPORT. Reading a sparse table after writing it. -/
namespace Sys2Proof.Machine

theorem tabGet_tabSet {α : Type} (d : α) (t : Tab α) (k j : Nat) (v : α) :
    tabGet d (tabSet t k v) j = if k = j then v else tabGet d t j := by
  induction t with
  | nil => simp [tabSet, tabGet]
  | cons e r ih =>
    obtain ⟨i, u⟩ := e
    simp only [tabSet]
    split
    · simp [tabGet]
    · split
      · subst k; by_cases h : i = j <;> simp [tabGet, h]
      · by_cases h : i = j
        · have : k ≠ j := by omega
          simp [tabGet, h, this]
        · simp [tabGet, h, ih]

@[simp] theorem tabGet_tabSet_same {α : Type} (d : α) (t : Tab α) (k : Nat) (v : α) : tabGet d (tabSet t k v) k = v := by
  simp [tabGet_tabSet]

theorem tabGet_tabSet_other {α : Type} (d : α) (t : Tab α) (k j : Nat) (v : α) (h : k ≠ j) :
    tabGet d (tabSet t k v) j = tabGet d t j := by
  simp [tabGet_tabSet, h]

/-- The last value written at an index stands. -/
@[simp] theorem tabSet_tabSet {α : Type} (t : Tab α) (k : Nat) (v w : α) : tabSet (tabSet t k v) k w = tabSet t k w := by
  induction t with
  | nil => simp [tabSet]
  | cons e r ih =>
    obtain ⟨i, u⟩ := e
    by_cases h1 : k < i
    · simp [tabSet, h1]
    · by_cases h2 : k = i
      · subst h2; simp [tabSet]
      · simp [tabSet, h1, h2, ih]

end Sys2Proof.Machine
end

