-- ==== Sys2Proof/Laws/State.lean ====
section
/-! SUPPORT. What each update of one part of the state changes and what it leaves, true by unfolding, so that no later proof
unfolds a record update. -/
namespace Sys2Proof.Machine

@[simp] theorem State.setFab_fab (s : State) (f : Fabric) : (s.setFab f).fab = f := rfl
@[simp] theorem State.setFab_pending (s : State) (f : Fabric) : (s.setFab f).pending = s.pending := rfl
@[simp] theorem State.setFab_free (s : State) (f : Fabric) : (s.setFab f).free = s.free := rfl
@[simp] theorem State.setFab_pins (s : State) (f : Fabric) : (s.setFab f).pins = s.pins := rfl
@[simp] theorem State.setFab_boot (s : State) (f : Fabric) : (s.setFab f).boot = s.boot := rfl
@[simp] theorem State.setFab_led (s : State) (f : Fabric) : (s.setFab f).led = s.led := rfl
@[simp] theorem State.setFab_link (s : State) (f : Fabric) : (s.setFab f).link = s.link := rfl
@[simp] theorem State.setFab_load (s : State) (f : Fabric) : (s.setFab f).load = s.load := rfl
@[simp] theorem State.setFab_pow (s : State) (f : Fabric) : (s.setFab f).pow = s.pow := rfl
@[simp] theorem State.setFab_hl (s : State) (f : Fabric) : (s.setFab f).hl = s.hl := rfl
@[simp] theorem State.setFab_se (s : State) (f : Fabric) : (s.setFab f).se = s.se := rfl
@[simp] theorem State.setFab_fuse (s : State) (f : Fabric) : (s.setFab f).fuse = s.fuse := rfl
@[simp] theorem State.setFab_jtag (s : State) (f : Fabric) : (s.setFab f).jtag = s.jtag := rfl
@[simp] theorem State.setFab_out (s : State) (f : Fabric) : (s.setFab f).out = s.out := rfl

@[simp] theorem State.updFab_fab (s : State) (g : Fabric → Fabric) : (s.updFab g).fab = g s.fab := rfl
@[simp] theorem State.updFab_pending (s : State) (g : Fabric → Fabric) : (s.updFab g).pending = s.pending := rfl
@[simp] theorem State.updFab_fuse (s : State) (g : Fabric → Fabric) : (s.updFab g).fuse = s.fuse := rfl
@[simp] theorem State.updFab_link (s : State) (g : Fabric → Fabric) : (s.updFab g).link = s.link := rfl
@[simp] theorem State.updFab_out (s : State) (g : Fabric → Fabric) : (s.updFab g).out = s.out := rfl

/-- A tile update leaves everything but the table of tiles. -/
theorem State.setTile_eq (s : State) (t : Nat) (x : Tile) :
    s.setTile t x = { s with fab := { s.fab with tiles := tabSet s.fab.tiles t x } } := rfl

theorem State.updTile_eq (s : State) (t : Nat) (g : Tile → Tile) :
    s.updTile t g = { s with fab := { s.fab with tiles := tabSet s.fab.tiles t (g (s.tile t)) } } := rfl

@[simp] theorem State.setTile_tile (s : State) (t : Nat) (x : Tile) : (s.setTile t x).tile t = x := by
  simp [State.setTile, State.setFab, Fabric.setTile, State.tile]

theorem State.setTile_tile_other (s : State) (t u : Nat) (x : Tile) (h : u ≠ t) : (s.setTile t x).tile u = s.tile u := by
  simp [State.setTile, State.setFab, Fabric.setTile, State.tile, tabGet_tabSet, Ne.symm h]

@[simp] theorem State.updTile_tile (s : State) (t : Nat) (g : Tile → Tile) : (s.updTile t g).tile t = g (s.tile t) := by
  simp [State.updTile]

theorem State.updTile_tile_other (s : State) (t u : Nat) (g : Tile → Tile) (h : u ≠ t) :
    (s.updTile t g).tile u = s.tile u := by
  simp [State.updTile, State.setTile_tile_other, h]

@[simp] theorem State.setTile_setTile (s : State) (t : Nat) (x y : Tile) : (s.setTile t x).setTile t y = s.setTile t y := by
  simp [State.setTile, State.setFab, Fabric.setTile]

@[simp] theorem State.updTile_updTile (s : State) (t : Nat) (f g : Tile → Tile) :
    (s.updTile t f).updTile t g = s.updTile t (fun x => g (f x)) := by
  simp [State.updTile]

@[simp] theorem State.setTile_part (s : State) (t p : Nat) (x : Tile) : (s.setTile t x).part p = s.part p := rfl
@[simp] theorem State.updTile_part (s : State) (t p : Nat) (g : Tile → Tile) : (s.updTile t g).part p = s.part p := rfl
@[simp] theorem State.setTile_mem (s : State) (t : Nat) (x : Tile) : (s.setTile t x).fab.mem = s.fab.mem := rfl
@[simp] theorem State.updTile_mem (s : State) (t : Nat) (g : Tile → Tile) : (s.updTile t g).fab.mem = s.fab.mem := rfl
@[simp] theorem State.setTile_pending (s : State) (t : Nat) (x : Tile) : (s.setTile t x).pending = s.pending := rfl
@[simp] theorem State.updTile_pending (s : State) (t : Nat) (g : Tile → Tile) : (s.updTile t g).pending = s.pending := rfl
@[simp] theorem State.setTile_fuse (s : State) (t : Nat) (x : Tile) : (s.setTile t x).fuse = s.fuse := rfl
@[simp] theorem State.updTile_fuse (s : State) (t : Nat) (g : Tile → Tile) : (s.updTile t g).fuse = s.fuse := rfl
@[simp] theorem State.setTile_pins (s : State) (t : Nat) (x : Tile) : (s.setTile t x).pins = s.pins := rfl
@[simp] theorem State.updTile_pins (s : State) (t : Nat) (g : Tile → Tile) : (s.updTile t g).pins = s.pins := rfl
@[simp] theorem State.setTile_pow (s : State) (t : Nat) (x : Tile) : (s.setTile t x).pow = s.pow := rfl
@[simp] theorem State.updTile_pow (s : State) (t : Nat) (g : Tile → Tile) : (s.updTile t g).pow = s.pow := rfl
@[simp] theorem State.setTile_link (s : State) (t : Nat) (x : Tile) : (s.setTile t x).link = s.link := rfl
@[simp] theorem State.updTile_link (s : State) (t : Nat) (g : Tile → Tile) : (s.updTile t g).link = s.link := rfl
@[simp] theorem State.setTile_out (s : State) (t : Nat) (x : Tile) : (s.setTile t x).out = s.out := rfl
@[simp] theorem State.updTile_out (s : State) (t : Nat) (g : Tile → Tile) : (s.updTile t g).out = s.out := rfl

@[simp] theorem State.setPart_part (s : State) (p : Nat) (x : Part) : (s.setPart p x).part p = x := by
  simp [State.setPart, State.setFab, Fabric.setPart, State.part]

theorem State.setPart_part_other (s : State) (p k : Nat) (x : Part) (h : k ≠ p) : (s.setPart p x).part k = s.part k := by
  simp [State.setPart, State.setFab, Fabric.setPart, State.part, tabGet_tabSet, Ne.symm h]

@[simp] theorem State.updPart_part (s : State) (p : Nat) (g : Part → Part) : (s.updPart p g).part p = g (s.part p) := by
  simp [State.updPart]

@[simp] theorem State.setPart_tile (s : State) (p t : Nat) (x : Part) : (s.setPart p x).tile t = s.tile t := rfl
@[simp] theorem State.updPart_tile (s : State) (p t : Nat) (g : Part → Part) : (s.updPart p g).tile t = s.tile t := rfl
@[simp] theorem State.setPart_mem (s : State) (p : Nat) (x : Part) : (s.setPart p x).fab.mem = s.fab.mem := rfl
@[simp] theorem State.updPart_mem (s : State) (p : Nat) (g : Part → Part) : (s.updPart p g).fab.mem = s.fab.mem := rfl
@[simp] theorem State.setPart_pending (s : State) (p : Nat) (x : Part) : (s.setPart p x).pending = s.pending := rfl
@[simp] theorem State.updPart_pending (s : State) (p : Nat) (g : Part → Part) : (s.updPart p g).pending = s.pending := rfl
@[simp] theorem State.setPart_fuse (s : State) (p : Nat) (x : Part) : (s.setPart p x).fuse = s.fuse := rfl
@[simp] theorem State.updPart_fuse (s : State) (p : Nat) (g : Part → Part) : (s.updPart p g).fuse = s.fuse := rfl

@[simp] theorem State.setModule_module (s : State) (m : Nat) (x : Module) : (s.setModule m x).module m = x := by
  simp [State.setModule, State.module, Link.module]

@[simp] theorem State.setModule_fab (s : State) (m : Nat) (x : Module) : (s.setModule m x).fab = s.fab := rfl
@[simp] theorem State.setModule_pending (s : State) (m : Nat) (x : Module) : (s.setModule m x).pending = s.pending := rfl
@[simp] theorem State.setModule_fuse (s : State) (m : Nat) (x : Module) : (s.setModule m x).fuse = s.fuse := rfl
@[simp] theorem State.raiseFault_fab (s : State) (b : Nat) : (s.raiseFault b).fab = s.fab := rfl
@[simp] theorem State.raiseFault_pending (s : State) (b : Nat) : (s.raiseFault b).pending = s.pending := rfl
@[simp] theorem State.raiseFault_fuse (s : State) (b : Nat) : (s.raiseFault b).fuse = s.fuse := rfl

@[simp] theorem Tile.setArr_arr (x : Tile) (k : Side) (a : Arr) : (x.setArr k a).arr k = a := by cases k <;> rfl
@[simp] theorem Tile.setQueue_queue (x : Tile) (q : Nat) (u : Queue) : (x.setQueue q u).queue q = u := by
  simp [Tile.setQueue, Tile.queue]

theorem Tile.setQueue_queue_other (x : Tile) (q k : Nat) (u : Queue) (h : k ≠ q) : (x.setQueue q u).queue k = x.queue k := by
  simp [Tile.setQueue, Tile.queue, tabGet_tabSet, Ne.symm h]

@[simp] theorem Tile.setSem_sem (x : Tile) (i : Nat) (m : Sem) : (x.setSem i m).sem i = m := by simp [Tile.setSem, Tile.sem]

theorem Tile.setSem_sem_other (x : Tile) (i k : Nat) (m : Sem) (h : k ≠ i) : (x.setSem i m).sem k = x.sem k := by
  simp [Tile.setSem, Tile.sem, tabGet_tabSet, Ne.symm h]

@[simp] theorem Tile.setQueue_seq (x : Tile) (q : Nat) (u : Queue) : (x.setQueue q u).seq = x.seq := rfl
@[simp] theorem Tile.setSem_seq (x : Tile) (i : Nat) (m : Sem) : (x.setSem i m).seq = x.seq := rfl
@[simp] theorem Tile.updSeq_seq (x : Tile) (g : Seq → Seq) : (x.updSeq g).seq = g x.seq := rfl

end Sys2Proof.Machine
end

