-- ==== Sys2Proof/Laws/Kept.lean ====
section
/-! SUPPORT. The shared operations that neither take a command, nor move a fuse, nor touch a byte of memory: one lemma each, three
rewrite rules. -/
namespace Sys2Proof.Machine

theorem foldl_keeps {α β : Type} (π : State → β) (f : State → α → State) (l : List α) (s : State) (h : ∀ s a, π (f s a) = π s) :
    π (l.foldl f s) = π s := by
  induction l generalizing s with
  | nil => rfl
  | cons a l ih => simp [ih, h]

@[simp] theorem foldl_pending {α : Type} (f : State → α → State) (l : List α) (s : State) (h : ∀ s a, (f s a).pending = s.pending) :
    (l.foldl f s).pending = s.pending := foldl_keeps (·.pending) f l s h

@[simp] theorem foldl_fuse {α : Type} (f : State → α → State) (l : List α) (s : State) (h : ∀ s a, (f s a).fuse = s.fuse) :
    (l.foldl f s).fuse = s.fuse := foldl_keeps (·.fuse) f l s h

@[simp] theorem foldl_mem {α : Type} (f : State → α → State) (l : List α) (s : State) (h : ∀ s a, (f s a).fab.mem = s.fab.mem) :
    (l.foldl f s).fab.mem = s.fab.mem := foldl_keeps (·.fab.mem) f l s h

/-- The gate of a step keeps what the step it lets through keeps. -/
theorem State.stepGate_keeps (s : State) (t : Nat) (sel : StepBody → Bool) (go : State → Part → ItinStep → State)
    (h : ∀ (q : Seq) p st, (go (s.updTile t (fun x => { x with seq := q })) p st).pending = s.pending ∧
      (go (s.updTile t (fun x => { x with seq := q })) p st).fuse = s.fuse ∧
      (go (s.updTile t (fun x => { x with seq := q })) p st).fab.mem = s.fab.mem) :
    (s.stepGate t sel go).pending = s.pending ∧ (s.stepGate t sel go).fuse = s.fuse ∧ (s.stepGate t sel go).fab.mem = s.fab.mem := by
  unfold State.stepGate
  dsimp only
  repeat' split
  all_goals first | exact h _ _ _ | exact ⟨rfl, rfl, rfl⟩

@[simp] theorem State.emit_keeps (s : State) (src dest ch n : Nat) (tag : Option Nat) (msg : Sent) :
    (s.emit src dest ch n tag msg).1.pending = s.pending ∧ (s.emit src dest ch n tag msg).1.fuse = s.fuse ∧ (s.emit src dest ch n tag msg).1.fab.mem = s.fab.mem := by simp only [State.emit]; (repeat' split) <;> simp

@[simp] theorem State.trySend_keeps (s : State) (w : Waiting) :
    (s.trySend w).pending = s.pending ∧ (s.trySend w).fuse = s.fuse ∧ (s.trySend w).fab.mem = s.fab.mem := by simp only [State.trySend]; (repeat' split) <;> simp

@[simp] theorem State.flushWaiting_keeps (s : State) :
    (s.flushWaiting).pending = s.pending ∧ (s.flushWaiting).fuse = s.fuse ∧ (s.flushWaiting).fab.mem = s.fab.mem := by simp [State.flushWaiting]

@[simp] theorem State.send_keeps (s : State) (src dest ch flits : Nat) (msg : Sent) :
    (s.send src dest ch flits msg).pending = s.pending ∧ (s.send src dest ch flits msg).fuse = s.fuse ∧ (s.send src dest ch flits msg).fab.mem = s.fab.mem := by simp [State.send]

@[simp] theorem State.flushNotices_keeps (n : Nat) (s : State) :
    (State.flushNotices n s).pending = s.pending ∧ (State.flushNotices n s).fuse = s.fuse ∧ (State.flushNotices n s).fab.mem = s.fab.mem := by
  induction n generalizing s with
  | zero => exact ⟨rfl, rfl, rfl⟩
  | succ n ih =>
    unfold State.flushNotices
    split
    · exact ⟨rfl, rfl, rfl⟩
    · rename_i x xs _
      have h := State.emit_keeps s stewardTile 64 2 1 none (noticeSent x)
      dsimp only
      split
      · exact ⟨(ih _).1.trans h.1, (ih _).2.1.trans h.2.1, (ih _).2.2.trans h.2.2⟩
      · exact ⟨rfl, rfl, rfl⟩

@[simp] theorem State.notice_keeps (s : State) (aux : Nat) (payload : List Byte) :
    (s.notice aux payload).pending = s.pending ∧ (s.notice aux payload).fuse = s.fuse ∧ (s.notice aux payload).fab.mem = s.fab.mem := by simp [State.notice]

@[simp] theorem State.raiseFault_keeps (s : State) (bit : Nat) :
    (s.raiseFault bit).pending = s.pending ∧ (s.raiseFault bit).fuse = s.fuse ∧ (s.raiseFault bit).fab.mem = s.fab.mem := by simp [State.raiseFault]

@[simp] theorem State.health_keeps (s : State) (code detail : Nat) :
    (s.health code detail).pending = s.pending ∧ (s.health code detail).fuse = s.fuse ∧ (s.health code detail).fab.mem = s.fab.mem := by simp [State.health]

@[simp] theorem State.closeHealth_keeps (s : State) :
    (s.closeHealth).pending = s.pending ∧ (s.closeHealth).fuse = s.fuse ∧ (s.closeHealth).fab.mem = s.fab.mem := by simp [State.closeHealth]

@[simp] theorem State.applySem_keeps (s : State) (m : SemMsg) :
    (s.applySem m).pending = s.pending ∧ (s.applySem m).fuse = s.fuse ∧ (s.applySem m).fab.mem = s.fab.mem := by simp only [State.applySem]; (repeat' split) <;> simp

@[simp] theorem State.sendSem_keeps (s : State) (t : Nat) (m : SemMsg) :
    (s.sendSem t m).pending = s.pending ∧ (s.sendSem t m).fuse = s.fuse ∧ (s.sendSem t m).fab.mem = s.fab.mem := by simp only [State.sendSem]; (repeat' split) <;> simp

@[simp] theorem State.sendOrHold_keeps (s : State) (t : Nat) (w : Wire) (m : SemMsg) :
    (s.sendOrHold t w m).pending = s.pending ∧ (s.sendOrHold t w m).fuse = s.fuse ∧ (s.sendOrHold t w m).fab.mem = s.fab.mem := by simp only [State.sendOrHold]; (repeat' split) <;> simp

@[simp] theorem State.signalWire_keeps (s : State) (t : Nat) (p : Nat) (w : Wire) :
    (s.signalWire t p w).pending = s.pending ∧ (s.signalWire t p w).fuse = s.fuse ∧ (s.signalWire t p w).fab.mem = s.fab.mem := by
  refine ⟨?_, ?_, ?_⟩ <;> (unfold State.signalWire; repeat' (first | rfl | (simp; done) | split | (apply foldl_pending; intro _ _) | (apply foldl_fuse; intro _ _) | (apply foldl_mem; intro _ _) | simp))

@[simp] theorem State.releaseWire_keeps (s : State) (t : Nat) (p : Nat) (w : Wire) :
    (s.releaseWire t p w).pending = s.pending ∧ (s.releaseWire t p w).fuse = s.fuse ∧ (s.releaseWire t p w).fab.mem = s.fab.mem := by simp only [State.releaseWire]; (repeat' split) <;> simp

@[simp] theorem State.makeLink_keeps (s : State) (t link : Nat) :
    (s.makeLink t link).pending = s.pending ∧ (s.makeLink t link).fuse = s.fuse ∧ (s.makeLink t link).fab.mem = s.fab.mem := by simp only [State.makeLink]; (repeat' split) <;> simp

@[simp] theorem State.sendHeld_keeps (s : State) (tiles : List Nat) :
    (s.sendHeld tiles).pending = s.pending ∧ (s.sendHeld tiles).fuse = s.fuse ∧ (s.sendHeld tiles).fab.mem = s.fab.mem := by simp [State.sendHeld]

@[simp] theorem State.skipStep_keeps (s : State) (t : Nat) (p : Part) (st : ItinStep) :
    (s.skipStep t p st).pending = s.pending ∧ (s.skipStep t p st).fuse = s.fuse ∧ (s.skipStep t p st).fab.mem = s.fab.mem := by simp [State.skipStep]

@[simp] theorem State.farFault_keeps (s : State) (t q pn cause page : Nat) :
    (s.farFault t q pn cause page).pending = s.pending ∧ (s.farFault t q pn cause page).fuse = s.fuse ∧ (s.farFault t q pn cause page).fab.mem = s.fab.mem := by simp [State.farFault]

@[simp] theorem State.engineTake_keeps (s : State) (t : Nat) :
    (s.engineTake t).pending = s.pending ∧ (s.engineTake t).fuse = s.fuse ∧ (s.engineTake t).fab.mem = s.fab.mem := by simp only [State.engineTake]; (repeat' split) <;> simp

@[simp] theorem State.engineNext_keeps (s : State) (t : Nat) :
    (s.engineNext t).pending = s.pending ∧ (s.engineNext t).fuse = s.fuse ∧ (s.engineNext t).fab.mem = s.fab.mem := by simp [State.engineNext]

@[simp] theorem State.engineStep_keeps (s : State) (t : Nat) (sel : StepBody → Bool) :
    (s.engineStep t sel).pending = s.pending ∧ (s.engineStep t sel).fuse = s.fuse ∧ (s.engineStep t sel).fab.mem = s.fab.mem := by
  refine State.stepGate_keeps _ _ _ _ (fun q p st => ?_)
  dsimp only
  split
  · exact ⟨rfl, rfl, rfl⟩
  · exact State.engineNext_keeps _ _

@[simp] theorem State.finishRuns_keeps (s : State) (runs : List (Nat × Nat)) :
    (s.finishRuns runs).pending = s.pending ∧ (s.finishRuns runs).fuse = s.fuse ∧ (s.finishRuns runs).fab.mem = s.fab.mem := by
  refine ⟨?_, ?_, ?_⟩ <;> (unfold State.finishRuns; repeat' (first | rfl | (simp; done) | split | (apply foldl_pending; intro _ _) | (apply foldl_fuse; intro _ _) | (apply foldl_mem; intro _ _) | simp))

@[simp] theorem State.placeJob_keeps (s : State) (t : Nat) (x : Side) (job : Job) :
    (s.placeJob t x job).pending = s.pending ∧ (s.placeJob t x job).fuse = s.fuse ∧ (s.placeJob t x job).fab.mem = s.fab.mem := by
  refine ⟨?_, ?_, ?_⟩ <;> (unfold State.placeJob; repeat' (first | rfl | (simp; done) | split | (apply foldl_pending; intro _ _) | (apply foldl_fuse; intro _ _) | (apply foldl_mem; intro _ _) | simp))

@[simp] theorem State.restArrays_keeps (s : State) (ts : List Nat) (x : Side) :
    (s.restArrays ts x).pending = s.pending ∧ (s.restArrays ts x).fuse = s.fuse ∧ (s.restArrays ts x).fab.mem = s.fab.mem := by
  refine ⟨?_, ?_, ?_⟩ <;> (unfold State.restArrays; repeat' (first | rfl | (simp; done) | split | (apply foldl_pending; intro _ _) | (apply foldl_fuse; intro _ _) | (apply foldl_mem; intro _ _) | simp))

@[simp] theorem State.loadTap_keeps (s : State) (x : Side) (job : Job) (n : Nat) :
    (s.loadTap x job n).pending = s.pending ∧ (s.loadTap x job n).fuse = s.fuse ∧ (s.loadTap x job n).fab.mem = s.fab.mem := by
  refine ⟨?_, ?_, ?_⟩ <;> (unfold State.loadTap; repeat' (first | rfl | (simp; done) | split | (apply foldl_pending; intro _ _) | (apply foldl_fuse; intro _ _) | (apply foldl_mem; intro _ _) | simp))

@[simp] theorem State.front_keeps (s : State) (t : Nat) (x : Side) (kind : LoadKind) :
    (s.front t x kind).pending = s.pending ∧ (s.front t x kind).fuse = s.fuse ∧ (s.front t x kind).fab.mem = s.fab.mem := by simp only [State.front]; (repeat' split) <;> simp

@[simp] theorem State.zeroWire_keeps (s : State) (w : Wire) :
    (s.zeroWire w).pending = s.pending ∧ (s.zeroWire w).fuse = s.fuse ∧ (s.zeroWire w).fab.mem = s.fab.mem := by
  refine ⟨?_, ?_, ?_⟩ <;> (unfold State.zeroWire; repeat' (first | rfl | (simp; done) | split | (apply foldl_pending; intro _ _) | (apply foldl_fuse; intro _ _) | (apply foldl_mem; intro _ _) | simp))

@[simp] theorem State.initWire_keeps (s : State) (w : Wire) :
    (s.initWire w).pending = s.pending ∧ (s.initWire w).fuse = s.fuse ∧ (s.initWire w).fab.mem = s.fab.mem := by simp only [State.initWire]; (repeat' split) <;> simp

@[simp] theorem State.loadWires_keeps (s : State) (ws : List Wire) :
    (s.loadWires ws).pending = s.pending ∧ (s.loadWires ws).fuse = s.fuse ∧ (s.loadWires ws).fab.mem = s.fab.mem := by simp [State.loadWires]

@[simp] theorem State.resetLocal_keeps (s : State) (p : Nat) :
    (s.resetLocal p).pending = s.pending ∧ (s.resetLocal p).fuse = s.fuse ∧ (s.resetLocal p).fab.mem = s.fab.mem := by
  refine ⟨?_, ?_, ?_⟩ <;> (unfold State.resetLocal; dsimp only)
  · exact (foldl_pending _ _ _ (by intro _ _; rfl)).trans (State.loadWires_keeps s _).1
  · exact (foldl_fuse _ _ _ (by intro _ _; rfl)).trans (State.loadWires_keeps s _).2.1
  · exact (foldl_mem _ _ _ (by intro _ _; rfl)).trans (State.loadWires_keeps s _).2.2

@[simp] theorem State.passReport_keeps (s : State) (t : Nat) :
    (s.passReport t).pending = s.pending ∧ (s.passReport t).fuse = s.fuse ∧ (s.passReport t).fab.mem = s.fab.mem := by simp only [State.passReport]; (repeat' split) <;> simp

@[simp] theorem State.passReportStep_keeps (s : State) (t : Nat) (sel : StepBody → Bool) :
    (s.passReportStep t sel).pending = s.pending ∧ (s.passReportStep t sel).fuse = s.fuse ∧ (s.passReportStep t sel).fab.mem = s.fab.mem := by simp only [State.passReportStep]; (repeat' split) <;> simp

@[simp] theorem State.reportStep_keeps (s : State) (t : Nat) (sel : StepBody → Bool) :
    (s.reportStep t sel).pending = s.pending ∧ (s.reportStep t sel).fuse = s.fuse ∧ (s.reportStep t sel).fab.mem = s.fab.mem := by
  unfold State.reportStep
  split
  · exact s.passReportStep_keeps t sel
  · refine State.stepGate_keeps _ _ _ _ (fun q p st => ?_)
    dsimp only
    split
    · exact ⟨rfl, rfl, rfl⟩
    · exact State.passReport_keeps _ _

@[simp] theorem State.doorbell_keeps (s : State) (p tail : Nat) :
    (s.doorbell p tail).pending = s.pending ∧ (s.doorbell p tail).fuse = s.fuse ∧ (s.doorbell p tail).fab.mem = s.fab.mem := by simp only [State.doorbell]; (repeat' split) <;> simp

@[simp] theorem State.recordFault_keeps (s : State) (b : LedgerBody) :
    (s.recordFault b).pending = s.pending ∧ (s.recordFault b).fuse = s.fuse ∧ (s.recordFault b).fab.mem = s.fab.mem := by simp only [State.recordFault]; (repeat' split) <;> simp

@[simp] theorem State.addLoss_keeps (s : State) (t : Nat) (whole : Bool) (word : Nat) :
    (s.addLoss t whole word).pending = s.pending ∧ (s.addLoss t whole word).fuse = s.fuse ∧ (s.addLoss t whole word).fab.mem = s.fab.mem := by simp [State.addLoss]

@[simp] theorem State.unusable_keeps (s : State) (t : Nat) :
    (s.unusable t).pending = s.pending ∧ (s.unusable t).fuse = s.fuse ∧ (s.unusable t).fab.mem = s.fab.mem := by simp [State.unusable]

@[simp] theorem State.rePll_keeps (s : State) :
    (s.rePll).pending = s.pending ∧ (s.rePll).fuse = s.fuse ∧ (s.rePll).fab.mem = s.fab.mem := by simp [State.rePll]

@[simp] theorem State.dropJobs_keeps (s : State) (t : Nat) :
    (s.dropJobs t).pending = s.pending ∧ (s.dropJobs t).fuse = s.fuse ∧ (s.dropJobs t).fab.mem = s.fab.mem := by simp [State.dropJobs]

@[simp] theorem State.disableTile_keeps (s : State) (t : Nat) :
    (s.disableTile t).pending = s.pending ∧ (s.disableTile t).fuse = s.fuse ∧ (s.disableTile t).fab.mem = s.fab.mem := by simp only [State.disableTile]; (repeat' split) <;> simp

@[simp] theorem State.disableAll_keeps (s : State) (ts : List Nat) :
    (s.disableAll ts).pending = s.pending ∧ (s.disableAll ts).fuse = s.fuse ∧ (s.disableAll ts).fab.mem = s.fab.mem := by simp [State.disableAll]

@[simp] theorem State.killPartition_keeps (s : State) (p : Nat) (comp : Option Comp) (ofLoad all : Bool) :
    (s.killPartition p comp ofLoad all).pending = s.pending ∧ (s.killPartition p comp ofLoad all).fuse = s.fuse ∧ (s.killPartition p comp ofLoad all).fab.mem = s.fab.mem := by
  have h : ∀ (s : State) (l : List Nat), (l.foldl (fun s t => s.updTile t Tile.killed) s).pending = s.pending ∧
      (l.foldl (fun s t => s.updTile t Tile.killed) s).fuse = s.fuse ∧ (l.foldl (fun s t => s.updTile t Tile.killed) s).fab.mem = s.fab.mem :=
    fun s l => ⟨foldl_pending _ l s (fun _ _ => rfl), foldl_fuse _ l s (fun _ _ => rfl), foldl_mem _ l s (fun _ _ => rfl)⟩
  simp [State.killPartition, -List.foldl_append, h]

@[simp] theorem State.impair_keeps (s : State) (p t : Nat) (x : Side) :
    (s.impair p t x).pending = s.pending ∧ (s.impair p t x).fuse = s.fuse ∧ (s.impair p t x).fab.mem = s.fab.mem := by
  refine ⟨?_, ?_, ?_⟩ <;> (unfold State.impair; repeat' (first | rfl | (simp; done) | split | (apply foldl_pending; intro _ _) | (apply foldl_fuse; intro _ _) | (apply foldl_mem; intro _ _) | simp))

@[simp] theorem State.recovered_keeps (s : State) (t p : Nat) :
    (s.recovered t p).pending = s.pending ∧ (s.recovered t p).fuse = s.fuse ∧ (s.recovered t p).fab.mem = s.fab.mem := by simp [State.recovered]

@[simp] theorem State.partitionLost_keeps (s : State) (p : Nat) :
    (s.partitionLost p).pending = s.pending ∧ (s.partitionLost p).fuse = s.fuse ∧ (s.partitionLost p).fab.mem = s.fab.mem := by simp [State.partitionLost]

@[simp] theorem State.moveSem_keeps (s : State) (t u i : Nat) :
    (s.moveSem t u i).pending = s.pending ∧ (s.moveSem t u i).fuse = s.fuse ∧ (s.moveSem t u i).fab.mem = s.fab.mem := by simp only [State.moveSem]; (repeat' split) <;> simp

@[simp] theorem State.moveWires_keeps (s : State) (t : Nat) :
    (s.moveWires t).pending = s.pending ∧ (s.moveWires t).fuse = s.fuse ∧ (s.moveWires t).fab.mem = s.fab.mem := by
  refine ⟨?_, ?_, ?_⟩ <;> (unfold State.moveWires; dsimp only)
  · exact (foldl_pending _ _ _ (by intro _ _; rfl)).trans (foldl_pending _ _ _ (by intro _ _; exact (State.moveSem_keeps _ _ _ _).1))
  · exact (foldl_fuse _ _ _ (by intro _ _; rfl)).trans (foldl_fuse _ _ _ (by intro _ _; exact (State.moveSem_keeps _ _ _ _).2.1))
  · exact (foldl_mem _ _ _ (by intro _ _; rfl)).trans (foldl_mem _ _ _ (by intro _ _; exact (State.moveSem_keeps _ _ _ _).2.2))

@[simp] theorem State.beginRecovery_keeps (s : State) (p : Nat) (ts : List Nat) :
    (s.beginRecovery p ts).pending = s.pending ∧ (s.beginRecovery p ts).fuse = s.fuse ∧ (s.beginRecovery p ts).fab.mem = s.fab.mem := by simp only [State.beginRecovery]; (repeat' split) <;> simp

@[simp] theorem State.suspectSide_keeps (s : State) (t : Nat) (x : Side) :
    (s.suspectSide t x).pending = s.pending ∧ (s.suspectSide t x).fuse = s.fuse ∧ (s.suspectSide t x).fab.mem = s.fab.mem := by
  refine ⟨?_, ?_, ?_⟩ <;> (unfold State.suspectSide; repeat' (first | rfl | (simp; done) | split | (apply foldl_pending; intro _ _) | (apply foldl_fuse; intro _ _) | (apply foldl_mem; intro _ _) | simp))

@[simp] theorem State.addDetour_keeps (s : State) (t : Nat) (x : Side) (c : Nat) :
    (s.addDetour t x c).pending = s.pending ∧ (s.addDetour t x c).fuse = s.fuse ∧ (s.addDetour t x c).fab.mem = s.fab.mem := by simp only [State.addDetour]; (repeat' split) <;> simp

@[simp] theorem State.stopLink_keeps (s : State) (t u d : Nat) (stop : Bool) :
    (s.stopLink t u d stop).pending = s.pending ∧ (s.stopLink t u d stop).fuse = s.fuse ∧ (s.stopLink t u d stop).fab.mem = s.fab.mem := by simp [State.stopLink]

@[simp] theorem State.impairAcross_keeps (s : State) (p t u : Nat) :
    (s.impairAcross p t u).pending = s.pending ∧ (s.impairAcross p t u).fuse = s.fuse ∧ (s.impairAcross p t u).fab.mem = s.fab.mem := by
  refine ⟨?_, ?_, ?_⟩ <;> (unfold State.impairAcross; repeat' (first | rfl | (simp; done) | split | (apply foldl_pending; intro _ _) | (apply foldl_fuse; intro _ _) | (apply foldl_mem; intro _ _) | simp))

@[simp] theorem State.routeLoss_keeps (s : State) (key : Nat) :
    (s.routeLoss key).pending = s.pending ∧ (s.routeLoss key).fuse = s.fuse ∧ (s.routeLoss key).fab.mem = s.fab.mem := by
  refine ⟨?_, ?_, ?_⟩ <;> (unfold State.routeLoss; repeat' (first | rfl | (simp; done) | split | (apply foldl_pending; intro _ _) | (apply foldl_fuse; intro _ _) | (apply foldl_mem; intro _ _) | simp))

@[simp] theorem State.checkCodeword_keeps (s : State) (t w errors : Nat) :
    (s.checkCodeword t w errors).pending = s.pending ∧ (s.checkCodeword t w errors).fuse = s.fuse ∧ (s.checkCodeword t w errors).fab.mem = s.fab.mem := by simp only [State.checkCodeword]; (repeat' split) <;> simp

@[simp] theorem State.refresh_keeps (s : State) (t : Nat) :
    (s.refresh t).pending = s.pending ∧ (s.refresh t).fuse = s.fuse ∧ (s.refresh t).fab.mem = s.fab.mem := by simp [State.refresh]

@[simp] theorem State.stopClocks_keeps (s : State) (c : StopCause) :
    (s.stopClocks c).pending = s.pending ∧ (s.stopClocks c).fuse = s.fuse ∧ (s.stopClocks c).fab.mem = s.fab.mem := by simp [State.stopClocks]

@[simp] theorem State.thermal_keeps (s : State) (kind : Nat) (compute holeile : List (Option Int)) (c : Int) :
    (s.thermal kind compute holeile c).pending = s.pending ∧ (s.thermal kind compute holeile c).fuse = s.fuse ∧ (s.thermal kind compute holeile c).fab.mem = s.fab.mem := by simp [State.thermal]

@[simp] theorem State.thermalShed_keeps (s : State) (compute holeile : List (Option Int)) :
    (s.thermalShed compute holeile).pending = s.pending ∧ (s.thermalShed compute holeile).fuse = s.fuse ∧ (s.thermalShed compute holeile).fab.mem = s.fab.mem := by simp only [State.thermalShed]; (repeat' split) <;> simp

@[simp] theorem State.thermalLoss_keeps (s : State) (holeile : List (Option Int)) :
    (s.thermalLoss holeile).pending = s.pending ∧ (s.thermalLoss holeile).fuse = s.fuse ∧ (s.thermalLoss holeile).fab.mem = s.fab.mem := by
  refine ⟨?_, ?_, ?_⟩ <;> (unfold State.thermalLoss; repeat' (first | rfl | (simp; done) | split | (apply foldl_pending; intro _ _) | (apply foldl_fuse; intro _ _) | (apply foldl_mem; intro _ _) | simp))

@[simp] theorem State.ceRates_keeps (s : State) :
    (s.ceRates).pending = s.pending ∧ (s.ceRates).fuse = s.fuse ∧ (s.ceRates).fab.mem = s.fab.mem := by
  refine ⟨?_, ?_, ?_⟩ <;> (unfold State.ceRates; repeat' (first | rfl | (simp; done) | split | (apply foldl_pending; intro _ _) | (apply foldl_fuse; intro _ _) | (apply foldl_mem; intro _ _) | simp))

@[simp] theorem State.killEverything_keeps (s : State) (all : Bool) :
    (s.killEverything all).pending = s.pending ∧ (s.killEverything all).fuse = s.fuse ∧ (s.killEverything all).fab.mem = s.fab.mem := by
  refine ⟨?_, ?_, ?_⟩ <;> (unfold State.killEverything; repeat' (first | rfl | (simp; done) | split | (apply foldl_pending; intro _ _) | (apply foldl_fuse; intro _ _) | (apply foldl_mem; intro _ _) | simp))

@[simp] theorem State.loadMessage_keeps (s : State)  :
    (s.loadMessage).pending = s.pending ∧ (s.loadMessage).fuse = s.fuse ∧ (s.loadMessage).fab.mem = s.fab.mem := by simp [State.loadMessage]

@[simp] theorem State.endLoad_keeps (s : State) (code : Nat) :
    (s.endLoad code).pending = s.pending ∧ (s.endLoad code).fuse = s.fuse ∧ (s.endLoad code).fab.mem = s.fab.mem := by simp only [State.endLoad]; (repeat' split) <;> simp

@[simp] theorem State.retrainModules_keeps (s : State) :
    (s.retrainModules).pending = s.pending ∧ (s.retrainModules).fuse = s.fuse ∧ (s.retrainModules).fab.mem = s.fab.mem := by simp [State.retrainModules]

@[simp] theorem State.stop_keeps (s : State) (cause : Nat) :
    (s.stop cause).pending = s.pending ∧ (s.stop cause).fuse = s.fuse ∧ (s.stop cause).fab.mem = s.fab.mem := by simp [State.stop]

@[simp] theorem State.replayLedger_keeps (s : State) (answers : Bool) :
    (s.replayLedger answers).pending = s.pending ∧ (s.replayLedger answers).fuse = s.fuse ∧ (s.replayLedger answers).fab.mem = s.fab.mem := by simp only [State.replayLedger]; (repeat' split) <;> simp

@[simp] theorem State.bootStep_keeps (s : State) :
    (s.bootStep).pending = s.pending ∧ (s.bootStep).fuse = s.fuse ∧ (s.bootStep).fab.mem = s.fab.mem := by simp only [State.bootStep]; (repeat' split) <;> simp

@[simp] theorem State.failLoad_keeps (s : State) (code sectionIx : Nat) :
    (s.failLoad code sectionIx).pending = s.pending ∧ (s.failLoad code sectionIx).fuse = s.fuse ∧ (s.failLoad code sectionIx).fab.mem = s.fab.mem := by simp [State.failLoad]

@[simp] theorem State.beginLoad_keeps (s : State) (handle length : Nat) (cached : Bool) (image : Option (List Byte)) (missing : Nat) :
    (s.beginLoad handle length cached image missing).pending = s.pending ∧ (s.beginLoad handle length cached image missing).fuse = s.fuse ∧ (s.beginLoad handle length cached image missing).fab.mem = s.fab.mem := by
  unfold State.beginLoad
  dsimp only
  split
  · exact State.failLoad_keeps _ _ _
  · split
    · exact State.failLoad_keeps _ _ _
    · exact ⟨rfl, rfl, rfl⟩

@[simp] theorem State.cacheImage_keeps (s : State) (l : Load) :
    (s.cacheImage l).pending = s.pending ∧ (s.cacheImage l).fuse = s.fuse ∧ (s.cacheImage l).fab.mem = s.fab.mem := by simp only [State.cacheImage]; (repeat' split) <;> simp

@[simp] theorem State.finishLoad_keeps (s : State) :
    (s.finishLoad).pending = s.pending ∧ (s.finishLoad).fuse = s.fuse ∧ (s.finishLoad).fab.mem = s.fab.mem := by simp only [State.finishLoad]; (repeat' split) <;> simp

@[simp] theorem State.beginRebind_keeps (s : State) (mode : Nat → Nat) (e : Rebind) :
    (s.beginRebind mode e).pending = s.pending ∧ (s.beginRebind mode e).fuse = s.fuse ∧ (s.beginRebind mode e).fab.mem = s.fab.mem := by simp only [State.beginRebind]; (repeat' split) <;> simp

@[simp] theorem State.setRebind_keeps (s : State) (p : Nat) (g : Rebind → Rebind) :
    (s.setRebind p g).pending = s.pending ∧ (s.setRebind p g).fuse = s.fuse ∧ (s.setRebind p g).fab.mem = s.fab.mem := by simp [State.setRebind]

@[simp] theorem State.addStretch_keeps (s : State) (e : Rebind) (change max : Nat) :
    (s.addStretch e change max).pending = s.pending ∧ (s.addStretch e change max).fuse = s.fuse ∧ (s.addStretch e change max).fab.mem = s.fab.mem := by simp only [State.addStretch]; (repeat' split) <;> simp

@[simp] theorem State.leaveUnbound_keeps (s : State) (e : Rebind) :
    (s.leaveUnbound e).pending = s.pending ∧ (s.leaveUnbound e).fuse = s.fuse ∧ (s.leaveUnbound e).fab.mem = s.fab.mem := by
  refine ⟨?_, ?_, ?_⟩ <;> (unfold State.leaveUnbound; repeat' (first | rfl | (simp; done) | split | (apply foldl_pending; intro _ _) | (apply foldl_fuse; intro _ _) | (apply foldl_mem; intro _ _) | simp))

@[simp] theorem State.failPartition_keeps (s : State) (p code ix : Nat) :
    (s.failPartition p code ix).pending = s.pending ∧ (s.failPartition p code ix).fuse = s.fuse ∧ (s.failPartition p code ix).fab.mem = s.fab.mem := by simp [State.failPartition]

@[simp] theorem State.pumpImage_keeps (n : Nat) (s : State) :
    (State.pumpImage n s).pending = s.pending ∧ (State.pumpImage n s).fuse = s.fuse ∧ (State.pumpImage n s).fab.mem = s.fab.mem := by
  induction n generalizing s with
  | zero => exact ⟨rfl, rfl, rfl⟩
  | succ n ih =>
    unfold State.pumpImage
    split
    · exact ⟨rfl, rfl, rfl⟩
    · rename_i l _
      split
      · exact ⟨rfl, rfl, rfl⟩
      · rename_i r _ _
        have h := State.emit_keeps s stewardTile 64 2 1 (some s.link.freshTag) (.imageRead s.link.freshTag l.handle r.offset r.len)
        dsimp only
        split
        · exact ⟨rfl, rfl, rfl⟩
        · exact ⟨(ih _).1.trans h.1, (ih _).2.1.trans h.2.1, (ih _).2.2.trans h.2.2⟩

@[simp] theorem State.secondPass_keeps (s : State) (p : Nat) :
    (s.secondPass p).pending = s.pending ∧ (s.secondPass p).fuse = s.fuse ∧ (s.secondPass p).fab.mem = s.fab.mem := by simp only [State.secondPass]; (repeat' split) <;> simp

@[simp] theorem State.failPad_keeps (s : State) (t : Nat) :
    (s.failPad t).pending = s.pending ∧ (s.failPad t).fuse = s.fuse ∧ (s.failPad t).fab.mem = s.fab.mem := by simp [State.failPad]

@[simp] theorem State.abandon_keeps (s : State) (p code ix : Nat) :
    (s.abandon p code ix).pending = s.pending ∧ (s.abandon p code ix).fuse = s.fuse ∧ (s.abandon p code ix).fab.mem = s.fab.mem := by simp [State.abandon]

@[simp] theorem State.seEnd_keeps (s : State) (result : Nat) (bs : List Byte) :
    (s.seEnd result bs).pending = s.pending ∧ (s.seEnd result bs).fuse = s.fuse ∧ (s.seEnd result bs).fab.mem = s.fab.mem := by simp [State.seEnd]

@[simp] theorem State.spend_keeps (s : State) (pl : List Byte) :
    (s.spend pl).pending = s.pending ∧ (s.spend pl).fuse = s.fuse ∧ (s.spend pl).fab.mem = s.fab.mem := by simp only [State.spend]; (repeat' split) <;> simp

@[simp] theorem State.spdmSend_keeps (s : State) (via : Via) (body : List Byte) :
    (s.spdmSend via body).pending = s.pending ∧ (s.spdmSend via body).fuse = s.fuse ∧ (s.spdmSend via body).fab.mem = s.fab.mem := by simp only [State.spdmSend]; (repeat' split) <;> simp

@[simp] theorem State.keyedAnswer_keeps (s : State) (via : Via) (body : List Byte → List Byte) :
    (s.keyedAnswer via body).pending = s.pending ∧ (s.keyedAnswer via body).fuse = s.fuse ∧ (s.keyedAnswer via body).fab.mem = s.fab.mem := by
  simp only [State.keyedAnswer, State.spdmAnswer]
  split
  · exact ⟨rfl, rfl, rfl⟩
  · simp

@[simp] theorem State.updModule_keeps (s : State) (m : Nat) (g : Module → Module) :
    (s.updModule m g).pending = s.pending ∧ (s.updModule m g).fuse = s.fuse ∧ (s.updModule m g).fab.mem = s.fab.mem := by simp [State.updModule]

@[simp] theorem State.countUndef_keeps (s : State) :
    (s.countUndef).pending = s.pending ∧ (s.countUndef).fuse = s.fuse ∧ (s.countUndef).fab.mem = s.fab.mem := by simp [State.countUndef]

@[simp] theorem State.countTarget_keeps (s : State) :
    (s.countTarget).pending = s.pending ∧ (s.countTarget).fuse = s.fuse ∧ (s.countTarget).fab.mem = s.fab.mem := by simp [State.countTarget]

@[simp] theorem State.countAtomic_keeps (s : State) :
    (s.countAtomic).pending = s.pending ∧ (s.countAtomic).fuse = s.fuse ∧ (s.countAtomic).fab.mem = s.fab.mem := by simp [State.countAtomic]

@[simp] theorem State.countLate_keeps (s : State) :
    (s.countLate).pending = s.pending ∧ (s.countLate).fuse = s.fuse ∧ (s.countLate).fab.mem = s.fab.mem := by simp [State.countLate]

@[simp] theorem State.pump_keeps (s : State) :
    (s.pump).pending = s.pending ∧ (s.pump).fuse = s.fuse ∧ (s.pump).fab.mem = s.fab.mem := by simp [State.pump]

@[simp] theorem State.refuseFlit_keeps (s : State) (m : Nat) :
    (s.refuseFlit m).pending = s.pending ∧ (s.refuseFlit m).fuse = s.fuse ∧ (s.refuseFlit m).fab.mem = s.fab.mem := by simp only [State.refuseFlit]; (repeat' split) <;> simp

@[simp] theorem State.controlAccess_keeps (s : State) (flit : List Byte) :
    (s.controlAccess flit).pending = s.pending ∧ (s.controlAccess flit).fuse = s.fuse ∧ (s.controlAccess flit).fab.mem = s.fab.mem := by simp only [State.controlAccess]; (repeat' split) <;> simp

@[simp] theorem State.acceptHead_keeps (s : State) (flit : List Byte) :
    (s.acceptHead flit).pending = s.pending ∧ (s.acceptHead flit).fuse = s.fuse ∧ (s.acceptHead flit).fab.mem = s.fab.mem := by simp only [State.acceptHead]; (repeat' split) <;> simp

@[simp] theorem State.acceptFlit_keeps (s : State) (flit : List Byte) :
    (s.acceptFlit flit).pending = s.pending ∧ (s.acceptFlit flit).fuse = s.fuse ∧ (s.acceptFlit flit).fab.mem = s.fab.mem := by simp only [State.acceptFlit]; (repeat' split) <;> simp

@[simp] theorem State.resendAll_keeps (s : State) (m : Nat) :
    (s.resendAll m).pending = s.pending ∧ (s.resendAll m).fuse = s.fuse ∧ (s.resendAll m).fab.mem = s.fab.mem := by simp only [State.resendAll]; (repeat' split) <;> simp

@[simp] theorem State.endTag_keeps (s : State) (tag status : Nat) (data : List Byte) :
    (s.endTag tag status data).pending = s.pending ∧ (s.endTag tag status data).fuse = s.fuse ∧ (s.endTag tag status data).fab.mem = s.fab.mem := by simp only [State.endTag]; (repeat' split) <;> simp

@[simp] theorem State.loseAtomic_keeps (s : State) (t : Nat) :
    (s.loseAtomic t).pending = s.pending ∧ (s.loseAtomic t).fuse = s.fuse ∧ (s.loseAtomic t).fab.mem = s.fab.mem := by simp [State.loseAtomic]

@[simp] theorem State.wireLost_keeps (s : State) (m p : Nat) (w : Wire) :
    (s.wireLost m p w).pending = s.pending ∧ (s.wireLost m p w).fuse = s.fuse ∧ (s.wireLost m p w).fab.mem = s.fab.mem := by
  refine ⟨?_, ?_, ?_⟩ <;> (unfold State.wireLost; repeat' (first | rfl | (simp; done) | split | (apply foldl_pending; intro _ _) | (apply foldl_fuse; intro _ _) | (apply foldl_mem; intro _ _) | simp))

@[simp] theorem State.moduleDown_keeps (s : State) (m : Nat) :
    (s.moduleDown m).pending = s.pending ∧ (s.moduleDown m).fuse = s.fuse ∧ (s.moduleDown m).fab.mem = s.fab.mem := by simp [State.moduleDown]

@[simp] theorem State.answer_keeps (s : State) (h : MsgHead) (t sub status : Nat) (data : List Byte) :
    (s.answer h t sub status data).pending = s.pending ∧ (s.answer h t sub status data).fuse = s.fuse ∧ (s.answer h t sub status data).fab.mem = s.fab.mem := by simp [State.answer]

@[simp] theorem State.roadAnswer_keeps (s : State) (t u q n status : Nat) (data : List Byte) :
    (s.roadAnswer t u q n status data).pending = s.pending ∧ (s.roadAnswer t u q n status data).fuse = s.fuse ∧ (s.roadAnswer t u q n status data).fab.mem = s.fab.mem := by simp [State.roadAnswer, Fabric.crossed]

end Sys2Proof.Machine
end

