-- ==== Sys2Proof/Laws/Memory.lean ====
section
/-! SUPPORT. Memory keeps its canonical form under every operation, and reads give what was written. -/
namespace Sys2Proof.Machine

/-- The canonical form said of the head and the rest. -/
theorem Memory.wf_cons (j : Nat) (b : Byte) (r : List Host.Cell) :
    Memory.wf ((j, b) :: r) = true ↔ b ≠ memDefault ∧ (∀ c ∈ r, j < c.1) ∧ Memory.wf r = true := by
  induction r generalizing j b with
  | nil => simp [Memory.wf]
  | cons e r ih =>
    obtain ⟨k, c⟩ := e
    simp only [Memory.wf, Bool.and_eq_true, decide_eq_true_eq, bne_iff_ne, ne_eq, List.mem_cons, forall_eq_or_imp]
    constructor
    · rintro ⟨⟨h1, h2⟩, h3⟩
      exact ⟨h2, ⟨h1, fun d hd => Nat.lt_trans h1 (((ih k c).1 h3).2.1 d hd)⟩, h3⟩
    · rintro ⟨h2, ⟨h1, _⟩, h3⟩
      exact ⟨⟨h1, h2⟩, h3⟩

theorem memRead_of_lt (m : List Host.Cell) (k : Nat) (h : ∀ c ∈ m, k < c.1) : memRead m k = memDefault := by
  cases m with
  | nil => rfl
  | cons e r =>
    obtain ⟨j, b⟩ := e
    have hj : k < j := h (j, b) (by simp)
    have : ¬ j = k := by omega
    simp [memRead, this, hj]

/-- Every address listed after a write was listed before it or is the address written. -/
theorem memWrite_keys (m : List Host.Cell) (k : Nat) (v : Byte) : ∀ c ∈ memWrite m k v, c.1 = k ∨ c ∈ m := by
  induction m with
  | nil => intro c hc; simp only [memWrite] at hc; split at hc <;> simp_all
  | cons e r ih =>
    obtain ⟨j, b⟩ := e
    intro c hc
    simp only [memWrite] at hc
    split at hc
    · split at hc
      · exact .inr hc
      · rcases List.mem_cons.1 hc with h | h
        · exact .inl (by rw [h])
        · exact .inr h
    · split at hc
      · split at hc
        · exact .inr (List.mem_cons_of_mem _ hc)
        · rcases List.mem_cons.1 hc with h | h
          · exact .inl (by rw [h])
          · exact .inr (List.mem_cons_of_mem _ h)
      · simp only [List.mem_cons] at hc ⊢
        rcases hc with h | h
        · exact .inr (.inl h)
        · rcases ih c h with h | h
          · exact .inl h
          · exact .inr (.inr h)

theorem memWrite_wf (m : List Host.Cell) (k : Nat) (v : Byte) (h : Memory.wf m = true) : Memory.wf (memWrite m k v) = true := by
  induction m with
  | nil => simp only [memWrite]; split <;> simp_all [Memory.wf]
  | cons e r ih =>
    obtain ⟨j, b⟩ := e
    obtain ⟨hb, hlt, hr⟩ := (Memory.wf_cons j b r).1 h
    simp only [memWrite]
    split
    · rename_i hk
      split
      · exact h
      · rename_i hv
        refine (Memory.wf_cons k v _).2 ⟨hv, ?_, h⟩
        intro c hc
        rcases List.mem_cons.1 hc with rfl | hc
        · exact hk
        · exact Nat.lt_trans hk (hlt c hc)
    · split
      · rename_i hk; subst hk
        split
        · exact hr
        · rename_i hv; exact (Memory.wf_cons k v r).2 ⟨hv, hlt, hr⟩
      · refine (Memory.wf_cons j b _).2 ⟨hb, ?_, ih hr⟩
        intro c hc
        rcases memWrite_keys r k v c hc with h | h
        · omega
        · exact hlt c h

theorem memWrites_wf (bs : List Byte) (m : List Host.Cell) (k : Nat) (h : Memory.wf m = true) :
    Memory.wf (memWrites m k bs) = true := by
  induction bs generalizing m k with
  | nil => exact h
  | cons v vs ih => exact ih _ _ (memWrite_wf m k v h)

theorem memFilter_wf (m : List Host.Cell) (p : Host.Cell → Bool) (h : Memory.wf m = true) : Memory.wf (m.filter p) = true := by
  induction m with
  | nil => rfl
  | cons e r ih =>
    obtain ⟨j, b⟩ := e
    obtain ⟨hb, hlt, hr⟩ := (Memory.wf_cons j b r).1 h
    simp only [List.filter]
    split
    · exact (Memory.wf_cons j b _).2 ⟨hb, fun c hc => hlt c (List.mem_filter.1 hc).1, ih hr⟩
    · exact ih hr

theorem memClear_wf (m : List Host.Cell) (lo hi : Nat) (h : Memory.wf m = true) : Memory.wf (memClear m lo hi) = true :=
  memFilter_wf m _ h

/-- A byte reads as written, and every other byte as before. -/
theorem memRead_memWrite (m : List Host.Cell) (k a : Nat) (v : Byte) (h : Memory.wf m = true) :
    memRead (memWrite m k v) a = if a = k then v else memRead m a := by
  induction m with
  | nil =>
    simp only [memWrite]
    split
    · rename_i hv; subst hv; simp [memRead]
    · by_cases ha : a = k
      · subst ha; simp [memRead]
      · have : ¬ k = a := fun h => ha h.symm
        simp [memRead, ha, this]
  | cons e r ih =>
    obtain ⟨j, b⟩ := e
    obtain ⟨hb, hlt, hr⟩ := (Memory.wf_cons j b r).1 h
    simp only [memWrite]
    split
    · rename_i hk
      split
      · rename_i hv; subst hv
        by_cases ha : a = k
        · subst ha
          have h1 : ¬ j = a := by omega
          simp [memRead, h1, hk]
        · simp [ha]
      · by_cases ha : a = k
        · subst ha; simp [memRead]
        · have h1 : ¬ k = a := fun h => ha h.symm
          by_cases h2 : a < k
          · have h3 : ¬ j = a := by omega
            have h4 : a < j := by omega
            simp [memRead, ha, h1, h2, h3, h4]
          · simp [memRead, ha, h1, h2]
    · split
      · rename_i hk; subst hk
        split
        · rename_i hv; subst hv
          by_cases ha : a = k
          · subst ha; simp [memRead_of_lt r a hlt]
          · have h1 : ¬ k = a := fun h => ha h.symm
            by_cases h2 : a < k
            · simp only [memRead, h1, h2, ha, if_true, if_false]
              exact memRead_of_lt r a (fun c hc => Nat.lt_trans h2 (hlt c hc))
            · simp [memRead, ha, h1, h2]
        · by_cases ha : a = k
          · subst ha; simp [memRead]
          · have h1 : ¬ k = a := fun h => ha h.symm
            simp [memRead, ha, h1]
      · rename_i h1 h2
        by_cases hj : j = a
        · subst hj
          have : ¬ j = k := fun h => h2 h.symm
          simp [memRead, this]
        · by_cases hlt' : a < j
          · have : ¬ a = k := by omega
            simp [memRead, hj, hlt', this]
          · simp only [memRead, hj, hlt', if_false]
            exact ih hr

theorem memRead_memWrites (bs : List Byte) (m : List Host.Cell) (k a : Nat) (h : Memory.wf m = true) :
    memRead (memWrites m k bs) a = if k ≤ a ∧ a < k + bs.length then bs.getD (a - k) 0 else memRead m a := by
  induction bs generalizing m k with
  | nil =>
    have : ¬ (k ≤ a ∧ a < k + ([] : List Byte).length) := by simp
    rw [if_neg this]; rfl
  | cons v vs ih =>
    simp only [memWrites]
    rw [ih _ _ (memWrite_wf m k v h), memRead_memWrite m k a v h]
    by_cases h1 : a = k
    · subst h1
      have h2 : ¬ (a + 1 ≤ a ∧ a < a + 1 + vs.length) := by omega
      have h3 : a ≤ a ∧ a < a + (v :: vs).length := by simp
      rw [if_neg h2, if_pos rfl, if_pos h3]
      simp
    · by_cases h2 : k + 1 ≤ a ∧ a < k + 1 + vs.length
      · have h3 : k ≤ a ∧ a < k + (v :: vs).length := by simp only [List.length_cons]; omega
        rw [if_pos h2, if_pos h3]
        have h4 : a - k = (a - (k + 1)) + 1 := by omega
        rw [h4]; simp
      · have h3 : ¬ (k ≤ a ∧ a < k + (v :: vs).length) := by simp only [List.length_cons]; omega
        rw [if_neg h2, if_neg h1, if_neg h3]

/-- Bytes cleared read as the default, and every other byte as before. -/
theorem memRead_memClear (m : List Host.Cell) (lo hi a : Nat) (h : Memory.wf m = true) :
    memRead (memClear m lo hi) a = if lo ≤ a ∧ a < hi then memDefault else memRead m a := by
  induction m with
  | nil => simp [memClear, memRead]
  | cons e r ih =>
    obtain ⟨j, b⟩ := e
    obtain ⟨hb, hlt, hr⟩ := (Memory.wf_cons j b r).1 h
    have ih' := ih hr
    by_cases hk : (decide (j < lo) || decide (hi ≤ j)) = true
    · have e1 : memClear ((j, b) :: r) lo hi = (j, b) :: memClear r lo hi := by simp [memClear, List.filter, hk]
      rw [e1]
      by_cases hj : j = a
      · subst hj
        have : ¬ (lo ≤ j ∧ j < hi) := by simp at hk; omega
        simp [memRead, this]
      · by_cases hlt' : a < j
        · simp only [memRead, hj, hlt', if_true, if_false]; split <;> rfl
        · simp only [memRead, hj, hlt', if_false]; exact ih'
    · have e1 : memClear ((j, b) :: r) lo hi = memClear r lo hi := by
        simp only [memClear]; rw [List.filter_cons_of_neg (by simpa using hk)]
      rw [e1, ih']
      by_cases hin : lo ≤ a ∧ a < hi
      · simp [hin]
      · have hj : ¬ j = a := by simp at hk; omega
        by_cases hlt' : a < j
        · simp only [hin, if_false, memRead, hj, hlt', if_true]
          exact memRead_of_lt r a (fun c hc => Nat.lt_trans hlt' (hlt c hc))
        · simp [hin, memRead, hj, hlt']

theorem Fabric.spWrite_wf (f : Fabric) (t off : Nat) (bs : List Byte) (h : Memory.wf f.mem = true) :
    Memory.wf (f.spWrite t off bs).mem = true := by
  unfold Fabric.spWrite
  split
  · exact memWrites_wf bs f.mem _ h
  · exact h

theorem Fabric.readWord_wf (f : Fabric) (t a : Nat) (h : Memory.wf f.mem = true) : Memory.wf (f.readWord t a).1.mem = true := by
  unfold Fabric.readWord
  dsimp only
  split
  · exact h
  · exact h
  · exact h
  · exact Fabric.spWrite_wf _ _ _ _ h

/-- A checked read keeps memory canonical: only a pattern that the code misses changes data at all. -/
theorem Fabric.readWords_wf (f : Fabric) (t : Nat) (ws : List Nat) (h : Memory.wf f.mem = true) :
    Memory.wf (f.readWords t ws).1.mem = true := by
  unfold Fabric.readWords
  split
  · exact h
  · suffices ∀ r : Fabric × Bool, Memory.wf r.1.mem = true →
        Memory.wf (ws.foldl (fun r a => let w := r.1.readWord t a; (w.1, r.2 && w.2)) r).1.mem = true from this (f, true) h
    induction ws with
    | nil => exact fun _ hr => hr
    | cons a ws ih => exact fun r hr => ih _ (Fabric.readWord_wf r.1 t a hr)

/-- A scratchpad with no wrong bit gives every codeword, and reading it changes nothing. -/
theorem Fabric.readWords_clean (f : Fabric) (t : Nat) (ws : List Nat) (h : f.flips.any (fun e => e.1 == t) = false) :
    f.readWords t ws = (f, true) := by simp [Fabric.readWords, h]

theorem Fabric.spStore_wf (f : Fabric) (t off : Nat) (bs : List Byte) (h : Memory.wf f.mem = true) :
    Memory.wf (f.spStore t off bs).2.mem = true := by
  unfold Fabric.spStore
  dsimp only
  split
  · exact Fabric.spWrite_wf _ _ _ _ (f.readWords_wf _ _ h)
  · exact f.readWords_wf _ _ h

theorem Fabric.checkedRead_wf (f : Fabric) (d : DevAddr) (len : Nat) (h : Memory.wf f.mem = true) :
    Memory.wf (f.checkedRead d len).1.mem = true := by
  unfold Fabric.checkedRead Fabric.spCheck
  dsimp only
  repeat' split
  all_goals first | exact h | exact f.readWords_wf _ _ h

theorem Fabric.restoreWord_mem (f : Fabric) (t w : Nat) : (f.restoreWord t w).mem = f.mem := rfl

theorem Fabric.colWriteWord_wf (f : Fabric) (t off : Nat) (bs : List Byte) (w : Nat) (h : Memory.wf f.mem = true) :
    Memory.wf (f.colWriteWord t off bs w).2.mem = true := by
  simp only [Fabric.colWriteWord]
  generalize (if off > w * 64 then off else w * 64) = lo
  generalize (if off + bs.length < w * 64 + 64 then off + bs.length else w * 64 + 64) = hi
  split
  · exact h
  · split
    · split
      · rw [Fabric.restoreWord_mem]; exact memWrites_wf _ _ _ h
      · exact h
    · exact memWrites_wf _ _ _ h

theorem Fabric.colWrite_wf (f : Fabric) (t off : Nat) (bs : List Byte) (h : Memory.wf f.mem = true) :
    Memory.wf (f.colWrite t off bs).2.mem = true := by
  unfold Fabric.colWrite
  generalize wordsOf off bs.length = ws
  suffices ∀ r : Nat × Fabric, Memory.wf r.2.mem = true →
      Memory.wf (ws.foldl (fun (r : Nat × Fabric) w =>
        let (st, g) := r.2.colWriteWord t off bs w
        (if r.1 == stOk then st else r.1, g)) r).2.mem = true from this _ h
  induction ws with
  | nil => intro r hr; exact hr
  | cons w ws ih => intro r hr; exact ih _ (Fabric.colWriteWord_wf r.2 t off bs w hr)

theorem Fabric.localWrite_wf (f : Fabric) (d : DevAddr) (bs : List Byte) (h : Memory.wf f.mem = true) :
    Memory.wf (f.localWrite d bs).2.mem = true := by
  unfold Fabric.localWrite
  split
  · exact Fabric.spStore_wf f _ _ bs h
  · exact Fabric.colWrite_wf f _ _ bs h

theorem Fabric.clearTile_wf (f : Fabric) (t : Nat) (h : Memory.wf f.mem = true) : Memory.wf (f.clearTile t).mem = true :=
  memClear_wf _ _ _ (memClear_wf _ _ _ h)

theorem Fabric.clearPad_wf (f : Fabric) (t : Nat) (h : Memory.wf f.mem = true) : Memory.wf (f.clearPad t).mem = true :=
  memClear_wf _ _ _ h

/-- A scratchpad write that ends within the scratchpad is read back, and every other byte of every memory is as before. -/
theorem Fabric.spWrite_read (f : Fabric) (t off a : Nat) (bs : List Byte) (h : Memory.wf f.mem = true) (hr : off + bs.length ≤ spSize) :
    memRead (f.spWrite t off bs).mem a =
      if spKey t off ≤ a ∧ a < spKey t off + bs.length then bs.getD (a - spKey t off) 0 else memRead f.mem a := by
  rw [Fabric.spWrite, if_pos hr]
  exact memRead_memWrites bs f.mem _ a h

/-- A scratchpad write that runs past the scratchpad's end does nothing (R274). -/
theorem Fabric.spWrite_past (f : Fabric) (t off : Nat) (bs : List Byte) (hr : ¬ off + bs.length ≤ spSize) : f.spWrite t off bs = f := by
  rw [Fabric.spWrite, if_neg hr]

end Sys2Proof.Machine
end

