-- ==== Sys2Proof/Laws/Sequencer.lean ====
section
/-! SUPPORT. What the gate of a step, a wire's link and the sequencer's moves do. -/
namespace Sys2Proof.Machine

/-- The gate lets a step through whose tile is ready for it. -/
theorem State.stepGate_standsAt {s : State} {t pn : Nat} {p : Part} {st : ItinStep} {q : Seq} (h : s.StandsAt t pn p st q)
    {sel : StepBody → Bool} (hs : sel st.body = true) (go : State → Part → ItinStep → State) :
    s.stepGate t sel go = go (s.updTile t (fun x => { x with seq := q })) p st := by
  obtain ⟨h1, h2, h3, h4, h5⟩ := h
  simp only [State.stepGate, h1, h3, h4, h2, hs]
  rcases h5 with h | ⟨h, h'⟩
  · simp [h]
  · simp [h, h']

/-- The gate begins the take of a step's WSEM. -/
theorem State.stepGate_wsem {s : State} {t pn : Nat} {p : Part} {st : ItinStep} {q : Seq} {i : Nat}
    (h1 : s.partAt t = some (pn, p)) (h2 : s.seqRuns t = true) (h3 : seqSettle p t (p.itin.length + 1) (s.tile t).seq = q)
    (h4 : p.itin[q.pc]? = some st) (h5 : q.hold = .run) (h6 : st.wsem = some i) {sel : StepBody → Bool}
    (hs : sel st.body = true) (go : State → Part → ItinStep → State) :
    s.stepGate t sel go =
      s.updTile t (fun x => { x with seq := { q with hold := .wsem }, waits := x.waits ++ [(i, .seq)] }) := by
  simp [State.stepGate, h1, h2, h3, h4, h5, h6, hs]

/-- What signals and releases may change: links, messages sent, semaphores, lags and waiting signals; of a tile's sequencer only
its skip mode and report. -/
def State.WireOnly (s s' : State) : Prop :=
  s.SameSteward s' ∧ s'.free = s.free ∧ s'.fab.mem = s.fab.mem ∧ s'.fab.parts = s.fab.parts ∧
  ∀ u, (∃ k r, (s'.tile u).seq = { (s.tile u).seq with skip := k, rep := r }) ∧ (s'.tile u).gather = (s.tile u).gather

theorem State.WireOnly.refl (s : State) : s.WireOnly s :=
  ⟨⟨rfl, rfl, rfl, rfl, rfl, rfl, rfl, rfl, rfl, rfl⟩, rfl, rfl, rfl, fun _ => ⟨⟨_, _, rfl⟩, rfl⟩⟩

theorem State.WireOnly.trans {a b c : State} (h : a.WireOnly b) (k : b.WireOnly c) : a.WireOnly c := by
  obtain ⟨⟨h1, h2, h3, h4, h5, h6, h7, h8, h9, h10⟩, hf, hm, hp, ht⟩ := h
  obtain ⟨⟨k1, k2, k3, k4, k5, k6, k7, k8, k9, k10⟩, kf, km, kp, kt⟩ := k
  refine ⟨⟨by rw [k1, h1], by rw [k2, h2], by rw [k3, h3], by rw [k4, h4], by rw [k5, h5], by rw [k6, h6], by rw [k7, h7],
    by rw [k8, h8], by rw [k9, h9], by rw [k10, h10]⟩, by rw [kf, hf], by rw [km, hm], by rw [kp, hp], fun u => ?_⟩
  obtain ⟨⟨x, y, e⟩, g⟩ := ht u
  obtain ⟨⟨x', y', e'⟩, g'⟩ := kt u
  exact ⟨⟨x', y', by rw [e', e]⟩, by rw [g', g]⟩

/-- A tile update that changes of the sequencer only skip mode and report, and not the gather buffer. -/
theorem State.WireOnly.updTile (s : State) (t : Nat) (g : Tile → Tile)
    (h : ∀ x, (∃ k r, (g x).seq = { x.seq with skip := k, rep := r }) ∧ (g x).gather = x.gather) : s.WireOnly (s.updTile t g) := by
  refine ⟨⟨rfl, rfl, rfl, rfl, rfl, rfl, rfl, rfl, rfl, rfl⟩, rfl, rfl, rfl, fun u => ?_⟩
  by_cases hu : u = t
  · subst hu; rw [State.updTile_tile]; exact h _
  · rw [State.updTile_tile_other _ _ _ _ hu]; exact ⟨⟨_, _, rfl⟩, rfl⟩

theorem Tile.incSem_seq (x : Tile) (i n : Nat) (b : Bool) : (x.incSem i n b).seq = x.seq ∧ (x.incSem i n b).gather = x.gather := by
  simp only [Tile.incSem]; split <;> exact ⟨rfl, rfl⟩

theorem Tile.applySignal_seq (x : Tile) (c : Nat) (b : Bool) :
    (x.applySignal c b).seq = x.seq ∧ (x.applySignal c b).gather = x.gather := Tile.incSem_seq x c 1 b

theorem Tile.applyRelease_seq (x : Tile) (w : Wire) (e : Nat) (b : Bool) :
    (x.applyRelease w e b).seq = x.seq ∧ (x.applyRelease w e b).gather = x.gather := by
  simp only [Tile.applyRelease]
  split
  · exact Tile.incSem_seq _ _ _ _
  · exact ⟨rfl, rfl⟩

theorem Tile.enterSkip_seq (x : Tile) (st : Status) :
    (∃ k r, (x.enterSkip st).seq = { x.seq with skip := k, rep := r }) ∧ (x.enterSkip st).gather = x.gather := ⟨⟨_, _, rfl⟩, rfl⟩

theorem State.applySem_wireOnly (s : State) (m : SemMsg) : s.WireOnly (s.applySem m) := by
  simp only [State.applySem]
  split
  · exact .refl s
  · split
    · exact .updTile _ _ _ (fun x => ⟨⟨_, _, (Tile.applyRelease_seq x _ _ _).1⟩, (Tile.applyRelease_seq x _ _ _).2⟩)
    · split
      · have h (c : Nat) : s.WireOnly (s.updTile m.dest (fun x => x.applySignal c m.tagged)) :=
          .updTile _ _ _ (fun x => ⟨⟨_, _, (Tile.applySignal_seq x _ _).1⟩, (Tile.applySignal_seq x _ _).2⟩)
        split
        · exact (h _).trans (.updTile _ _ _ (fun x => ⟨⟨_, _, rfl⟩, rfl⟩))
        · exact h _
      · exact .refl s

theorem State.emit_wireOnly (s : State) (a b c d : Nat) (tag : Option Nat) (msg : Sent) :
    s.WireOnly (s.emit a b c d tag msg).1 := by
  simp only [State.emit]
  split
  · exact .refl s
  · split
    · exact ⟨⟨rfl, rfl, rfl, rfl, rfl, rfl, rfl, rfl, rfl, rfl⟩, rfl, rfl, rfl, fun _ => ⟨⟨_, _, rfl⟩, rfl⟩⟩
    · exact .refl s

theorem State.sendSem_wireOnly (s : State) (t : Nat) (m : SemMsg) : s.WireOnly (s.sendSem t m) := by
  simp only [State.sendSem]
  split
  · exact s.applySem_wireOnly m
  · split
    · exact ⟨⟨rfl, rfl, rfl, rfl, rfl, rfl, rfl, rfl, rfl, rfl⟩, rfl, rfl, rfl, fun _ => ⟨⟨_, _, rfl⟩, rfl⟩⟩
    · split
      · exact .updTile _ _ _ (fun x => Tile.enterSkip_seq x _)
      · split
        · exact s.emit_wireOnly _ _ _ _ _ _
        · exact .updTile _ _ _ (fun x => ⟨⟨_, _, rfl⟩, rfl⟩)

theorem State.sendOrHold_wireOnly (s : State) (t : Nat) (w : Wire) (m : SemMsg) : s.WireOnly (s.sendOrHold t w m) := by
  simp only [State.sendOrHold]
  split
  · exact .updTile _ _ _ (fun x => ⟨⟨_, _, rfl⟩, rfl⟩)
  · exact s.sendSem_wireOnly t m

theorem State.WireOnly.foldl {α : Type} (f : State → α → State) (h : ∀ (s : State) (a : α), s.WireOnly (f s a)) (l : List α) (s : State) :
    s.WireOnly (l.foldl f s) := by
  induction l generalizing s with
  | nil => exact .refl s
  | cons a l ih => exact (h s a).trans (ih _)

theorem State.signalWire_wireOnly (s : State) (t p : Nat) (w : Wire) : s.WireOnly (s.signalWire t p w) := by
  unfold State.signalWire
  refine .foldl _ (fun s e => ?_) _ _
  split
  · exact s.sendOrHold_wireOnly t w _
  · exact .refl s

theorem State.releaseWire_wireOnly (s : State) (t p : Nat) (w : Wire) : s.WireOnly (s.releaseWire t p w) := by
  simp only [State.releaseWire]
  split
  · exact .updTile _ _ _ (fun x => ⟨⟨_, _, rfl⟩, rfl⟩)
  · exact .updTile _ _ _ (fun x => ⟨⟨_, _, rfl⟩, rfl⟩)

/-- A DLINK changes nothing but wires, semaphores and the links they leave by. -/
theorem State.makeLink_wireOnly (s : State) (t l : Nat) : s.WireOnly (s.makeLink t l) := by
  simp only [State.makeLink]
  split
  · exact .refl s
  · split
    · exact s.signalWire_wireOnly t _ _
    · exact s.releaseWire_wireOnly t _ _

/-- A fabric operation that changes no partition, no sequencer and no gather buffer. -/
def Fabric.SeqKept (f g : Fabric) : Prop :=
  g.parts = f.parts ∧ ∀ u, (tabGet Tile.init g.tiles u).seq = (tabGet Tile.init f.tiles u).seq ∧
    (tabGet Tile.init g.tiles u).gather = (tabGet Tile.init f.tiles u).gather

theorem Fabric.SeqKept.refl (f : Fabric) : f.SeqKept f := ⟨rfl, fun _ => ⟨rfl, rfl⟩⟩

theorem Fabric.SeqKept.trans {f g h : Fabric} (a : f.SeqKept g) (b : g.SeqKept h) : f.SeqKept h :=
  ⟨b.1.trans a.1, fun u => ⟨(b.2 u).1.trans (a.2 u).1, (b.2 u).2.trans (a.2 u).2⟩⟩

theorem Fabric.SeqKept.foldl {α : Type} (op : Fabric → α → Fabric) (h : ∀ (f : Fabric) a, f.SeqKept (op f a)) (l : List α) (f : Fabric) :
    f.SeqKept (l.foldl op f) := by
  induction l generalizing f with
  | nil => exact .refl f
  | cons a l ih => exact (h f a).trans (ih _)

theorem Fabric.SeqKept.setTiles (f g : Fabric) (t : Nat) (x : Tile) (hp : g.parts = f.parts) (ht : g.tiles = tabSet f.tiles t x)
    (h : x.seq = (tabGet Tile.init f.tiles t).seq ∧ x.gather = (tabGet Tile.init f.tiles t).gather) : f.SeqKept g := by
  refine ⟨hp, fun u => ?_⟩
  rw [ht, tabGet_tabSet]
  split
  · rename_i e; subst e; exact h
  · exact ⟨rfl, rfl⟩

theorem Fabric.spWrite_seqKept (f : Fabric) (t off : Nat) (bs : List Byte) : f.SeqKept (f.spWrite t off bs) := by
  unfold Fabric.spWrite
  split
  · exact ⟨rfl, fun _ => ⟨rfl, rfl⟩⟩
  · exact .refl f

theorem Fabric.readWord_seqKept (f : Fabric) (t a : Nat) : f.SeqKept (f.readWord t a).1 := by
  unfold Fabric.readWord
  dsimp only
  split
  · exact .refl f
  · exact .setTiles f _ t _ rfl rfl ⟨rfl, rfl⟩
  · exact .setTiles f _ t _ rfl rfl ⟨rfl, rfl⟩
  · have h : f.SeqKept (f.mendWord t a) := ⟨rfl, fun _ => ⟨rfl, rfl⟩⟩
    exact h.trans (Fabric.spWrite_seqKept _ _ _ _)

theorem Fabric.readWords_seqKept (f : Fabric) (t : Nat) (ws : List Nat) : f.SeqKept (f.readWords t ws).1 := by
  unfold Fabric.readWords
  split
  · exact .refl f
  · suffices ∀ r : Fabric × Bool, r.1.SeqKept (ws.foldl (fun r a => let w := r.1.readWord t a; (w.1, r.2 && w.2)) r).1 from this (f, true)
    induction ws with
    | nil => exact fun r => .refl r.1
    | cons a ws ih => exact fun r => (r.1.readWord_seqKept t a).trans (ih _)

theorem Fabric.gatherWrite_seqKept (f : Fabric) (t : Nat) (e : GatherEntry) : f.SeqKept (f.gatherWrite t e) := by
  refine .foldl _ (fun f i => ?_) _ _
  split
  · split
    · exact f.spWrite_seqKept _ _ _
    · unfold Fabric.spStore
      dsimp only
      split
      · exact (f.readWords_seqKept _ _).trans (Fabric.spWrite_seqKept _ _ _ _)
      · exact f.readWords_seqKept _ _
  · exact .refl f

/-- What the links of a completed step may change: those of `WireOnly`, and the bytes that tile `t` has gathered. -/
def State.LinkOnly (s s' : State) (t : Nat) : Prop :=
  s.SameSteward s' ∧ s'.free = s.free ∧ s'.fab.parts = s.fab.parts ∧
  ∀ u, (∃ k r, (s'.tile u).seq = { (s.tile u).seq with skip := k, rep := r }) ∧ (u ≠ t → (s'.tile u).gather = (s.tile u).gather)

theorem State.LinkOnly.trans {a b c : State} {t : Nat} (h : a.LinkOnly b t) (k : b.LinkOnly c t) : a.LinkOnly c t := by
  obtain ⟨⟨h1, h2, h3, h4, h5, h6, h7, h8, h9, h10⟩, hf, hp, ht⟩ := h
  obtain ⟨⟨k1, k2, k3, k4, k5, k6, k7, k8, k9, k10⟩, kf, kp, kt⟩ := k
  refine ⟨⟨by rw [k1, h1], by rw [k2, h2], by rw [k3, h3], by rw [k4, h4], by rw [k5, h5], by rw [k6, h6], by rw [k7, h7],
    by rw [k8, h8], by rw [k9, h9], by rw [k10, h10]⟩, by rw [kf, hf], by rw [kp, hp], fun u => ?_⟩
  obtain ⟨⟨x, y, e⟩, g⟩ := ht u
  obtain ⟨⟨x', y', e'⟩, g'⟩ := kt u
  exact ⟨⟨x', y', by rw [e', e]⟩, fun n => by rw [g' n, g n]⟩

theorem State.WireOnly.linkOnly {s s' : State} (h : s.WireOnly s') (t : Nat) : s.LinkOnly s' t :=
  ⟨h.1, h.2.1, h.2.2.2.1, fun u => ⟨(h.2.2.2.2 u).1, fun _ => (h.2.2.2.2 u).2⟩⟩

/-- The gathered writes land: no sequencer, partition or steward's register differs, and the tile's gather buffer is empty. -/
theorem State.gatherAll_linkOnly (s : State) (t : Nat) : s.LinkOnly (s.gatherAll t) t ∧ ((s.gatherAll t).tile t).gather = [] := by
  have h : s.fab.SeqKept ((s.tile t).gather.foldl (fun f e => f.gatherWrite t e) s.fab) :=
    .foldl _ (fun f e => f.gatherWrite_seqKept t e) _ _
  refine ⟨⟨⟨rfl, rfl, rfl, rfl, rfl, rfl, rfl, rfl, rfl, rfl⟩, rfl, h.1, fun u => ?_⟩, ?_⟩
  · unfold State.gatherAll
    dsimp only
    by_cases hu : u = t
    · subst hu
      rw [State.updTile_tile]
      exact ⟨⟨_, _, (h.2 u).1⟩, fun n => absurd rfl n⟩
    · rw [State.updTile_tile_other _ _ _ _ hu]
      exact ⟨⟨_, _, (h.2 u).1⟩, fun _ => (h.2 u).2⟩
  · unfold State.gatherAll
    dsimp only
    rw [State.updTile_tile]

/-- The DLINKs of a control step change nothing but wires, semaphores, the links they leave by and the tile's gathered bytes. -/
theorem State.controlLinks_linkOnly (s : State) (t : Nat) (p : Part) (st : ItinStep) : s.LinkOnly (s.controlLinks t p st) t := by
  unfold State.controlLinks
  generalize (ownedRanks p st t).filterMap (linkAt p st) = l
  induction l generalizing s with
  | nil => exact (State.WireOnly.refl s).linkOnly t
  | cons a l ih => exact ((s.gatherAll_linkOnly t).1.trans ((State.makeLink_wireOnly _ t a).linkOnly t)).trans (ih _)

end Sys2Proof.Machine
end

