-- ==== Sys2Proof/Laws/Writes.lean ====
section
/-! SUPPORT. The shared operations that write memory: none takes a command or moves a fuse, and each keeps memory canonical. -/
namespace Sys2Proof.Machine

/-- No command is taken, no fuse moves, and canonical memory stays canonical. -/
def State.Keeps (s s' : State) : Prop :=
  s'.pending = s.pending ∧ s'.fuse = s.fuse ∧ (Memory.wf s.fab.mem = true → Memory.wf s'.fab.mem = true)

theorem State.Keeps.refl (s : State) : s.Keeps s := ⟨rfl, rfl, id⟩

theorem State.Keeps.trans {a b c : State} (h : a.Keeps b) (k : b.Keeps c) : a.Keeps c :=
  ⟨k.1.trans h.1, k.2.1.trans h.2.1, fun w => k.2.2 (h.2.2 w)⟩

theorem State.Keeps.of_kept {s s' : State} (h : s'.pending = s.pending ∧ s'.fuse = s.fuse ∧ s'.fab.mem = s.fab.mem) : s.Keeps s' :=
  ⟨h.1, h.2.1, fun w => by rw [h.2.2]; exact w⟩

theorem State.Keeps.setFab (s : State) (f : Fabric) (h : Memory.wf s.fab.mem = true → Memory.wf f.mem = true) : s.Keeps (s.setFab f) :=
  ⟨rfl, rfl, h⟩

theorem State.Keeps.ite {s a b : State} {c : Prop} [Decidable c] (h : s.Keeps a) (k : s.Keeps b) : s.Keeps (if c then a else b) := by
  split
  · exact h
  · exact k

theorem State.Keeps.updTile (s : State) (t : Nat) (g : Tile → Tile) : s.Keeps (s.updTile t g) := ⟨rfl, rfl, id⟩

theorem State.Keeps.updPart (s : State) (p : Nat) (g : Part → Part) : s.Keeps (s.updPart p g) := ⟨rfl, rfl, id⟩

theorem State.Keeps.foldl {α : Type} (f : State → α → State) (h : ∀ (s : State) a, s.Keeps (f s a)) (l : List α) (s : State) :
    s.Keeps (l.foldl f s) := by
  induction l generalizing s with
  | nil => exact .refl s
  | cons a l ih => exact (h s a).trans (ih _)

/-- The gate of a step keeps what the step it lets through keeps. -/
theorem State.Keeps.stepGate (s : State) (t : Nat) (sel : StepBody → Bool) (go : State → Part → ItinStep → State)
    (h : ∀ (q : Seq) p st, s.Keeps (go (s.updTile t (fun x => { x with seq := q })) p st)) : s.Keeps (s.stepGate t sel go) := by
  unfold State.stepGate
  dsimp only
  repeat' split
  all_goals first | exact h _ _ _ | exact ⟨rfl, rfl, id⟩

/-- A fold over pairs of a fabric and something else keeps memory canonical when each step does. -/
theorem foldl_fst_wf {α β : Type} (f : Fabric × β → α → Fabric × β) (h : ∀ a x, Memory.wf a.1.mem = true → Memory.wf (f a x).1.mem = true)
    (l : List α) (a : Fabric × β) (w : Memory.wf a.1.mem = true) : Memory.wf (l.foldl f a).1.mem = true := by
  induction l generalizing a with
  | nil => exact w
  | cons x l ih => exact ih _ (h a x w)

theorem Fabric.gatherWrite_wf (f : Fabric) (t : Nat) (e : GatherEntry) (h : Memory.wf f.mem = true) :
    Memory.wf (f.gatherWrite t e).mem = true := by
  unfold Fabric.gatherWrite
  generalize List.range e.bytes.length = l
  induction l generalizing f with
  | nil => exact h
  | cons i l ih =>
    refine ih _ ?_
    dsimp only
    split
    · split
      · exact f.spWrite_wf _ _ _ h
      · exact f.spStore_wf _ _ _ h
    · exact h

theorem putPlain_wf (f : Fabric) (h : Hist) (t : Nat) (o : OutPlane) (k : SrKey) (r j : Nat) (x : BitVec 32)
    (w : Memory.wf f.mem = true) : Memory.wf (putPlain f h t o k r j x).1.mem = true := by
  unfold putPlain
  dsimp only
  split
  · exact f.spWrite_wf _ _ _ w
  · split
    · exact f.spWrite_wf _ _ _ w
    · split
      · exact Fabric.spWrite_wf _ _ _ _ (f.spWrite_wf _ _ _ w)
      · exact f.spWrite_wf _ _ _ w

theorem putBlock_wf (f : Fabric) (h : Hist) (t : Nat) (o : OutPlane) (k : SrKey) (r b : Nat) (xs : List (BitVec 32))
    (w : Memory.wf f.mem = true) : Memory.wf (putBlock f h t o k r b xs).1.mem = true :=
  Fabric.spWrite_wf _ _ _ _ (f.spWrite_wf _ _ _ w)

theorem putRow_wf (f : Fabric) (h : Hist) (t : Nat) (o : OutPlane) (k : SrKey) (r : Nat) (xs : List (BitVec 32))
    (w : Memory.wf f.mem = true) : Memory.wf (putRow f h t o k r xs).1.mem = true := by
  unfold putRow
  split
  · exact foldl_fst_wf _ (fun a b v => putBlock_wf a.1 a.2 t o k r b _ v) _ _ w
  · exact foldl_fst_wf _ (fun a j v => putPlain_wf a.1 a.2 t o k r j _ v) _ _ w

theorem Fabric.putMaskedBlock_wf (f : Fabric) (h : Hist) (t : Nat) (o : OutPlane) (k : SrKey) (r b : Nat) (xs : List (BitVec 32))
    (keep : List Bool) (w : Memory.wf f.mem = true) : Memory.wf (f.putMaskedBlock h t o k r b xs keep).1.mem = true := by
  unfold Fabric.putMaskedBlock
  split
  · exact putBlock_wf _ _ _ _ _ _ _ _ w
  · split
    · exact w
    · exact Fabric.spWrite_wf _ _ _ _ (putBlock_wf _ _ _ _ _ _ _ _ w)

theorem State.gatherAll_keeps (s : State) (t : Nat) : s.Keeps (s.gatherAll t) := by
  refine ⟨rfl, rfl, fun w => ?_⟩
  have h : ∀ (l : List GatherEntry) (f : Fabric), Memory.wf f.mem = true →
      Memory.wf (l.foldl (fun f e => f.gatherWrite t e) f).mem = true := by
    intro l
    induction l with
    | nil => exact fun _ h => h
    | cons e l ih => exact fun f h => ih _ (f.gatherWrite_wf t e h)
  exact h (s.tile t).gather s.fab w

theorem State.gatherPut_keeps (s : State) (t off : Nat) (bs : List Byte) : s.Keeps (s.gatherPut t off bs) := by
  unfold State.gatherPut
  dsimp only
  split
  · exact ⟨rfl, rfl, fun w => s.fab.gatherWrite_wf t _ w⟩
  · split
    · exact ⟨rfl, rfl, id⟩
    · split
      · exact ⟨rfl, rfl, id⟩
      · split
        · exact .refl s
        · exact ⟨rfl, rfl, fun w => s.fab.gatherWrite_wf t _ w⟩

theorem State.smallWrite_keeps (s : State) (t off : Nat) (bs : List Byte) : s.Keeps (s.smallWrite t off bs) := by
  unfold State.smallWrite
  dsimp only
  split
  · exact s.gatherPut_keeps _ _ _
  · exact (s.gatherPut_keeps _ _ _).trans (State.gatherPut_keeps _ _ _ _)

theorem State.runVec_keeps (s : State) (t : Nat) (p : Part) (st : ItinStep) (r : StepRun) (v : Vec) : s.Keeps (s.runVec t p st r v) := by
  unfold State.runVec
  dsimp only
  split
  · have base : ∀ (fh : Fabric × Hist) (g : Hist), (Memory.wf s.fab.mem = true → Memory.wf fh.1.mem = true) →
        s.Keeps ((s.setFab fh.1).updTile t (fun x => x.setHist g)) := fun _ _ h => ⟨rfl, rfl, h⟩
    have small : ∀ (s : State) (l : List Nat) (a : Nat → Nat) (b : Nat → List Byte),
        s.Keeps (l.foldl (fun s r => s.smallWrite t (a r) (b r)) s) :=
      fun s l a b => .foldl _ (fun s r => s.smallWrite_keeps t (a r) (b r)) l s
    split <;> (try refine State.Keeps.trans ?_ (small _ _ _ _)) <;> split <;> (try refine State.Keeps.trans ?_ (small _ _ _ _)) <;>
      refine base _ _ (fun w => ?_) <;> first | exact w | exact putRow_wf _ _ _ _ _ _ _ w
  · refine ⟨rfl, rfl, fun w => ?_⟩
    exact foldl_fst_wf _ (fun a r h => putRow_wf _ _ _ _ _ _ _ h) _ (s.fab, (s.tile t).seq.rep.hist) w

theorem State.makeLink_after (s : State) (t l : Nat) : s.Keeps ((s.gatherAll t).makeLink t l) :=
  (s.gatherAll_keeps t).trans (.of_kept (State.makeLink_keeps _ t l))

theorem State.controlLinks_keeps (s : State) (t : Nat) (p : Part) (st : ItinStep) : s.Keeps (s.controlLinks t p st) :=
  .foldl _ (fun s l => s.makeLink_after t l) _ s

theorem State.completeNow_keeps (s : State) (t : Nat) (p : Part) (st : ItinStep) : s.Keeps (s.completeNow t p st) := by
  unfold State.completeNow
  dsimp only
  split
  · exact (State.Keeps.updTile s _ _).trans (State.makeLink_after _ t _)
  · exact .updTile s _ _

theorem State.shapeStop_keeps (s : State) (t : Nat) (p : Part) (st : ItinStep) (sh : Shape) : s.Keeps (s.shapeStop t p st sh) := by
  unfold State.shapeStop
  split
  · exact (State.Keeps.updTile s _ _).trans (.updTile _ _ _)
  · exact s.completeNow_keeps t p st

/-- Reads of a tile's scratchpad by its own units keep memory canonical. -/
theorem spChecks_wf (t : Nat) (rs : List (Nat × Nat)) (f : Fabric) (b : Bool) (w : Memory.wf f.mem = true) :
    Memory.wf (rs.foldl (fun (a : Fabric × Bool) e => let c := a.1.spCheck t e.1 e.2; (c.1, a.2 && c.2)) (f, b)).1.mem = true :=
  foldl_fst_wf (fun (a : Fabric × Bool) (e : Nat × Nat) => let c := a.1.spCheck t e.1 e.2; (c.1, a.2 && c.2))
    (fun a e h => a.1.readWords_wf t (spWords e.1 e.2) h) rs (f, b) w

theorem State.padReads_keeps (s : State) (t step : Nat) (rs : List (Nat × Nat)) : s.Keeps (s.padReads t step rs).1 := by
  have h : s.Keeps (s.setFab ((rs.filter (fun e => decide (e.1 + e.2 ≤ spSize))).foldl (fun (a : Fabric × Bool) e =>
      let c := a.1.spCheck t e.1 e.2; (c.1, a.2 && c.2)) (s.fab, true)).1) := .setFab s _ (spChecks_wf t _ s.fab true)
  unfold State.padReads
  dsimp only
  split
  · exact h.trans (.updTile _ _ _)
  · exact h

theorem State.runJunct_keeps (s : State) (t : Nat) (p : Part) (st : ItinStep) (r : StepRun) (j : Junct) : s.Keeps (s.runJunct t p st r j) :=
  ⟨rfl, rfl, fun w => putRow_wf _ _ _ _ _ _ _ w⟩

theorem State.vectorStart_keeps (s : State) (t : Nat) : s.Keeps (s.vectorStart t) := by
  have vec (step : Nat) (rs : List (Nat × Nat)) (p : Part) (st : ItinStep) (r : StepRun) (v : Vec) (g : Tile → Tile) :
      s.Keeps (((s.padReads t step rs).1.runVec t p st r v).updTile t g) :=
    ((s.padReads_keeps t step rs).trans (State.runVec_keeps _ _ _ _ _ _)).trans (.updTile _ _ _)
  have junct (step : Nat) (rs : List (Nat × Nat)) (p : Part) (st : ItinStep) (r : StepRun) (j : Junct) (g : Tile → Tile) :
      s.Keeps (((s.padReads t step rs).1.runJunct t p st r j).updTile t g) :=
    ((s.padReads_keeps t step rs).trans (State.runJunct_keeps _ _ _ _ _ _)).trans (.updTile _ _ _)
  unfold State.vectorStart
  dsimp only
  split
  · split
    · exact .refl s
    · split
      · exact .refl s
      · split
        · split
          · exact .refl s
          · split
            · exact .updTile s _ _
            · split
              · exact .updTile s _ _
              · split
                · exact vec _ _ _ _ _ _ _
                · exact s.padReads_keeps _ _ _
        · split
          · exact .updTile s _ _
          · split
            · exact junct _ _ _ _ _ _ _
            · exact s.padReads_keeps _ _ _
        · exact .refl s
  · exact .refl s

theorem State.vecStep_keeps (s : State) (t vop : Nat) : s.Keeps (s.vecStep t vop) := by
  refine .stepGate _ _ _ _ (fun q p st => ?_)
  have hs : s.Keeps (s.updTile t (fun x => { x with seq := q })) := ⟨rfl, rfl, id⟩
  generalize s.updTile t (fun x => { x with seq := q }) = s1 at hs ⊢
  have hv (g : Tile → Tile) : s.Keeps ((s1.updTile t g).vectorStart t) := (hs.trans (.updTile s1 t g)).trans (State.vectorStart_keeps _ t)
  dsimp only
  repeat' split
  all_goals first
    | exact .refl s
    | exact hs.trans (.of_kept (s1.skipStep_keeps t p st))
    | exact hs.trans (s1.shapeStop_keeps t p st _)
    | exact hv _
    | exact (hv _).trans (State.completeNow_keeps _ t p st)

theorem State.putOutput_keeps (s : State) (x : Side) (job : Job) (q j : Nat) (v : BitVec 32) (c : PartRoot) :
    s.Keeps (s.putOutput x job q j v c).1 := by
  unfold State.putOutput
  dsimp only
  repeat' split
  all_goals first
    | exact .refl s
    | exact .updTile _ _ _
    | exact ⟨rfl, rfl, fun w => Fabric.putMaskedBlock_wf _ _ _ _ _ _ _ _ _ w⟩
    | exact ⟨rfl, rfl, fun w => putPlain_wf _ _ _ _ _ _ _ _ w⟩

theorem State.rootDone_keeps (s : State) (t : Nat) (x : Side) (job : Job) (block q j : Nat) (a : Acc) :
    s.Keeps (s.rootDone t x job block q j a).1 := by
  have cin (w : Nat) (k : Job) : s.Keeps (s.setFab (s.fab.cinCheck w k q j).1) := by
    refine .setFab s _ (fun h => ?_)
    unfold Fabric.cinCheck
    split
    · exact s.fab.readWords_wf _ _ h
    · exact h
  have put (w : Nat) (k : Job) (v : BitVec 32) (c : PartRoot) :
      s.Keeps ((s.setFab (s.fab.cinCheck w k q j).1).putOutput x k q j v c).1 := (cin w k).trans (State.putOutput_keeps _ _ _ _ _ _ _)
  unfold State.rootDone
  dsimp only
  split
  · exact .refl s
  · repeat' split
    all_goals first
      | exact put _ _ _ _
      | exact cin _ _
      | exact .updTile s _ _

theorem State.landAcc_keeps (s : State) (t : Nat) (x : Side) (job : Job) (key col block q j : Nat) (mark : RetryMark) (a : Acc) :
    s.Keeps (s.landAcc t x job key col block q j mark a).1 := by
  unfold State.landAcc
  dsimp only
  split
  · exact .refl s
  · split
    · exact s.rootDone_keeps _ _ _ _ _ _ _
    · exact .refl s

theorem State.emptyOutputs_keeps (s : State) (x : Side) (job : Job) (qs js : Nat × Nat) : s.Keeps (s.emptyOutputs x job qs js) := by
  have one : ∀ {α : Type} (f : State × Job → α → State × Job), (∀ (r : State × Job) a, r.1.Keeps (f r a).1) →
      ∀ (l : List α) (r : State × Job), r.1.Keeps (l.foldl f r).1 := by
    intro α f h l
    induction l with
    | nil => exact fun r => .refl r.1
    | cons a l ih => exact fun r => (h r a).trans (ih _)
  exact one _ (fun r i => one _ (fun r k => r.1.putOutput_keeps _ _ _ _ _ _) _ r) _ (s, job)

theorem State.beginOper_keeps (s : State) (p : Part) (st : ItinStep) (o : Oper) (r : StepRun) (t : Nat) (x : Side)
    (runs : List (Nat × Nat)) (g : OperGroup) : s.Keeps (s.beginOper p st o r t x runs g) := by
  have two (a b : Nat) (x y : Side) (j k : Job) : s.Keeps ((s.placeJob a x j).placeJob b y k) :=
    (State.Keeps.of_kept (s.placeJob_keeps _ _ _)).trans (.of_kept (State.placeJob_keeps _ _ _ _))
  unfold State.beginOper
  dsimp only
  repeat' split
  all_goals first
    | exact (s.emptyOutputs_keeps _ _ _ _).trans (.of_kept (State.finishRuns_keeps _ _))
    | exact .of_kept (s.finishRuns_keeps _)
    | exact .of_kept (s.placeJob_keeps _ _ _)
    | exact two _ _ _ _ _ _
    | exact (two _ _ _ _ _ _).trans (.updTile _ _ _)

theorem State.startHead_keeps (s : State) (t : Nat) (x : Side) : s.Keeps (s.startHead t x) := by
  unfold State.startHead
  split
  · split
    · split
      · dsimp only
        repeat' split
        all_goals first
          | exact .refl s
          | exact .updTile s _ _
          | exact s.beginOper_keeps _ _ _ _ _ _ _ _
      · exact .refl s
    · exact .refl s
  · exact .refl s

theorem State.kickAll_keeps (s : State) (ts : List Nat) : s.Keeps (s.kickAll ts) :=
  .foldl _ (fun s _ => .foldl _ (fun s t => (s.startHead_keeps t .a).trans (State.startHead_keeps _ t .b)) ts s) _ s

theorem State.dropPair_keeps (s : State) (ts : List Nat) :
    s.Keeps (ts.foldl (fun s u => s.updTile u (fun y => { y with pairNow := none })) s) := .foldl _ (fun s u => .updTile s u _) ts s

theorem State.endJob_keeps (s : State) (t : Nat) (x : Side) (job : Job) : s.Keeps (s.endJob t x job) := by
  have h : ∀ s : State, s.Keeps (((s.finishRuns job.runs).kickAll job.tiles).restArrays job.tiles x) := fun s =>
    ((State.Keeps.of_kept (s.finishRuns_keeps _)).trans (State.kickAll_keeps _ _)).trans (.of_kept (State.restArrays_keeps _ _ _))
  unfold State.endJob
  dsimp only
  repeat' split
  all_goals first
    | exact .updTile s _ _
    | exact (((State.Keeps.updTile s _ _).trans (State.dropPair_keeps _ _)).trans (h _)).trans (.of_kept (State.restArrays_keeps _ _ _))
    | exact (State.Keeps.updTile s _ _).trans (h _)

theorem State.keepJob_keeps (s : State) (t : Nat) (x : Side) (job : Job) : s.Keeps (s.keepJob t x job) := by
  unfold State.keepJob
  split
  · exact s.endJob_keeps _ _ _
  · exact .updTile _ _ _

theorem State.failJob_keeps (s : State) (t : Nat) (x : Side) (job : Job) (code col : Nat) : s.Keeps (s.failJob t x job code col) := by
  have h : ∀ (s : State) (ts : List Nat), s.Keeps (((s.finishRuns job.runs).kickAll ts).restArrays job.tiles x) := fun s _ =>
    ((State.Keeps.of_kept (s.finishRuns_keeps _)).trans (State.kickAll_keeps _ _)).trans (.of_kept (State.restArrays_keeps _ _ _))
  have skip : ∀ (s : State), s.Keeps (job.tiles.foldl (fun s u => s.updTile u (fun y =>
      (y.enterSkip ⟨code, job.step, job.bottom col⟩).dropQueued (s.atWork u))) s) := fun s => .foldl _ (fun s u => .updTile s u _) _ s
  unfold State.failJob
  dsimp only
  refine (fun X => State.Keeps.ite (State.Keeps.trans X (.of_kept (State.restArrays_keeps _ _ _))) X) ?_
  refine State.Keeps.trans ?_ (h _ _)
  refine (fun X => State.Keeps.ite (State.Keeps.trans X (State.dropPair_keeps _ _)) X) ?_
  exact (State.Keeps.updTile s _ _).trans (skip _)

theorem State.operStep_keeps (s : State) (t mode : Nat) : s.Keeps (s.operStep t mode) := by
  refine .stepGate _ _ _ _ (fun q p st => ?_)
  have hs : s.Keeps (s.updTile t (fun x => { x with seq := q })) := ⟨rfl, rfl, id⟩
  generalize s.updTile t (fun x => { x with seq := q }) = s1 at hs ⊢
  dsimp only
  repeat' split
  all_goals first
    | exact .refl s
    | exact (hs.trans (.of_kept (s1.skipStep_keeps t p st))).trans (State.kickAll_keeps _ _)
    | exact hs.trans (s1.shapeStop_keeps t p st _)
    | exact (hs.trans (.updTile s1 _ _)).trans (State.startHead_keeps _ _ _)

theorem State.writeFused_keeps (s : State) (t : Nat) (f : Fused) (job : Job) : s.Keeps (s.writeFused t f job) := by
  unfold State.writeFused
  split
  · exact .refl s
  · exact ⟨rfl, rfl, fun w => foldl_fst_wf _ (fun _ _ h => putRow_wf _ _ _ _ _ _ _ h) _ (s.fab, (s.tile t).seq.rep.hist) w⟩

theorem State.writeAt_keeps (s : State) (a : Nat) (bs : List Byte) : s.Keeps (s.writeAt a bs) := by
  refine ⟨rfl, rfl, fun w => ?_⟩
  have h := s.fab.localWrite_wf (devAddr a) (bs.take (firstPart a bs.length)) w
  show Memory.wf (if firstPart a bs.length == bs.length then _ else _ : Fabric).mem = true
  split
  · exact h
  · exact Fabric.localWrite_wf _ _ _ h

theorem State.gateCore_keeps (s : State) (t : Nat) : s.Keeps (s.gateCore t) :=
  ((State.Keeps.of_kept (s.dropJobs_keeps t)).trans (.updTile _ _ _)).trans ⟨rfl, rfl, fun w => Fabric.clearPad_wf _ _ w⟩

theorem State.loseTile_keeps (s : State) (t : Nat) : s.Keeps (s.loseTile t) := by
  unfold State.loseTile
  dsimp only
  have h : s.Keeps (((s.recordFault (.faultTile t)).gateCore t).updTile t (fun x => { x with good := false, fenced := false, access := false })) :=
    ((State.Keeps.of_kept (s.recordFault_keeps _)).trans (State.gateCore_keeps _ _)).trans (.updTile _ _ _)
  split
  · exact h
  · split
    · exact h
    · split
      · exact h.trans (.of_kept (State.partitionLost_keeps _ _))
      · refine State.Keeps.trans ?_ (.of_kept (State.rePll_keeps _))
        refine State.Keeps.trans ?_ (.of_kept (State.recovered_keeps _ _ _))
        refine State.Keeps.trans ?_ (.of_kept (State.impair_keeps _ _ _ _))
        refine State.Keeps.trans ?_ (.of_kept (State.impair_keeps _ _ _ _))
        refine State.Keeps.trans ?_ (.of_kept (State.moveWires_keeps _ _))
        exact h.trans (.updPart _ _ _)

theorem State.fence_keeps (s : State) (t block : Nat) : s.Keeps (s.fence t block) := by
  unfold State.fence
  dsimp only
  split
  · exact .refl s
  · have h : s.Keeps ((s.gateCore t).updTile t (fun x => { x with fenced := true, failBlock := block })) :=
      (s.gateCore_keeps t).trans (.updTile _ _ _)
    split
    · split
      · exact h.trans (.of_kept (State.beginRecovery_keeps _ _ _))
      · exact h
    · exact h

theorem State.relink_keeps (s : State) (p : Nat) : s.Keeps (s.relink p) := by
  unfold State.relink
  dsimp only
  split
  · split
    · refine .foldl _ (fun s t => .foldl _ (fun s l => ?_) _ s) _ s
      split
      · split
        · exact .refl s
        · exact .of_kept (s.makeLink_keeps t l)
      · exact .refl s
    · exact .refl s
  · exact .refl s

/-- A part of the fabric beside memory is no store. -/
theorem State.Keeps.updFab (s : State) (g : Fabric → Fabric) (h : ∀ f, (g f).mem = f.mem) : s.Keeps (s.updFab g) :=
  ⟨rfl, rfl, fun w => (congrArg (fun m => Memory.wf m = true) (h s.fab)).mpr w⟩

/-- Replacing tiles one after another is no store. -/
theorem State.Keeps.tiles (s : State) (ts : List Nat) (f : Nat → Tile → Tile) :
    s.Keeps (ts.foldl (fun s t => s.updTile t (f t)) s) := .foldl _ (fun s t => .updTile s t (f t)) _ _

theorem State.startReplay_keeps (s : State) (p : Nat) : s.Keeps (s.startReplay p) := by
  unfold State.startReplay
  dsimp only
  have h1 : s.Keeps ((s.part p).tiles.foldl State.gatherAll s) := .foldl _ State.gatherAll_keeps _ _
  have h2 := h1.trans (.of_kept (State.resetLocal_keeps ((s.part p).tiles.foldl State.gatherAll s) p))
  split
  · refine State.Keeps.trans ?_ (.updPart _ _ _)
    refine State.Keeps.trans ?_ (.of_kept (State.disableAll_keeps _ _))
    refine State.Keeps.trans ?_ (State.relink_keeps _ _)
    refine State.Keeps.trans ?_ (.updPart _ _ _)
    refine State.Keeps.trans ?_ (.tiles _ _ _)
    exact h2.trans (.updFab _ _ (fun _ => rfl))
  · refine State.Keeps.trans ?_ (State.relink_keeps _ _)
    refine State.Keeps.trans ?_ (.updPart _ _ _)
    refine State.Keeps.trans ?_ (.tiles _ _ _)
    exact h2.trans (.updFab _ _ (fun _ => rfl))

theorem State.resume_keeps (s : State) (p key : Nat) : s.Keeps (s.resume p key) := by
  unfold State.resume
  dsimp only
  split
  · exact (State.Keeps.updPart s _ _).trans (State.startReplay_keeps _ _)
  · exact .updPart _ _ _

theorem State.restartPartition_keeps (s : State) (p : Nat) : s.Keeps (s.restartPartition p) := by
  unfold State.restartPartition
  dsimp only
  repeat' split
  all_goals first
    | exact .refl s
    | exact s.startReplay_keeps p
    | exact .updPart _ _ _

theorem State.thermalStop_keeps (s : State) (compute holeile : List (Option Int)) : s.Keeps (s.thermalStop compute holeile) := by
  unfold State.thermalStop
  split
  · split
    · exact .of_kept (s.raiseFault_keeps 3)
    · refine State.Keeps.trans ?_ (.of_kept (State.thermal_keeps _ _ _ _ _))
      refine State.Keeps.trans ?_ (.of_kept (State.raiseFault_keeps _ 3))
      exact .of_kept (s.stopClocks_keeps .thermal)
  · split
    · split
      · dsimp only
        split
        · refine State.Keeps.trans ?_ (.foldl _ State.restartPartition_keeps _ _)
          exact ⟨rfl, rfl, id⟩
        · exact ⟨rfl, rfl, id⟩
      · exact .of_kept (s.raiseFault_keeps 3)
    · exact .refl s

theorem State.retested_keeps (s : State) (t : Nat) : s.Keeps (s.retested t) := ⟨rfl, rfl, fun w => s.fab.clearPad_wf t w⟩

theorem State.landWrite_keeps (s : State) (h : MsgHead) (data : List Byte) : s.Keeps (s.landWrite h data) := by
  unfold State.landWrite
  dsimp only
  repeat' split
  all_goals first
    | exact .of_kept (State.answer_keeps _ _ _ _ _ _)
    | exact (State.Keeps.setFab s _ (fun w => s.fab.localWrite_wf _ _ w)).trans (.of_kept (State.answer_keeps _ _ _ _ _ _))

theorem State.blockSent_keeps (s : State) (t : Nat) (r : RelayRun) : s.Keeps (s.blockSent t r) := by
  unfold State.blockSent
  dsimp only
  refine State.Keeps.trans ?_ (.of_kept (State.engineNext_keeps _ t))
  refine State.Keeps.trans ?_ (.updTile _ _ _)
  split
  · exact ((State.Keeps.updTile s _ _).trans (State.gatherAll_keeps _ t)).trans (.of_kept (State.signalWire_keeps _ t _ _))
  · exact (State.Keeps.updTile s _ _).trans (State.gatherAll_keeps _ t)

theorem State.engineReads_keeps (s : State) (t : Nat) (rs : List (Nat × Nat)) : s.Keeps (s.engineReads t rs).1 :=
  .setFab s _ (spChecks_wf t rs s.fab true)

theorem haloLand_wf (f : Fabric) (src dst : Nat) (h : HaloEntry) (w : Memory.wf f.mem = true) :
    Memory.wf (haloLand f src dst h).mem = true := by
  unfold haloLand
  generalize List.range h.lines = l
  induction l generalizing f with
  | nil => exact w
  | cons i l ih => exact ih _ (f.spWrite_wf _ _ _ w)

theorem State.checkedRead_keeps (s : State) (d : DevAddr) (len : Nat) : s.Keeps (s.setFab (s.fab.checkedRead d len).1) :=
  .setFab s _ (s.fab.checkedRead_wf d len)

theorem State.localWrite_keeps (s : State) (d : DevAddr) (bs : List Byte) : s.Keeps (s.setFab (s.fab.localWrite d bs).2) :=
  .setFab s _ (s.fab.localWrite_wf d bs)

theorem State.markDirty_keeps (s : State) (t : Nat) (page : Option Nat) : s.Keeps (s.markDirty t page) := by
  unfold State.markDirty
  dsimp only
  split
  · exact (State.Keeps.setFab s _ (fun w => s.fab.colWrite_wf _ _ _ w)).trans (.updTile _ _ _)
  · exact .refl s

theorem State.writeSpill_keeps (s : State) (part : Part) (x : Side) (job : Job) (col place : Nat) :
    s.Keeps (s.writeSpill part x job col place).1 := by
  refine State.Keeps.trans ?_ (.updTile _ _ _)
  refine ⟨rfl, rfl, fun w => foldl_fst_wf _ (fun r e h => ?_) _ (s.fab, stOk) w⟩
  exact r.1.colWrite_wf _ _ _ h

theorem State.writeSpills_keeps (s : State) (part : Part) (x : Side) (job : Job) (spills : List (Nat × Nat)) :
    s.Keeps (s.writeSpills part x job spills).1 := by
  unfold State.writeSpills
  suffices ∀ r : State × Nat, r.1.Keeps (spills.foldl (fun (r : State × Nat) e =>
      let w := r.1.writeSpill part x job e.1 e.2
      (w.1, if r.2 == stOk then w.2 else r.2)) r).1 from this (s, stOk)
  induction spills with
  | nil => exact fun r => .refl r.1
  | cons e l ih => exact fun r => (r.1.writeSpill_keeps part x job e.1 e.2).trans (ih _)

theorem State.takeDone_keeps (s : State) (t : Nat) (p : Part) (st : ItinStep) (c : WorkCtx) : s.Keeps (s.takeDone t p st c) := by
  unfold State.takeDone
  dsimp only
  refine State.Keeps.trans ?_ (.updTile _ _ _)
  refine State.Keeps.trans ?_ (State.controlLinks_keeps _ _ _ _)
  exact .ite (.refl s) (.updTile s _ _)

theorem State.reportLinks_keeps (s : State) (r : Part) (ts : List Nat) : s.Keeps (s.reportLinks r ts) := by
  refine .foldl _ (fun s t => ?_) _ s
  split
  · exact s.controlLinks_keeps t r _
  · exact .refl s

end Sys2Proof.Machine
end

