-- ==== Sys2Proof/Tests/Slice0.lean ====
section
/-! SUPPORT. The model's own tests: operands that name nothing of the device, states that meet the hypotheses of each statement,
clause by clause, and small steps whose results were worked out from the manual or computed outside Lean. -/
namespace Sys2Proof.Tests
open Sys2Proof.Machine

section
set_option Elab.async false

/-! ### Operands that name nothing of the device -/

theorem test_wfTile : (Instr.take 511).wf = true ∧ (Instr.take 512).wf = false := by decide
theorem test_wfQueue : (Instr.tend 0 7).wf = true ∧ (Instr.tend 0 8).wf = false := by decide
theorem test_wfSemaphore : (Instr.semaphoreTake 0 63).wf = true ∧ (Instr.semaphoreTake 0 64).wf = false := by decide
theorem test_wfPartition : (Instr.hold 63).wf = true ∧ (Instr.hold 64).wf = false := by decide
theorem test_wfModule : (Instr.moduleRetrain 15).wf = true ∧ (Instr.moduleRetrain 16).wf = false := by decide
theorem test_wfRegion : (Instr.pllLock 15).wf = true ∧ (Instr.pllLock 16).wf = false := by decide
theorem test_wfColumn : (Instr.columnCheckFail 0 .a 31).wf = true ∧ (Instr.columnCheckFail 0 .a 32).wf = false := by decide
theorem test_wfTag : (Instr.remoteTimeout 65535).wf = true ∧ (Instr.remoteTimeout 65536).wf = false := by decide
theorem test_wfStatus : (Instr.writeAcknowledgement 0 255).wf = true ∧ (Instr.writeAcknowledgement 0 256).wf = false := by decide
theorem test_wfFindings : (Instr.bootTest ⟨[511], [⟨0, .a, 31⟩], []⟩).wf = true ∧ (Instr.bootTest ⟨[], [⟨0, .a, 32⟩], []⟩).wf = false := by decide
theorem test_wfSweepFindings : (Instr.sweepVerification 0 ⟨[], [], [511]⟩).wf = true ∧ (Instr.sweepVerification 0 ⟨[], [], [512]⟩).wf = false := by decide
theorem test_wfHead : (Instr.doorbell ⟨15, 0, 63, 0x200, true, 63, 0, 0⟩).wf = true ∧ (Instr.doorbell ⟨15, 0, 64, 0x200, true, 63, 0, 0⟩).wf = false := by decide
theorem test_wfStraps : (Instr.resetRelease 3 none none).wf = true ∧ (Instr.resetRelease 4 none none).wf = false := by decide
theorem test_wfData : (Instr.write ⟨0, 0, 0, 0, true, 0, 0, 0⟩ (List.replicate 2048 0)).wf = true ∧ (Instr.write ⟨0, 0, 0, 0, true, 0, 0, 0⟩ (List.replicate 2049 0)).wf = false := by decide +kernel
theorem test_wfLine : (Instr.spPatrolScrub 0 2047 []).wf = true ∧ (Instr.spPatrolScrub 0 2048 []).wf = false := by decide
theorem test_wfCells : (Instr.spPatrolScrub 0 0 [(31, 1151)]).wf = true ∧ (Instr.spPatrolScrub 0 0 [(32, 0)]).wf = false ∧ (Instr.spPatrolScrub 0 0 [(0, 1152)]).wf = false := by decide
theorem test_wfSymbols : (Instr.columnBurst 0 0 (List.replicate 8 [71])).wf = true ∧ (Instr.columnBurst 0 0 (List.replicate 9 [])).wf = false ∧ (Instr.columnBurst 0 0 [[72]]).wf = false ∧
    (Instr.dsPatrolScrub 0 0 [71]).wf = true ∧ (Instr.dsPatrolScrub 0 0 [72]).wf = false := by decide
theorem test_wfFlit : (Instr.flitReceive 0 []).wf = false ∧ (Instr.setdasa 128 0).wf = false ∧ (Instr.nak 0 4096).wf = false := by decide

/-! ### Small states -/

/-- A partition of class 0 with the tiles given. -/
def tPart (tiles : List Nat) : PartRec :=
  { pnum := 0, cls := 0, discipline := 1, ovf := 0, lead := tiles.headD 0, ntiles := tiles.length, floorShare := 0, itinEntry := 0,
    reqRing := 0, cplRing := 0, ringLog2 := 4, spillBase := 0, spillSize := 0, tiles := tiles }

def tComp (tiles : List Nat) (itin : List ItinStep) (wires : List Wire) (progs : List StreamProg) : Comp :=
  { part := tPart tiles, gangs := [], roads := [], links := [], progs := progs, funcs := [], wires := wires, itin := itin }

/-- A step for every tile, with no WSEM and no DLINK. -/
def tStep (b : StepBody) : ItinStep :=
  { wsem := none, tgt := .all, dlink := none, fbk := false, raw := true, wbc := false, ifmtA := 0, ifmtB := 0, ifmtC := 0, body := b }

/-- A tile that works for partition 0. -/
def tTile : Tile :=
  { Tile.init with
    good := true, usable := true, bound := some 0, access := true, powered := true, vgated := false,
    a := { Arr.init with gated := false }, b := { Arr.init with gated := false }, seq := { Seq.init with running := true } }

def tBound (c : Comp) : Part :=
  { Part.init with state := .running, comp := some c, lead := c.part.lead, tiles := c.part.tiles, wires := c.wires }

/-- The device READY, with the given tiles bound to partition 0 of the given composition. -/
def tState (tiles : Tab Tile) (c : Comp) : State :=
  { State.reset with
    pins := { Pins.init with resetHeld := false, rstN := true }, boot := { Boot.init with state := .ready },
    pow := { Power.init with pllOn := List.range 16 }, fab := { Fabric.init with tiles := tiles, parts := [(0, tBound c)] } }

/-- Tile 0 alone, at the first step of an itinerary. -/
def tOne (itin : List ItinStep) : State := tState [(0, tTile)] (tComp [0] itin [] [])

/-- The sequencer of `tOne` at its first step. -/
def tSeq : Seq := { Seq.init with running := true, ranks := [0] }

/-- A tile stands at its step: every part of `StandsAt` but the equation of the step. -/
theorem test_stands : (tOne [tStep .sync]).StandsAt 0 0 (tBound (tComp [0] [tStep .sync] [] [])) (tStep .sync) tSeq :=
  ⟨rfl, by decide, rfl, rfl, .inr ⟨rfl, rfl⟩⟩

/-- The partition of `tOne [st]`. -/
abbrev tP (st : ItinStep) : Part := tBound (tComp [0] [st] [] [])

/-! ### Sequencer steps -/

theorem test_stepTakesFront : step { State.reset with pending := [.sync 0, .idcode] } = exec (.sync 0) { State.reset with pending := [.idcode] } := rfl
theorem test_emptyQueueIdles : step State.reset = .next State.reset := rfl

def tLoop (n order : Nat) : ItinStep := tStep (.loop (.const n) 0 order)
def tBranch (cond n value : Nat) : ItinStep := tStep (.branch cond n 0 value)

theorem witness_LoopAndBranchSteps_empty : (tOne [tLoop 0 0]).StandsAt 0 0 (tP (tLoop 0 0)) (tLoop 0 0) tSeq ∧
    (tLoop 0 0).body = .loop (.const 0) 0 0 ∧ dimValue tSeq.ctx (.const 0) = 0 := ⟨⟨rfl, by decide, rfl, rfl, .inr ⟨rfl, rfl⟩⟩, rfl, rfl⟩
theorem witness_LoopAndBranchSteps_runs : (tOne [tLoop 1 1]).StandsAt 0 0 (tP (tLoop 1 1)) (tLoop 1 1) tSeq ∧
    (tLoop 1 1).body = .loop (.const 1) 0 1 ∧ dimValue tSeq.ctx (.const 1) ≠ 0 := ⟨⟨rfl, by decide, rfl, rfl, .inr ⟨rfl, rfl⟩⟩, rfl, by decide⟩
theorem witness_LoopAndBranchSteps_branch : ∀ cond ∈ [0, 1, 2, 3], (tOne [tBranch cond 7 0]).StandsAt 0 0 (tP (tBranch cond 7 0)) (tBranch cond 7 0) tSeq ∧
    (tBranch cond 7 0).body = .branch cond 7 0 0 ∧ cond < 4 := by
  simp only [State.StandsAt]; decide
theorem witness_LoopAndBranchSteps_branchNot : (tOne [tBranch 1 7 1]).StandsAt 0 0 (tP (tBranch 1 7 1)) (tBranch 1 7 1) tSeq ∧
    tSeq.ctx.opsel ≠ 1 := ⟨⟨rfl, by decide, rfl, rfl, .inr ⟨rfl, rfl⟩⟩, by decide⟩

def tSkip : Status := ⟨1, 0, 0⟩

/-- The tile of `tOne` in skip mode, or with an unfinished step of a WBC step. -/
def tSkipping (itin : List ItinStep) : State := tState [(0, { tTile with seq := { Seq.init with running := true, skip := some tSkip } })] (tComp [0] itin [] [])
def tRun (unit : StepUnit) (dlink : Option Nat) (finished : Bool) : StepRun :=
  { id := 0, step := 0, pass := 0, rank := 0, unit := unit, dlink := dlink, finished := finished, wbc := true, skip := false }
def tIssued (rs : List StepRun) (itin : List ItinStep) (wires : List Wire) : State :=
  tState [(0, { tTile with seq := { Seq.init with running := true, issued := rs } })] (tComp [0] itin wires [])

theorem witness_WorkingBufferSteps_sync : (tOne [tStep .sync]).StandsAt 0 0 (tP (tStep .sync)) (tStep .sync) tSeq :=
  ⟨rfl, by decide, rfl, rfl, .inr ⟨rfl, rfl⟩⟩
theorem witness_WorkingBufferSteps_wbuf : (tOne [tStep (.wbuf 0 64)]).StandsAt 0 0 (tP (tStep (.wbuf 0 64))) (tStep (.wbuf 0 64)) tSeq ∧ tSeq.skip = none :=
  ⟨⟨rfl, by decide, rfl, rfl, .inr ⟨rfl, rfl⟩⟩, rfl⟩
theorem witness_WorkingBufferSteps_wbufSkip : (tSkipping [tStep (.wbuf 0 64)]).StandsAt 0 0 (tP (tStep (.wbuf 0 64))) (tStep (.wbuf 0 64)) { tSeq with skip := some tSkip } :=
  ⟨rfl, by decide, rfl, rfl, .inr ⟨rfl, rfl⟩⟩
theorem witness_WorkingBufferSteps_swing : (tOne [tStep .swing]).StandsAt 0 0 (tP (tStep .swing)) (tStep .swing) tSeq ∧ tSeq.skip = none ∧
    ((tOne [tStep .swing]).tile 0).wbActive true true = false ∧ ∀ r ∈ tSeq.issued, r.wbc = true → r.finished = true :=
  ⟨⟨rfl, by decide, rfl, rfl, .inr ⟨rfl, rfl⟩⟩, rfl, by decide, by decide⟩
theorem witness_WorkingBufferSteps_swingSkip : (tSkipping [tStep .swing]).StandsAt 0 0 (tP (tStep .swing)) (tStep .swing) { tSeq with skip := some tSkip } :=
  ⟨rfl, by decide, rfl, rfl, .inr ⟨rfl, rfl⟩⟩
theorem witness_WorkingBufferSteps_swingHeld : (tIssued [tRun .vector none false] [tStep .swing] []).StandsAt 0 0 (tP (tStep .swing)) (tStep .swing)
    { tSeq with issued := [tRun .vector none false] } := ⟨rfl, by decide, rfl, rfl, .inr ⟨rfl, rfl⟩⟩

def tWait : ItinStep := { tStep .sync with wsem := some 63 }

theorem witness_StepsIssueOrWait : (tOne [tWait]).partAt 0 = some (0, tP tWait) ∧ (tOne [tWait]).seqRuns 0 = true ∧
    seqSettle (tP tWait) 0 ((tP tWait).itin.length + 1) ((tOne [tWait]).tile 0).seq = tSeq ∧ (tP tWait).itin[tSeq.pc]? = some tWait ∧ tSeq.hold = .run ∧
    tWait.wsem = some 63 ∧ tWait.body = .sync := ⟨rfl, by decide, rfl, rfl, rfl, rfl, rfl⟩
/-- DONE with a work item in progress. -/
theorem witness_StepsIssueOrWait_done : let s := (tOne [{ tStep .done with wsem := some 63 }]).updTile 0 (fun x => { x with seq := { x.seq with inWork := true } })
    (s.partAt 0).isSome = true ∧ s.seqRuns 0 = true ∧ (s.tile 0).seq.hold = .run ∧ (s.tile 0).seq.inWork = true ∧
    (seqSettle (s.part 0) 0 ((s.part 0).itin.length + 1) (s.tile 0).seq).pc = 0 ∧ ((s.part 0).itin[0]?).map (fun st => (st.wsem, st.body)) = some (some 63, .done) := by decide
/-- Both clauses of the ranks: one rank left, and two. -/
theorem witness_StepsIssueOrWait_ranks : ({ tTile with seq := tSeq }).seq.ranks.length ≤ 1 ∧ 1 < ({ tTile with seq := { tSeq with ranks := [0, 1] } }).seq.ranks.length := by decide

def tWire : Wire := { link := 0, ptile := 0, psem := 1, init := 0, cons := [(0, 0)] }

/-- A finished vector step, an unfinished one, one with a DLINK, and a step of another unit. -/
theorem witness_StepCompleteMakesItsLink : ∀ r ∈ [tRun .vector none true, tRun .vector none false, tRun .vector (some 0) true, tRun .none none true],
    (((tIssued [r] [] [tWire]).updTile 0 Tile.settleRelays).tile 0).seq.issued[0]? = some r ∧ (tIssued [r] [] [tWire]).tileRuns 0 = true := by decide
/-- STEP_COMPLETE of a step with a DLINK signals the wire's consumer, here a semaphore of the tile itself (R338, R372). -/
theorem test_stepCompleteSignals : (match exec (.stepComplete 0 0) (tIssued [tRun .vector (some 0) true] [] [tWire]) with
    | .next s => (s.tile 0).sem 0 | _ => ⟨0, false⟩) = ⟨1, false⟩ := by decide

def tGather : State := (tOne []).updTile 0 (fun x => { x with gather := [⟨2, List.replicate 31 none ++ [some 0xAB]⟩] })

theorem witness_StepCompleteMakesItsLink_flush : (tGather.tile 0).gather = [⟨2, List.replicate 31 none ++ [some 0xAB]⟩] ∧ tGather.tileRuns 0 = true ∧
    Memory.wf tGather.fab.mem = true ∧ tGather.CleanPad 0 ∧ 32 * 2 + 31 < spSize := by
  simp only [State.CleanPad]; decide
theorem test_gatherFlushWrites : (match exec (.gatherFlush 0) tGather with | .next s => s.fab.mem | _ => []) = [⟨spKey 0 95, 0xAB⟩] := by decide

/-! ### Vector unit -/

def tVecBody (vop : Nat) (rows cols : Nat) : Vec :=
  { vop := vop, conv := 0, ring := 8, func := 0, rows := .const rows, cols := .const cols, maxR := 1, maxC := 2, srcA := 0, srcB := 64, srcC := 128,
    dst := 256, pitch := 32, imm := 0, dstAux := 320 }
def tVec (vop rows cols : Nat) : ItinStep := tStep (.vec (tVecBody vop rows cols))

/-- What a vector step of `tOne [st]` reads. -/
def tReads (st : ItinStep) (v : Vec) : List (Nat × Nat) := ((tOne [st]).updTile 0 (fun x => { x with seq := tSeq })).vecReads 0 (tP st) st v

/-- Each element-wise operation, at the greatest shape that its maxima allow. -/
theorem witness_ElementwiseSteps : ∀ vop ∈ [0, 1, 2, 3, 4, 5, 6, 7, 8, 9, 10, 11, 12, 18, 19], vop ∈ rowwiseCommands.map (·.1) ∧
    (tOne [tVec vop 1 2]).StandsAt 0 0 (tP (tVec vop 1 2)) (tVec vop 1 2) tSeq ∧ (tVec vop 1 2).body = .vec (tVecBody vop 1 2) ∧ tSeq.skip = none ∧
    (tOne [tVec vop 1 2]).VectorFree 0 tSeq ∧ (tOne [tVec vop 1 2]).ReadsWell 0 (tReads (tVec vop 1 2) (tVecBody vop 1 2)) ∧
    (tVecBody vop 1 2).ringOf = none ∧ 0 < 1 ∧ 1 ≤ (tVecBody vop 1 2).maxR ∧ 2 ≤ (tVecBody vop 1 2).maxC := by
  simp only [State.StandsAt, State.VectorFree, State.ReadsWell, State.CleanPad]; decide

def tRingVec : ItinStep := tStep (.vec { tVecBody 0 1 2 with ring := 7 })
def tRingState : State := (tOne [tRingVec]).updTile 0 (fun x => x.setQueue 7 { Queue.init with full := 1, free := 2 })

theorem witness_ElementwiseSteps_ring : tRingState.StandsAt 0 0 (tP tRingVec) tRingVec tSeq ∧ { tVecBody 0 1 2 with ring := 7 }.ringOf = some 7 ∧
    1 ≤ ((tRingState.tile 0).queue 7).full := ⟨⟨rfl, by decide, rfl, rfl, .inr ⟨rfl, rfl⟩⟩, rfl, by decide⟩
/-- A finished vector step that has not completed stands before the new one. -/
theorem witness_ElementwiseSteps_behind : (tIssued [tRun .vector none true] [tVec 0 1 2] []).StandsAt 0 0 (tP (tVec 0 1 2)) (tVec 0 1 2)
    { tSeq with issued := [tRun .vector none true] } ∧ [tRun .vector none true].find? (fun r => r.unit == .vector) = some (tRun .vector none true) :=
  ⟨⟨rfl, by decide, rfl, rfl, .inr ⟨rfl, rfl⟩⟩, rfl⟩

def memWith (s : State) (k : Nat) (bs : List Byte) : State := s.updFab (fun f => { f with mem := memWrites f.mem k bs })

/-- ADD of 1.0 and 2.0 is 3.0 (R250), and 4 cells hold it at DST. -/
theorem test_addWrites : (match exec (.add 0) (memWith (memWith (tOne [tVec 0 1 1]) (spKey 0 0) [0, 0, 0x80, 0x3F]) (spKey 0 64) [0, 0, 0, 0x40]) with
    | .next s => memReads s.fab.mem (spKey 0 256) 4 | _ => []) = [0, 0, 0x40, 0x40] := by decide +kernel

def tPlane : OutPlane := { base := 0, pitch := 8, aux := 0, conv := convByte 0, raw := true, int := false, cols := 2 }

theorem witness_RawResultsLieAtDst : Memory.wf Fabric.init.mem = true ∧ tPlane.raw = true ∧ 4 * 2 ≤ tPlane.pitch ∧
    (∀ r : Nat, ((fun _ => [0x3F800000, 0]) r : List (BitVec 32)).length = 2) ∧ ∀ r, r < 3 → tPlane.base + r * tPlane.pitch + 4 * 2 ≤ spSize :=
  ⟨by decide, rfl, by decide, fun _ => rfl, by decide⟩

theorem witness_RowReductionCompletes : ∀ vop ∈ [13, 14, 15, 16, 17], (tOne [tVec vop 1 2]).StandsAt 0 0 (tP (tVec vop 1 2)) (tVec vop 1 2) tSeq ∧
    (tVec vop 1 2).body = .vec (tVecBody vop 1 2) ∧ tSeq.skip = none ∧ (tOne [tVec vop 1 2]).VectorFree 0 tSeq ∧
    (tOne [tVec vop 1 2]).ReadsWell 0 (tReads (tVec vop 1 2) (tVecBody vop 1 2)) ∧ (tVecBody vop 1 2).ringOf = none ∧ (tVec vop 1 2).raw = true := by
  simp only [State.StandsAt, State.VectorFree, State.ReadsWell, State.CleanPad]; decide

def tJunct : Junct := { nr := 4, present := 0x9, conv := 0, count := .const 2, max := 2, dst := 256, srcs := [0, 8, 16, 24], dstAux := 320 }

theorem witness_JunctionStepCompletes : (tOne [tStep (.junct tJunct)]).StandsAt 0 0 (tP (tStep (.junct tJunct))) (tStep (.junct tJunct)) tSeq ∧ tSeq.skip = none ∧
    (tOne [tStep (.junct tJunct)]).VectorFree 0 tSeq ∧ (tOne [tStep (.junct tJunct)]).ReadsWell 0
      (((tOne [tStep (.junct tJunct)]).updTile 0 (fun x => { x with seq := tSeq })).junctReads 0 (tP (tStep (.junct tJunct))) (tStep (.junct tJunct)) tJunct) ∧
    0 < dimValue tSeq.ctx tJunct.count ∧ dimValue tSeq.ctx tJunct.count ≤ tJunct.max := by
  simp only [State.StandsAt, State.VectorFree, State.ReadsWell, State.CleanPad]; decide

/-- One above the row maximum, one above the column maximum, and a dimension of 0. -/
theorem witness_VectorShapesOutOfRange : ∀ sh ∈ [(2, 2), (1, 3), (0, 2), (1, 0)], (tOne [tVec 0 sh.1 sh.2]).StandsAt 0 0 (tP (tVec 0 sh.1 sh.2)) (tVec 0 sh.1 sh.2) tSeq ∧
    (tVecBody 0 sh.1 sh.2).ringOf = none ∧ tSeq.skip = none ∧
    ((tVecBody 0 sh.1 sh.2).maxR < sh.1 ∨ (tVecBody 0 sh.1 sh.2).maxC < sh.2 ∨
      (sh.1 ≤ (tVecBody 0 sh.1 sh.2).maxR ∧ sh.2 ≤ (tVecBody 0 sh.1 sh.2).maxC ∧ (sh.1 = 0 ∨ sh.2 = 0))) := by
  simp only [State.StandsAt]; decide
theorem witness_VectorShapesOutOfRange_skip : (tSkipping [tVec 0 1 2]).StandsAt 0 0 (tP (tVec 0 1 2)) (tVec 0 1 2) { tSeq with skip := some tSkip } :=
  ⟨rfl, by decide, rfl, rfl, .inr ⟨rfl, rfl⟩⟩
theorem witness_VectorShapesOutOfRange_ring : let s := (tSkipping [tRingVec]).updTile 0 (fun x => x.setQueue 7 { Queue.init with full := 1, free := 2 })
    s.StandsAt 0 0 (tP tRingVec) tRingVec { tSeq with skip := some tSkip } ∧ s.VectorFree 0 { tSeq with skip := some tSkip } ∧ 1 ≤ ((s.tile 0).queue 7).full := by
  simp only [State.StandsAt, State.VectorFree]; decide

/-! ### Streams -/

def tDesc : Desc :=
  { prog := 1, queue := 7, dest := 0, src := 0, ringq := 6, outst := 1, prio := false, wb := false, wbr := false, six := false, ringBase := 0x1000, slot := 64 }
def tProg (i : StreamInstr) : StreamProg := ⟨1, [i]⟩
def tLaunch (d : Desc) (i : StreamInstr) : Launch := { desc := d, params := [0], prog := tProg i, run := 0, step := 0, rank := 0 }

/-- Tile 0 with one stream on queue 7, and what else the queues hold. -/
def tStream (d : Desc) (i : StreamInstr) (u : Queue → Queue) (wires : List Wire) : State :=
  tState [(0, tTile.setQueue 7 (u { Queue.init with state := .run, cur := some (tLaunch d i), ringBase := 0x1000, ringSlot := 64 }))] (tComp [0] [] wires [tProg i])

def tXfer (path : XPath) : Xfer :=
  { seq := 0, instr := 0, src := 0, dst := 4096, len := 32, tr := 0, esize := false, tpitch := 0, path := path, answered := true, status := 0, data := [], done := 0,
    page := none, unsent := [], sent := [] }

def tLaunchStep : ItinStep := tStep (.launch tDesc [⟨0, 0, 7, 0, 5⟩])
def tArm (st : QState) (shadow : Option Launch) (lost : List Nat) : State :=
  ((tOne [tLaunchStep]).updTile 0 (fun x => x.setQueue 7 { Queue.init with state := st, shadow := shadow })).updPart 0 (fun p =>
    { p with comp := some (tComp [0, 1] [tLaunchStep] [] [tProg .tend]), lost := lost })
def tArmPart (lost : List Nat) : Part := { tP tLaunchStep with comp := some (tComp [0, 1] [tLaunchStep] [] [tProg .tend]), lost := lost }

/-- A launch for the tile's own rank on a queue in each state. -/
theorem witness_LaunchArmsItsQueue : ∀ st ∈ [QState.idle, .run, .last, .halt, .stop, .error], (tArm st none []).StandsAt 0 0 (tArmPart []) tLaunchStep tSeq ∧
    (tArmPart []).comp = some (tComp [0, 1] [tLaunchStep] [] [tProg .tend]) ∧ (stepTargets (tComp [0, 1] [tLaunchStep] [] [tProg .tend]) tLaunchStep).getD 0 0 = 0 ∧
    (((tArm st none []).tile 0).queue 7).state = st := by
  simp only [State.StandsAt]; decide
/-- Tile 0 has its own rank behind it and runs the rank of the lost tile 1; the shadow is full. -/
theorem witness_LaunchArmsItsQueue_otherRank :
    ((tArm .run (some (tLaunch tDesc .tend)) [1]).updTile 0 (fun x => { x with seq := { tSeq with ranks := [1] } })).StandsAt 0 0 (tArmPart [1]) tLaunchStep { tSeq with ranks := [1] } ∧
    (stepTargets (tComp [0, 1] [tLaunchStep] [] [tProg .tend]) tLaunchStep).getD 1 0 ≠ 0 ∧ (((tArm .run (some (tLaunch tDesc .tend)) [1]).tile 0).queue 7).shadow ≠ none := by
  refine ⟨⟨rfl, by decide, rfl, rfl, .inr ⟨rfl, rfl⟩⟩, by decide⟩
theorem witness_LaunchArmsItsQueue_shadow : ∀ st ∈ [QState.last, .run], (tArm st (some (tLaunch tDesc .tend)) []).working 0 = true ∧
    (((tArm st (some (tLaunch tDesc .tend)) []).tile 0).queue 7).shadow = some (tLaunch tDesc .tend) ∧ (((tArm st (some (tLaunch tDesc .tend)) []).tile 0).queue 7).out = [] ∧
    (tLaunch tDesc .tend).prog.instrs ≠ [] := by decide

theorem witness_BaseAndLoopInstructions : ∀ i ∈ [StreamInstr.base true 0 5, .base false 0 5, .loop 0 0 3 1 1, .loop 0 8 0 1 1, .loop 0 8 3 1 1],
    (tStream tDesc i id []).StreamAt 0 7 (tLaunch tDesc i) i := by
  simp only [State.StreamAt]; decide

def tRingOut : Desc := { tDesc with dest := 1 }
def tRingIn : Desc := { tDesc with src := 1 }

theorem witness_TendHandsTheTileOver : (tStream tDesc .tend id []).StreamAt 0 7 (tLaunch tDesc .tend) .tend ∧ (((tStream tDesc .tend id []).tile 0).queue 7).out = [] ∧
    tDesc.dest ≠ 1 ∧ tDesc.src ≠ 1 := ⟨⟨by decide, rfl⟩, by decide⟩
theorem witness_TendHandsTheTileOver_waits : (tStream tDesc .tend (fun u => { u with out := [tXfer .near] }) []).StreamAt 0 7 (tLaunch tDesc .tend) .tend ∧
    (((tStream tDesc .tend (fun u => { u with out := [tXfer .near] }) []).tile 0).queue 7).out ≠ [] := ⟨⟨by decide, rfl⟩, by decide⟩
/-- A producer whose slot is held, one that takes its last free slot, and one with none left. -/
theorem witness_TendHandsTheTileOver_producer : ∀ h ∈ [(true, 0), (false, 1), (false, 0)],
    (tStream tRingOut .tend (fun u => { u with free := h.2, prodHeld := h.1 }) []).StreamAt 0 7 (tLaunch tRingOut .tend) .tend ∧ tRingOut.dest = 1 ∧ tRingOut.src ≠ 1 := by
  simp only [State.StreamAt]; decide
theorem witness_TendHandsTheTileOver_consumer : (tStream tRingIn .tend (fun u => { u with consHeld := true }) []).StreamAt 0 7 (tLaunch tRingIn .tend) .tend ∧
    tRingIn.dest ≠ 1 ∧ tRingIn.src = 1 ∧ tRingIn.ringq ≠ 7 := ⟨⟨by decide, rfl⟩, by decide⟩
theorem witness_TendHandsTheTileOver_empty : let s := tStream tRingIn .tend id []
    s.StreamAt 0 7 (tLaunch tRingIn .tend) .tend ∧ ((s.tile 0).queue 7).consHeld = false ∧ ((s.tile 0).queue 6).full = 0 ∧
    ((s.tile 0).queue 7).ringBase = tRingOut.ringBase ∧ ((s.tile 0).queue 7).ringSlot = tRingOut.slot := ⟨⟨by decide, rfl⟩, by decide⟩

theorem witness_StreamSignalsAndWaits : (tStream tDesc (.signal 0) id [tWire]).StreamAt 0 7 (tLaunch tDesc (.signal 0)) (.signal 0) ∧
    (((tStream tDesc (.signal 0) id [tWire]).tile 0).queue 7).out = [] ∧ (tStream tDesc (.signal 0) id [tWire]).wireOf 0 0 = some (0, tWire) := ⟨⟨by decide, rfl⟩, by decide⟩
theorem witness_StreamSignalsAndWaits_waits : (tStream tDesc (.signal 0) (fun u => { u with out := [tXfer .near] }) [tWire]).StreamAt 0 7 (tLaunch tDesc (.signal 0)) (.signal 0) :=
  ⟨by decide, rfl⟩
theorem witness_StreamSignalsAndWaits_wait : (tStream tDesc (.wait 63) id []).StreamAt 0 7 (tLaunch tDesc (.wait 63)) (.wait 63) := ⟨by decide, rfl⟩
/-- A take waits on a semaphore of no multicast wire, and on a multicast wire's whose second consumer alone lags. -/
theorem witness_StreamSignalsAndWaits_stall : let w : Wire := { tWire with psem := 63, cons := [(511, 0), (1, 63)] }
    let s := tStream tDesc (.wait 63) (fun u => { u with waiting := true }) [w]
    ((s.tile 0).queue 7).instr = some (tLaunch tDesc (.wait 63), .wait 63) ∧ s.multicastAt 0 63 = some w ∧ s.multicastAt 0 62 = none ∧ slowest [0, 0] = none ∧ slowest [0, 1] = some 0 := by decide
theorem witness_StreamSignalsAndWaits_messages : (tState [(0, tTile), (1, tTile), (511, tTile)] (tComp [0, 1, 511] [] [] [])).crosses { tWire with cons := [(511, 0), (1, 63)] } = false ∧
    ∀ c ∈ [(511, 0), (1, 63)], farTile c.1 = false ∧ c.1 ≠ 0 := by decide

def tX : StreamInstr := .xfer 0 false 0 32

theorem witness_TransferIsIssued : (tStream tDesc tX id []).StreamAt 0 7 (tLaunch tDesc tX) tX ∧ (tStream tDesc tX id []).partAt 0 = some (0, tBound (tComp [0] [] [] [tProg tX])) ∧
    (((tStream tDesc tX id []).tile 0).queue 7).remainder = false ∧ (((tStream tDesc tX id []).tile 0).queue 7).out.length < tDesc.outst ∧
    (((tStream tDesc tX id []).tile 0).setQueue 7 (((tStream tDesc tX id []).tile 0).queue 7)).takeRings 7 (tLaunch tDesc tX) = some ((tStream tDesc tX id []).tile 0) ∧
    (devAddr (xferSrc ((tStream tDesc tX id []).tile 0) 0 0 1 (((tStream tDesc tX id []).tile 0).queue 7) (tLaunch tDesc tX))).space ≠ 2 ∧
    (devAddr (xferDst ((tStream tDesc tX id []).tile 0) 0 0 1 (((tStream tDesc tX id []).tile 0).queue 7) (tLaunch tDesc tX))).space ≠ 2 :=
  ⟨⟨by decide, rfl⟩, rfl, rfl, by decide, rfl, by decide, by decide⟩
theorem witness_TransferIsIssued_limit : (tStream tDesc tX (fun u => { u with out := [tXfer .near] }) []).StreamAt 0 7 (tLaunch tDesc tX) tX ∧
    tDesc.outst ≤ [tXfer .near].length := ⟨⟨by decide, rfl⟩, by decide⟩
theorem witness_TransferIsIssued_remainder : (tStream tDesc tX (fun u => { u with state := .error, remainder := true }) []).StreamAt 0 7 (tLaunch tDesc tX) tX := ⟨by decide, rfl⟩

def tNear (st : Nat) : State := tStream tDesc tX (fun u => { u with out := [{ tXfer .near with status := st }] }) []

theorem witness_NearTransferMovesItsBytes : ∀ st ∈ [0, 6], (((tNear st).tile 0).queue 7).cur = some (tLaunch tDesc tX) ∧
    (((tNear st).tile 0).queue 7).out[0]? = some { tXfer .near with status := st } ∧ (tNear st).tileRuns 0 = true ∧ (((tNear st).tile 0).queue 7).state = .run ∧
    (∀ v ∈ (((tNear st).tile 0).queue 7).out.take 0, overlapping (tXfer .near) v = false) ∧ (tXfer .near).unsent = [] ∧ (tXfer .near).answered = true ∧ (tXfer .near).data = [] := by decide
theorem witness_NearTransferMovesItsBytes_ok : ((tNear 0).fab.localRead (devAddr 0) 32).1 = stOk ∧
    ((tNear 0).fab.localWrite (devAddr 4096) ((tNear 0).fab.localRead (devAddr 0) 32).2).1 = stOk ∧ (tXfer .near).tr = 0 ∧ (tXfer .near).page = none ∧ (tNear 0).fab.flips = [] := by decide
/-- A queue in STOP with the transfer of a port, and with one of memory. -/
theorem witness_NearTransferMovesItsBytes_stop : ∀ d ∈ [0, 2], let u := ((tStream { tDesc with dest := d } tX (fun u => { u with state := .stop, out := [tXfer .near] }) []).tile 0).queue 7
    u.cur = some (tLaunch { tDesc with dest := d } tX) ∧ u.out[0]? = some (tXfer .near) ∧ u.state = .stop := by decide
/-- A vector of 32 words goes whole to the lanes of array A. -/
theorem witness_NearTransferMovesItsBytes_port : let s := tStream { tDesc with dest := 2 } tX (fun u => { u with out := [{ tXfer .near with len := 64 }] }) []
    ((s.tile 0).queue 7).out[0]? = some { tXfer .near with len := 64 } ∧ s.tileRuns 0 = true ∧ (∀ e ∈ s.fab.flips, e.1 ≠ 0) ∧ (devAddr (tXfer .near).src).space = 0 ∧
    (devAddr (tXfer .near).src).tile = 0 ∧
    ((s.tile 0).deliver (tLaunch { tDesc with dest := 2 } tX) { tXfer .near with len := 64 } (s.fab.spRead 0 0 (srcSpan 0 false 0 64)) (s.laneRoom 0 (destSide 2)) (s.pairRoom 0)).2 = 64 := by
  decide
/-- Answered transfers over the roads and Varmlink, reads with their bytes and writes. -/
theorem witness_NearTransferMovesItsBytes_answered : ∀ w ∈ [true, false], ∀ path ∈ [XPath.road 1 w, .remote w],
    let s := tStream tDesc tX (fun u => { u with out := [{ tXfer path with data := [1, 2] }] }) []
    ((s.tile 0).queue 7).out[0]? = some { tXfer path with data := [1, 2] } ∧ s.tileRuns 0 = true ∧ (s.fab.localWrite (devAddr 4096) [1, 2]).1 = stOk := by decide

/-- Far page 0's entry, the word given, lies in tile 0's column; the stream waits for it. -/
def tFar (entry : Byte) (lost : List (Nat × Nat)) : State :=
  ((memWith (tStream tDesc tX (fun u => { u with fptWait := some 0 }) []) (2 ^ 56) [entry]).updPart 0 (fun p => { p with fptBase := 2 ^ 56, fptLen := 1 })).updFab
    (fun f => { f with lostWords := lost })

/-- An entry that names tile 0, present and writable; one that is not present; one whose codeword is lost. -/
theorem witness_FarPageCacheAndFaults : (((tFar 3 []).tile 0).queue 7).fptWait = some 0 ∧ ((tFar 3 []).partAt 0).map (·.1) = some 0 ∧ (((tFar 3 []).tile 0).queue 7).instr = some (tLaunch tDesc tX, tX) ∧
    (tFar 3 []).working 0 = true ∧ (tFar 3 []).fab.colRead (devAddr (2 ^ 56)).tile (devAddr (2 ^ 56)).off 8 = (stOk, [3, 0, 0, 0, 0, 0, 0, 0]) ∧
    judgeEntry 0 ((tFar 3 []).part 0) true 0 3 = .ok (2 ^ 56) 3 ∧ (tFar 2 []).fab.colRead 0 0 8 = (stOk, [2, 0, 0, 0, 0, 0, 0, 0]) ∧ judgeEntry 0 ((tFar 2 []).part 0) false 0 2 = .fault 1 ∧
    ((tFar 3 [(0, 0)]).fab.colRead 0 0 8).1 ≠ stOk := by decide

def tHalted (st : QState) : State := tStream tDesc tX (fun u => { u with state := st, posValid := true, busy := st == .stop, out := [tXfer .near] }) []

theorem witness_FarPageCacheAndFaults_resume : ((tHalted .halt).part 0).isBound = true ∧ ((tHalted .halt).tile (bits 0xE00 0 9)).bound = some 0 ∧
    (((tHalted .halt).tile 0).queue (bits 0xE00 9 3)).state = .halt ∧ (tHalted .halt).stewardRuns = true ∧ (((tHalted .stop).tile 0).queue 7).busy = true ∧
    (((tHalted .halt).tile 0).queue 7).busy = false ∧ Memory.wf (tHalted .stop).fab.mem = true ∧ (tHalted .stop).fab.flips = [] ∧
    ∀ v ∈ (((tHalted .stop).tile 0).queue 7).out, v.page = none ∧ v.path = .near := by decide

/-- A stream that reads far page 0 of one, far page 1 of one, or far page 0 with its entry cached. -/
def tFarX (page dst : Nat) (cache : List (Nat × Word)) : State :=
  ((tStream tDesc tX (fun u => { u with srcReg := 2 ^ 57 + page * 2 ^ 21, dstReg := dst }) []).updPart 0 (fun p =>
    { p with fptBase := 2 ^ 56, fptLen := 1 })).updTile 0 (fun x => { x with fptCache := cache })
theorem witness_TransferIsIssued_far : ∀ e ∈ [(0, []), (1, []), (0, [((0 : Nat), (3 : Word))])], let s := tFarX e.1 0 e.2
    let x := (s.tile 0).setQueue 7 ((s.tile 0).queue 7)
    s.StreamAt 0 7 (tLaunch tDesc tX) tX ∧ ((s.tile 0).queue 7).remainder = false ∧ x.takeRings 7 (tLaunch tDesc tX) = some x ∧
    (devAddr (xferSrc x 0 0 1 (x.queue 7) (tLaunch tDesc tX))).space = 2 ∧ (devAddr (xferDst x 0 0 1 (x.queue 7) (tLaunch tDesc tX))).space = 0 ∧
    isNear 0 0 (xferDst x 0 0 1 (x.queue 7) (tLaunch tDesc tX)) = true ∧ bits (xferSrc x 0 0 1 (x.queue 7) (tLaunch tDesc tX)) 0 21 + 32 ≤ 2 ^ 21 ∧
    farLookup 0 (s.part 0) x none false (xferSrc x 0 0 1 (x.queue 7) (tLaunch tDesc tX)) = (if e.1 = 1 then .fault 0 else if e.2 = [] then .miss else .ok (2 ^ 56) 3) := by
  simp only [State.StreamAt]; decide
/-- Two far-page ends, and a destination ring without a free slot. -/
theorem witness_TransferIsIssued_stops : (devAddr (xferDst ((tFarX 0 (2 ^ 57) []).tile 0) 0 0 1 (((tFarX 0 (2 ^ 57) []).tile 0).queue 7) (tLaunch tDesc tX))).space = 2 ∧
    (let s := tStream tRingOut tX (fun u => { u with free := 0 }) []
     s.StreamAt 0 7 (tLaunch tRingOut tX) tX ∧ ((s.tile 0).queue 7).ringBase = tRingOut.ringBase ∧ ((s.tile 0).queue 7).ringSlot = tRingOut.slot ∧
     ((s.tile 0).setQueue 7 ((s.tile 0).queue 7)).takeRings 7 (tLaunch tRingOut tX) = none) := by
  simp only [State.StreamAt]; decide

/-! ### Semaphores and neighbour engine -/

def tTake (count : Nat) (tag : Bool) (k : Taker) : State := (tOne []).updTile 0 (fun x => { x with waits := [(63, k)] }.setSem 63 ⟨count, tag⟩)

/-- A take of the sequencer and of a stream, with a count of 0 and of 1, tagged and not. -/
theorem witness_SemaphoreTakeIsGranted : ∀ k ∈ [Taker.seq, .queue 7], ∀ tag ∈ [true, false], ∀ n ∈ [0, 1],
    ((tTake n tag k).tile 0).waits.find? (fun w => w.1 == 63) = some (63, k) ∧ (tTake n tag k).tileRuns 0 = true ∧ ((tTake n tag k).tile 0).sem 63 = ⟨n, tag⟩ := by decide

def tMsg (release : Bool) : SemMsg := { pnum := 0, link := 0, release := release, entry := 0, tagged := false, dest := 0, letGo := true }
def tRoad (m : SemMsg) : State := (tState [(0, tTile.setSem 0 ⟨0xFFFF, false⟩)] (tComp [0] [] [tWire] [])).updFab (fun f => { f with semMsgs := [m] })

theorem witness_SignalsArriveAndSaturate : (tRoad (tMsg false)).fab.semMsgs[0]? = some (tMsg false) ∧ (tRoad (tMsg false)).pins.stops = [] ∧ (tMsg false).release = false ∧
    ((tRoad (tMsg false)).part 0).wires.find? (fun w => w.link == 0) = some tWire ∧ tWire.cons[0]? = some (0, 0) ∧ ((tRoad (tMsg false)).tile 0).access = true ∧
    (tRoad (tMsg false)).fab.roadOpen 0 0 = true ∧ (tRoad (tMsg false)).pathRuns 0 0 = true := by decide
theorem witness_SignalsArriveAndSaturate_dropped : let s := (tRoad (tMsg false)).updTile 0 (fun x => { x with access := false })
    s.fab.semMsgs[0]? = some (tMsg false) ∧ (s.tile 0).access = false := by decide
/-- A count of 0xFFFF stays, and its bit of TL_SEM_OVF is set (R340). -/
theorem test_signalSaturates : (match exec (.semaphoreMessage 0) (tRoad (tMsg false)) with | .next s => (((s.tile 0).sem 0).count, (s.tile 0).semOvf) | _ => (0, 0)) = (0xFFFF, 1) := by decide

def tTwo : Wire := { tWire with cons := [(0, 0), (0, 2)] }
def tRel (w : Wire) : State := ((tState [(0, tTile)] (tComp [0] [] [w] [])).updTile 0 (fun x => { x with releases := [tMsg true] })).updFab (fun f => { f with semMsgs := [tMsg true] })

/-- A wire of one consumer, whose every lag is then 1, and one of two, where the second lag stays 0; own release and over the roads. -/
theorem witness_ReleaseAdvancesEveryLag : ∀ w ∈ [tWire, tTwo], ((tRel w).part 0).wires.find? (fun w => w.link == 0) = some w ∧ (tMsg true).release = true ∧ (tMsg true).dest = 0 ∧
    ((tRel w).tile 0).releases = [tMsg true] ∧ (tRel w).tileRuns 0 = true ∧ (tMsg true).letGo = true ∧ (tRel w).fab.semMsgs[0]? = some (tMsg true) ∧
    (tRel w).pins.stops = [] ∧ ((tRel w).tile 0).access = true ∧ w.cons[0]? = some (0, 0) ∧ (tRel w).fab.roadOpen 0 0 = true ∧ (tRel w).pathRuns 0 0 = true := by decide
/-- The producer is on another tile of the stack. -/
theorem witness_ReleaseAdvancesEveryLag_road : let s := (tState [(0, { tTile with releases := [{ tMsg true with dest := 1 }] }), (1, tTile)] (tComp [0, 1] [] [{ tWire with ptile := 1 }] []))
    (s.tile 0).releases = [{ tMsg true with dest := 1 }] ∧ s.tileRuns 0 = true ∧ farTile 1 = false ∧ s.crosses { tWire with ptile := 1 } = false := by decide

def tRelay : RelayDesc := { inDir := 0, outDir := 2, loc := false, hsem := 0, inLink := 0, outLink := 1, nblk := 2, nslot := 1, base := 0, blen := 128 }
def tRelayStep : ItinStep := tStep (.relay [(0, tRelay)])
def tHaloEntry (lines : Nat) : HaloEntry := { sbase := 0, dbase := 512, spitch := 64, dpitch := 64, lines := lines, len := 32, link := 1 }
def tHaloStep : ItinStep := tStep (.halo [(0, [tHaloEntry 0, tHaloEntry 1, tHaloEntry 0, tHaloEntry 0])])

theorem witness_EngineStepsStart : ∀ st ∈ [tRelayStep, tHaloStep], (tOne [st]).StandsAt 0 0 (tP st) st tSeq ∧ (tP st).comp = some (tComp [0] [st] [] []) ∧
    (stepTargets (tComp [0] [st] [] []) st).getD (tSeq.ranks.headD 0) 0 = 0 ∧ ((tOne [st]).tile 0).nbr.steps = [] ∧ ((tOne [st]).tile 0).nbr.relays = [] ∧
    ((tOne [st]).tile 0).nbr.halo = none ∧ ({ (tOne [st]).tile 0 with seq := tSeq } : Tile).unitLoad .engine < 5 ∧ ((tOne [st]).tile 0).nbr.busy = false := by
  simp only [State.StandsAt]; decide
/-- A relay step that starts, and one whose tile has no entry. -/
theorem witness_EngineStepsStart_relay : (relayStart (tOne [tRelayStep]) (tP tRelayStep) tRelayStep 0 0 [(0, tRelay)] 0 false).isSome = true ∧
    relayStart (tOne [tRelayStep]) (tP tRelayStep) tRelayStep 0 0 [(1, tRelay)] 0 false = none := by decide
theorem witness_EngineStepsStart_entries : relayEntry [(0, tRelay)] 0 = some tRelay ∧
    ([(0, [tHaloEntry 0, tHaloEntry 1])].find? (fun e => e.1 == 0)).map (·.2) = some [tHaloEntry 0, tHaloEntry 1] ∧ [tHaloEntry 0, tHaloEntry 1][1]? = some (tHaloEntry 1) := by decide
/-- Five steps of the engine are waiting or at work. -/
theorem witness_EngineStepsStart_full : ∀ st ∈ [tRelayStep, tHaloStep], (tIssued (List.replicate 5 (tRun .engine none false)) [st] []).StandsAt 0 0 (tP st) st
    { tSeq with issued := List.replicate 5 (tRun .engine none false) } ∧
    5 ≤ ({ (tIssued (List.replicate 5 (tRun .engine none false)) [st] []).tile 0 with seq := { tSeq with issued := List.replicate 5 (tRun .engine none false) } } : Tile).unitLoad .engine := by
  simp only [State.StandsAt]; decide

def tRelayRun (inDir outDir : Nat) (credit sending : Bool) : RelayRun :=
  { run := 0, desc := { tRelay with inDir := inDir, outDir := outDir }, inLink := 0, outLink := 1, csem := 0, signals := 1, localRel := 0, sent := 0, landed := 0, beat := 0, released := 0,
    credit := credit, sending := sending, dests := if outDir = 0 then [] else [(1, 0, 1)], byRoad := false, dry := false, taken := false, ended := false }
def tEastWire : Wire := { link := 1, ptile := 0, psem := 3, init := 0, cons := [(1, 0)] }
/-- Tile 0 relays to its eastern neighbour, tile 1. -/
def tRelaysOf (r : RelayRun) : State :=
  tState [(0, { tTile with nbr := { Engine.init with relays := [r] } }), (1, { tTile with nbr := { Engine.init with relays := [{ tRelayRun 4 0 false false with inLink := 1 }] } })]
    (tComp [0, 1] [] [tEastWire] [])
def tRelays (credit sending : Bool) : State := tRelaysOf (tRelayRun 0 2 credit sending)

theorem witness_RelayBlocksMove_send : ∀ r ∈ [tRelayRun 0 2 true false, tRelayRun 0 2 false false, { tRelayRun 0 2 true false with dry := true }, { tRelayRun 0 2 true false with byRoad := true }],
    ((tRelaysOf r).tile 0).nbr.relays = [r] ∧ ((tRelaysOf r).tile 0).nbr.steps = [] ∧ (tRelaysOf r).engineGoes 0 = true ∧ r.ended = false ∧ r.sending = false ∧
    r.dests ≠ [] ∧ r.sent < r.desc.nblk ∧ (tRelaysOf r).wireOf 0 1 = some (0, tEastWire) ∧ (3, Taker.nbr 5) ∉ ((tRelaysOf r).tile 0).waits ∧ r.sent < r.signals ∧
    ∀ e ∈ (tRelaysOf r).fab.flips, e.1 ≠ 0 := by decide
theorem witness_RelayBlocksMove_beat : let s := tRelays true true
    let r := { tRelayRun 4 0 false false with inLink := 1 }
    (s.tile 1).nbr.relays = [r] ∧ (s.tile 1).nbr.steps = [] ∧ s.upstream 1 r = some (0, tRelayRun 0 2 true true) ∧ s.tileRuns 1 = true ∧ s.tileRuns 0 = true ∧
    (s.tile 1).nbr.stopped = [] ∧ (s.tile 0).nbr.stopped = [] ∧ (tRelayRun 0 2 true true).sent = r.landed ∧ (tRelayRun 0 2 true true).sent < (tRelayRun 0 2 true true).signals ∧
    Memory.wf s.fab.mem = true ∧ (∀ e ∈ s.fab.flips, e.1 ≠ 0) ∧ 64 * (0 + 1) < tRelay.blen ∧ tRelay.blen ≤ 64 * (1 + 1) ∧ 0 + 64 ≤ spSize := by decide
def tRelaying (r : RelayRun) : State := (tOne []).updTile 0 (fun x => { x with nbr := { Engine.init with relays := [r] } })
/-- A slot whose block has landed at the chain's tail, and one whose block has not. -/
theorem witness_RelayBlocksMove_release : let r := { tRelayRun 4 0 false false with landed := 1 }
    ((tRelaying r).tile 0).nbr.relays.find? RelayRun.mayRelease = some r ∧ (tRelaying r).engineGoes 0 = true ∧ r.desc.inDir ≠ 0 ∧ r.released + 1 < r.desc.nblk ∧
    ((tRelaying { r with landed := 0, signals := 0 }).tile 0).nbr.relays.find? RelayRun.mayRelease = none := by decide

def tHaloRun (credits : List Nat) : HaloRun := { run := 0, home := 0, left := [(1, tHaloEntry 1), (2, tHaloEntry 1)], credits := credits, dry := false }
def tHaloState (credits : List Nat) : State :=
  tState [(0, { tTile with nbr := { Engine.init with halo := some (tHaloRun credits) } }), (1, tTile)] (tComp [0, 1] [] [tEastWire] [])

theorem witness_HaloLinesLandAtTheNeighbour : ∀ c ∈ [[], [1]], ((tHaloState c).tile 0).nbr.halo = some (tHaloRun c) ∧ (tHaloState c).partAt 0 = some (0, tBound (tComp [0, 1] [] [tEastWire] [])) ∧
    (tHaloRun c).left.find? (fun e => e.1 == dirNat .east) = some (dirNat .east, tHaloEntry 1) ∧ (tHaloState c).engineGoes 0 = true ∧
    (tHaloState c).wireOf 0 1 = some (0, tEastWire) ∧ neighbour 0 (dirNat .east) = some 1 ∧ (3, Taker.nbr (dirNat .east)) ∉ ((tHaloState c).tile 0).waits := by decide
theorem witness_HaloLinesLandAtTheNeighbour_safePoint : let s := (tOne []).updTile 0 (fun x => { x with nbr := { x.nbr with busy := true } })
    (s.tile 0).nbr.busy = true ∧ (∀ r ∈ (s.tile 0).nbr.relays, r.sending = false ∧ s.upstream 0 r = none) ∧ neighbour 511 (dirNat .north) = some 479 := by decide

/-! ### Work items -/

/-- Tile 0 at a TAKE step, with `n` requests rung for. -/
def tAtTake (lead n : Nat) : State := (tOne [tStep .take]).updPart 0 (fun p => { p with tail := n, lead := lead })
def tTakePart (lead n : Nat) : Part := { tP (tStep .take) with tail := n, lead := lead }

theorem witness_WorkItemsBegin_take : ∀ n ∈ [0, 1], ∀ lead ∈ [0, 1], (tAtTake lead n).StandsAt 0 0 (tTakePart lead n) (tStep .take) tSeq ∧ (tTakePart lead n).state = .running ∧
    ((tTakePart lead n).tail = (tTakePart lead n).reqHead ↔ n = 0) := by
  simp only [State.StandsAt]; decide
def tWaitsContext (h : SeqHold) (cs : List (Nat × WorkCtx)) : State :=
  (tState [(0, { tTile with seq := { tSeq with hold := h } })] (tComp [0] [tStep .take] [] [])).updFab (fun f => { f with contexts := cs })
theorem witness_WorkItemsBegin_context : ∀ h ∈ [SeqHold.context, .run], ∀ cs ∈ [[], [(0, WorkCtx.init)]], (tWaitsContext h cs).partAt 0 = some (0, tP (tStep .take)) ∧
    (tWaitsContext h cs).fab.contexts.find? (fun c => c.1 == 0) = cs.head? ∧ ((tWaitsContext h cs).tile 0).seq.hold = h ∧ (tWaitsContext h cs).seqRuns 0 = true ∧
    (tWaitsContext h cs).fab.roadOpen 0 0 = true ∧ (tP (tStep .take)).itin[((tWaitsContext h cs).tile 0).seq.pc]? = some (tStep .take) := by decide

/-- Tile 0 at DONE or CKPT, in a work item or not, with steps issued or none. -/
def tEnding (b : StepBody) (inWork : Bool) (rs : List StepRun) : State :=
  tState [(0, { tTile with seq := { Seq.init with running := true, inWork := inWork, issued := rs } })] (tComp [0] [tStep b] [] [])
theorem witness_ReportsAreMadeAndMerged_end : ∀ b ∈ [StepBody.done, .ckpt 0], ∀ w ∈ [true, false], ∀ rs ∈ [[], [tRun .vector none false]],
    (tEnding b w rs).StandsAt 0 0 (tP (tStep b)) (tStep b) { tSeq with inWork := w, issued := rs } ∧ (tP (tStep b)).mergeOrder = [0] := by
  simp only [State.StandsAt]; decide
def tReport : ReportMsg := ⟨0, 0, Report.init⟩
def tMerging (c : Bool) : State := (tState [(0, { tTile with seq := { tSeq with contributed := c } })] (tComp [0] [] [] [])).updFab (fun f => { f with reports := [tReport] })
theorem witness_ReportsAreMadeAndMerged_merge : ∀ c ∈ [true, false], (tMerging c).fab.reports.find? (fun m => m.dest == 0) = some tReport ∧
    ((tMerging c).tile 0).seq.contributed = c ∧ (tMerging c).tileRuns 0 = true := by decide
theorem witness_ReportsAreMadeAndMerged_status : (⟨0, 0, 0⟩ : Status).code = stOk ∧ (⟨6, 1, 0⟩ : Status).code ≠ stOk ∧ (⟨6, 1, 0⟩ : Status).code ≠ stUpstream ∧
    (⟨stUpstream, 1, 0⟩ : Status).code = stUpstream := by decide

/-- Tile 0, the lead, at DONE with its report at hand; the ring of 16 is empty, or full. -/
def tRecord (head : Nat) : State := (tEnding .done true []).updPart 0 (fun p => { p with report := some Report.init, cplTail := 16, cplHead := head })
theorem witness_CompletionRecordIsWritten : ((tRecord 16).part 0).report = some Report.init ∧ ((tRecord 16).part 0).comp = some (tComp [0] [tStep .done] [] []) ∧
    (16 + 2 ^ 32 - 16) % 2 ^ 32 < 2 ^ (tPart [0]).ringLog2 ∧ (tRecord 16).bodyAt 0 = some .done ∧ (tRecord 16).seqRuns 0 = true ∧ (tRecord 16).routeFor 0 64 = none ∧
    2 ^ (tPart [0]).ringLog2 ≤ (((tRecord 0).part 0).cplTail + 2 ^ 32 - ((tRecord 0).part 0).cplHead) % 2 ^ 32 := by decide
theorem witness_CompletionRecordIsWritten_fields : Report.init.counters.length = 6 ∧ Report.init.hist.length = 70 := by decide

def tCkpt : State := (tEnding (.ckpt 4096) true []).updPart 0 (fun p => { p with report := some Report.init })
theorem witness_CheckpointCommits : (tCkpt.part 0).report = some Report.init ∧ tCkpt.bodyAt (tCkpt.part 0).lead = some (.ckpt 4096) ∧ tCkpt.seqRuns 0 = true ∧
    (tCkpt.part 0).lead ∈ (tCkpt.part 0).tiles ∧ (tCkpt.part 0).tiles.Nodup := by decide

def tHead (host : Bool) (pnum : Nat) (addr aux : Word) : MsgHead := { module := 0, tag := 5, srcStack := 0, srcTile := 0x200, host := host, pnum := pnum, addr := addr, aux := aux }
/-- The device with module 0 UP toward stack 0 and the host. -/
def tLinked (s : State) : State := s.setModule 0 { Module.init with state := 2 }

/-- The latest accepted TAIL is 5: one below it, one that fills the ring of 16 and one past it. -/
theorem witness_HostMovesTheRings : let s := (tLinked (tOne [])).updPart 0 (fun p => { p with tail := 5 })
    s.moduleRuns 0 = true ∧ s.pins.stops = [] ∧ (tHead true 0 0 4).addr.toNat = s.stackId * 2 ^ 58 ∧ (tHead true 0 0 4).pnum < 64 ∧ (tHead true 0 0 4).host = true ∧ (s.part 0).comp = some (tComp [0] [] [] []) ∧ (s.part 0).state = .running ∧
    (s.part 0).isBound = true ∧ s.stewardRuns = true ∧ (s.part 0).tail < 2 ^ 32 ∧
    2 ^ 31 ≤ (4 + 2 ^ 32 - (s.part 0).tail) % 2 ^ 32 ∧ (16 + 2 ^ 32 - (s.part 0).tail) % 2 ^ 32 < 2 ^ 31 ∧ (16 + 2 ^ 32 - (s.part 0).reqHead) % 2 ^ 32 ≤ 2 ^ (tPart [0]).ringLog2 ∧
    2 ^ (tPart [0]).ringLog2 < (17 + 2 ^ 32 - (s.part 0).reqHead) % 2 ^ 32 := by decide

/-! ### Arrays -/

def tOper (mode : Nat) : Oper :=
  { mode := mode, array := 0, form := 0, taps := 1, fmtMov := 1, fmtSta := 1, conv := 0, acc := 1, rootA := true, rootB := true, hasCin := false, mask := false, order := 0,
    serp := false, dimM := .const 1, dimN := .const 1, dimK := .const 32, maxM := 1, maxN := 1, maxK := 32, tm := 1, tn := 1, tk := 32, winBase := 0, winSize := 512, outA := 0,
    outB := 0, pitchA := 4, pitchB := 4, auxA := 0, cin := 0, maskK := 0, maskN := 0, func := 0, causal := 0, kb := 32, scale := 0, causalOff := 0, fused := 0, auxB := 0 }
def tOperStep (mode : Nat) : ItinStep := tStep (.oper (tOper mode))

theorem witness_OperatorStepsEnterTheirArrays : ∀ mode ∈ [0, 1, 2, 3], (tOne [tOperStep mode]).StandsAt 0 0 (tP (tOperStep mode)) (tOperStep mode) tSeq ∧
    (tOperStep mode).body = .oper (tOper mode) ∧ (tOperStep mode).tgt = .all ∧ tSeq.skip = none ∧ ((tOne [tOperStep mode]).tile 0).wbLoads 1 = false ∧
    0 < dimValue tSeq.ctx (tOper mode).dimM ∧ dimValue tSeq.ctx (tOper mode).dimM ≤ (tOper mode).maxM ∧ 0 < dimValue tSeq.ctx (tOper mode).dimN ∧
    dimValue tSeq.ctx (tOper mode).dimN ≤ (tOper mode).maxN ∧ 0 < dimValue tSeq.ctx (tOper mode).dimK ∧ dimValue tSeq.ctx (tOper mode).dimK ≤ (tOper mode).maxK ∧
    tSeq.issued = [] ∧ ((tOne [tOperStep mode]).tile 0).a.job = none ∧ ((tOne [tOperStep mode]).tile 0).b.job = none ∧
    (tOne [tOperStep mode]).admits 0 .a = true ∧ (tOne [tOperStep mode]).admits 0 .b = true := by
  simp only [State.StandsAt]; decide

def tPass (kind : LoadKind) (loads nq : Nat) : Pass :=
  { slot := 0, part := 0, k0 := 0, kEnd := 32, last := true, n0 := 0, ncols := 1, q0 := 0, nq := nq, tileRows := 1, tileCols := 1, tap := 0, loads := loads, kind := kind, block := 0 }
def tJob (role : JobRole) (p : Pass) : Job :=
  { runs := [(0, 0)], step := 0, pass := 0, workId := 0, role := role, oper := tOper 0, form := 0, gx := 0, gy := 0, gw := 1, gh := 1, m := 1, n := 1, k := 32, width := 32, cin := none, cinWb := none,
    plan := ⟨0, false, false, false⟩, passes := [p], loaded := 0, q := 0, flights := [], slots := [], stamp := 0, retries := [], kept := [], parts := [], staged := [] }
def tArray (j : Job) : Arr := { Arr.init with gated := false, ramp := 8, job := some j, lanes := List.replicate 32 0, front := [⟨[], []⟩] }
/-- Tile 0 with a job at work in array A. -/
def tWorks (j : Job) : State := (tOne []).updTile 0 (fun x => { x with a := tArray j })

def tReady (nq : Nat) : Job := tJob .single (tPass .none 0 nq)

/-- The last position of its weight set, and one with another behind it. -/
theorem witness_OutputPositionEnters : ∀ nq ∈ [1, 2], ((tWorks (tReady nq)).tile 0).a.job = some (tReady nq) ∧ (tReady nq).passes = [tPass .none 0 nq] ∧
    (tWorks (tReady nq)).jobReady .a (tReady nq) = true ∧ (tReady nq).q < nq ∧ (tReady nq).flights = [] ∧ (tReady nq).retries = [] ∧
    (tWorks (tReady nq)).slotsFor ((tWorks (tReady nq)).jobPart 0) .a (tReady nq) (tPass .none 0 nq) = .ready { tReady nq with slots := [⟨0, 0, [], 1, 0, none⟩], stamp := 1 } [] ∧
    (tWorks (tReady nq)).lockstep 0 .a (tReady nq) (tPass .none 0 nq) = true ∧
    ((tWorks (tReady nq)).takeVectors 0 .a (tReady nq) (tPass .none 0 nq)).map (·.2) = some [⟨List.replicate 32 0, []⟩] := by decide +kernel
theorem witness_OutputPositionEnters_waits : let j := tJob .single (tPass .stopped 1 1)
    ((tWorks j).tile 0).a.job = some j ∧ j.loaded < 1 := by decide
/-- The window's slot is another's with a sum in flight, and there is no spill area. -/
theorem witness_OutputPositionEnters_full : let j := { tReady 1 with slots := [⟨1, 0, [], 1, 0, none⟩], oper := { tOper 0 with winSize := 4 } }
    ((tWorks j).tile 0).a.job = some j ∧ (tWorks j).jobReady .a j = true ∧ (tWorks j).slotsFor ((tWorks j).jobPart 0) .a j (tPass .none 0 1) = .full := by decide +kernel

def tItem : Item := ⟨.fin false (2 ^ 24 - 1) 104, 0, false⟩
def tFlight (fs : List Feed) : Flight := { slot := 0, col := 0, tap := 0, part := 0, q := 0, j := 0, block := 0, feeds := fs, n0 := 0, ncols := 1, k0 := 0 }
def tLanding (fs : List Feed) : Job := { tReady 1 with flights := [tFlight fs], slots := [⟨0, 0, [], 1, 0, none⟩], passes := [] }

/-- A sum that stays open, one that closes with a root, and one that overflows. -/
theorem witness_PartialSumLands : ∀ e ∈ [([Feed.item tItem], false, false), ([.item tItem, .close true], false, true), ([.item tItem, .item tItem], true, false)],
    ((tWorks (tLanding e.1)).tile 0).a.job = some (tLanding e.1) ∧ (tLanding e.1).flights.find? (fun f => f.j == 0) = some (tFlight e.1) ∧
    (∀ u ∈ (tLanding e.1).tiles, ((tWorks (tLanding e.1)).tile u).a.suspect = false ∧ (tWorks (tLanding e.1)).coreRuns u = true) ∧ (tLanding e.1).slots ≠ [] ∧
    (((tLanding e.1).accAt 0 0 0).feed (tLanding e.1).plan e.1).flag = e.2.1 ∧ (((tLanding e.1).accAt 0 0 0).feed (tLanding e.1).plan e.1).root.isSome = e.2.2 := by decide +kernel
/-- One sum of 1.5 alone is written as 1.5, unconverted (R163, R167, R375). -/
theorem test_psumOutWrites : (match exec (.psumOut 0 .a 0) (tWorks (tLanding [.item ⟨.fin false 3 (-1), 0, false⟩, .close true])) with
    | .next s => memReads s.fab.mem (spKey 0 0) 4 | _ => []) = [0, 0, 0xC0, 0x3F] := by decide +kernel

def tOwed : Acc := (Acc.start ⟨0, false, false, false⟩).feed ⟨0, false, false, false⟩ [.item tItem, .item tItem]
def tOwing : Job := { tLanding [] with flights := [], retries := [⟨0, 0, 1, 0⟩], slots := [⟨0, 0, [(0, tOwed)], 1, 0, none⟩] }
theorem witness_RetriesAndReloads_retry : ((tWorks tOwing).tile 0).a.job = some tOwing ∧ tOwing.retries = [⟨0, 0, 1, 0⟩] ∧
    tOwing.slots.filter (fun v => v.key == 0) ≠ [] ∧ (∀ v ∈ tOwing.slots, v.spilled = none) ∧ tOwing.q = 0 ∧ tOwing.flights = [] ∧ (tWorks tOwing).jobReady .a tOwing = true := by decide +kernel
/-- The retry ends with a finite sum at offset 1 (R172). -/
theorem test_retryClears : (match exec (.rescaleRetry 0 .a) (tWorks tOwing) with
    | .next s => (s.tile 0).a.job.map (fun j => (j.retries.length, (j.accAt 0 0 0).flag, (j.accAt 0 0 0).o)) | _ => none) = some (0, false, 1) := by decide +kernel

/-- A job whose slot lies at place 0 of a spill area at offset 0x1000 of the tile's column. -/
def tSpilled : Job := { tReady 1 with slots := [⟨0, 0, [], 1, 0, some 0⟩] }
def tSpilling (lost : List (Nat × Nat)) : State :=
  let c : Comp := { tComp [0] [] [] [] with part := { tPart [0] with spillBase := 2 ^ 56 + 4096, spillSize := 4096 } }
  ((tWorks tSpilled).updPart 0 (fun p => { p with comp := some c })).updFab (fun f => { f with lostWords := lost })
/-- The slot whole, and with its first codeword lost. -/
theorem witness_RetriesAndReloads_reload : ((tSpilling []).tile 0).a.job = some tSpilled ∧ (tSpilling []).wantedSlot .a tSpilled = some ⟨0, 0, [], 1, 0, some 0⟩ ∧
    (tSpilling []).jobReady .a tSpilled = true ∧
    Job.makeRoom { tSpilled with slots := tSpilled.slots.erase ⟨0, 0, [], 1, 0, some 0⟩ } ((((tSpilling []).jobPart 0).spillShare (tSpilled.bottom 0) .a tSpilled).2) 0 0 =
      .ready { tSpilled with slots := [] } [] ∧
    (tSpilling []).readSpill ((tSpilling []).jobPart 0) .a tSpilled 0 0 = stOk ∧ (tSpilling [(0, 64)]).readSpill ((tSpilling []).jobPart 0) .a tSpilled 0 0 ≠ stOk := by decide +kernel

theorem witness_WeightSetsLoad : ∀ k ∈ [LoadKind.moving, .stopped], let j := tJob .single (tPass k 1 1)
    ((tWorks j).tile 0).a.job = some j ∧ j.passes = [tPass k 1 1] ∧ j.tiles.Nodup ∧ 0 ∈ j.tiles ∧ j.loaded < 1 ∧ j.q = 0 ∧
    (∀ u ∈ j.tiles, ((tWorks j).tile u).a.front ≠ []) ∧ j.flights = [] ∧ (tWorks j).jobReady .a j = true := by decide
theorem witness_WeightSetsLoad_waits : let j := { tJob .single (tPass .moving 1 1) with loaded := 1 }
    ((tWorks j).tile 0).a.job = some j ∧ 1 ≤ j.loaded := by decide

def tPair (rows : Nat) : State := (tWorks (tJob .pairA (tPass .none 0 1))).updTile 0 (fun x => { x with pairRows := List.replicate rows [] })
/-- A block of 32 rows: one short, and whole. -/
theorem witness_PairBlocksPeriodsAndDrains_pair : ∀ n ∈ [31, 32], ((tPair n).tile 0).pairWant = some (0, 32, tJob .pairA (tPass .none 0 1)) ∧ (tPair n).admits 0 .a = true ∧ ((tPair n).tile 0).pairRows.length = n ∧
    ((tPair n).tile 0).pairNow = none := by decide
def tFusedAt (period : Nat) : Fused := { run := 0, oper := tOper 2, m := 1, n := 32, dh := 1, period := period, blocks := 1, s := [], p := [], alphas := [], r := [], rows := [] }
def tFusing (period : Nat) (ps : List Pass) : State :=
  (tOne []).updTile 0 (fun x => { x with a := tArray { tJob .fusedA (tPass .none 0 1) with passes := ps },
                                         b := tArray { tJob .fusedB (tPass .none 0 1) with passes := [] }, fusedRun := some (tFusedAt period) })
/-- Every period of a pair of one block, and one whose array still has a pass. -/
theorem witness_PairBlocksPeriodsAndDrains_period : ∀ n ∈ [0, 1, 2, 3, 4], ((tFusing n []).tile 0).fusedRun = some (tFusedAt n) ∧ ((tFusing n []).tile 0).b.job.isSome = true ∧
    (tFusing n []).admits 0 .a = true ∧ ((tFusing n []).tile 0).a.suspect = false ∧ ((tFusing n []).tile 0).b.suspect = false ∧ ((tFusing n []).tile 0).vgated = false ∧ ((tFusing n []).tile 0).vbusy = false ∧ ((tFusing n []).tile 0).a.busy = false ∧
    ((tFusing n []).tile 0).b.busy = false ∧ ((tFusing n []).tile 0).periodDone (tFusedAt n) = true ∧
    ((tFusing n [tPass .none 0 1]).tile 0).periodDone (tFusedAt 0) = false ∧ (n + 1 < (tFusedAt n).blocks + 3 ∨ (tFusedAt n).blocks + 3 ≤ n + 1) := by decide
def tBusy (fl : List Flight) : State := (tWorks { tReady 1 with flights := fl }).updTile 0 (fun x => { x with a := { x.a with busy := true }, vbusy := true })
/-- A job with a sum in flight, and one without. -/
theorem witness_PairBlocksPeriodsAndDrains_drain : ∀ fl ∈ [[], [tFlight []]], ((tBusy fl).tile 0).a.busy = true ∧ (tBusy fl).drained 0 .a = fl.isEmpty ∧
    ((tBusy fl).tile 0).a.suspect = false ∧ (((tBusy fl).jobOf 0 .a).map (·.1)) = some 0 ∧ ((tBusy fl).tile 0).fusedRun = none ∧ ((tBusy fl).tile 0).vbusy = true ∧
    (tBusy fl).jobOf 1 .a = none := by decide

/-! ### Resets, bring-up and power -/

theorem witness_ResetsKeepWhatOutlivesThem : State.reset.pins.dead = false ∧ { State.reset with boot := { Boot.init with coldWaiting := true } }.boot.coldWaiting = true ∧
    { State.reset with pins := { Pins.init with dead := true } }.pins.dead = true ∧ State.reset.boot.coldWaiting = false ∧ (tOne []).stewardRuns = true ∧ (tOne []).load.state ≠ 1 ∧
    (tOne []).load.state ≠ 2 ∧ ((tOne []).part 0).isBound = true ∧ { State.reset with load := { Loader.init with state := 1 } }.load.state = 1 := by decide

def tBoot (b : Boot) : State := { State.reset with pins := { Pins.init with resetHeld := false, rstN := true }, boot := b }

theorem witness_BootStartsTheFirmwareThatVerifies : State.reset.pins.resetHeld = true ∧ State.reset.pins.pwrGood = true ∧ State.reset.pins.dead = false ∧
    (tBoot { Boot.init with state := .selftest }).boot.state = .selftest ∧ (tBoot { Boot.init with state := .selftest }).fuse.udsDisabled = false ∧
    (tBoot { Boot.init with state := .selftest, orderFault := true }).boot.orderFault = true := by decide
/-- On a tie of versions slot 0 starts (R451). -/
theorem test_tieStartsSlot0 : (match exec (.resetRelease 0 (some ⟨7, 1, []⟩) (some ⟨7, 2, []⟩)) State.reset with
    | .next s => (s.boot.state, s.boot.fwSlot, s.boot.fw.map (·.svn)) | _ => (.reset, 9, none)) = (.selftest, 0, some 1) := by decide

/-- A record in the layout of R458 at the ends of its ranges, with the CRC-32 of IEEE 802.3 over its first 0x14C bytes. -/
def tWindow : List Byte :=
  ([0x46, 0x4C, 0x53, 0x52, 1, 0, 0x50, 1, 0, 3, 63, 0, 0x20, 3, 0x58, 2, 0x58, 2, 0xF4, 1] : List Byte) ++ List.replicate 6 0 ++ [26, 12, 8, 100] ++ List.replicate 38 0 ++ [2] ++
    List.replicate 251 0 ++ [1] ++ List.replicate 11 0 ++ [0x78, 0x55, 0x6E, 0x13]
def tAtSite (h0 h1 : LedgerHalf) : State :=
  { tBoot { Boot.init with state := .waitSite, window := tWindow } with led := { Ledger.init with half0 := h0, half1 := h1 } }

set_option maxRecDepth 20000 in
theorem test_siteRecordPasses : siteCheck (tAtSite ⟨[], 0⟩ ⟨[], 0⟩) tWindow = 0 := by decide +kernel
set_option maxRecDepth 20000 in
/-- A changed byte under the old CRC is a wrong form, code 1 (R460). -/
theorem test_siteRecordForm : siteCheck (tAtSite ⟨[], 0⟩ ⟨[], 0⟩) (tWindow.set 12 0x21) = 1 := by decide +kernel
/-- A flash that is blank, one with two valid halves, and one with bytes but no valid half. -/
theorem witness_SiteRecordAndLedger : (tAtSite ⟨[], 0⟩ ⟨[], 0⟩).stewardRuns = true ∧ (tAtSite ⟨[], 0⟩ ⟨[], 0⟩).led.half0.blankHead = true ∧
    (tAtSite ⟨[halfRecord 1 0], 96⟩ ⟨[halfRecord 2 5], 96⟩).led.half0.head = some (1, 0) ∧ (tAtSite ⟨[halfRecord 1 0], 96⟩ ⟨[halfRecord 2 5], 96⟩).led.half1.head = some (2, 5) ∧
    (tAtSite ⟨[{ halfRecord 1 0 with commit := false }], 96⟩ ⟨[], 0⟩).led.half0.head = none ∧ (tAtSite ⟨[{ halfRecord 1 0 with commit := false }], 96⟩ ⟨[], 0⟩).led.half1.head = none ∧
    (tAtSite ⟨[{ halfRecord 1 0 with commit := false }], 96⟩ ⟨[], 0⟩).led.half0.blankHead = false ∧ siteCheck (tOne []) tWindow ≠ 0 := by decide
theorem witness_SiteRecordAndLedger_compact : let s := { tOne [] with led := { Ledger.init with pos := 0x1800001 } }
    0x1800000 < s.led.pos ∧ s.led.dead = false ∧ s.stewardRuns = true ∧ s.led.cur ≤ 1 ∧ (tOne []).led.pos ≤ 0x1800000 := by decide

def tTraining (half : Bool) (b : BootState) : State :=
  (tBoot { Boot.init with state := b, site := some (decodeSite tWindow), replayEnded := true, fw := some ⟨1, 1, []⟩ }).setModule 0 { Module.init with state := 1, half := half }
theorem witness_BootTestsAndReady_train : ∀ half ∈ [true, false], ∀ b ∈ [BootState.ready, .train], ((tTraining half b).module 0).state = 1 ∧ (tTraining half b).stewardRuns = true ∧
    (tTraining half b).boot.state = b ∧ (tTraining half b).boot.replayEnded = true ∧ ((tTraining half b).module 0).half = half ∧
    (∀ k ∈ (tTraining half b).listedModules, k ≠ 0 → ((tTraining half b).module k).state ≠ 1) := by decide +kernel
theorem witness_BootTestsAndReady_replay : ∀ n ∈ [1, 2], let s := { tTraining false .ledger with led := { Ledger.init with counter1 := n } }
    s.boot.state = .ledger ∧ s.boot.fw = some ⟨1, 1, []⟩ ∧ ((1 : Nat) < s.led.counter1 ↔ n = 2) := by decide
theorem witness_BootTestsAndReady_test : ∀ d ∈ [true, false], (tBoot { Boot.init with state := .test, testDone := d }).boot.state = .test ∧
    (tBoot { Boot.init with state := .test, testDone := d }).boot.testDone = d := by decide

/-- A load is in progress. -/
def tCur1 : State := { tOne [] with load := { Loader.init with state := 1, cur := some ⟨7, 416, false, true, 5, 0, false, [], [], [], [], [], [], [], [], false, 0, 0⟩ } }
theorem witness_RailAndClockFailures : (tOne []).stewardRuns = true ∧ (∀ r ∈ [Rail.vdr, .vsram], let s := { tOne [] with pins := { (tOne []).pins with stops := [.rail r] } }
    s.stewardRuns = true ∧ StopCause.rail r ∈ s.pins.stops) ∧
    (let s := { tBoot { Boot.init with state := .ready } with pins := { Pins.init with resetHeld := false, stops := [.rail .vsram] } }
     s.stewardRuns = true ∧ StopCause.rail .vdr ∉ s.pins.stops ∧ StopCause.rail .vpp ∉ s.pins.stops ∧ s.boundParts = []) ∧
    (let s := { tOne [] with pins := { (tOne []).pins with stops := [.rail .vio, .pwrGood] } }
     (s.part 0).state = .running ∧ (s.part 0).hold = false ∧ s.quiescing 0 = false ∧ StopCause.rail .vio ∈ s.pins.stops ∧ ((tLinked s).module 0).state = 2) ∧
    (tCur1.load.cur ≠ none ∧ (tOne []).load.cur = none) ∧ (tBoot { Boot.init with state := .train }).boot.state ≠ .ready ∧ (tOne []).boot.state = .ready ∧ ((tOne []).part 0).isBound = true := by decide

def tArrA (g : Arr → Arr) : State := (tOne []).updTile 0 (fun x => { x with a := g x.a, b := g x.b, waking := true, vopening := true })
theorem witness_PowerGatesAndRamps : 15 ∈ { tOne [] with pow := { Power.init with locking := [15] } }.pow.locking ∧ ((tArrA id).tile 0).waking = true ∧
    (tArrA id).pow.pllOn.contains (regionOf 0) = true ∧ ((tArrA id).tile 0).powered = true ∧ ((tArrA id).tile 0).fenced = false ∧ ((tArrA id).tile 0).vopening = true ∧
    ((tArrA (fun a => { a with opening := true })).tile 0).a.opening = true ∧ ((tArrA (fun a => { a with opening := true })).tile 0).b.opening = true := by decide
theorem witness_PowerGatesAndRamps_ramp : ∀ n ∈ [1, 2], let s := (tOne []).updTile 0 (fun x => { x with b := { x.b with ramping := n } })
    s.tileRuns 0 = true ∧ ((s.tile 0).arr .b).ramping = n ∧ (s.tile 0).arrayHead .a = none := by decide
/-- Array B ends its off-ramp beside a step of array A, in class 1. -/
theorem witness_PowerGatesAndRamps_gates :
    let c : Comp := { tComp [0] [] [] [] with part := { tPart [0] with cls := 1 } }
    let s := ((tOne []).updTile 0 (fun x => { x with b := { x.b with ramping := 2 }, seq := { x.seq with issued := [tRun (.array .a) none false] } })).updPart 0 (fun p => { p with comp := some c })
    s.tileRuns 0 = true ∧ ((s.tile 0).arr .b).ramping = 2 ∧ (s.tile 0).arrayHead .a ≠ none ∧ (s.tile 0).arrayHead .b = none ∧ (s.tile 0).b.job = none ∧ (s.tile 0).b.opening = false ∧
    (s.tile 0).bound = some 0 ∧ (s.part 0).cls ≠ 0 := by decide
theorem witness_PowerGatesAndRamps_idle : let s := (tOne []).updPart 0 (fun p => { p with comp := some { tComp [0] [] [] [] with part := { tPart [0] with cls := 1 } } })
    (s.part 0).isBound = true ∧ (s.part 0).state = .running ∧ (s.part 0).cls = 1 ∧ (s.part 0).inWork = false := by decide
theorem witness_PowerGatesAndRamps_grant : let s := tArrA (fun a => { a with waiting := true })
    s.class0Waits 0 = true ∧ regionOf 0 < 16 ∧ ((s.tile 0).arr .a).waiting = true ∧ (∀ e ∈ s.fab.tiles, e.1 < 512) ∧ ∃ e ∈ s.fab.tiles, e.2.a.waiting = true ∨ e.2.b.waiting = true := by decide

def tSited : State := { tOne [] with boot := { Boot.init with state := .ready, site := some (decodeSite tWindow) } }
theorem witness_PowerLoopAndShape : tSited.boot.site = some (decodeSite tWindow) ∧ tSited.stewardRuns = true ∧ 5 ≤ (decodeSite tWindow).slewLim ∧ 600 ≤ (decodeSite tWindow).envelope := by
  decide +kernel
/-- A floor of 900 W is cut to the record's 600 W and marked (R441). -/
theorem test_shapeClamps : (match exec (.pwShapeWrite (BitVec.ofNat 64 (900 + 5 * 2 ^ 16 + 600 * 2 ^ 32))) tSited with
    | .next s => (s.pow.floor, s.pow.slew, s.pow.cap, s.pow.clamped) | _ => (0, 0, 0, false)) = (600, 5, 600, true) := by decide +kernel
theorem witness_PowerLoopAndShape_sample : tSited.pow.periods.length < 100 ∧
    100 ≤ { tSited with pow := { tSited.pow with periods := List.replicate 100 ⟨0, 0, false, false⟩ } }.pow.periods.length ∧ { tSited with pow := { tSited.pow with thermShed := true } }.pow.thermShed = true ∧
    tSited.pow.thermShed = false ∧ StopCause.thermal ∉ tSited.pins.stops ∧ State.reset.stewardRuns = false := by decide

/-! ### The enclave -/

/-- The mailbox runs command `c` with payload `pl`; slot 1 holds `key` with every purpose and 32 bytes `n` are the nonce. -/
def tMail (c : Nat) (pl : List Byte) (n : Nat) (key : List Byte) : State :=
  { tOne [] with
    se := { Enclave.init with cmd := some (c, pl), busy := true, nonce := some (List.replicate 32 (BitVec.ofNat 8 n)) },
    fuse := { slot0 := ⟨.revoked, 1, []⟩, slot1 := ⟨.set, 7, key⟩, slot2 := KeySlot.init, slot3 := KeySlot.init, debugFused := false, udsDisabled := false,
              identityKeyId := List.replicate 48 0xA5 } }

/-- A payload: nonce, arguments, the signing slot 1 and a signature whose halves are both `r`. -/
def tSigned (n : Nat) (args : List Byte) (r : Nat) : List Byte := List.replicate 32 (BitVec.ofNat 8 n) ++ args ++ [1] ++ beBytes 48 r ++ beBytes 48 r

def tKey_program : List Byte := beBytes 97 0x4F1A44B6C89E27D119D419A45635738141C9F6344A05E316931E8A73287C88F5574F0C68FB05B52AA6B5EB5CED07358B8D72DCC1153F7509DAB87ED21472002D5B5FA3918B54542773F6B0475A5A7E9F1FB90C52D1F671684A42A48F28ACFA46E
def tPay_program : List Byte := tSigned 1 ([2, 3] ++ List.replicate 97 0) 0xD296B5BF9F8158258D784F68A1F530034BF0F9DFE26D64278320E6A7A6630D98189E5759029BEE322B494E0FDEDD5A21
def tMail_program : State := tMail 3 tPay_program 1 tKey_program
set_option maxRecDepth 100000 in
theorem witness_SignedEnclaveCommands_program : tMail_program.running 3 = some tPay_program ∧ checkSigned tMail_program 3 99 2 tPay_program = 0 ∧ byteAt tPay_program 33 < 4 ∧ byteAt tPay_program 32 = 2 ∧ tMail_program.fuse.slot2.state = .empty := by decide +kernel
def tKey_revoke : List Byte := beBytes 97 0x4D6CF00E66CB386FE6EF3C743E1B6E12021DC5342E978E87083E7960954A114F9ACB4E416D06C7EF9391E52BDF6A49E5D551BE18958D496987BC2095BB151BE5B99AC872C84600D9362E52A419BFF7FBB19AECDF88468C8178EB71CBE145248C7
def tPay_revoke : List Byte := tSigned 0 ([1]) 0x900127E57C760091B54F035F5BA01E4B84684E880053D523F743ADB75B839DD41434934838B4FAA2BD184359F3348EF8
def tMail_revoke : State := tMail 4 tPay_revoke 0 tKey_revoke
set_option maxRecDepth 100000 in
theorem witness_SignedEnclaveCommands_revoke : tMail_revoke.running 4 = some tPay_revoke ∧ checkSigned tMail_revoke 4 1 2 tPay_revoke = 0 ∧ byteAt tPay_revoke 32 = 1 ∧ (tMail_revoke.fuse.slot 1).state = .set := by decide +kernel
def tKey_counter : List Byte := beBytes 97 0x48F814DAF7F0985E97C8FD3C54B1083659306EC70290148D382B885856A6D93E4120DED131AB22BE07DBD1E4FB570DC74142AD279EE8C56D916CC992036CF5D8FE13D656A33A761D69816D3C16F3126E31931B81677503133684DB1BD9D8F97AD
def tPay_counter : List Byte := tSigned 0 ([0] ++ leBytes 8 9) 0x6FE9A9367D1ABFF6960D376A2B76B2F7CA715F83DE82B405B47EDFF39001F2B80F3131D396F0CC24B20A71B4D503B724
def tMail_counter : State := tMail 5 tPay_counter 0 tKey_counter
set_option maxRecDepth 100000 in
theorem witness_SignedEnclaveCommands_counter : tMail_counter.running 5 = some tPay_counter ∧ checkSigned tMail_counter 5 9 2 tPay_counter = 0 ∧ byteAt tPay_counter 32 = 0 ∧ fieldAt tPay_counter 33 8 = 9 ∧ tMail_counter.led.counter0 ≤ 9 := by decide +kernel
def tKey_unlock : List Byte := beBytes 97 0x4D1367F60044E7905E35F8298E88B9CB9433ABCD23E33437B2801BF4FC7AFBE7A85A5102E25CDF11E0834FC9A681349C9572C6277C2517CC485E30CBE3BC5EFB1F2E5824E20D3035705971B66250C6293C98D7FC05CBAFEC02413899DA813D80B
def tPay_unlock : List Byte := tSigned 3 ([3]) 0x72F0C9AAA8FB110027B663D1201233BC0CD1A836D9BA3A230B9328101FCC327E9EF5CFDF16100CF3D81C84E04F655F6D
def tMail_unlock : State := tMail 6 tPay_unlock 3 tKey_unlock
set_option maxRecDepth 100000 in
theorem witness_SignedEnclaveCommands_unlock : tMail_unlock.running 6 = some tPay_unlock ∧ checkSigned tMail_unlock 6 1 1 tPay_unlock = 0 ∧ tMail_unlock.fuse.debugFused = false ∧ byteAt tPay_unlock 32 < 4 := by decide +kernel
def tKey_fuse : List Byte := beBytes 97 0x472DC39C374CE9F57B19D3567D6DCF5863B4B67ADD63EF072008CB2CC3E6A780C7378652A6E9AC886143F659659420337B48EF9F07AE0C1EDF279864FE6D9798ADC7984F0A6DCA2DB8753ABD6687680271992F76E1674254EEE244E32313CC1FB
def tPay_fuse : List Byte := tSigned 0 ([]) 0xC3E0DB6019DBC2B9A9D144CB697F57C426EC7CD826E5303ECA7737337E2E88027E4BE50868E6C9B330D0D47448D5751
def tMail_fuse : State := tMail 8 tPay_fuse 0 tKey_fuse
set_option maxRecDepth 100000 in
theorem witness_SignedEnclaveCommands_fuse : tMail_fuse.running 8 = some tPay_fuse ∧ checkSigned tMail_fuse 8 0 2 tPay_fuse = 0 := by decide +kernel
def tKey_zeroise : List Byte := beBytes 97 0x4B42256E19B4E314AE6551BCA3F74A9148221FCBEF43B6C1756328367AECB6370A17B98C91D412196743691FBDDE9CD8B64842F029489C1B78945592D660EB855420B0CA9F04CB91D0CF364D4CC0812FB27B22F8BF4B4210653DD8BCE1FFAA320
def tPay_zeroise : List Byte := tSigned 2 ([1]) 0x97302F996B3EDF99A5C9DDA618B097606D07E7CD5F62213CE702634561874BE95A4C6C5C516F254535536284E66A320B
def tMail_zeroise : State := tMail 9 tPay_zeroise 2 tKey_zeroise
set_option maxRecDepth 100000 in
theorem witness_SignedEnclaveCommands_zeroise : tMail_zeroise.running 9 = some tPay_zeroise ∧ checkSigned tMail_zeroise 9 1 2 tPay_zeroise = 0 ∧ byteAt tPay_zeroise 32 = 1 := by decide +kernel

/-! ### Loading -/

/-- A delta in the layout of R41, R42 and R73 that unbinds partition 0, signed by `tImageKey`; both hashes were computed outside Lean. -/
def tImageKey : List Byte := beBytes 97 0x4601379EF1F2E9336EF23A1C56748D60E864F701E2575E7E6F2F684801218128AEF8298D261095CDD5C33B4C64D05E95FD58A5A2D96BBBDC4CAC223D4550ABE13AD9557A0F4BBAFE8945AD01F37C9CCBBAAC9CB574704A9C8C0E7AAA180817158
def tImage : List Byte :=
  ([0x46, 0x4C, 0x4E, 0x43, 1, 0, 1, 0, 0xA0, 1, 0, 0, 1, 0, 0xB1, 0, 0xA0, 1, 0, 0, 4] : List Byte) ++ List.replicate 11 0 ++ [1] ++ List.replicate 12 0 ++ [1] ++
    List.replicate 82 0 ++ [9, 0, 1, 0, 0xFF, 0, 0, 0, 0xC0, 0, 0, 0, 4, 0, 0, 0] ++
    beBytes 48 0x394341b7182cd227c5c6b07ef8000cdfd86136c4292b8e576573ad7ed9ae41019f5818b4b971c9effc60e1ad9f1289f0 ++ List.replicate 64 0 ++
    beBytes 48 0xfe2ac64b2f9e35b51921dd3d1a621c127cff31643859d4996262d5564a16659453a03416c29ee7b82b821084134c79ff ++
    beBytes 48 0x6502E0FC20F5919C0524E06B77AB7C87F065B0509CEB57D9491D365B93E13BB6C016AE106FE98D9A2FAEDF9B6509F110 ++
    beBytes 48 0x6502E0FC20F5919C0524E06B77AB7C87F065B0509CEB57D9491D365B93E13BB6C016AE106FE98D9A2FAEDF9B6509F110 ++ List.replicate 16 0
/-- READY, with a LOAD of 416 bytes under a handle in GL_IMG_SRC, and the image in the cache too. -/
def tLoading : State :=
  { tOne [] with
    load := { Loader.init with imgSrc := BitVec.ofNat 64 (4 * 2 ^ 32 + 416), state := 1 }, led := { Ledger.init with cache := [⟨4 * 2 ^ 32 + 416, tImage⟩] },
    fuse := { (tMail 0 [] 0 tImageKey).fuse with slot2 := KeySlot.init } }
set_option maxRecDepth 100000 in
theorem witness_LoadsAreAcceptedOrEnded_verified : verifyImage tLoading tImage (tLoading.load.imgSrc.toNat % 2 ^ 27) = none ∧ tImage.length = 416 ∧ tLoading.load.imgSrc.toNat % 2 ^ 27 = 416 := by
  decide +kernel


/-! ### Varmlink -/

/-- A flit of 248 bytes that begin with `head`, and its CRC. -/
def tFlit (head : List Byte) (crc : Nat) : List Byte := head ++ List.replicate (248 - head.length) 0 ++ leBytes 8 crc

def tFlit_idle : List Byte := tFlit [0, 0, 0, 0, 0, 0] 0xD5233B906AAFCD2D
def tFlit_bad : List Byte := tFlit [0, 16, 0, 0, 15, 0] 0x7D51C23AB9675583
def tFlit_noHost : List Byte := tFlit [0, 16, 0, 0, 6, 0] 0xD695B8B55D6DB857
def tFlit_control : List Byte := tFlit [0, 16, 0, 0, 6, 64] 0xA5512D801423EE97

/-- The check value of CRC-64 with this polynomial, initial value all ones and an inverted result, over the digits 1 to 9. -/
theorem test_crc64 : crc64 [0x31, 0x32, 0x33, 0x34, 0x35, 0x36, 0x37, 0x38, 0x39] = 0x62EC59E3F1A4F00A := by decide +kernel
set_option maxRecDepth 20000 in
/-- An idle flit, a malformed head, and a control read with HOST and without, each in sequence under the CRC computed outside Lean. -/
theorem witness_FlitsAcknowledgedAndResent : (tLinked (tOne [])).moduleRuns 0 = true ∧ (tLinked (tOne [])).link.waiting = [] ∧ (tLinked (tOne [])).pow.notices = [] ∧ (tLinked (tOne [])).load.cur = none ∧
    (∀ f ∈ [tFlit_idle, tFlit_bad, tFlit_noHost, tFlit_control], flitCrcOk f = true ∧ fieldAt f 0 2 % 4096 = ((tLinked (tOne [])).module 0).nextRecv) ∧
    fieldAt tFlit_idle 0 2 / 2 ^ 12 % 4 = 0 ∧ (∀ f ∈ [tFlit_bad, tFlit_noHost, tFlit_control], fieldAt f 0 2 / 2 ^ 12 % 4 = 1) ∧ headOk tFlit_bad = false ∧
    (∀ f ∈ [tFlit_noHost, tFlit_control], headOk f = true ∧ byteAt f 4 = 6) ∧ (byteAt tFlit_noHost 5).testBit 6 = false ∧ (byteAt tFlit_control 5).testBit 6 = true ∧
    fieldAt tFlit_control 8 8 / 2 ^ 58 = (tLinked (tOne [])).stackId ∧ (tLinked (tOne [])).stewardRuns = true ∧ flitCrcOk [] = false := by decide +kernel

/-! ### Failures -/

def tFenced (f : Option Nat) : State := { (tOne []).updTile 0 (fun x => { x with fenced := true, failSeq := f }) with pow := { (tOne []).pow with seq := 1000001 } }

theorem witness_CoreFailuresFenceAndRetest : ((tOne []).tile 0).powered = true ∧ ((tOne []).tile 0).fenced = false ∧ Memory.wf (tOne []).fab.mem = true ∧ ((tOne []).tile 0).bound = some 0 ∧
    0 ∈ ((tOne []).part 0).tiles ∧ ((tOne []).part 0).recovers = true ∧ ((tOne []).tile 1).powered = false := by decide
theorem witness_CoreFailuresFenceAndRetest_retest : ((tFenced none).tile 0).fenced = true ∧ ((tFenced none).tile 0).failSeq = none ∧ ((tFenced (some 0)).tile 0).failSeq = some 0 ∧
    1000000 < ((tFenced (some 0)).pow.seq + 2 ^ 32 - 0) % 2 ^ 32 ∧
    (let s := (tFenced none).updPart 0 (fun p => { p with state := .recovering, retest := [0] })
     (s.tile 0).bound = some 0 ∧ (s.part 0).state = .recovering ∧ (s.part 0).draining = false ∧ (s.part 0).retest = [0] ∧ (s.part 0).hold = false ∧ s.quiescing 0 = false) := by decide
/-- A failure 1,000,000 samples after the last one is no transient finding: the tile is lost (R480). -/
theorem test_retestWithin : (match exec (.coreRetestDone 0 true) (tFenced (some 1)) with | .next s => ((s.tile 0).good, (s.tile 0).fenced) | _ => (true, true)) = (false, false) := by decide

def tInState (st : PState) (g : Part → Part) : State := (tOne []).updPart 0 (fun p => g { p with state := st })
/-- Every state of a partition in which HOLD acts. -/
theorem witness_HoldsAndSafePoints : ((tInState .running id).part 0).state = .running ∧ ((tInState .quiesce id).part 0).state = .quiesce ∧ ((tInState .recovering id).part 0).state = .recovering := by decide
def tHeld (busy hold : Bool) : State := (tInState .held (fun p => { p with holdBusy := busy, hold := hold })).updTile 0 (fun x => { x with seq := Seq.init })
theorem witness_HoldsAndSafePoints_held : (∀ t ∈ ((tHeld true true).part 0).tiles, ((tHeld true true).tile t).atSafePoint = true) ∧ ((tHeld true true).part 0).state = .held ∧
    ((tHeld true true).part 0).holdBusy = true ∧ ((tHeld false true).part 0).holdBusy = false ∧ ((tHeld false true).part 0).hold = true := by decide
def tDraining : State := (tInState .recovering (fun p => { p with draining := true, retest := [0] })).updTile 0 (fun x => { x with seq := Seq.init })
theorem witness_HoldsAndSafePoints_recovering : (∀ t ∈ (tDraining.part 0).tiles, (tDraining.tile t).atSafePoint = true) ∧ (tDraining.part 0).draining = true ∧ (tDraining.part 0).retest ≠ [] ∧
    (∃ t ∈ ((tDraining.updTile 0 (fun x => { x with a := { x.a with busy := true } })).part 0).tiles, ((tDraining.updTile 0 (fun x => { x with a := { x.a with busy := true } })).tile t).atSafePoint = false) := by
  decide

def tGang : Gang := ⟨0, 0, 2, 1, 1⟩
def tGanged : State := (tState [(0, tTile), (1, tTile)] (tComp [0, 1] [] [] [])).updPart 0 (fun p => { p with comp := some { tComp [0, 1] [] [] [] with gangs := [tGang] } })
/-- Tile 5 outside every partition, columns 3 and 31 of its array A under re-qualification beside the given detours. -/
def tRequal (detours : List Nat) : Tile := ((tOne []).updTile 5 (fun x => { x with a := { x.a with requal := [3, 31], detours := detours } })).tile 5
theorem witness_ColumnsLinksAndRoads : ((tOne []).tile 0).powered = true ∧ ((tOne []).tile 0).fenced = false ∧
    (tRequal []).a.requal ≠ [] ∧ (tRequal []).bound = none ∧ 3 ∈ (tRequal []).a.requal ∧ 3 ∉ (tRequal []).a.detours ∧ (tRequal [7]).a.detours.length < 2 ∧
    (tRequal [7, 8]).a.detours.length = 2 ∧ 3 ∉ (tRequal [7, 8]).a.detours ∧ neighbour 0 (dirNat .east) = some 1 ∧ tGanged.partOf 0 = some 0 ∧ (∃ g ∈ (tGanged.part 0).gangsAt 0 .a, 1 ∈ g.2.tiles) ∧
    dirNat .east ∈ (((tOne []).updTile 0 (fun x => { x with nbr := { x.nbr with stopped := [1] } })).tile 0).nbr.stopped := by decide
theorem witness_ColumnsLinksAndRoads_road : let s := (tOne []).updFab (fun f => { f with crcFails := [(4 * 511 + 3, 8)], retraining := [(511, 3)] })
    neighbour 511 (dirNat .west) = some 510 ∧ 8 ≤ tabGet 0 s.fab.crcFails (4 * 511 + dirNat .west) ∧ tabGet 0 (tOne []).fab.crcFails (4 * 511 + dirNat .west) < 8 ∧
    (511, dirNat .west) ∈ s.fab.retraining ∧ 511 < 512 ∧ 511 ∉ s.fab.deadRouters ∧ 511 ∉ (tOne []).fab.deadRouters := by decide

/-- Bursts of one and of five wrong symbols, the last of each codeword among them. -/
theorem witness_ScrubsCorrectAndCount : (tOne []).fab.isLost 511 (2 ^ 19 - 1) = false ∧ (tOne []).columnServed 0 = true ∧
    (∀ i, i < 8 → wrongSymbols ([[71], [], [0, 1, 2, 3], [], [], [], [], [5]].getD i []) ≤ 4 ∧ (tOne []).fab.isLost 0 (8 * 65535 + i) = false) ∧ wrongSymbols [] = 0 ∧
    wrongSymbols [71] = 1 ∧ wrongSymbols [0, 1, 2, 71] = 4 ∧ wrongSymbols [0, 1, 2, 3, 71] = 5 ∧ wrongSymbols [4, 4, 72] = 1 ∧ (tOne []).columnServed 1 = false ∧ ((tOne []).tile 1).powered = false ∧
    (tOne []).hl.losses.length < 256 ∧ 256 ≤ { tOne [] with hl := { Health.init with losses := List.replicate 256 ⟨0, true, 0, 0, true⟩ } }.hl.losses.length := by decide +kernel
/-- The codewords of line 2047 with the given cells of bank 31 upset: the greatest number of wrong bits in one. -/
def tWorst (cells : List (Nat × Nat)) : Nat :=
  let f := (cells.filter (fun c => decide (c.1 < 32 ∧ c.2 < 1152))).foldl (fun f c => f.upset 0 ⟨c.1, 2047 / 4, c.2⟩) (tOne []).fab
  (((List.range 32).flatMap (fun b => spWords (spOffsetOf b 2047) 32)).map (fun a => (f.wrongBits 0 a).length)).foldl Max.max 0
/-- A clean pad read without an upset, with one wrong bit, and with two in one codeword, whose cells lie 16 columns apart (R282). -/
theorem witness_ScrubsCorrectAndCount_pad : ((tOne []).tile 0).powered = true ∧ ((tOne []).tile 0).fenced = false ∧ (∀ e ∈ (tOne []).fab.flips, e.1 ≠ 0) ∧
    tWorst [(31, 1151)] = 1 ∧ tWorst [(31, 1151), (31, 1135)] = 2 ∧ tWorst [(31, 1151), (31, 1150)] = 1 ∧ tWorst [(32, 0), (0, 1152)] = 0 := by decide +kernel
/-- Four wrong symbols are corrected and five are not (R291). -/
theorem test_scrubLimit : ((match exec (.dsPatrolScrub 0 9 [0, 1, 2, 71]) (tOne []) with | .next s => ((s.tile 0).dsCe, s.fab.lostWords) | _ => (0, [])),
    (match exec (.dsPatrolScrub 0 9 [0, 1, 2, 3, 71]) (tOne []) with | .next s => ((s.tile 0).dsCe, s.fab.lostWords) | _ => (0, []))) = ((1, []), (0, [(0, 9)])) := by decide

def tLoad : Load :=
  { handle := 7, length := 416, cached := false, delta := true, imageId := 5, rollback := 0, cacheFlag := false, image := [], headDigest := [], sections := [], comps := [], named := [],
    todo := [], reads := [], received := [], applied := false, failCode := 0, failSection := 0 }
def tReadOf : ImageRead := ⟨3, 0, 0, 4⟩
def tCur (st : Nat) (l : Option Load) (rs : List Rebind) : State := { tOne [] with load := { Loader.init with state := st, cur := l, rebinds := rs } }
def tRebind (ph : Phase) (c : Option Comp) : Rebind := { pnum := 0, phase := ph, comp := c, tiles := [0], ofLoad := true, all := false }

theorem witness_LoadsAreAcceptedOrEnded : (tCur 1 none []).stewardRuns = true ∧ (tCur 1 none []).load.state = 1 ∧ (tCur 3 none []).load.state ≠ 1 ∧ (tCur 3 none []).load.state ≠ 2 ∧
    (tCur 3 none []).boot.state = .ready ∧ (tCur 3 none []).boot.orderFault = false ∧ verifyImage (tCur 1 none []) [] 0 = some (0x02, 0xFFFF) ∧
    (tCur 3 none []).led.cache.find? (fun c => c.imageId == 0) = none ∧ tLoading.led.cache.find? (fun c => c.imageId == tLoading.load.imgSrc.toNat) ≠ none ∧
    (tBoot { Boot.init with state := .test }).boot.state ≠ .ready := by decide
theorem witness_LoadsAreAcceptedOrEnded_data : let l := { tLoad with reads := [tReadOf] }
    (tCur 2 (some l) [tRebind .verified none]).load.cur = some l ∧ l.reads.find? (fun r => r.tag == 3 && r.offset == 0) = some tReadOf ∧ l.handle = 7 ∧ l.todo = [] ∧ (tCur 2 none []).load.cur = none ∧
    (tCur 2 (some l) [tRebind .verified none]).rebindAt 0 .verified = some (tRebind .verified none) ∧ (l.reads ++ l.todo).find? (fun r => r.pnum == 0) = some tReadOf := by decide

theorem witness_RebindingStepByStep_apply : (tCur 1 (some tLoad) []).load.cur = some tLoad ∧ tLoad.applied = false ∧ (tCur 1 (some tLoad) []).load.state = 1 ∧ (tCur 1 (some tLoad) []).load.rebinds = [] ∧
    (tCur 1 (some tLoad) []).stewardRuns = true ∧ tLoad.rollback ≤ (tCur 1 (some tLoad) []).led.counter0 ∧ tLoad.comps = [] ∧ tLoad.named = [] ∧ tLoad.cacheFlag = false := by decide
theorem witness_RebindingStepByStep_quiesce : (tCur 2 (some tLoad) [tRebind .quiesce none]).quiescing 0 = true := by decide
/-- A partition that is being killed, its tile out of access and drained, with a new composition or none. -/
def tKilled (c : Option Comp) (busy : Bool) : State :=
  ((tCur 2 (some tLoad) [tRebind .kill c]).updTile 0 (fun x => { x with access := false, a := { x.a with busy := busy } })).updPart 0 (fun p => { p with state := .killing })
theorem witness_RebindingStepByStep_sweep : ∀ c ∈ [none, some (tComp [0] [] [] [])], (tKilled c false).rebindAt 0 .kill = some (tRebind .kill c) ∧ (tKilled c false).stewardRuns = true ∧
    (tKilled c false).pins.stops = [] ∧ (∀ t ∈ (tRebind .kill c).tiles, ((tKilled c false).tile t).access = false ∧ ((tKilled c false).tile t).waking = false ∧ ((tKilled c false).tile t).atSafePoint = true) ∧
    (∀ k, c = some k → ∀ r ∈ k.regions (tKilled c false).moduleRegions, r ∈ (tKilled c false).pow.pllOn) ∧
    (∃ t ∈ (tRebind .kill c).tiles, ((tKilled c true).tile t).atSafePoint = false) ∧ Memory.wf (tKilled c false).fab.mem = true := by decide
theorem witness_RebindingStepByStep_verify : let s := (tCur 3 none [{ tRebind .swept none with ofLoad := false }]).updPart 0 (fun p => { p with state := .killing })
    s.rebindAt 0 .swept = some { tRebind .swept none with ofLoad := false } ∧ s.stewardRuns = true ∧ s.load.cur = none ∧ 0 ∉ s.claimed 0 := by decide
/-- A section whose bytes came, under their hash and under another one. -/
def tSection (ok : Bool) : Load :=
  { tLoad with
    sections := [{ type := 7, pnum := 0, offset := 192, len := 4, hash := if ok then sha384 [0, 0, 0, 0] else [] }], received := [(192, [0, 0, 0, 0])] }
set_option maxRecDepth 20000 in
theorem witness_RebindingStepByStep_section : ∀ ok ∈ [true, false], (tCur 2 (some (tSection ok)) [tRebind .verified none]).rebindAt 0 .verified = some (tRebind .verified none) ∧
    (∀ r ∈ (tSection ok).reads ++ (tSection ok).todo, r.pnum ≠ 0) ∧
    ((tSection ok).sectionsFor 0).map (fun k => decide (sha384 ((tSection ok).receivedBytes k.2) = k.2.hash)) = [ok] := by decide +kernel
def tStarting (powered : Bool) : State := (tCur 2 (some tLoad) [tRebind .loaded (some (tComp [0] [] [] []))]).updTile 0 (fun x => { x with powered := powered })
theorem witness_RebindingStepByStep_start : ∀ p ∈ [true, false], (tStarting p).rebindAt 0 .loaded = some (tRebind .loaded (some (tComp [0] [] [] []))) ∧ (tStarting p).stewardRuns = true ∧
    (tStarting p).pins.stops = [] ∧ (tPart [0]).tiles ≠ [] ∧ ∀ t ∈ (tPart [0]).tiles, ((tStarting p).tile t).good = true ∧ ((tStarting p).tile t).fenced = false ∧
    ((tStarting p).tile t).waking = false ∧ ((tStarting p).tile t).powered = p ∧ ((tStarting p).tile t).a.requal = [] ∧ ((tStarting p).tile t).b.requal = [] := by decide
theorem witness_RebindingStepByStep_startNone : let s := (tStarting true).updTile 0 (fun x => { x with good := false })
    s.rebindAt 0 .loaded = some (tRebind .loaded (some (tComp [0] [] [] []))) ∧ (tPart [0]).tiles.filter (fun t => (s.tile t).good) = [] ∧ (tPart [0]).cls = 0 := by decide

/-! ### Registers, mailbox, attestation and JTAG -/

theorem witness_RegisterWritesTakeEffect : State.reset.stewardRuns = false ∧ (tOne []).stewardRuns = true ∧ (tOne []).boot.state ≠ .waitSite ∧ (tAtSite ⟨[], 0⟩ ⟨[], 0⟩).boot.state = .waitSite ∧
    (tAtSite ⟨[], 0⟩ ⟨[], 0⟩).boot.window.length = 336 ∧ (tAtSite ⟨[], 0⟩ ⟨[], 0⟩).stewardRuns = true ∧ ((tOne []).part 63).state = .unbound ∧ ((tOne []).part 0).state ≠ .unbound ∧
    ((tOne []).part 0).state ≠ .killing ∧ StopCause.thermal ∉ (tOne []).pins.stops ∧ (tOne []).se.busy = false ∧ (tOne []).se.data.length = 512 ∧ (tMail 1 [] 0 []).se.busy = true ∧
    (0x80000001 : Word).toNat.testBit 31 = true ∧ (0x80020009 : Word).toNat / 256 % 1024 = 512 ∧ (1 : Word).toNat.testBit 31 = false ∧ 512 < (0x80020101 : Word).toNat / 256 % 1024 := by decide +kernel
/-- RAIL of HL_FAULT comes back while the rail's cause lasts, and ROUTE is cleared (R495). -/
theorem test_healthFaultWrite : (match exec (.registerWrite .varmlink 0x210000 0x5) { tOne [] with pins := { (tOne []).pins with stops := [.rail .vio] }, hl := { Health.init with fault := 5 } } with
    | .next s => s.hl.fault | _ => 0) = 4 := by decide

theorem witness_I3cTargetAndLossList : (tOne []).stewardRuns = true ∧ (tOne []).boot.i3cAddr = none ∧ (0x28 : Nat) = 0x28 + (tOne []).pins.straps ∧ (tOne []).boot.state ≠ .waitSite ∧ (tOne []).hl.losses = [] ∧
    { tOne [] with hl := { Health.init with losses := [⟨0, true, 0, 0, true⟩] } }.hl.losses = [⟨0, true, 0, 0, true⟩] ∧
    { tOne [] with boot := { (tOne []).boot with i3cAddr := some 9 } }.boot.i3cAddr ≠ none ∧ (1 : Word).toNat.testBit 0 = true ∧ (2 : Word).toNat.testBit 0 = false := by decide

theorem witness_EnclaveCommandsWithoutKeys : (tMail 1 [] 0 []).running 1 = some [] ∧ (tMail 1 [] 0 []).running 7 = none ∧ (tMail 1 [0] 0 []).running 1 = some [0] ∧ (tMail 7 [] 0 []).running 7 = some [] ∧
    (tMail 2 (List.replicate 97 4) 0 []).running 2 = some (List.replicate 97 4) ∧ (List.replicate 97 (4 : Byte)).length = 97 ∧ (tMail 2 (List.replicate 97 4) 0 []).fuse.slot1.state ≠ .empty ∧
    (let s := { tMail 2 (List.replicate 97 4) 0 [] with fuse := { (tMail 0 [] 0 []).fuse with slot1 := KeySlot.init } }
     s.running 2 = some (List.replicate 97 4) ∧ s.fuse.slot1.state = .empty ∧ s.se.loadedSince = false ∧
     { s with se := { s.se with loadedSince := true } }.running 2 = some (List.replicate 97 4)) ∧ (tMail 2 [4] 0 []).running 2 = some [4] := by decide

/-- A payload of the wrong length for every signed command, and a target that is not there for the ones that name one. -/
theorem witness_SignedEnclaveCommands_fails : ∀ c ∈ [(3, 99, 2), (4, 1, 2), (5, 9, 2), (6, 1, 1), (8, 0, 2), (9, 1, 2)], (tMail c.1 [] 0 []).running c.1 = some [] ∧
    checkSigned (tMail c.1 [] 0 []) c.1 c.2.1 c.2.2 [] ≠ 0 ∧ (tMail c.1 [] 0 []).fuse.debugFused = false := by decide
theorem witness_SignedEnclaveCommands_fused : { tMail 6 [] 0 [] with fuse := { (tMail 6 [] 0 []).fuse with debugFused := true } }.running 6 = some [] := by decide

def tSpdm (algs : Bool) (uds : Bool) : State :=
  let s := tLinked tSited
  { s with
    boot := { s.boot with fw := some ⟨1, 1, [7]⟩ }, link := { s.link with spdmVersion := true, spdmCaps := true, spdmAlgs := algs },
    fuse := { (tMail 0 [] 0 []).fuse with udsDisabled := uds } }
theorem witness_AttestationAnswers : State.reset.answersSpdm = false ∧ (tOne []).answersSpdm = true ∧ (tOne []).link.spdmVersion = false ∧ (tOne []).link.spdmCaps = false ∧
    (tSpdm true false).answersSpdm = true ∧ (tSpdm true false).link.spdmAlgs = true ∧ (tSpdm true false).aliasFirmware = some [7] ∧ (tSpdm true true).aliasFirmware = none := by decide
theorem witness_AttestationAnswers_varmlink : (tSpdm true false).routeFor 0x200 64 = some 0 ∧ ((tSpdm true false).module 0).room 2 1 = true ∧ (tSpdm true false).link.waiting = [] := by decide +kernel

theorem witness_JtagPort : (List.replicate Config.boundaryLength false).length = Config.boundaryLength ∧ (tAtSite ⟨[], 0⟩ ⟨[], 0⟩).boot.state = .waitSite ∧ (tOne []).boot.state ≠ .waitSite ∧
    (tOne []).boot.state ≠ .stopped := ⟨by simp, by decide, by decide, by decide⟩
theorem witness_JtagPort_core : (tOne []).se.core = false ∧ { tOne [] with se := { Enclave.init with core := true } }.se.core = true ∧ Memory.wf (tOne []).fab.mem = true ∧
    rangeStatus (2 ^ 21 - 8) 8 = stOk := by decide
def tSentFlits (n : Nat) : Module := { Module.init with state := 2, nextSend := 2, sent := [⟨0, 0, none, none, []⟩, ⟨1, n, some 9, some 0, []⟩] }
def tSending (n : Nat) (r : Bool) : State := (tOne []).setModule 15 { tSentFlits n with retraining := r }
/-- A NAK for flit 0 leaves flit 1, resent 15 or 16 times before. -/
theorem witness_FlitsAcknowledgedAndResent_nak : ∀ n ∈ [15, 16], (tSending n false).moduleRuns 15 = true ∧ ((tSending n false).module 15).sent = [] ++ ⟨0, 0, none, none, []⟩ :: [⟨1, n, some 9, some 0, []⟩] ∧
    ((∀ g ∈ ((tSending n false).module 15).sent, g.resends < 16) ↔ n = 15) ∧ (∀ f ∈ ((tSending n false).module 15).sent, f.fseq ≠ 4095) ∧
    (∃ f ∈ ((tSending n false).module 15).sent, f.fseq = 1) ∧ ((tSending n true).module 15).state = 2 ∧ ((tSending n true).module 15).retraining = true := by decide

def tAddr (space off : Nat) : Word := BitVec.ofNat 64 (space * 2 ^ 56 + off)
def tRemote : State := (tLinked (tOne [])).updPart 0 (fun p => { p with remoteMask := 2 ^ 63 })
/-- The host writes the last 8 bytes of tile 0's scratchpad. -/
theorem witness_RemoteReadsAndWrites : tRemote.moduleRuns 0 = true ∧ tRemote.moduleRuns 1 = false ∧ tRemote.pins.stops = [] ∧ (tHead true 0 (tAddr 0 (2 ^ 21 - 8)) 0).aux = 0 ∧
    (devAddr (tAddr 0 (2 ^ 21 - 8)).toNat).stack = tRemote.stackId ∧ (devAddr (tAddr 0 (2 ^ 21 - 8)).toNat).space = 0 ∧ rangeStatus (tAddr 0 (2 ^ 21 - 8)).toNat 8 = 0 ∧
    (tRemote.tile 0).access = true ∧ (∃ e ∈ moduleTiles 0, tRemote.pathRuns e 0 = true) ∧ (tRemote.tile 0).fenced = false ∧ (tRemote.tile 0).fired = false ∧ (∀ e ∈ tRemote.fab.flips, e.1 ≠ 0) ∧ Memory.wf tRemote.fab.mem = true := by decide
/-- One byte more is out of range, a column of another stack's work needs its permission, and an MCAST mask names this stack or does not. -/
theorem witness_RemoteReadsAndWrites_refused : rangeStatus (tAddr 0 (2 ^ 21 - 8)).toNat 9 ≠ 0 ∧ (devAddr (BitVec.ofNat 64 (2 ^ 58)).toNat).stack ≠ tRemote.stackId ∧
    ((tRemote.tile 0).bound.elim 0 (fun p => (tRemote.part p).remoteMask)).testBit 0 = false ∧ ((tRemote.tile 0).bound.elim 0 (fun p => (tRemote.part p).remoteMask)).testBit 63 = true ∧
    (tRemote.tile 1).access = false ∧ (1 : Word).toNat.testBit tRemote.stackId = true ∧ (2 : Word).toNat.testBit tRemote.stackId = false ∧ tRemote.columnServed 0 = true ∧
    (∀ w ∈ [0, 2 ^ 19 - 1], tRemote.fab.isLost 0 w = false) ∧ tRemote.fab.deadColumns.contains 0 = false ∧
    (tRemote.updFab (fun f => { f with deadColumns := [0] })).fab.deadColumns.contains 0 = true ∧ (tRemote.updFab (fun f => { f with lostWords := [(0, 0)] })).fab.isLost 0 0 = true ∧
    (∀ e ∈ moduleTiles 0, { tRemote with pow := Power.init }.pathRuns e 0 = false) := by decide +kernel
theorem test_remoteWriteLands : (match exec (.write (tHead true 0 (tAddr 0 (2 ^ 21 - 2)) 0) [0xAB, 0xCD]) tRemote with | .next s => s.fab.mem | _ => []) =
    [⟨spKey 0 (2 ^ 21 - 2), 0xAB⟩, ⟨spKey 0 (2 ^ 21 - 1), 0xCD⟩] := by decide +kernel

/-- A wire from tile 4 of stack 1 to tile 0, and one from tile 0 to tile 4 of stack 1. -/
def tFromFar : Wire := { link := 2, ptile := 2 ^ 15 + 512 + 4, psem := 0, init := 0, cons := [(0, 7)] }
def tToFar : Wire := { link := 3, ptile := 0, psem := 6, init := 1, cons := [(2 ^ 15 + 512 + 4, 0)] }
def tFar2 : State := tLinked (tState [(0, tTile)] (tComp [0] [] [tFromFar, tToFar] []))
def tAtomic (host : Bool) (link : Nat) (aux : Word) : MsgHead := { tHead host 0 (BitVec.ofNat 64 (3 * 2 ^ 56 + link)) aux with srcStack := 1, srcTile := 4 }
theorem witness_AtomicsAndCompletions : tFar2.moduleRuns 0 = true ∧ tFar2.signalledWire (tAtomic false 2 1) 0 = some (0, tFromFar) ∧ tFar2.releasedWire (tAtomic false 3 0) 0 = some (0, tToFar) ∧
    (tFar2.part 0).wires.find? (fun v => v.link == 2) = some tFromFar ∧ tFromFar.cons.findIdx? (fun c => c.1 == 0) = some 0 ∧ (tFar2.part 0).wires.find? (fun v => v.link == 3) = some tToFar ∧
    (tFar2.tile 0).access = true ∧ (tAtomic false 2 1).addr.toNat / 2 ^ 56 % 4 = 3 ∧ (tAtomic false 2 1).addr.toNat / 2 ^ 25 % 2 ^ 31 = 0 ∧ (tAtomic false 2 1).addr.toNat / 2 ^ 58 = tFar2.stackId ∧
    tFar2.signalledWire (tAtomic false 3 1) 0 = none ∧ tFar2.releasedWire (tAtomic false 2 0) 0 = none ∧ (tAtomic true 2 1).host = true := by decide
/-- Both clauses of the lags: with one consumer the release advances PSEM at once, and with a second it does not. -/
theorem witness_AtomicsAndCompletions_lags : (∀ n ∈ [(0 : Nat)].modify 0 (· + 1), 1 ≤ n) ∧ ∃ n ∈ [(0 : Nat), 0].modify 0 (· + 1), n = 0 := by decide

def tFlying (path : XPath) : Xfer := { tXfer path with answered := false, data := List.replicate 32 0, sent := [(9, 0, 32)] }
def tAwaits (path : XPath) : State :=
  let s := tStream tDesc tX (fun u => { u with out := [tFlying path] }) []
  { s with link := { Link.init with tags := [(9, .xfer 0 7 0)] } }
theorem witness_AtomicsAndCompletions_tags : ∀ w ∈ [true, false], (tAwaits (.remote w)).link.tags.find? (fun e => e.1 == 9) = some (9, .xfer 0 7 0) ∧
    (((tAwaits (.remote w)).tile 0).queue 7).out[0]? = some (tFlying (.remote w)) ∧ (tFlying (.remote w)).sent.find? (fun u => u.1 == 9) = some (9, 0, 32) ∧
    (((tAwaits (.remote w)).tile 0).queue 7).out.length = 1 ∧ (∀ e ∈ (tAwaits (.remote w)).link.tags, e.1 ≠ 8) := by decide

/-- A transfer of tile 0 toward tile 1 over the roads: tile 1 is of the same partition, of another, fenced, or out of reach. -/
def tCrossing (w : Bool) : Xfer := { tXfer (.road 1 w) with answered := false, src := if w then 0 else 2 ^ 21, dst := if w then 2 ^ 21 else 0 }
def tOver (w : Bool) (x : Tile) : State :=
  tState [(0, tTile.setQueue 7 { Queue.init with state := .run, cur := some (tLaunch tDesc tX), out := [tCrossing w] }), (1, x)] (tComp [0, 1] [] [] [])
theorem witness_RoadAccessesAreAnswered : ∀ w ∈ [true, false], (((tOver w tTile).tile 0).queue 7).out[0]? = some (tCrossing w) ∧ (tCrossing w).path = .road 1 w ∧ (tCrossing w).answered = false ∧
    (tOver w tTile).pins.stops = [] ∧ (tOver w tTile).fab.roadOpen 0 1 = true ∧ (tOver w tTile).fab.roadOpen 1 0 = true ∧ (((tOver w tTile).tile 0).queue 7).state ≠ .stop ∧
    (((tOver w tTile).tile 0).queue 7).landsNow 0 = true ∧ rangeStatus (tCrossing w).src (tCrossing w).len = 0 ∧ rangeStatus (tCrossing w).dst (tCrossing w).len = 0 ∧
    ((tOver w tTile).tile 1).fired = false ∧ (∀ e ∈ (tOver w tTile).fab.flips, e.1 ≠ 0 ∧ e.1 ≠ 1) ∧ (devAddr (if w then (tCrossing w).dst else (tCrossing w).src)).tile = 1 ∧ (devAddr (if w then (tCrossing w).dst else (tCrossing w).src)).space = 0 ∧
    ((tOver w tTile).tile 1).access = true ∧ (tOver w tTile).pathRuns 0 1 = true ∧ { tOver w tTile with pow := Power.init }.pathRuns 0 1 = false ∧ ((tOver w tTile).tile 1).bound = ((tOver w tTile).tile 0).bound ∧
    ((tOver w tTile).tile 1).fenced = false ∧ (devAddr (tCrossing true).src).space = 0 ∧ Memory.wf (tOver w tTile).fab.mem = true ∧
    ((tOver w { tTile with access := false }).tile 1).access = false ∧ ((tOver w { tTile with bound := some 1 }).tile 1).bound ≠ ((tOver w tTile).tile 0).bound ∧
    (tOver w { tTile with bound := some 1 }).wired 0 1 = false ∧ ((tOver w { tTile with fenced := true }).tile 1).fenced = true := by decide
theorem witness_RoadAccessesAreAnswered_none : (((tOver true tTile).tile 0).queue 6).out[0]? = none := by decide

theorem witness_StepKeepsMemoryCanonical : Memory.wf { tOne [] with pending := [.sync 0] }.fab.mem = true := by decide
theorem witness_FusesOnlyMoveForward : ((tMail 0 [] 0 []).fuse.slot 2).state = .empty ∧ ((tMail 0 [] 0 []).fuse.slot 1).state = .set ∧
    { (tMail 0 [] 0 []).fuse with debugFused := true, udsDisabled := true }.debugFused = true := by decide

/-! ### Values computed outside Lean -/

/-- SHA-384 of the three letters abc, from FIPS 180-4's examples. -/
theorem test_sha384 : sha384 [0x61, 0x62, 0x63] =
    beBytes 48 0xCB00753F45A35E8BB5A03D699AC65007272C32AB0EDED1631A8B605A43FF5BED8086072BA1E7CC2358BAECA134C825A7 := by decide +kernel
/-- The check value of CRC-32 of IEEE 802.3 over the digits 1 to 9. -/
theorem test_crc32 : crc32 [0x31, 0x32, 0x33, 0x34, 0x35, 0x36, 0x37, 0x38, 0x39] = 0xCBF43926 := by decide +kernel
/-- 2^24 + 1 is a tie and goes to the even 2^24; 2^24 + 3 is one and goes to 2^24 + 4. -/
theorem test_faddTies : fadd 0x4B800000 0x3F800000 = 0x4B800000 ∧ fadd 0x4B800000 0x40400000 = 0x4B800002 := by decide +kernel
/-- 1.0 in FP16 and in E4M3, the greatest E2M1 value 6.0 and the greatest E4M3 value 448 (R90). -/
theorem test_widen : widen 1 0x3C00 = 0x3F800000 ∧ widen 3 0x38 = 0x3F800000 ∧ widen 9 7 = 0x40C00000 ∧ widen 3 0x7E = 0x43E00000 := by decide +kernel

end
end Sys2Proof.Tests
end

section
/-! SUPPORT. A Varmlink write to control space: the words and the bits that it replaces, one rule for each register block, and the
statement about REGISTER_WRITE assembled from them (R10, R457, R495, R527, R541, R552 to R554). -/
namespace Sys2Proof.Machine

/-! ### Bits -/

theorem bitOf_eq_testBit (x i : Nat) : bitOf x i = x.testBit i := by
  rw [bitOf, Nat.testBit_eq_decide_div_mod_eq]
  rfl

/-- A bit below 64 survives a write-one-to-clear word unless the word names it. -/
theorem clearBits_testBit (x v i : Nat) (hi : i < 64) (hv : v < 2 ^ 64) :
    (clearBits x v).testBit i = (x.testBit i && !v.testBit i) := by
  have hmask : (2 ^ 64 - 1 - v).testBit i = !v.testBit i := by
    rw [show 2 ^ 64 - 1 - v = 2 ^ 64 - (v + 1) by omega, Nat.testBit_two_pow_sub_succ hv]
    simp [hi]
  rw [clearBits, Nat.testBit_and, hmask]

/-! ### Words of a byte window -/

@[simp] theorem length_leBytes (n x : Nat) : (leBytes n x).length = n := by
  induction n generalizing x with
  | zero => rfl
  | succ n ih => simp [leBytes, ih]

theorem leNat_leBytes (n x : Nat) : leNat (leBytes n x) = x % 256 ^ n := by
  induction n generalizing x with
  | zero => simp [leBytes, leNat, Nat.mod_one]
  | succ n ih => rw [leBytes, leNat, ih, Nat.pow_succ', Nat.mod_mul, BitVec.toNat_ofNat]

theorem length_setWord (bs : List Byte) (n : Nat) (v : Word) (h : 8 * n + 8 ≤ bs.length) :
    (setWord bs n v).length = bs.length := by
  simp only [setWord, List.length_append, List.length_take, length_leBytes, List.length_drop]
  omega

/-- Byte by byte: the eight bytes of word `n` are the value's, every other byte is the old one. -/
theorem getElem?_setWord (bs : List Byte) (n i : Nat) (v : Word) (h : 8 * n + 8 ≤ bs.length) :
    (setWord bs n v)[i]? = if i < 8 * n ∨ 8 * n + 8 ≤ i then bs[i]? else (leBytes 8 v.toNat)[i - 8 * n]? := by
  have htake : (bs.take (8 * n)).length = 8 * n := by simp; omega
  rw [setWord, List.append_assoc, List.getElem?_append, List.getElem?_append, htake, length_leBytes]
  rcases Nat.lt_or_ge i (8 * n) with hlo | hlo
  · simp [hlo]
  rcases Nat.lt_or_ge i (8 * n + 8) with hhi | hhi
  · simp [show ¬ i < 8 * n by omega, show i - 8 * n < 8 by omega, show ¬ 8 * n + 8 ≤ i by omega]
  · simp [show ¬ i < 8 * n by omega, show ¬ i - 8 * n < 8 by omega, hhi,
      show 8 * n + 8 + (i - 8 * n - 8) = i by omega]

theorem wordOf_setWord_same (bs : List Byte) (n : Nat) (v : Word) (h : 8 * n + 8 ≤ bs.length) :
    wordOf (setWord bs n v) n = v.toNat := by
  have hslice : slice (setWord bs n v) (8 * n) 8 = leBytes 8 v.toNat := by
    apply List.ext_getElem?
    intro i
    rw [slice, List.getElem?_take, List.getElem?_drop, getElem?_setWord bs n _ v h]
    rcases Nat.lt_or_ge i 8 with hi | hi
    · rw [if_pos hi, if_neg (by omega), Nat.add_sub_cancel_left]
    · simp [show ¬ i < 8 by omega]
  rw [wordOf, fieldAt, hslice, leNat_leBytes]
  exact Nat.mod_eq_of_lt v.isLt

theorem wordOf_setWord_other (bs : List Byte) (n m : Nat) (v : Word) (h : 8 * n + 8 ≤ bs.length) (hm : m ≠ n) :
    wordOf (setWord bs n v) m = wordOf bs m := by
  have hslice : slice (setWord bs n v) (8 * m) 8 = slice bs (8 * m) 8 := by
    apply List.ext_getElem?
    intro i
    rw [slice, slice, List.getElem?_take, List.getElem?_take, List.getElem?_drop, List.getElem?_drop,
      getElem?_setWord bs n _ v h]
    rcases Nat.lt_or_ge i 8 with hi | hi
    · rw [if_pos hi, if_pos hi, if_pos (by omega)]
    · simp [show ¬ i < 8 by omega]
  rw [wordOf, fieldAt, hslice]
  rfl

/-- Word `n` of a window of `k` words becomes the value, and the other words stay. -/
theorem setWord_replaces (bs : List Byte) (n k : Nat) (v : Word) (hk : bs.length = 8 * k) (hn : n < k) :
    (setWord bs n v).length = 8 * k ∧ wordOf (setWord bs n v) n = v.toNat ∧
      ∀ m, m < k → m ≠ n → wordOf (setWord bs n v) m = wordOf bs m := by
  have hfit : 8 * n + 8 ≤ bs.length := by omega
  exact ⟨(length_setWord bs n v hfit).trans hk, wordOf_setWord_same bs n v hfit,
    fun m _ hm => wordOf_setWord_other bs n m v hfit hm⟩

/-! ### The global block -/

theorem globalWrite_imgSrc (s : State) (v : Word) :
    globalWrite s 0x300 v = { s with load := { s.load with imgSrc := v } } := rfl

theorem globalWrite_window (s : State) (n : Nat) (v : Word) (hn : n < 42) :
    globalWrite s (0x100 + 8 * n) v =
      if s.boot.state = .waitSite then { s with boot := { s.boot with window := setWord s.boot.window n v } } else s := by
  simp [globalWrite, show ¬ 0x100 + 8 * n = 0x300 by omega, show 0x100 + 8 * n ≤ 0x248 by omega]

theorem globalWrite_other (s : State) (off : Nat) (v : Word) (hsrc : off ≠ 0x300) (hwin : ¬ (0x100 ≤ off ∧ off ≤ 0x248)) :
    globalWrite s off v = s := by
  have : ¬ (0x100 ≤ off ∧ off ≤ 0x248 ∧ s.boot.state = .waitSite) := fun h => hwin ⟨h.1, h.2.1⟩
  simp [globalWrite, hsrc, and_assoc, this]

/-! ### Partition blocks -/

theorem partWrite_ignored (s : State) (p off : Nat) (v : Word)
    (h : (s.part p).state = .unbound ∨ (s.part p).state = .killing) : partWrite s p off v = s := by
  rcases h with h | h <;> simp [partWrite, Part.isBound, h]

theorem partWrite_bound (s : State) (p off : Nat) (v : Word) (hu : (s.part p).state ≠ .unbound)
    (hk : (s.part p).state ≠ .killing) :
    partWrite s p off v =
      if off = 0x20 then s.updPart p (fun r => { r with remoteMask := v.toNat })
      else if off = 0x28 then s.updPart p (fun r => { r with fptBase := v.toNat })
      else if off = 0x30 then s.updPart p (fun r => { r with fptLen := v.toNat % 2 ^ 36 })
      else s := by
  simp [partWrite, Part.isBound, hu, hk, State.updPart, bits]

theorem partWrite_other (s : State) (p off : Nat) (v : Word) (h : ¬ (off = 0x20 ∨ off = 0x28 ∨ off = 0x30)) :
    partWrite s p off v = s := by
  obtain ⟨hmask, hbase, hlen⟩ : off ≠ 0x20 ∧ off ≠ 0x28 ∧ off ≠ 0x30 := by omega
  simp [partWrite, hmask, hbase, hlen]

/-! ### Tile status blocks -/

theorem tileWrite_semOvf (s : State) (t : Nat) (v : Word) :
    tileWrite s t 0x28 v = s.updTile t (fun x => { x with semOvf := clearBits x.semOvf v.toNat }) := rfl

theorem tileWrite_rearm (s : State) (t q : Nat) (v : Word) (hq : q < 8) :
    tileWrite s t (0x40 + 8 * q) v =
      if v.toNat.testBit 5 then s.updTile t (fun x => x.setQueue q { x.queue q with rearm := false }) else s := by
  simp [tileWrite, bitOf_eq_testBit, show ¬ 0x40 + 8 * q = 0x28 by omega, show 0x40 + 8 * q < 0x80 by omega]

theorem tileWrite_other (s : State) (t off : Nat) (v : Word) (h : ¬ (off = 0x28 ∨ (0x40 ≤ off ∧ off < 0x80))) :
    tileWrite s t off v = s := by
  obtain ⟨hovf, hqueue⟩ := not_or.mp h
  have : ¬ (0x40 ≤ off ∧ off < 0x80 ∧ bitOf v.toNat 5 = true) := fun k => hqueue ⟨k.1, k.2.1⟩
  simp [tileWrite, hovf, and_assoc, this]

/-! ### HL_FAULT -/

/-- A test that holds of the rails' causes, and of no other, finds whether one of them stands. -/
theorem any_iff_exists_rail (p : StopCause → Bool) (hp : ∀ c, p c = true ↔ ∃ r, c = .rail r) (l : List StopCause) :
    l.any p = true ↔ ∃ r, StopCause.rail r ∈ l := by
  rw [List.any_eq_true]
  constructor
  · rintro ⟨c, hc, hpc⟩
    obtain ⟨r, rfl⟩ := (hp c).mp hpc
    exact ⟨r, hc⟩
  · rintro ⟨r, hr⟩
    exact ⟨_, hr, (hp _).mpr ⟨r, rfl⟩⟩

/-- The bits of HL_FAULT after a write: bits 0 to 4 clear where the word names them, and RAIL and THERM_STOP stand while
their cause lasts (R495). -/
theorem faultWrite_bits (s : State) (v : Nat) : ∃ f, faultWrite s v = { s with hl := { s.hl with fault := f } } ∧
    ∀ i, i < 64 → (f.testBit i = true ↔ (s.hl.fault.testBit i = true ∧ (v.testBit i = false ∨ 5 ≤ i)) ∨
      (i = 2 ∧ ∃ r, StopCause.rail r ∈ s.pins.stops) ∨ (i = 3 ∧ StopCause.thermal ∈ s.pins.stops)) := by
  refine ⟨_, rfl, fun i hi => ?_⟩
  have hclear : (clearBits s.hl.fault (v % 32)).testBit i = true ↔
      s.hl.fault.testBit i = true ∧ (v.testBit i = false ∨ 5 ≤ i) := by
    rw [clearBits_testBit _ _ _ hi (by omega), show 32 = 2 ^ 5 from rfl, Nat.testBit_mod_two_pow]
    by_cases h5 : i < 5
    · simp [h5, show ¬ 5 ≤ i by omega]
    · simp [h5, show 5 ≤ i by omega]
  have hrail : (4 : Nat).testBit i = true ↔ i = 2 := by
    rw [show 4 = 2 ^ 2 from rfl, Nat.testBit_two_pow]; simp [eq_comm]
  have htherm : (8 : Nat).testBit i = true ↔ i = 3 := by
    rw [show 8 = 2 ^ 3 from rfl, Nat.testBit_two_pow]; simp [eq_comm]
  generalize hany : s.pins.stops.any _ = rail
  have hcause : (∃ r, StopCause.rail r ∈ s.pins.stops) ↔ rail = true := by
    rw [← hany, any_iff_exists_rail _ (fun c => by cases c <;> simp)]
  rw [hcause]
  by_cases hth : StopCause.thermal ∈ s.pins.stops <;> cases rail <;>
    simp [Nat.testBit_or, hclear, hrail, htherm, hth, or_assoc]

/-! ### The mailbox -/

theorem seCmdWrite_noGo (s : State) (v : Nat) (h : v.testBit 31 = false) : seCmdWrite s v = s := by
  simp [seCmdWrite, bitOf_eq_testBit, h]

theorem seCmdWrite_busy (s : State) (v : Nat) (h : v.testBit 31 = true) (hb : s.se.busy = true) :
    seCmdWrite s v = { s with se := { s.se with reject := true } } := by
  simp [seCmdWrite, bitOf_eq_testBit, h, hb]

/-- The mailbox that has taken a command and a copy of its payload (R552). -/
def Enclave.taken (e : Enclave) (c len : Nat) : Enclave :=
  { e with cmd := some (c, e.data.take len), busy := true, done := false, result := 0, rlen := 0, lastCmd := c }

theorem seCmdWrite_starts (s : State) (v : Nat) (h : v.testBit 31 = true) (hb : s.se.busy = false)
    (hknown : 1 ≤ v % 256 ∧ v % 256 ≤ 9) (hlen : v / 256 % 1024 ≤ 512) :
    seCmdWrite s v = { s with se := s.se.taken (v % 256) (v / 256 % 1024) } := by
  simp [seCmdWrite, bitOf_eq_testBit, h, hb, bits, knownCommand, hknown, hlen, Enclave.taken]

theorem seCmdWrite_unknown (s : State) (v : Nat) (h : v.testBit 31 = true) (hb : s.se.busy = false)
    (hbad : v % 256 = 0 ∨ 9 < v % 256 ∨ 512 < v / 256 % 1024) :
    seCmdWrite s v = { s with se := (s.se.taken (v % 256) (v / 256 % 1024)).finish 1 [] } := by
  have hrefused : (knownCommand (bits v 0 8) && decide (bits v 8 10 ≤ 512)) = false := by
    rw [show bits v 0 8 = v % 256 by simp [bits], show bits v 8 10 = v / 256 % 1024 by simp [bits]]
    simp only [knownCommand, Bool.and_eq_false_iff, decide_eq_false_iff_not]
    omega
  simp only [seCmdWrite, bitOf_eq_testBit, h, hb, hrefused]
  simp [bits, Enclave.taken]

theorem mailboxWrite_reject (s : State) (v : Word) :
    mailboxWrite s 8 v = { s with se := { s.se with reject := s.se.reject && !v.toNat.testBit 2 } } := by
  simp [mailboxWrite, bitOf_eq_testBit]

theorem mailboxWrite_data (s : State) (n : Nat) (v : Word) (hn : n < 64) :
    mailboxWrite s (0x100 + 8 * n) v =
      if s.se.busy = false then { s with se := { s.se with data := setWord s.se.data n v } } else s := by
  simp [mailboxWrite, show ¬ 0x100 + 8 * n = 8 by omega, show 0x100 + 8 * n ≤ 0x2F8 by omega]

theorem mailboxWrite_other (s : State) (off : Nat) (v : Word) (h : ¬ (off = 0 ∨ off = 8 ∨ (0x100 ≤ off ∧ off ≤ 0x2F8))) :
    mailboxWrite s off v = s := by
  obtain ⟨hcmd, hstat, hdata⟩ : off ≠ 0 ∧ off ≠ 8 ∧ ¬ (0x100 ≤ off ∧ off ≤ 0x2F8) := by omega
  have : ¬ (0x100 ≤ off ∧ off ≤ 0x2F8 ∧ s.se.busy = false) := fun k => hdata ⟨k.1, k.2.1⟩
  simp [mailboxWrite, hcmd, hstat, and_assoc, this]

/-! ### The offset names the block -/

theorem ctlWrite_misaligned (s : State) (off : Nat) (v : Word) (h : off % 8 ≠ 0) : ctlWrite s off v = s := by
  simp [ctlWrite, h]

theorem ctlWrite_global (s : State) (off : Nat) (v : Word) (h8 : off % 8 = 0) (h : off < 0x10000) :
    ctlWrite s off v = globalWrite s off v := by
  simp [ctlWrite, h8, h]

theorem ctlWrite_part (s : State) (p o : Nat) (v : Word) (hp : p < 64) (ho : o < 0x1000) (h8 : o % 8 = 0) :
    ctlWrite s (0x10000 + o + 0x1000 * p) v = partWrite s p o v := by
  have hnum : (0x10000 + o + 0x1000 * p) / 0x1000 - 0x10 = p := by omega
  have hoff : (0x10000 + o + 0x1000 * p) % 0x1000 = o := by omega
  rw [ctlWrite, hnum, hoff, if_neg (by simp; omega), if_neg (by omega), if_pos (by omega)]

theorem ctlWrite_tile (s : State) (t o : Nat) (v : Word) (ht : t < 512) (ho : o < 0x400) (h8 : o % 8 = 0) :
    ctlWrite s (0x100000 + o + 0x400 * t) v = tileWrite s t o v := by
  have hnum : (0x100000 + o + 0x400 * t - 0x100000) / 0x400 = t := by omega
  have hoff : (0x100000 + o + 0x400 * t) % 0x400 = o := by omega
  rw [ctlWrite, hnum, hoff, if_neg (by simp; omega), if_neg (by omega), if_neg (by omega), if_pos (by simp; omega)]

theorem ctlWrite_fault (s : State) (v : Word) : ctlWrite s 0x210000 v = faultWrite s v.toNat := rfl

theorem ctlWrite_seCmd (s : State) (v : Word) : ctlWrite s 0x220000 v = seCmdWrite s v.toNat := rfl

theorem ctlWrite_mailbox (s : State) (o : Nat) (v : Word) (ho : o < 0x10000) (h8 : o % 8 = 0) :
    ctlWrite s (0x220000 + o) v = mailboxWrite s o v := by
  rw [ctlWrite, if_neg (by simp; omega), if_neg (by omega), if_neg (by omega), if_neg (by simp; omega),
    if_neg (by simp; omega), if_pos (by simp; omega), Nat.add_sub_cancel_left]

/-- An offset outside the blocks that take a write. -/
theorem ctlWrite_noBlock (s : State) (off : Nat) (v : Word) (hlow : 0x50000 ≤ off)
    (htile : ¬ (0x100000 ≤ off ∧ off < 0x180000)) (hfault : off ≠ 0x210000)
    (hbox : ¬ (0x220000 ≤ off ∧ off < 0x230000)) : ctlWrite s off v = s := by
  simp [ctlWrite, show ¬ off < 0x10000 by omega, show ¬ off < 0x50000 by omega, htile, hfault, hbox]

/-- The offsets of control space that a Varmlink write can change. -/
def TakesWrite (off : Nat) : Prop :=
  off % 8 = 0 ∧ (off = 0x300 ∨ (0x100 ≤ off ∧ off ≤ 0x248) ∨
    (0x10000 ≤ off ∧ off < 0x50000 ∧ (off % 0x1000 = 0x20 ∨ off % 0x1000 = 0x28 ∨ off % 0x1000 = 0x30)) ∨
    (0x100000 ≤ off ∧ off < 0x180000 ∧ (off % 0x400 = 0x28 ∨ (0x40 ≤ off % 0x400 ∧ off % 0x400 < 0x80))) ∨ off = 0x210000 ∨
    off = 0x220000 ∨ off = 0x220008 ∨ (0x220100 ≤ off ∧ off ≤ 0x2202F8))

theorem ctlWrite_of_not_takesWrite (s : State) (off : Nat) (v : Word) (h : ¬ TakesWrite off) : ctlWrite s off v = s := by
  by_cases h8 : off % 8 = 0
  case neg => exact ctlWrite_misaligned s off v h8
  simp only [TakesWrite, h8, true_and, not_or] at h
  obtain ⟨hsrc, hwin, hpart, htile, hfault, hcmd, hstat, hdata⟩ := h
  by_cases hg : off < 0x10000
  · rw [ctlWrite_global s off v h8 hg, globalWrite_other s off v hsrc hwin]
  by_cases hp : off < 0x50000
  · obtain ⟨p, o, rfl, hp64, ho⟩ : ∃ p o, off = 0x10000 + o + 0x1000 * p ∧ p < 64 ∧ o < 0x1000 :=
      ⟨off / 0x1000 - 0x10, off % 0x1000, by omega, by omega, by omega⟩
    rw [ctlWrite_part s p o v hp64 ho (by omega), partWrite_other s p o v (by omega)]
  by_cases ht : 0x100000 ≤ off ∧ off < 0x180000
  · obtain ⟨t, o, rfl, ht512, ho⟩ : ∃ t o, off = 0x100000 + o + 0x400 * t ∧ t < 512 ∧ o < 0x400 :=
      ⟨(off - 0x100000) / 0x400, off % 0x400, by omega, by omega, by omega⟩
    rw [ctlWrite_tile s t o v ht512 ho (by omega), tileWrite_other s t o v (by omega)]
  by_cases hm : 0x220000 ≤ off ∧ off < 0x230000
  · obtain ⟨o, rfl⟩ := Nat.exists_eq_add_of_le hm.1
    rw [ctlWrite_mailbox s o v (by omega) (by omega), mailboxWrite_other s o v (by omega)]
  exact ctlWrite_noBlock s off v (by omega) ht hfault hm

/-! ### What a write does, block by block -/

theorem ctlWrite_siteWindow (s : State) (n : Nat) (v : Word) (hn : n < 42) :
    (s.boot.state ≠ .waitSite → ctlWrite s (0x100 + 8 * n) v = s) ∧
    (s.boot.state = .waitSite → s.boot.window.length = 336 →
      ∃ w, ctlWrite s (0x100 + 8 * n) v = { s with boot := { s.boot with window := w } } ∧
        w.length = 336 ∧ wordOf w n = v.toNat ∧ ∀ m, m < 42 → m ≠ n → wordOf w m = wordOf s.boot.window m) := by
  rw [ctlWrite_global s _ v (by omega) (by omega), globalWrite_window s n v hn]
  exact ⟨fun hstate => if_neg hstate, fun hstate hlen => ⟨_, if_pos hstate, setWord_replaces _ n 42 v hlen hn⟩⟩

theorem ctlWrite_partIgnored (s : State) (p o : Nat) (v : Word) (hp : p < 64) (ho : o < 0x1000)
    (h : (s.part p).state = .unbound ∨ (s.part p).state = .killing) :
    ctlWrite s (0x10000 + 0x1000 * p + o) v = s := by
  by_cases h8 : o % 8 = 0
  · rw [Nat.add_right_comm, ctlWrite_part s p o v hp ho h8, partWrite_ignored s p o v h]
  · exact ctlWrite_misaligned s _ v (by omega)

theorem ctlWrite_partBound (s : State) (p : Nat) (v : Word) (hp : p < 64) (hu : (s.part p).state ≠ .unbound)
    (hk : (s.part p).state ≠ .killing) :
    ctlWrite s (0x10020 + 0x1000 * p) v = s.updPart p (fun r => { r with remoteMask := v.toNat }) ∧
    ctlWrite s (0x10028 + 0x1000 * p) v = s.updPart p (fun r => { r with fptBase := v.toNat }) ∧
    ctlWrite s (0x10030 + 0x1000 * p) v = s.updPart p (fun r => { r with fptLen := v.toNat % 2 ^ 36 }) := by
  have hword (o : Nat) (ho : o < 0x1000) (h8 : o % 8 = 0) :=
    (ctlWrite_part s p o v hp ho h8).trans (partWrite_bound s p o v hu hk)
  exact ⟨hword 0x20 (by decide) (by decide), hword 0x28 (by decide) (by decide), hword 0x30 (by decide) (by decide)⟩

theorem ctlWrite_semOvf (s : State) (t : Nat) (v : Word) (ht : t < 512) :
    ∃ o, ctlWrite s (0x100028 + 0x400 * t) v = s.updTile t (fun x => { x with semOvf := o }) ∧
      ∀ i, i < 64 → o.testBit i = ((s.tile t).semOvf.testBit i && !v.toNat.testBit i) :=
  ⟨clearBits (s.tile t).semOvf v.toNat,
    (ctlWrite_tile s t 0x28 v ht (by decide) (by decide)).trans (tileWrite_semOvf s t v),
    fun i hi => clearBits_testBit _ _ i hi v.isLt⟩

theorem ctlWrite_rearm (s : State) (t q : Nat) (v : Word) (ht : t < 512) (hq : q < 8) :
    ctlWrite s (0x100040 + 0x400 * t + 8 * q) v =
      if v.toNat.testBit 5 then s.updTile t (fun x => x.setQueue q { x.queue q with rearm := false }) else s := by
  rw [show 0x100040 + 0x400 * t + 8 * q = 0x100000 + (0x40 + 8 * q) + 0x400 * t by omega,
    ctlWrite_tile s t _ v ht (by omega) (by omega), tileWrite_rearm s t q v hq]

theorem ctlWrite_healthFault (s : State) (v : Word) :
    ∃ f, ctlWrite s 0x210000 v = { s with hl := { s.hl with fault := f } } ∧
      (∀ i, i < 64 → i ≠ 2 → i ≠ 3 → f.testBit i = (s.hl.fault.testBit i && (!v.toNat.testBit i || decide (5 ≤ i)))) ∧
      ((∃ r, StopCause.rail r ∈ s.pins.stops) → f.testBit 2 = true) ∧
      ((∀ r, StopCause.rail r ∉ s.pins.stops) → f.testBit 2 = (s.hl.fault.testBit 2 && !v.toNat.testBit 2)) ∧
      (StopCause.thermal ∈ s.pins.stops → f.testBit 3 = true) ∧
      (StopCause.thermal ∉ s.pins.stops → f.testBit 3 = (s.hl.fault.testBit 3 && !v.toNat.testBit 3)) := by
  obtain ⟨f, hf, hbit⟩ := faultWrite_bits s v.toNat
  refine ⟨f, (ctlWrite_fault s v).trans hf, fun i hi h2 h3 => ?_, fun hrail => ?_, fun hrail => ?_, fun htherm => ?_,
    fun htherm => ?_⟩
  · rw [Bool.eq_iff_iff, hbit i hi]
    simp [h2, h3]
  · exact (hbit 2 (by decide)).mpr (.inr (.inl ⟨rfl, hrail⟩))
  · rw [Bool.eq_iff_iff, hbit 2 (by decide)]
    simp [hrail]
  · exact (hbit 3 (by decide)).mpr (.inr (.inr ⟨rfl, htherm⟩))
  · rw [Bool.eq_iff_iff, hbit 3 (by decide)]
    simp [htherm]

theorem ctlWrite_reject (s : State) (v : Word) :
    ctlWrite s 0x220008 v = { s with se := { s.se with reject := s.se.reject && !v.toNat.testBit 2 } } :=
  (ctlWrite_mailbox s 8 v (by decide) (by decide)).trans (mailboxWrite_reject s v)

theorem ctlWrite_mailboxWindow (s : State) (n : Nat) (v : Word) (hn : n < 64) :
    (s.se.busy = true → ctlWrite s (0x220100 + 8 * n) v = s) ∧
    (s.se.busy = false → s.se.data.length = 512 →
      ∃ d, ctlWrite s (0x220100 + 8 * n) v = { s with se := { s.se with data := d } } ∧
        d.length = 512 ∧ wordOf d n = v.toNat ∧ ∀ m, m < 64 → m ≠ n → wordOf d m = wordOf s.se.data m) := by
  rw [show 0x220100 + 8 * n = 0x220000 + (0x100 + 8 * n) by omega, ctlWrite_mailbox s _ v (by omega) (by omega),
    mailboxWrite_data s n v hn]
  exact ⟨fun hbusy => if_neg (by simp [hbusy]),
    fun hfree hlen => ⟨_, if_pos hfree, setWord_replaces _ n 64 v hlen hn⟩⟩

/-! ### The write as a command -/

theorem exec_registerWrite (via : Via) (off : Nat) (v : Word) (s : State) :
    exec (.registerWrite via off v) s = execRegisterWrite via off v s := rfl

theorem exec_registerWrite_stewardStopped (via : Via) (off : Nat) (v : Word) (s : State) (h : s.stewardRuns = false) :
    exec (.registerWrite via off v) s = .next s := by
  simp [exec_registerWrite, execRegisterWrite, h]

theorem exec_registerWrite_varmlink (s : State) (off : Nat) (v : Word) (h : s.stewardRuns = true) :
    exec (.registerWrite .varmlink off v) s = .next (ctlWrite s off v) := by
  simp [exec_registerWrite, execRegisterWrite, h]

/-- Settles O49: the offset names the block, and each block's rule gives the word's effect. -/
theorem registerWritesTakeEffect : Obligations.RegisterWritesTakeEffect := by
  unfold Obligations.RegisterWritesTakeEffect
  refine ⟨fun s off v => exec_registerWrite_stewardStopped .varmlink off v s, fun s v hrun => ?_⟩
  simp only [exec_registerWrite_varmlink s _ v hrun, Host.Outcome.next.injEq]
  refine ⟨fun off => ctlWrite_of_not_takesWrite s off v,
    (ctlWrite_global s 0x300 v (by decide) (by decide)).trans (globalWrite_imgSrc s v),
    fun n hn => ctlWrite_siteWindow s n v hn,
    fun p hp => ⟨fun hstate o ho => ctlWrite_partIgnored s p o v hp ho hstate, ctlWrite_partBound s p v hp⟩,
    fun t ht => ⟨ctlWrite_semOvf s t v ht, fun q hq => ctlWrite_rearm s t q v ht hq⟩,
    ctlWrite_healthFault s v, ?seCmd, ctlWrite_reject s v, fun n hn => ctlWrite_mailboxWindow s n v hn⟩
  case seCmd =>
    rw [ctlWrite_seCmd]
    exact ⟨seCmdWrite_noGo s _, seCmdWrite_busy s _,
      fun hgo hfree hlow hhigh hlen => seCmdWrite_starts s _ hgo hfree ⟨hlow, hhigh⟩ hlen,
      fun hgo hfree hbad => ⟨_, seCmdWrite_unknown s _ hgo hfree hbad, rfl, rfl, rfl, rfl, rfl, rfl⟩⟩

end Sys2Proof.Machine
end


section
/-! SUPPORT. How a step enters its unit and how its command passes the gate, and the statement about issuing and taking assembled
from them (R110, R338, R368, R371, R373, R390). -/
namespace Sys2Proof.Machine

/-! ### The sequencer's moves -/

theorem Seq.advance_target (q : Seq) : (q.advance.loops, q.advance.pc) = seqNext q.loops q.pc := rfl

/-- The sequencer goes on behind one rank of its step: to the next rank, or out of the step with one more pass counted (R110, R390). -/
def Seq.leaveRank (q : Seq) : Seq :=
  match q.ranks.drop 1 with
  | [] => { q with passes := tabUpd 0 q.passes q.pc (· + 1) }.advance
  | rs => { q with ranks := rs }

theorem Seq.leaveRank_last {q : Seq} (h : q.ranks.length ≤ 1) :
    q.leaveRank = { q with passes := tabUpd 0 q.passes q.pc (· + 1) }.advance := by
  simp only [Seq.leaveRank, List.drop_eq_nil_of_le h]

theorem Seq.leaveRank_more {q : Seq} (h : 1 < q.ranks.length) : q.leaveRank = { q with ranks := q.ranks.tail } := by
  rw [Seq.leaveRank, List.drop_one]
  split
  case h_1 hnil =>
    have hlen := congrArg List.length hnil
    rw [List.length_tail, List.length_nil] at hlen
    omega
  case h_2 => rfl

/-- Leaving a rank changes neither the list of issued steps nor the last step met. -/
theorem Seq.leaveRank_keeps (q : Seq) :
    q.leaveRank.issued = q.issued ∧ q.leaveRank.nextId = q.nextId ∧ q.leaveRank.lastStep = q.lastStep := by
  rcases Nat.lt_or_ge 1 q.ranks.length with hmore | hlast
  · rw [Seq.leaveRank_more hmore]
    exact ⟨rfl, rfl, rfl⟩
  · rw [Seq.leaveRank_last hlast]
    exact ⟨rfl, rfl, rfl⟩

/-! ### A step enters its unit -/

/-- The run that a tile lists when it issues a step (R110, R371). -/
def Tile.runOf (x : Tile) (p : Part) (st : ItinStep) (u : StepUnit) (fin : Bool) : StepRun :=
  { id := x.seq.nextId, step := x.seq.pc, pass := tabGet 0 x.seq.passes x.seq.pc, rank := x.seq.ranks.headD 0, unit := u,
    dlink := linkAt p st (x.seq.ranks.headD 0), finished := fin, wbc := st.wbc, skip := x.inSkip }

/-- The sequencer with one more run listed (R368). -/
def Seq.listed (q : Seq) (r : StepRun) : Seq :=
  { q with issued := q.issued ++ [r], nextId := q.nextId + 1, lastStep := q.pc, hold := .run }

theorem Tile.issue_eq (x : Tile) (p : Part) (st : ItinStep) (u : StepUnit) (fin : Bool) :
    x.issue p st u fin = { x with seq := (x.seq.listed (x.runOf p st u fin)).leaveRank } := by
  cases hrest : x.seq.ranks.drop 1 <;> simp only [Tile.issue, Seq.leaveRank, Seq.listed, Tile.runOf, hrest]

theorem Tile.issue_seq (x : Tile) (p : Part) (st : ItinStep) (u : StepUnit) (fin : Bool) :
    (x.issue p st u fin).seq = (x.seq.listed (x.runOf p st u fin)).leaveRank := by rw [Tile.issue_eq]

/-! ### A step's command at the gate -/

theorem exec_vecCommand (t : Nat) (s : State) :
    ∀ e ∈ rowwiseCommands ++ reductionCommands, exec (e.2 t) s = .next (s.vecStep t e.1) := by
  simp only [rowwiseCommands, reductionCommands, List.cons_append, List.nil_append, List.forall_mem_cons]
  exact ⟨rfl, rfl, rfl, rfl, rfl, rfl, rfl, rfl, rfl, rfl, rfl, rfl, rfl, rfl, rfl, rfl, rfl, rfl, rfl, rfl, by simp⟩

/-- `s'` is what the gate makes of `s` at a step of tile `t` with body `b` (R368). -/
def State.GateOf (s : State) (t : Nat) (b : StepBody) (s' : State) : Prop :=
  ∃ sel go, sel b = true ∧ s' = s.stepGate t sel go

theorem State.vecStep_gateOf (s : State) (t : Nat) (v : Vec) : s.GateOf t (.vec v) (s.vecStep t v.vop) :=
  ⟨_, _, beq_self_eq_true v.vop, rfl⟩

theorem State.operStep_gateOf (s : State) (t : Nat) (o : Oper) : s.GateOf t (.oper o) (s.operStep t o.mode) :=
  ⟨_, _, beq_self_eq_true o.mode, rfl⟩

/-- While a work item is in progress, DONE and CKPT are not passed over (R369). -/
theorem State.reportStep_gateOf {s : State} {t : Nat} {b : StepBody} {sel : StepBody → Bool} (hsel : sel b = true)
    (hwork : (s.tile t).seq.inWork = true) : s.GateOf t b (s.reportStep t sel) :=
  ⟨sel, _, hsel, if_neg (by simp [hwork])⟩

/-- The command that runs a step is that step's gate (R368, R373). -/
theorem StepBody.RunBy.exec_gateOf {b : StepBody} {t : Nat} {c : Instr} (h : b.RunBy t c) (s : State)
    (hwork : b = .done ∨ (∃ a, b = .ckpt a) → (s.tile t).seq.inWork = true) :
    ∃ s', exec c s = .next s' ∧ s.GateOf t b s' := by
  rcases h with ⟨rfl, rfl⟩ | ⟨rfl, rfl⟩ | ⟨n, l, o, rfl, rfl⟩ | ⟨k, n, a, v, rfl, rfl⟩ | ⟨a, rfl, rfl⟩ | ⟨rfl, rfl⟩ |
    ⟨o, rfl, hmode, rfl⟩ | ⟨o, rfl, hmode, rfl⟩ | ⟨o, rfl, hmode, rfl⟩ | ⟨o, rfl, hmode, rfl⟩ | ⟨v, k, rfl, hvop, rfl⟩ |
    ⟨j, rfl, rfl⟩ | ⟨d, ps, rfl, rfl⟩ | ⟨es, rfl, rfl⟩ | ⟨es, rfl, rfl⟩ | ⟨a, n, rfl, rfl⟩ | ⟨rfl, rfl⟩
  · exact ⟨_, rfl, _, _, rfl, rfl⟩
  · exact ⟨_, rfl, State.reportStep_gateOf rfl (hwork (.inl rfl))⟩
  · exact ⟨_, rfl, _, _, rfl, rfl⟩
  · exact ⟨_, rfl, _, _, rfl, rfl⟩
  · exact ⟨_, rfl, State.reportStep_gateOf rfl (hwork (.inr ⟨a, rfl⟩))⟩
  · exact ⟨_, rfl, _, _, rfl, rfl⟩
  · exact ⟨_, rfl, hmode ▸ s.operStep_gateOf t o⟩
  · exact ⟨_, rfl, hmode ▸ s.operStep_gateOf t o⟩
  · exact ⟨_, rfl, hmode ▸ s.operStep_gateOf t o⟩
  · exact ⟨_, rfl, hmode ▸ s.operStep_gateOf t o⟩
  · exact ⟨_, exec_vecCommand t s _ hvop, s.vecStep_gateOf t v⟩
  all_goals exact ⟨_, rfl, _, _, rfl, rfl⟩

/-- Settles O4: the sequencer leaves the rank whose run it has listed, and the gate of a step that names a WSEM begins the take. -/
theorem stepsIssueOrWait : Obligations.StepsIssueOrWait := by
  unfold Obligations.StepsIssueOrWait
  refine ⟨fun x p st u fin => ?issue, fun s t pn p st q i c hpart hruns hsettle hstep hhold hwsem hcmd hwork => ?take⟩
  case issue =>
    rw [Tile.issue_seq]
    obtain ⟨hissued, hid, hlast⟩ := (x.seq.listed (x.runOf p st u fin)).leaveRank_keeps
    refine ⟨hissued, hid, hlast, fun hlen => ?_, fun hlen => ?_, by rw [Tile.issue_eq]⟩
    · rw [Seq.leaveRank_last (q := x.seq.listed _) hlen]
      exact ⟨Seq.advance_target _, tabGet_tabSet_same _ _ _ _⟩
    · rw [Seq.leaveRank_more (q := x.seq.listed _) hlen]
      exact ⟨rfl, rfl, rfl⟩
  case take =>
    obtain ⟨s', hexec, sel, go, hsel, rfl⟩ := hcmd.exec_gateOf s hwork
    rw [hexec, State.stepGate_wsem hpart hruns hsettle hstep hhold hwsem hsel]

end Sys2Proof.Machine
end

section
/-! SUPPORT. One array of a tile, several tiles updated alike, and the weight sets of an array's job, with the statement about their
loads (R140 to R143, R209). -/
namespace Sys2Proof.Machine

/-! ### One array of a tile -/

@[simp] theorem Tile.updArr_arr (y : Tile) (x : Side) (g : Arr → Arr) : (y.updArr x g).arr x = g (y.arr x) := by
  rw [Tile.updArr, Tile.setArr_arr]

@[simp] theorem Tile.updArr_otherSide_arr (y : Tile) (x : Side) (g : Arr → Arr) : (y.updArr (otherSide x) g).arr x = y.arr x := by
  cases x <;> rfl

/-! ### The same update of several tiles -/

theorem State.foldl_updTile_tile_of_notMem (g : Nat → Tile → Tile) {ts : List Nat} {u : Nat} (hu : u ∉ ts) (s : State) :
    (ts.foldl (fun s v => s.updTile v (g v)) s).tile u = s.tile u := by
  induction ts generalizing s with
  | nil => rfl
  | cons v ts ih =>
    obtain ⟨hne, hrest⟩ := List.ne_and_not_mem_of_not_mem_cons hu
    rw [List.foldl_cons, ih hrest, State.updTile_tile_other _ _ _ _ hne]

theorem State.foldl_updTile_tile_of_mem (g : Nat → Tile → Tile) {ts : List Nat} {u : Nat} (hnodup : ts.Nodup) (hu : u ∈ ts) (s : State) :
    (ts.foldl (fun s v => s.updTile v (g v)) s).tile u = g u (s.tile u) := by
  induction ts generalizing s with
  | nil => cases hu
  | cons v ts ih =>
    obtain ⟨hv, hrest⟩ := List.nodup_cons.mp hnodup
    rw [List.foldl_cons]
    rcases List.mem_cons.mp hu with rfl | hu
    · rw [foldl_updTile_tile_of_notMem g hv, State.updTile_tile]
    · rw [ih hrest hu, State.updTile_tile_other _ _ _ _ (ne_of_mem_of_not_mem hu hv)]

theorem State.SameSteward.refl (s : State) : s.SameSteward s := ⟨rfl, rfl, rfl, rfl, rfl, rfl, rfl, rfl, rfl, rfl⟩

theorem State.SameSteward.trans {a b c : State} (h : a.SameSteward b) (k : b.SameSteward c) : a.SameSteward c := by
  obtain ⟨h1, h2, h3, h4, h5, h6, h7, h8, h9, h10⟩ := h
  obtain ⟨k1, k2, k3, k4, k5, k6, k7, k8, k9, k10⟩ := k
  exact ⟨k1.trans h1, k2.trans h2, k3.trans h3, k4.trans h4, k5.trans h5, k6.trans h6, k7.trans h7, k8.trans h8, k9.trans h9,
    k10.trans h10⟩

theorem State.SameSteward.updTile (s : State) (t : Nat) (g : Tile → Tile) : s.SameSteward (s.updTile t g) :=
  ⟨rfl, rfl, rfl, rfl, rfl, rfl, rfl, rfl, rfl, rfl⟩

theorem State.SameSteward.foldl {α : Type} (f : State → α → State) (h : ∀ (s : State) a, s.SameSteward (f s a)) (l : List α) (s : State) :
    s.SameSteward (l.foldl f s) := by
  induction l generalizing s with
  | nil => exact .refl s
  | cons a l ih => exact (h s a).trans (ih _)

/-! ### Weight sets -/

/-- The tap that the next load of a pass writes: the set's own for a set of one, the next in order for a larger one (R140). -/
def Job.nextTap (job : Job) (p : Pass) : Nat := if p.loads = 1 then p.tap else job.loaded

/-- No sum in flight can name the tap; for a stopped reload none is in flight (R141, R143). -/
def Job.TapClear (job : Job) (kind : LoadKind) (tap : Nat) : Prop :=
  (kind = .moving ∧ ∀ f ∈ job.flights, f.tap ≠ tap) ∨ (kind = .stopped ∧ job.flights = [])

theorem Job.tapClear_iff {job : Job} {kind : LoadKind} {tap : Nat} (hkind : kind = .moving ∨ kind = .stopped) :
    job.TapClear kind tap ↔
      (if kind == .moving then !job.flights.any (fun f => f.tap == tap) else job.flights.isEmpty) = true := by
  rcases hkind with rfl | rfl
  · simp [Job.TapClear]
  · simp [Job.TapClear]

/-- The oldest tap of the front buffer goes to tap `n` (R140). -/
def Arr.takeTap (n : Nat) (a : Arr) : Arr :=
  match a.front with
  | [] => a
  | f :: fs => { a with front := fs, taps := tabSet a.taps n f }

theorem Arr.takeTap_of_front {a : Arr} (h : a.front ≠ []) (n : Nat) :
    a.takeTap n = { a with front := a.front.tail, taps := tabSet a.taps n (a.front.headD ⟨[], []⟩) } := by
  obtain ⟨f, fs, hfront⟩ := List.exists_cons_of_ne_nil h
  simp [Arr.takeTap, hfront]

theorem State.loadTap_eq (s : State) (x : Side) (job : Job) (n : Nat) :
    s.loadTap x job n = job.tiles.foldl (fun s u => s.updTile u (fun y => y.updArr x (Arr.takeTap n))) s := rfl

/-- All that the next weight set waits for: it changes by this kind and is not yet whole, no position of it has entered, no retry is owed, no sum
in flight can name the tap, every front buffer has one, and the arrays are ready (R140 to R143, R209). -/
def State.SetLoads (s : State) (x : Side) (job : Job) (p : Pass) (kind : LoadKind) : Prop :=
  p.kind = kind ∧ job.loaded < p.loads ∧ job.q = 0 ∧ job.retries = [] ∧ job.TapClear kind (job.nextTap p) ∧
    (∀ u ∈ job.tiles, ((s.tile u).arr x).front ≠ []) ∧ s.jobReady x job = true

/-- The array after one more tap of the set has loaded: the gap counts once the set is whole (R142, R143). -/
def Arr.tapLoaded (job : Job) (kind : LoadKind) (loads : Nat) (a : Arr) : Arr :=
  { a with
    job := some { job with loaded := job.loaded + 1 },
    nextIssue := if job.loaded + 1 == loads then Nat.max a.nextIssue (a.lastIssue + job.gap kind loads) else a.nextIssue }

section
variable {s : State} {t : Nat} {x : Side} {job : Job} {p : Pass} {rest : List Pass} {kind : LoadKind}
variable (hjob : ((s.tile t).arr x).job = some job) (hpasses : job.passes = p :: rest) (hkind : kind = .moving ∨ kind = .stopped)
include hjob hpasses hkind

/-- What a load does where nothing holds it back. -/
theorem State.front_eq [Decidable (s.SetLoads x job p kind)] : s.front t x kind =
    if s.SetLoads x job p kind then
      (s.loadTap x job (job.nextTap p)).updTile t (fun y => y.updArr x (Arr.tapLoaded job kind p.loads))
    else s := by
  have htap : job.nextTap p = if p.loads == 1 then p.tap else job.loaded := by simp [Job.nextTap]
  have hguard : s.SetLoads x job p kind ↔ ¬ (p.kind != kind || p.loads ≤ job.loaded || job.q != 0 || !job.retries.isEmpty ||
      !job.tiles.all (fun u => !((s.tile u).arr x).front.isEmpty) ||
      !(if kind == .moving then !job.flights.any (fun f => f.tap == (if p.loads == 1 then p.tap else job.loaded)) else job.flights.isEmpty) ||
      !s.jobReady x job) = true := by
    rw [State.SetLoads, Job.tapClear_iff hkind, htap]
    rcases hkind with rfl | rfl
    · simp [and_assoc, and_left_comm]
    · simp [and_assoc, and_left_comm]
  simp only [State.front, hjob, hpasses]
  by_cases h : s.SetLoads x job p kind
  · rw [if_pos h]
    exact (if_neg (hguard.mp h)).trans (by rw [htap, ← hpasses]; rfl)
  · rw [if_neg h]
    exact if_pos (Decidable.not_not.mp (mt hguard.mpr h))

end

theorem exec_setLoad {t : Nat} {x : Side} {c : Instr} {kind : LoadKind}
    (h : (c = .movingFront t x ∧ kind = .moving) ∨ (c = .stoppedReload t x ∧ kind = .stopped)) (s : State) :
    exec c s = .next (s.front t x kind) := by
  rcases h with ⟨rfl, rfl⟩ | ⟨rfl, rfl⟩
  · rfl
  · rfl

theorem State.loadTap_tile_of_mem (s : State) (x : Side) {job : Job} (n : Nat) {u : Nat} (hnodup : job.tiles.Nodup) (hu : u ∈ job.tiles) :
    (s.loadTap x job n).tile u = (s.tile u).updArr x (Arr.takeTap n) := by
  rw [State.loadTap_eq, State.foldl_updTile_tile_of_mem _ hnodup hu]

theorem State.loadTap_tile_of_notMem (s : State) (x : Side) {job : Job} (n : Nat) {u : Nat} (hu : u ∉ job.tiles) :
    (s.loadTap x job n).tile u = s.tile u := by
  rw [State.loadTap_eq, State.foldl_updTile_tile_of_notMem _ hu]

/-- Settles O33: a load that nothing holds back takes the oldest tap of every front buffer, and any other leaves the state. -/
theorem weightSetsLoad : Obligations.WeightSetsLoad := by
  classical
  unfold Obligations.WeightSetsLoad
  intro s t x job p rest c kind hc hjob hpasses hnodup ht
  have hkind : kind = .moving ∨ kind = .stopped := hc.imp And.right And.right
  rw [exec_setLoad hc s, State.front_eq hjob hpasses hkind]
  refine ⟨fun hwaits => ?waits, fun hpk hloaded hq hretries hclear hfront hready => ?loads⟩
  case waits =>
    have hnot : ¬ s.SetLoads x job p kind := by
      rintro ⟨hpk, hloaded, hq, hretries, hclear, hfront, hready⟩
      rcases hwaits with h | h | h | h | h | ⟨u, hu, h⟩ | h
      · exact h hpk
      · exact absurd hloaded (Nat.not_lt.mpr h)
      · exact h hq
      · exact h hretries
      · exact h hclear
      · exact hfront u hu h
      · exact absurd hready (by simp [h])
    rw [if_neg hnot]
  case loads =>
    rw [if_pos ⟨hpk, hloaded, hq, hretries, hclear, hfront, hready⟩]
    refine ⟨_, rfl, fun u hu => ?_, ?_, fun u hu => ?_, fun k => ?_, ?_⟩
    · have harr := Arr.takeTap_of_front (hfront u hu) (job.nextTap p)
      rw [← Tile.updArr_arr (s.tile u) x (Arr.takeTap _), ← s.loadTap_tile_of_mem x _ hnodup hu] at harr
      by_cases hut : u = t
      · subst hut
        rw [State.updTile_tile, Tile.updArr_arr, harr]
        exact ⟨rfl, rfl⟩
      · rw [State.updTile_tile_other _ _ _ _ hut, harr]
        exact ⟨rfl, rfl⟩
    · rw [State.updTile_tile, Tile.updArr_arr]
      rfl
    · rw [State.updTile_tile_other _ _ _ _ (ne_of_mem_of_not_mem ht hu).symm, State.loadTap_tile_of_notMem s x _ hu]
    · rw [State.updTile_mem, (State.loadTap_keeps s x job _).2.2]
    · exact (State.SameSteward.foldl _ (fun s u => .updTile s u _) _ _).trans (.updTile _ _ _)

end Sys2Proof.Machine
end

section
/-! SUPPORT. How a partial sum lands in its window slot, and the statement about PSUM_OUT (R134, R163, R177). -/
namespace Sys2Proof.Machine

theorem insertNew_ne_nil {α : Type} [DecidableEq α] (l : List α) (a : α) : insertNew l a ≠ [] := by
  rw [insertNew]
  split
  case isTrue h => exact List.ne_nil_of_mem h
  case isFalse => simp

/-- A job with a slot in use or a retry owed is not finished, and stays in its array (R177, R183). -/
theorem State.keepJob_of_unfinished (s : State) (t : Nat) (x : Side) {job : Job} (h : job.slots ≠ [] ∨ job.retries ≠ []) :
    s.keepJob t x job = s.updTile t (fun y => y.updArr x (fun a => { a with job := some job })) := by
  have hfinished : job.finished = false := by
    rcases h with h | h
    · simp [Job.finished, h]
    · simp [Job.finished, h]
  simp [State.keepJob, hfinished]

@[simp] theorem Job.setAcc_slots_eq_nil (job : Job) (key col idx : Nat) (a : Acc) : (job.setAcc key col idx a).slots = [] ↔ job.slots = [] :=
  List.map_eq_nil_iff

section
variable {s : State} {t : Nat} {x : Side} {job : Job} {key col block q j : Nat} {mark : RetryMark} {a : Acc}

theorem State.landAcc_of_flag (h : a.flag = true) : s.landAcc t x job key col block q j mark a =
    (s, { job.setAcc key col (q * job.n + j) a with retries := insertNew job.retries mark }) := if_pos h

theorem State.landAcc_of_open (hflag : a.flag = false) (hroot : a.root = none) :
    s.landAcc t x job key col block q j mark a = (s, job.setAcc key col (q * job.n + j) a) := by
  simp [State.landAcc, hflag, hroot]

theorem State.landAcc_of_root (hflag : a.flag = false) (hroot : a.root ≠ none) :
    s.landAcc t x job key col block q j mark a =
      ((s.rootDone t x job block q j a).1, (s.rootDone t x job block q j a).2.freeAcc key col (q * job.n + j)) := by
  simp [State.landAcc, hflag, Option.isSome_iff_ne_none.mpr hroot]

end

/-- What the landing of a sum in flight makes of the state and of its job (R134, R163, R177). -/
def State.landFlight (s : State) (t : Nat) (x : Side) (job : Job) (f : Flight) : State × Job :=
  s.landAcc t x { job with flights := job.flights.erase f } f.slot f.col f.block f.q f.j ⟨f.slot, f.n0, f.ncols, f.k0⟩
    ((job.accAt f.slot f.col (f.q * job.n + f.j)).feed job.plan f.feeds)

/-- The oldest sum of a logical column lands, and its job goes on or ends (R134, R163). -/
theorem exec_psumOut {s : State} {t : Nat} {x : Side} {j : Nat} {job : Job} {f : Flight} (hjob : ((s.tile t).arr x).job = some job)
    (hflight : job.flights.find? (fun f => f.j == j) = some f)
    (hsound : ∀ u ∈ job.tiles, ((s.tile u).arr x).suspect = false ∧ s.coreRuns u = true) :
    exec (.psumOut t x j) s = .next ((s.landFlight t x job f).1.keepJob t x (s.landFlight t x job f).2) := by
  have hnone : job.tiles.any (fun u => ((s.tile u).arr x).suspect || !s.coreRuns u) = false := by
    rw [List.any_eq_false]
    intro u hu
    simp [hsound u hu]
  show execPsumOut t x j s = _
  simp [execPsumOut, hjob, hflight, hnone, State.landFlight]

/-- Settles O31: the sum's new accumulator is flagged, still open or a root, and landing it does what each asks for. -/
theorem partialSumLands : Obligations.PartialSumLands := by
  unfold Obligations.PartialSumLands
  intro s t x j job f hjob hflight hsound hslots idx a out kept owing
  rw [exec_psumOut hjob hflight hsound, State.landFlight]
  have hkept : kept.slots ≠ [] := mt (Job.setAcc_slots_eq_nil out _ _ _ _).mp hslots
  refine ⟨fun hflag => ?overflow, fun hflag hroot => ?stays, fun hflag hroot => ?ends⟩
  case overflow =>
    rw [State.landAcc_of_flag hflag]
    exact congrArg _ (s.keepJob_of_unfinished t x (.inr (insertNew_ne_nil _ _)))
  case stays =>
    rw [State.landAcc_of_open hflag hroot]
    exact congrArg _ (s.keepJob_of_unfinished t x (.inl hkept))
  case ends => rw [State.landAcc_of_root hflag hroot]

end Sys2Proof.Machine
end

section
/-! SUPPORT. No operation that begins or ends a step of an array takes a tile out of skip mode (R386). -/
namespace Sys2Proof.Machine

/-- Every tile is in skip mode as before (R386). -/
def State.SkipKept (s s' : State) : Prop := ∀ u, (s'.tile u).seq.skip = (s.tile u).seq.skip

theorem State.SkipKept.refl (s : State) : s.SkipKept s := fun _ => rfl

theorem State.SkipKept.trans {a b c : State} (h : a.SkipKept b) (k : b.SkipKept c) : a.SkipKept c := fun u => (k u).trans (h u)

theorem State.SkipKept.updTile (s : State) (t : Nat) (g : Tile → Tile) (h : ∀ y, (g y).seq.skip = y.seq.skip) : s.SkipKept (s.updTile t g) := by
  intro u
  by_cases hu : u = t
  · rw [hu, State.updTile_tile, h]
  · rw [State.updTile_tile_other _ _ _ _ hu]

theorem State.SkipKept.updArr (s : State) (t : Nat) (x : Side) (g : Arr → Arr) : s.SkipKept (s.updTile t (fun y => y.updArr x g)) :=
  .updTile s t _ (fun y => by cases x <;> rfl)

theorem State.SkipKept.foldl {α : Type} (f : State → α → State) (h : ∀ (s : State) a, s.SkipKept (f s a)) (l : List α) (s : State) :
    s.SkipKept (l.foldl f s) := by
  induction l generalizing s with
  | nil => exact .refl s
  | cons a l ih => exact (h s a).trans (ih _)

theorem State.SkipKept.setFab (s : State) {f : Fabric} (h : s.fab.SeqKept f) : s.SkipKept (s.setFab f) :=
  fun u => congrArg Seq.skip (h.2 u).1

/-! ### Outputs -/

theorem putPlain_seqKept (f : Fabric) (h : Hist) (t : Nat) (o : OutPlane) (k : SrKey) (r j : Nat) (x : BitVec 32) :
    f.SeqKept (putPlain f h t o k r j x).1 := by
  unfold putPlain
  dsimp only
  split
  · exact f.spWrite_seqKept _ _ _
  · split
    · exact f.spWrite_seqKept _ _ _
    · split
      · exact (f.spWrite_seqKept _ _ _).trans (Fabric.spWrite_seqKept _ _ _ _)
      · exact f.spWrite_seqKept _ _ _

theorem putBlock_seqKept (f : Fabric) (h : Hist) (t : Nat) (o : OutPlane) (k : SrKey) (r b : Nat) (xs : List (BitVec 32)) :
    f.SeqKept (putBlock f h t o k r b xs).1 := (f.spWrite_seqKept _ _ _).trans (Fabric.spWrite_seqKept _ _ _ _)

theorem Fabric.putMaskedBlock_seqKept (f : Fabric) (h : Hist) (t : Nat) (o : OutPlane) (k : SrKey) (r b : Nat) (xs : List (BitVec 32))
    (keep : List Bool) : f.SeqKept (f.putMaskedBlock h t o k r b xs keep).1 := by
  unfold Fabric.putMaskedBlock
  split
  · exact putBlock_seqKept _ _ _ _ _ _ _ _
  · split
    · exact .refl f
    · exact (putBlock_seqKept _ _ _ _ _ _ _ _).trans (Fabric.spWrite_seqKept _ _ _ _)

theorem Tile.countOutput_skip (y : Tile) (raw : Bool) (c : PartRoot) : (y.countOutput raw c).seq.skip = y.seq.skip := by
  rw [Tile.countOutput]
  split
  · rfl
  · rfl

theorem State.putOutput_skipKept (s : State) (x : Side) (job : Job) (q j : Nat) (v : BitVec 32) (c : PartRoot) :
    s.SkipKept (s.putOutput x job q j v c).1 := by
  have hcount (w : Nat) (b : Bool) (raw : Bool) : s.SkipKept (if b then s.updTile w (fun y => y.countOutput raw c) else s) := by
    split
    · exact .updTile s w _ (fun y => y.countOutput_skip raw c)
    · exact .refl s
  unfold State.putOutput
  dsimp only
  split
  · split
    · exact ((hcount _ _ _).trans (.setFab _ (Fabric.putMaskedBlock_seqKept _ _ _ _ _ _ _ _ _))).trans (.updTile _ _ _ (fun _ => rfl))
    · exact hcount _ _ _
  · split
    · exact .refl s
    · exact (State.SkipKept.setFab s (putPlain_seqKept _ _ _ _ _ _ _ _)).trans (.updTile _ _ _ (fun y => y.countOutput_skip _ c))

theorem foldl_fst_skipKept {α : Type} (f : State × Job → α → State × Job) (h : ∀ (r : State × Job) a, r.1.SkipKept (f r a).1) (l : List α) (r : State × Job) :
    r.1.SkipKept (l.foldl f r).1 := by
  induction l generalizing r with
  | nil => exact .refl r.1
  | cons a l ih => exact (h r a).trans (ih _)

theorem State.emptyOutputs_skipKept (s : State) (x : Side) (job : Job) (qs js : Nat × Nat) : s.SkipKept (s.emptyOutputs x job qs js) :=
  foldl_fst_skipKept _ (fun r _ => foldl_fst_skipKept _ (fun r _ => r.1.putOutput_skipKept _ _ _ _ _ _) _ r) _ (s, job)

/-! ### Beginning and ending -/

theorem State.finishRuns_skipKept (s : State) (runs : List (Nat × Nat)) : s.SkipKept (s.finishRuns runs) :=
  .foldl _ (fun s _ => .updTile s _ _ (fun _ => by rfl)) _ s

theorem State.placeJob_skipKept (s : State) (t : Nat) (x : Side) (job : Job) : s.SkipKept (s.placeJob t x job) :=
  (State.SkipKept.foldl _ (fun s _ => .updArr s _ x _) _ s).trans (.updArr _ _ x _)

theorem State.restArrays_skipKept (s : State) (ts : List Nat) (x : Side) : s.SkipKept (s.restArrays ts x) := by
  refine .foldl _ (fun s t => ?_) _ s
  split
  · exact .updArr s t x _
  · exact .refl s

theorem State.beginOper_skipKept (s : State) (p : Part) (st : ItinStep) (o : Oper) (r : StepRun) (t : Nat) (x : Side)
    (runs : List (Nat × Nat)) (g : OperGroup) : s.SkipKept (s.beginOper p st o r t x runs g) := by
  have two (j k : Job) : s.SkipKept ((s.placeJob t .a j).placeJob t .b k) :=
    (s.placeJob_skipKept _ _ _).trans (State.placeJob_skipKept _ _ _ _)
  unfold State.beginOper
  dsimp only
  split
  · split
    · exact (s.emptyOutputs_skipKept _ _ _ _).trans (State.finishRuns_skipKept _ _)
    · split
      · exact s.finishRuns_skipKept _
      · exact s.placeJob_skipKept _ _ _
  · split
    · split
      · exact s.finishRuns_skipKept _
      · exact two _ _
    · exact (two _ _).trans (.updTile _ _ _ (fun _ => rfl))

/-- The head of an array's queue waits, is finished without effect, or begins (R209, R216, R246). -/
theorem State.startHead_cases (s : State) (t : Nat) (x : Side) :
    s.startHead t x = s ∨ (∃ id, s.startHead t x = s.updTile t (fun y => y.finishRun id)) ∨
      ∃ p st o r origin runs g, s.startHead t x = s.beginOper p st o r origin x runs g := by
  unfold State.startHead
  dsimp only
  split
  case h_2 => exact .inl rfl
  case h_1 r _ p _ _ =>
    split
    case h_2 => exact .inl rfl
    split
    case h_2 => exact .inl rfl
    generalize (if r.unit == .pair then [Side.a, .b] else [x]) = sides
    split
    · exact .inl rfl
    split
    · exact .inr (.inl ⟨_, rfl⟩)
    split
    · exact .inr (.inl ⟨_, rfl⟩)
    split
    · exact .inl rfl
    · exact .inr (.inr ⟨_, _, _, _, _, _, _, rfl⟩)

theorem State.startHead_skipKept (s : State) (t : Nat) (x : Side) : s.SkipKept (s.startHead t x) := by
  rcases s.startHead_cases t x with h | ⟨id, h⟩ | ⟨p, st, o, r, origin, runs, g, h⟩
  · rw [h]; exact .refl s
  · rw [h]; exact .updTile s t _ (fun _ => rfl)
  · rw [h]; exact s.beginOper_skipKept _ _ _ _ _ _ _ _

theorem State.kickAll_skipKept (s : State) (ts : List Nat) : s.SkipKept (s.kickAll ts) :=
  .foldl _ (fun s _ => .foldl _ (fun s t => (s.startHead_skipKept t .a).trans (State.startHead_skipKept _ t .b)) ts s) _ s

/-! ### A step that ends its work item -/

theorem Tile.enterSkip_skip_ne_none (y : Tile) (st : Status) : (y.enterSkip st).seq.skip ≠ none := by
  cases h : y.seq.skip <;> simp [Tile.enterSkip, h]

/-- Tiles that enter skip mode one after another are all in it at the end, and no other leaves it. -/
theorem State.foldl_enterSkip (st : Status) {ts : List Nat} {u : Nat} (s : State) (h : u ∈ ts ∨ (s.tile u).seq.skip ≠ none) :
    ((ts.foldl (fun s u => s.updTile u (fun y => (y.enterSkip st).dropQueued (s.atWork u))) s).tile u).seq.skip ≠ none := by
  induction ts generalizing s with
  | nil => exact h.resolve_left List.not_mem_nil
  | cons v ts ih =>
    refine ih _ ?_
    by_cases huv : u = v
    · subst huv
      rw [State.updTile_tile]
      exact .inr (Tile.enterSkip_skip_ne_none _ st)
    · rw [State.updTile_tile_other _ _ _ _ huv]
      exact h.imp_left (fun hu => (List.mem_cons.mp hu).resolve_left huv)

theorem State.failJob_skip (s : State) (t : Nat) (x : Side) (job : Job) (code col : Nat) {u : Nat} (hu : u ∈ job.tiles) :
    ((s.failJob t x job code col).tile u).seq.skip ≠ none := by
  have hend (s : State) (ts : List Nat) : s.SkipKept (((s.finishRuns job.runs).kickAll ts).restArrays job.tiles x) :=
    ((s.finishRuns_skipKept _).trans (State.kickAll_skipKept _ _)).trans (State.restArrays_skipKept _ _ _)
  have hpair (s : State) : s.SkipKept (job.tiles.foldl (fun s u => s.updTile u (fun y => { y with pairNow := none })) s) :=
    .foldl _ (fun s u => .updTile s u _ (fun _ => by rfl)) _ s
  have hentered := State.foldl_enterSkip ⟨code, job.step, job.bottom col⟩ (ts := job.tiles) (u := u)
  unfold State.failJob
  dsimp only
  split
  case isTrue =>
    rw [State.restArrays_skipKept _ _ _ u, hend _ _ u, hpair _ u]
    exact hentered _ (.inl hu)
  case isFalse =>
    rw [hend _ _ u]
    exact hentered _ (.inl hu)

end Sys2Proof.Machine
end

section
/-! SUPPORT. The next output position of an array's job: what holds it back, what it takes and what it leaves, and the statement about
OUTPUT_POSITION_ISSUE (R131, R134, R145, R146, R184, R186). -/
namespace Sys2Proof.Machine

/-! ### What a position takes -/

theorem State.SameSteward.setFab (s : State) (f : Fabric) : s.SameSteward (s.setFab f) := ⟨rfl, rfl, rfl, rfl, rfl, rfl, rfl, rfl, rfl, rfl⟩

theorem State.writeSpill_sameSteward (s : State) (part : Part) (x : Side) (job : Job) (col place : Nat) :
    s.SameSteward (s.writeSpill part x job col place).1 := ⟨rfl, rfl, rfl, rfl, rfl, rfl, rfl, rfl, rfl, rfl⟩

theorem State.writeSpills_sameSteward (s : State) (part : Part) (x : Side) (job : Job) (spills : List (Nat × Nat)) :
    s.SameSteward (s.writeSpills part x job spills).1 := by
  suffices ∀ r : State × Nat, r.1.SameSteward (spills.foldl (fun (r : State × Nat) e =>
      let w := r.1.writeSpill part x job e.1 e.2
      (w.1, if r.2 == stOk then w.2 else r.2)) r).1 from this (s, stOk)
  induction spills with
  | nil => exact fun r => .refl r.1
  | cons e l ih => exact fun r => (r.1.writeSpill_sameSteward part x job e.1 e.2).trans (ih _)

/-- A position's vectors leave the lanes that fed it; nothing but arrays changes (R131). -/
theorem State.takeVectors_keeps {s s1 : State} {t : Nat} {x : Side} {job : Job} {p : Pass} {vs : List Vectors}
    (h : s.takeVectors t x job p = some (s1, vs)) : s.SameSteward s1 ∧ s1.fab.mem = s.fab.mem := by
  unfold State.takeVectors at h
  dsimp only at h
  generalize hl : (if (job.fedRows p).all _ then some (_, _) else none : Option (State × List Vectors)) = lanes at h
  have hlanes (h : lanes = some (s1, vs)) : s.SameSteward s1 ∧ s1.fab.mem = s.fab.mem := by
    obtain ⟨-, htaken⟩ := Option.ite_none_right_eq_some.mp (hl.trans h)
    obtain ⟨rfl, -⟩ := Prod.mk.inj (Option.some.inj htaken)
    exact ⟨.foldl _ (fun s i => .updTile s _ _) _ s, foldl_mem _ _ s (fun _ _ => rfl)⟩
  have hsame {ws : List Vectors} (h : some (s, ws) = some (s1, vs)) : s.SameSteward s1 ∧ s1.fab.mem = s.fab.mem := by
    obtain ⟨rfl, -⟩ := Prod.mk.inj (Option.some.inj h)
    exact ⟨.refl s, rfl⟩
  split at h
  · exact hlanes h
  · split at h
    · split at h
      · exact hlanes h
      · cases h
    · cases h
  · split at h
    · split at h
      · cases h
      · exact hsame h
    · cases h
  · split at h
    · exact hsame h
    · cases h

/-! ### What holds a position back -/

theorem Job.held_eq_false {job : Job} {p : Pass} (h : ¬ (p.k0 ≠ 0 ∧ (job.oper.acc ≠ 0 ∨ p.k0 % 256 ≠ 0) ∧
    ∃ f ∈ job.flights, f.slot = p.slot ∧ f.q = p.q0 + job.q ∧ f.n0 = p.n0)) : job.held p = false := by
  rw [Bool.eq_false_iff]
  intro hheld
  refine h ?_
  simpa [Job.held, readsWindow, and_assoc] using hheld

theorem State.posReady_of_slots {s : State} {t : Nat} {x : Side} {job job1 : Job} {p : Pass} {rest : List Pass} {spills : List (Nat × Nat)}
    (hpasses : job.passes = p :: rest) (hready : s.jobReady x job = true) (hloaded : p.loads ≤ job.loaded) (hq : job.q < p.nq)
    (hheld : job.held p = false) (howed : job.q ≠ 0 ∨ job.retries = []) (hslots : s.slotsFor (s.jobPart t) x job p = .ready job1 spills) :
    s.posReady t x job = true := by
  simp [State.posReady, hpasses, hready, hloaded, hq, hheld, howed, hslots]

theorem State.posReady_eq_false {s : State} {t : Nat} {x : Side} {job : Job} {p : Pass} {rest : List Pass} (hpasses : job.passes = p :: rest)
    (h : s.jobReady x job = false ∨ job.loaded < p.loads) : s.posReady t x job = false := by
  rcases h with h | h
  · simp [State.posReady, hpasses, h]
  · simp [State.posReady, hpasses, Nat.not_le.mpr h]

/-! ### What a position leaves -/

@[simp] theorem State.keepSet_flights (s : State) (x : Side) (job : Job) (p : Pass) : (s.keepSet x job p).flights = job.flights := by
  rw [State.keepSet]
  split
  · rfl
  · rfl

@[simp] theorem State.keepSet_slots (s : State) (x : Side) (job : Job) (p : Pass) : (s.keepSet x job p).slots = job.slots := by
  rw [State.keepSet]
  split
  · rfl
  · rfl

/-- The job after a position: `job1` holds its slots, its sums are in flight, and the walk stands at the next position or weight set (R134,
R145, R177). -/
def State.positionJob (s : State) (x : Side) (job job1 : Job) (p : Pass) (rest : List Pass) (vs : List Vectors) : Job :=
  { s.keepSet x job1 p with
    flights := (s.keepSet x job1 p).flights ++ s.positionFlights x job p vs, q := if p.nq ≤ job.q + 1 then 0 else job.q + 1,
    passes := if p.nq ≤ job.q + 1 then rest else job.passes, loaded := if p.nq ≤ job.q + 1 then 0 else job.loaded }

/-- The arrays after a position of the job that stood in `s`: its own cycle counts, and for a paired step's first vectors the other array's
(R138, R226). -/
def State.positionEntered (w s : State) (t : Nat) (x : Side) (job : Job) (p : Pass) (job2 : Job) : State :=
  let step := s.jobInterval t x job
  let c := s.issueCycle t x job p step
  let w := if c.2 then w.updTile t (fun y => y.updArr (otherSide x) (fun a => { a with nextIssue := c.1 })) else w
  w.updTile t (fun y => y.updArr x (fun a => { a with job := some job2, lastIssue := c.1 + job.oper.beat - 1, nextIssue := c.1 + step }))

theorem State.positionEntered_arr (w s : State) (t : Nat) (x : Side) (job : Job) (p : Pass) (job2 : Job) :
    (((w.positionEntered s t x job p job2).tile t).arr x).job = some job2 ∧
      (((w.positionEntered s t x job p job2).tile t).arr x).nextIssue =
        (s.issueCycle t x job p (s.jobInterval t x job)).1 + s.jobInterval t x job := by
  simp [State.positionEntered]

theorem State.positionEntered_keeps (w s : State) (t : Nat) (x : Side) (job : Job) (p : Pass) (job2 : Job) :
    w.SameSteward (w.positionEntered s t x job p job2) ∧ (w.positionEntered s t x job p job2).fab.mem = w.fab.mem := by
  unfold State.positionEntered
  dsimp only
  split
  · exact ⟨(State.SameSteward.updTile w t _).trans (.updTile _ t _), rfl⟩
  · exact ⟨.updTile w t _, rfl⟩

/-! ### The command -/

theorem exec_outputPositionIssue (t : Nat) (x : Side) (s : State) :
    exec (.outputPositionIssue t x) s = execOutputPositionIssue t x s := rfl

section
variable {s : State} {t : Nat} {x : Side} {job : Job} {p : Pass} {rest : List Pass}
variable (hjob : ((s.tile t).arr x).job = some job) (hpasses : job.passes = p :: rest)
include hjob hpasses

theorem exec_outputPositionIssue_of_waits (h : s.jobReady x job = false ∨ job.loaded < p.loads) :
    exec (.outputPositionIssue t x) s = .next s := by
  have hfull : (s.jobReady x job && decide (p.loads ≤ job.loaded)) = false := by
    rcases h with h | h
    · simp [h]
    · simp [Nat.not_le.mpr h]
  simp [exec_outputPositionIssue, execOutputPositionIssue, hjob, hpasses, hfull, State.posReady_eq_false hpasses h]

theorem exec_outputPositionIssue_of_full (hready : s.jobReady x job = true) (hloaded : p.loads ≤ job.loaded)
    (hslots : s.slotsFor (s.jobPart t) x job p = .full) :
    exec (.outputPositionIssue t x) s = .next (s.failJob t x job stWindowFull (s.fab.gangColumn x job p.n0)) := by
  simp [exec_outputPositionIssue, execOutputPositionIssue, hjob, hpasses, hready, hloaded, hslots]

theorem exec_outputPositionIssue_of_ready {job1 : Job} {spills : List (Nat × Nat)} {s1 : State} {vs : List Vectors}
    (hready : s.posReady t x job = true) (hslots : s.slotsFor (s.jobPart t) x job p = .ready job1 spills)
    (hlock : s.lockstep t x job p = true) (hvs : s.takeVectors t x job p = some (s1, vs))
    (hspill : (s1.writeSpills (s.jobPart t) x job spills).2 = stOk) :
    exec (.outputPositionIssue t x) s =
      .next ((s1.writeSpills (s.jobPart t) x job spills).1.positionEntered s t x job p (s.positionJob x job job1 p rest vs)) := by
  simp [exec_outputPositionIssue, execOutputPositionIssue, hjob, hpasses, hready, hslots, hlock, hvs, hspill,
    State.positionEntered, State.positionJob]

end

theorem State.positionFlights_of_unpaired {s : State} {x : Side} {job : Job} {p : Pass} {vs : List Vectors} (h : job.role.paired = false) :
    s.positionFlights x job p vs = (List.range p.ncols).map (fun i =>
      let place := placeOf (slicesOf job.form) 0 (s.fab.columns x job.gx job.gy job.gw job.gh) i
      { slot := p.slot, col := place.1, tap := p.tap, part := p.part, q := p.q0 + job.q, j := p.n0 + i, block := p.block, n0 := p.n0,
        ncols := p.ncols, k0 := p.k0,
        feeds := chunkFeeds job.oper (if p.last then p.kEnd else p.kEnd + 1) p.k0 p.kEnd (s.fab.columnOperands x job vs p.tap place) }) := by
  simp [State.positionFlights, h]

/-- Settles O30: a position waits, fails for want of room, or enters; what the walk keeps of it is read off the job that it leaves. -/
theorem outputPositionEnters : Obligations.OutputPositionEnters := by
  unfold Obligations.OutputPositionEnters
  intro s t x job p rest hjob hpasses
  refine ⟨exec_outputPositionIssue_of_waits hjob hpasses, fun hready hloaded hslots => ?full,
    fun job1 spills s1 vs hready hloaded hq hfree howed hslots hlock hvs hspill => ?enters, fun vs => State.positionFlights_of_unpaired⟩
  case full =>
    exact ⟨_, exec_outputPositionIssue_of_full hjob hpasses hready hloaded hslots, rfl,
      fun u hu => State.failJob_skip _ _ _ _ _ _ hu⟩
  case enters =>
    have hpos := State.posReady_of_slots hpasses hready hloaded hq (Job.held_eq_false hfree) howed hslots
    obtain ⟨hsteward, hmem⟩ := State.takeVectors_keeps hvs
    have hspilled := s1.writeSpills_sameSteward (s.jobPart t) x job spills
    obtain ⟨hentered, henteredMem⟩ :=
      (s1.writeSpills (s.jobPart t) x job spills).1.positionEntered_keeps s t x job p (s.positionJob x job job1 p rest vs)
    obtain ⟨hjob', hnext⟩ :=
      (s1.writeSpills (s.jobPart t) x job spills).1.positionEntered_arr s t x job p (s.positionJob x job job1 p rest vs)
    refine ⟨_, _, exec_outputPositionIssue_of_ready hjob hpasses hpos hslots hlock hvs hspill, hjob', ?_, fun hmore => ?_, fun hlast => ?_, ?_, hnext,
      ?_, (hsteward.trans hspilled).trans hentered⟩
    · simp [State.positionJob]
    · simp [State.positionJob, Nat.not_le.mpr hmore]
    · simp [State.positionJob, hlast]
    · simp [State.positionJob]
    · rintro rfl k
      rw [henteredMem]
      exact congrArg (memRead · k) hmem

end Sys2Proof.Machine
end

section
/-! SUPPORT. A state in which an operator step ends another unit's step along with itself, against the statement about operator steps. -/
namespace Sys2Proof.Machine

/-- A SINGLE step on array A. -/
def clashOper : Oper :=
  { mode := 0, array := 0, form := 0, taps := 1, fmtMov := 1, fmtSta := 1, conv := 0, acc := 1, rootA := true, rootB := true,
    hasCin := false, mask := false, order := 0, serp := false, dimM := .const 1, dimN := .const 1, dimK := .const 32, maxM := 1,
    maxN := 1, maxK := 32, tm := 1, tn := 1, tk := 32, winBase := 0, winSize := 512, outA := 0, outB := 0, pitchA := 4, pitchB := 4,
    auxA := 0, cin := 0, maskK := 0, maskN := 0, func := 0, causal := 0, kb := 32, scale := 0, causalOff := 0, fused := 0, auxB := 0 }

def clashStep : ItinStep :=
  { wsem := none, tgt := .all, dlink := none, fbk := false, raw := true, wbc := false, ifmtA := 0, ifmtB := 0, ifmtC := 0,
    body := .oper clashOper }

/-- Partition 0 with tile 0 alone, at work on `clashStep`. -/
def clashPart : Part :=
  { Part.init with
    state := .running, tiles := [0],
    comp := some {
      part := { pnum := 0, cls := 0, discipline := 1, ovf := 0, lead := 0, ntiles := 1, floorShare := 0, itinEntry := 0, reqRing := 0,
                cplRing := 0, ringLog2 := 4, spillBase := 0, spillSize := 0, tiles := [0] },
      gangs := [], roads := [], links := [], progs := [], funcs := [], wires := [], itin := [clashStep] } }

/-- A step of the vector unit that has not finished. -/
def clashRun : StepRun :=
  { id := 0, step := 0, pass := 0, rank := 0, unit := .vector, dlink := none, finished := false, wbc := false, skip := false }

/-- A sequencer whose next step takes the id of one that it has listed. -/
def clashSeq : Seq := { Seq.init with running := true, ranks := [0], issued := [clashRun], nextId := 0 }

/-- Tile 0 with every column of array A detoured, so that the walk of a step has no weight set. -/
def clashState : State :=
  { State.reset with
    pow := { Power.init with pllOn := [0] },
    fab := { Fabric.init with
      parts := [(0, clashPart)],
      tiles := [(0, { Tile.init with
        bound := some 0, access := true, powered := true, a := { Arr.init with detours := List.range 32 }, seq := clashSeq })] } }

/-- The step enters with id 0 and ends at once, and every step listed with that id is marked finished. -/
theorem clashState_single : ((clashState.operStep 0 0).tile 0).seq.issued.map (·.finished) = [true, true] := by
  decide

/-- Refutes O29: ids of listed steps need not differ in the states that it speaks of. `clashState` meets every hypothesis and lists a vector
step under the id that the SINGLE step takes; the walk is empty, so the step is finished by that id, and the vector step with it: what the
sequencer had listed does not stand before the new step as it was. -/
theorem not_operatorStepsEnterTheirArrays : ¬ Obligations.OperatorStepsEnterTheirArrays := by
  unfold Obligations.OperatorStepsEnterTheirArrays
  intro h
  have hstands : clashState.StandsAt 0 0 clashPart clashStep clashSeq := ⟨rfl, by decide, rfl, rfl, .inr ⟨rfl, rfl⟩⟩
  obtain ⟨-, hempty⟩ := h clashState 0 0 clashPart clashStep clashSeq clashOper .single (by simp [clashOper]) hstands rfl rfl (by decide)
    (by decide) (by decide) (by decide) (by decide) (by decide)
  obtain ⟨hruns, -⟩ := hempty (fun i => by simp [clashStep]) (by decide) rfl rfl (by decide) (by decide)
  obtain ⟨s', hexec, -, -, -, ⟨run, hissued, -⟩, -⟩ := hruns (by decide)
  obtain rfl : clashState.operStep 0 0 = s' := Host.Outcome.next.inj hexec
  have hfinished := clashState_single
  rw [hissued] at hfinished
  exact absurd (congrArg List.head? hfinished) (by simp [clashSeq, clashRun])

end Sys2Proof.Machine
end

section
/-! SUPPORT. A retry of flagged sums and the reload of a spilled window slot, with the statement about RESCALE_RETRY and SLOT_RELOAD (R172,
R177 to R180, R184). -/
namespace Sys2Proof.Machine

/-- Making room changes nothing of a job but where its slots lie (R184). -/
theorem Job.makeRoom_ready {job j : Job} {share keep col : Nat} {spills : List (Nat × Nat)} (h : job.makeRoom share keep col = .ready j spills) :
    ∃ slots, j = { job with slots := slots } := by
  unfold Job.makeRoom at h
  split at h
  · obtain ⟨rfl, -⟩ := SlotTry.ready.inj h
    exact ⟨_, rfl⟩
  · split at h
    · cases h
    · split at h
      · cases h
      · obtain ⟨rfl, -⟩ := SlotTry.ready.inj h
        exact ⟨_, rfl⟩

/-- The job with a slot resident again, as the one used last (R184). -/
def Job.slotBack (job : Job) (v : Slot) : Job :=
  { job with slots := job.slots ++ [{ v with spilled := none, stamp := job.stamp }], stamp := job.stamp + 1 }

section
variable {s : State} {t : Nat} {x : Side} {job j : Job} {v : Slot} {i : Nat} {spills : List (Nat × Nat)}
variable (hjob : ((s.tile t).arr x).job = some job) (hwanted : s.wantedSlot x job = some v) (hspilled : v.spilled = some i)
  (hready : s.jobReady x job = true)
  (hroom : Job.makeRoom { job with slots := job.slots.erase v } (((s.jobPart t).spillShare (job.bottom v.col) x job).2) v.key v.col =
    .ready j spills)
include hjob hwanted hspilled hready hroom

/-- A wanted slot that does not read back ends the work item (R301). -/
theorem exec_slotReload_of_lost (hread : s.readSpill (s.jobPart t) x job v.col i ≠ stOk) :
    exec (.slotReload t x) s = .next (s.failJob t x job stDsUncorr v.col) := by
  show execSlotReload t x s = _
  simp [execSlotReload, hjob, hwanted, hspilled, hready, hroom, hread]

/-- A wanted slot that reads back whole comes into the room made for it, once what makes room is written (R184). -/
theorem exec_slotReload_of_whole (hread : s.readSpill (s.jobPart t) x job v.col i = stOk)
    (hwrite : (s.writeSpills (s.jobPart t) x job spills).2 = stOk) :
    exec (.slotReload t x) s =
      .next ((s.writeSpills (s.jobPart t) x job spills).1.updTile t (fun y => y.updArr x (fun a => { a with job := some (j.slotBack v) }))) := by
  show execSlotReload t x s = _
  simp [execSlotReload, hjob, hwanted, hspilled, hready, hroom, hread, hwrite, Job.slotBack]

end

/-- Settles O32: nothing holds such a retry back, so it runs as said; a wanted slot that there is room for comes back or, where it lost a
codeword, fails the job. -/
theorem retriesAndReloads : Obligations.RetriesAndReloads := by
  unfold Obligations.RetriesAndReloads
  refine ⟨?retry, fun s t x job j v i spills hjob hwanted hspilled hready hroom =>
    ⟨?lost, fun hread hwrite => ?whole⟩⟩
  case retry =>
    intro s t x job r rs hjob hretries slots hq hflights hslots hresident hready
    have hspilled : slots.any (fun v => v.spilled.isSome) = false := by
      rw [List.any_eq_false]
      intro v hv
      simp [hresident v hv]
    have hheld : (job.q != 0 || !job.flights.isEmpty || slots.isEmpty || slots.any (fun v => v.spilled.isSome) || !s.jobReady x job) = false := by
      simp [hq, hflights, hslots, hspilled, hready]
    show execRescaleRetry t x s = _
    simp only [execRescaleRetry, hjob, hretries]
    exact if_neg (Bool.eq_false_iff.mp hheld)
  case lost => exact exec_slotReload_of_lost hjob hwanted hspilled hready hroom
  case whole =>
    obtain ⟨kept, hj⟩ := Job.makeRoom_ready hroom
    refine ⟨_, j.slotBack v, exec_slotReload_of_whole hjob hwanted hspilled hready hroom hread hwrite, ?_, rfl, ?_, ?_, ?_,
      (s.writeSpills_sameSteward _ x job spills).trans (.updTile _ t _)⟩
    · rw [State.updTile_tile, Tile.updArr_arr]
    · rw [Job.slotBack, hj]
    · rw [Job.slotBack, hj]
    · rintro rfl k
      rfl

end Sys2Proof.Machine
end

section
/-! SUPPORT. How a JUNCT step enters an idle vector unit and runs there, with the statement about it (R190, R249, R259, R373). -/
namespace Sys2Proof.Machine

/-! ### Writes to a scratchpad -/

/-- Fabric `f` with the scratchpads and columns, and the wrong bits in them, of fabric `g`. -/
def Fabric.withMemory (f g : Fabric) : Fabric := { f with mem := g.mem, flips := g.flips }

@[simp] theorem State.setFab_withMemory_tile (s : State) (g : Fabric) (u : Nat) : (s.setFab (s.fab.withMemory g)).tile u = s.tile u := rfl

theorem Fabric.spWrite_withMemory (f g : Fabric) (t off : Nat) (bs : List Byte) :
    (f.withMemory g).spWrite t off bs = f.withMemory (g.spWrite t off bs) := by
  unfold Fabric.spWrite
  split
  · rfl
  · rfl

theorem putPlain_withMemory (f g : Fabric) (h : Hist) (t : Nat) (o : OutPlane) (k : SrKey) (r j : Nat) (x : BitVec 32) :
    putPlain (f.withMemory g) h t o k r j x = (f.withMemory (putPlain g h t o k r j x).1, (putPlain g h t o k r j x).2) := by
  unfold putPlain
  simp only [Fabric.spWrite_withMemory]
  split
  · rfl
  · split
    · rfl
    · split
      · rfl
      · rfl

theorem putBlock_withMemory (f g : Fabric) (h : Hist) (t : Nat) (o : OutPlane) (k : SrKey) (r b : Nat) (xs : List (BitVec 32)) :
    putBlock (f.withMemory g) h t o k r b xs = (f.withMemory (putBlock g h t o k r b xs).1, (putBlock g h t o k r b xs).2) := by
  simp only [putBlock, Fabric.spWrite_withMemory]

theorem foldl_withMemory {α : Type} (f : Fabric) (op : Fabric × Hist → α → Fabric × Hist)
    (hop : ∀ g h a, op (f.withMemory g, h) a = (f.withMemory (op (g, h) a).1, (op (g, h) a).2)) (l : List α) (c : Fabric × Hist) :
    l.foldl op (f.withMemory c.1, c.2) = (f.withMemory (l.foldl op c).1, (l.foldl op c).2) := by
  induction l generalizing c with
  | nil => rfl
  | cons a l ih => rw [List.foldl_cons, List.foldl_cons, hop, ih]

/-- A row of results reads and changes nothing of the fabric but its memory. -/
theorem putRow_withMemory (f g : Fabric) (h : Hist) (t : Nat) (o : OutPlane) (k : SrKey) (r : Nat) (xs : List (BitVec 32)) :
    putRow (f.withMemory g) h t o k r xs = (f.withMemory (putRow g h t o k r xs).1, (putRow g h t o k r xs).2) := by
  unfold putRow
  split
  · exact foldl_withMemory f _ (fun g h b => putBlock_withMemory f g h t o k r b _) _ (g, h)
  · exact foldl_withMemory f _ (fun g h j => putPlain_withMemory f g h t o k r j _) _ (g, h)

/-! ### Reads of a scratchpad -/

/-- Ranges that read well give their data and leave the state as it is (R274, R284). -/
theorem State.padReads_of_readsWell {s : State} {t : Nat} {rs : List (Nat × Nat)} (h : s.ReadsWell t rs) (step : Nat) :
    s.padReads t step rs = (s, true) := by
  obtain ⟨hclean, hinside⟩ := h
  have hcheck (off len : Nat) : s.fab.spCheck t off len = (s.fab, true) := by
    have hnone : s.fab.flips.any (fun e => e.1 == t) = false := by
      rw [List.any_eq_false]
      intro e he
      simp [hclean e he]
    simp [Fabric.spCheck, Fabric.readWords, hnone]
  have hchecks (l : List (Nat × Nat)) : l.foldl (fun (a : Fabric × Bool) e =>
      ((a.1.spCheck t e.1 e.2).1, a.2 && (a.1.spCheck t e.1 e.2).2)) (s.fab, true) = (s.fab, true) := by
    induction l with
    | nil => rfl
    | cons e l ih => simpa [hcheck] using ih
  have hover : rs.any (fun e => decide (spSize < e.1 + e.2)) = false := by
    rw [List.any_eq_false]
    intro e he
    simpa using hinside e he
  simp only [State.padReads, hchecks, hover]
  rfl

/-! ### A step enters the vector unit -/

theorem Seq.leaveRank_work (q : Seq) : q.leaveRank.ctx = q.ctx ∧ q.leaveRank.rep = q.rep := by
  rcases Nat.lt_or_ge 1 q.ranks.length with hmore | hlast
  · rw [Seq.leaveRank_more hmore]
    exact ⟨rfl, rfl⟩
  · rw [Seq.leaveRank_last hlast]
    exact ⟨rfl, rfl⟩

/-- The sequencer with the counts of converted elements in its report (R119). -/
def Seq.withHist (q : Seq) (h : Hist) : Seq := { q with rep := { q.rep with hist := h } }

theorem Tile.setHist_eq (x : Tile) (h : Hist) : x.setHist h = { x with seq := x.seq.withHist h } := rfl

theorem Seq.leaveRank_withHist (q : Seq) (h : Hist) : (q.withHist h).leaveRank = q.leaveRank.withHist h := by
  rcases Nat.lt_or_ge 1 q.ranks.length with hmore | hlast
  · rw [Seq.leaveRank_more hmore, Seq.leaveRank_more (q := q.withHist h) hmore]
    rfl
  · rw [Seq.leaveRank_last hlast, Seq.leaveRank_last (q := q.withHist h) hlast]
    rfl

/-- It is the same whether counts come into the report before or after a step enters its unit. -/
theorem Tile.issue_setHist (x : Tile) (p : Part) (st : ItinStep) (u : StepUnit) (fin : Bool) (h : Hist) :
    (x.setHist h).issue p st u fin = (x.issue p st u fin).setHist h := by
  rw [Tile.issue_eq, Tile.issue_eq, Tile.setHist_eq, Tile.setHist_eq, ← Seq.leaveRank_withHist]
  rfl

theorem Tile.vectorRoom_of_free {x : Tile} (h : ∀ r ∈ x.seq.issued, r.unit ≠ .vector) : x.vectorRoom = true := by
  have hnone : x.seq.issued.filter (fun r => r.unit == .vector) = [] := by
    rw [List.filter_eq_nil_iff]
    intro r hr
    simpa using h r hr
  simp [Tile.vectorRoom, hnone]

/-- A step that enters a vector unit without steps is at its head (R368). -/
theorem Tile.vectorHead_issue {x : Tile} (h : ∀ r ∈ x.seq.issued, r.unit ≠ .vector) (p : Part) (st : ItinStep) :
    (x.issue p st .vector false).vectorHead = some (x.runOf p st .vector false) := by
  have hnone : x.seq.issued.find? (fun r => r.unit == .vector) = none := by
    rw [List.find?_eq_none]
    intro r hr
    simpa using h r hr
  rw [Tile.vectorHead, Tile.issue_seq, (Seq.leaveRank_keeps _).1, Seq.listed, List.find?_append, hnone]
  rfl

theorem State.partAt_updTile_issue (s : State) (t : Nat) (q : Seq) (p : Part) (st : ItinStep) (u : StepUnit) (fin : Bool) :
    (s.updTile t (fun x => { x with seq := q }.issue p st u fin)).partAt t = s.partAt t := by
  simp only [State.partAt, State.partOf, State.updTile_tile, State.updTile_part, Tile.issue_eq]

theorem State.working_updTile_issue (s : State) (t : Nat) (q : Seq) (p : Part) (st : ItinStep) (u : StepUnit) (fin : Bool) :
    (s.updTile t (fun x => { x with seq := q }.issue p st u fin)).working t = s.working t := by
  rw [State.working, State.partAt_updTile_issue, State.working]
  simp only [State.tileRuns, State.updTile_tile, Tile.issue_eq, State.updTile_pins, State.updTile_pow]

/-! ### The junction tree -/

/-- The elements of a JUNCT step of `n` elements: the tree of its present leaves, +0.0 or 0 with none (R190, R259). -/
def State.junctOut (s : State) (t : Nat) (st : ItinStep) (j : Junct) (base n : Nat) : List (BitVec 32) :=
  let leaf (i : Nat) : Option (List (BitVec 32)) := if bitOf j.present i then some (s.operandRow t (base + j.srcs.getD i 0) st.ifmtA n) else none
  (List.range n).map (fun i =>
    (junctionTree (st.ifmtA == fmtINT32) 3 ((List.range j.nr).map (fun k => (leaf k).map (fun l => l.getD i 0)))).getD 0)

/-- What a JUNCT step of sequencer `q` writes and counts (R259, R373). -/
def State.junctWrites (s : State) (t : Nat) (p : Part) (st : ItinStep) (q : Seq) (j : Junct) : Fabric × Hist :=
  let n := dimValue q.ctx j.count
  let base := if st.wbc then (s.tile t).computeBase p.discipline else 0
  putRow s.fab q.rep.hist t (outPlane j.dst 0 j.dstAux j.conv n st.raw (st.ifmtA == fmtINT32)) ⟨q.ctx.workId, q.pc, tabGet 0 q.passes q.pc⟩ 0
    (s.junctOut t st j base n)

/-- The state once a JUNCT step of sequencer `q` stands in the vector unit. -/
def State.junctIssued (s : State) (t : Nat) (p : Part) (st : ItinStep) (q : Seq) : State :=
  s.updTile t (fun x => { x with seq := q }.issue p st .vector false)

/-- The run that the tile lists for it. -/
def State.junctRun (s : State) (t : Nat) (p : Part) (st : ItinStep) (q : Seq) : StepRun :=
  Tile.runOf { s.tile t with seq := q } p st .vector false

theorem State.junctIssued_tile (s : State) (t : Nat) (p : Part) (st : ItinStep) (q : Seq) :
    (s.junctIssued t p st q).tile t = { s.tile t with seq := q }.issue p st .vector false := State.updTile_tile _ _ _

theorem State.junctIssued_ctx (s : State) (t : Nat) (p : Part) (st : ItinStep) (q : Seq) :
    ((s.junctIssued t p st q).tile t).seq.ctx = q.ctx := by
  rw [State.junctIssued_tile, Tile.issue_seq, (Seq.leaveRank_work _).1]
  rfl

theorem State.junctIssued_hist (s : State) (t : Nat) (p : Part) (st : ItinStep) (q : Seq) :
    ((s.junctIssued t p st q).tile t).seq.rep.hist = q.rep.hist := by
  rw [State.junctIssued_tile, Tile.issue_seq, (Seq.leaveRank_work _).2]
  rfl

theorem State.junctIssued_computeBase (s : State) (t : Nat) (p : Part) (st : ItinStep) (q : Seq) (d : Nat) :
    ((s.junctIssued t p st q).tile t).computeBase d = (s.tile t).computeBase d := by
  rw [State.junctIssued_tile, Tile.issue_eq]
  rfl

/-- The step reads the same ranges whether its sequencer stands at it or has gone on. -/
theorem State.junctReads_junctIssued (s : State) (t : Nat) (p : Part) (st : ItinStep) (q : Seq) (j : Junct) :
    (s.junctIssued t p st q).junctReads t p st j = (s.updTile t (fun x => { x with seq := q })).junctReads t p st j := by
  simp only [State.junctReads, State.junctIssued_ctx, State.junctIssued_computeBase, State.updTile_tile]
  rfl

/-- The run writes and counts what the step at the sequencer's place says, and changes nothing else (R259). -/
theorem State.runJunct_junctIssued (s : State) (t : Nat) (p : Part) (st : ItinStep) (q : Seq) (j : Junct) :
    (s.junctIssued t p st q).runJunct t p st (s.junctRun t p st q) j =
      ((s.junctIssued t p st q).setFab ((s.junctIssued t p st q).fab.withMemory (s.junctWrites t p st q j).1)).updTile t
        (fun x => x.setHist (s.junctWrites t p st q j).2) := by
  have hrow : putRow (s.junctIssued t p st q).fab = putRow ((s.junctIssued t p st q).fab.withMemory s.fab) := rfl
  simp only [State.runJunct, State.junctIssued_ctx, State.junctIssued_hist, State.junctIssued_computeBase, hrow, putRow_withMemory, List.map_map]
  rfl

section
variable {s : State} {t pn : Nat} {p : Part} {st : ItinStep} {q : Seq} {j : Junct}

/-- A JUNCT step of a shape within its maximum enters a free vector unit, which goes to work on it (R259, R368, R385). -/
theorem exec_junct_of_standsAt (hstands : s.StandsAt t pn p st q) (hbody : st.body = .junct j) (hskip : q.skip = none)
    (hfree : ∀ r ∈ q.issued, r.unit ≠ .vector) (hpos : 0 < dimValue q.ctx j.count) (hmax : dimValue q.ctx j.count ≤ j.max) :
    exec (.junct t) s = .next ((s.junctIssued t p st q).vectorStart t) := by
  have hroom : Tile.vectorRoom { s.tile t with seq := q } = true := Tile.vectorRoom_of_free hfree
  have hshape : shapeOf [(dimValue q.ctx j.count, j.max)] [dimValue q.ctx j.count] = .run := by
    simp [shapeOf, Nat.not_lt.mpr hmax, Nat.ne_of_gt hpos]
  show execJunct t s = _
  rw [execJunct, State.stepGate_standsAt hstands (by rw [hbody])]
  simp [hbody, Tile.inSkip, hskip, hshape, hroom, State.junctIssued]

/-- A powered and idle vector unit runs the JUNCT step at its head to its end (R249, R259). -/
theorem State.vectorStart_junct {r : StepRun} (hhead : (s.tile t).vectorHead = some r) (hfinished : r.finished = false)
    (hpart : s.partAt t = some (pn, p)) (hstep : p.itin[r.step]? = some st) (hbody : st.body = .junct j) (hworking : s.working t = true)
    (hbusy : (s.tile t).vbusy = false) (hgated : (s.tile t).vgated = false) (hreads : s.ReadsWell t (s.junctReads t p st j)) :
    s.vectorStart t = (s.runJunct t p st r j).updTile t (fun x => x.finishRun r.id) := by
  simp [State.vectorStart, hhead, hfinished, hpart, hstep, hbody, hworking, hbusy, hgated, State.padReads_of_readsWell hreads]

/-- A JUNCT step that has come to a free vector unit runs there. -/
theorem State.vectorStart_junctIssued (hstands : s.StandsAt t pn p st q) (hbody : st.body = .junct j) (hfree : s.VectorFree t q)
    (hreads : s.ReadsWell t ((s.updTile t (fun x => { x with seq := q })).junctReads t p st j)) :
    (s.junctIssued t p st q).vectorStart t =
      ((s.junctIssued t p st q).runJunct t p st (s.junctRun t p st q) j).updTile t (fun x => x.finishRun q.nextId) := by
  obtain ⟨hpart, -, -, hstep, -⟩ := hstands
  obtain ⟨hworking, hbusy, hgated, hidle⟩ := hfree
  rw [← State.junctReads_junctIssued] at hreads
  refine State.vectorStart_junct (r := s.junctRun t p st q) ?_ rfl ((s.partAt_updTile_issue t q p st _ _).trans hpart) hstep hbody
    ((s.working_updTile_issue t q p st _ _).trans hworking) ?_ ?_ hreads
  · rw [State.junctIssued_tile]
    exact Tile.vectorHead_issue (x := { s.tile t with seq := q }) hidle p st
  · rw [State.junctIssued_tile, Tile.issue_eq]
    exact hbusy
  · rw [State.junctIssued_tile, Tile.issue_eq]
    exact hgated

end

/-- Settles O9: the step enters the vector unit, which reads its leaves, writes their tree and finishes the run; the fabric differs in memory
and in the tile's sequencer alone. -/
theorem junctionStepCompletes : Obligations.JunctionStepCompletes := by
  unfold Obligations.JunctionStepCompletes
  intro s t pn p st q j hstands hbody hskip hfree hreads hpos hmax n base leaf w
  have hexec := exec_junct_of_standsAt hstands hbody hskip hfree.2.2.2 hpos hmax
  rw [State.vectorStart_junctIssued hstands hbody hfree hreads, State.runJunct_junctIssued, State.updTile_updTile] at hexec
  refine ⟨_, hexec, ?_, rfl, ⟨fun u hu => ?_, fun _ => rfl⟩, rfl, rfl, ⟨rfl, rfl, rfl, rfl, rfl, rfl, rfl, rfl, rfl, rfl⟩⟩
  · rw [State.updTile_tile, State.setFab_withMemory_tile, State.junctIssued_tile, ← Tile.issue_setHist]
    rfl
  · rw [State.updTile_tile_other _ _ _ _ hu, State.setFab_withMemory_tile, State.junctIssued, State.updTile_tile_other _ _ _ _ hu]

end Sys2Proof.Machine
end

section
/-! SUPPORT. What the beginning and the end of operator steps leave of a tile's fused pair and of the steps it lists, and the statement about
pair blocks, fused pairs and drains (R157, R158, R224, R226, R267, R269, R271). -/
namespace Sys2Proof.Machine

/-! ### Pair blocks -/

/-- An update that adds nothing when it is made again, made of several tiles, is made once of each. -/
theorem State.foldl_updTile_tile_of_idempotent {g : Tile → Tile} (hg : ∀ y, g (g y) = g y) {ts : List Nat} {u : Nat} (hu : u ∈ ts) (s : State) :
    (ts.foldl (fun s v => s.updTile v g) s).tile u = g (s.tile u) := by
  induction ts generalizing s with
  | nil => cases hu
  | cons v ts ih =>
    have hfirst (h : u = v) : (s.updTile v g).tile u = g (s.tile u) := by rw [h, State.updTile_tile]
    rw [List.foldl_cons]
    by_cases hrest : u ∈ ts
    · rw [ih hrest]
      by_cases huv : u = v
      · rw [hfirst huv, hg]
      · rw [State.updTile_tile_other _ _ _ _ huv]
    · rw [State.foldl_updTile_tile_of_notMem (fun _ => g) hrest, hfirst ((List.mem_cons.mp hu).resolve_right hrest)]

/-- A block is presented to the arrays of a tile (R224). -/
def Tile.present (b : Nat × List (List Byte)) (y : Tile) : Tile := { y with pairNow := some b }

/-- The oldest rows of a tile's pair buffer leave it. -/
def Tile.dropPairRows (n : Nat) (y : Tile) : Tile := { y with pairRows := y.pairRows.drop n }

/-- The first `n` rows of tile `t`'s pair buffer are presented as block `blk` at every tile of a logical array, and leave the buffer
(R224, R229). -/
def State.fillPair (s : State) (t blk n : Nat) (ts : List Nat) : State :=
  ts.foldl (fun s' u => s'.updTile u (Tile.present (blk, (s.tile t).pairRows.take n)))
    (s.updTile t (Tile.dropPairRows n))

section
variable {s : State} {t blk n : Nat} {ts : List Nat}

theorem State.fillPair_tile_of_mem {u : Nat} (hu : u ∈ ts) :
    (s.fillPair t blk n ts).tile u =
      ((s.updTile t (Tile.dropPairRows n)).tile u).present (blk, (s.tile t).pairRows.take n) := by
  rw [State.fillPair, State.foldl_updTile_tile_of_idempotent (g := Tile.present (blk, (s.tile t).pairRows.take n)) (fun _ => rfl) hu]

theorem State.fillPair_tile_of_notMem {u : Nat} (hu : u ∉ ts) :
    (s.fillPair t blk n ts).tile u = (s.updTile t (Tile.dropPairRows n)).tile u := by
  rw [State.fillPair, State.foldl_updTile_tile_of_notMem (fun _ => Tile.present (blk, (s.tile t).pairRows.take n)) hu]

theorem State.fillPair_pairRows : ((s.fillPair t blk n ts).tile t).pairRows = (s.tile t).pairRows.drop n := by
  by_cases ht : t ∈ ts
  · rw [State.fillPair_tile_of_mem ht, State.updTile_tile]
    rfl
  · rw [State.fillPair_tile_of_notMem ht, State.updTile_tile]
    rfl

theorem State.fillPair_part (p : Nat) : (s.fillPair t blk n ts).part p = s.part p := foldl_keeps (·.part p) _ _ _ (fun _ _ => rfl)

theorem State.fillPair_mem : (s.fillPair t blk n ts).fab.mem = s.fab.mem := foldl_mem _ _ _ (fun _ _ => rfl)

theorem State.fillPair_sameSteward : s.SameSteward (s.fillPair t blk n ts) :=
  (State.SameSteward.updTile s t _).trans (.foldl _ (fun s u => .updTile s u _) _ _)

end

section
variable {s : State} {t blk n : Nat} {job : Job} (hwant : (s.tile t).pairWant = some (blk, n, job))
include hwant

theorem exec_pairBlockFill_of_whole (hadmits : s.admits t .a = true) (hrows : n ≤ (s.tile t).pairRows.length)
    (hfree : ∀ b rows, (s.tile t).pairNow = some (b, rows) → (s.tile t).pairFree b = true) :
    exec (.pairBlockFill t) s = .next (s.fillPair t blk n job.tiles) := by
  show execPairBlockFill t s = _
  unfold execPairBlockFill
  dsimp only
  rw [hwant]
  dsimp only
  rw [if_pos]
  · rfl
  cases hnow : (s.tile t).pairNow with
  | none => simp [hrows, hadmits]
  | some now => simp [hrows, hadmits, hfree now.1 now.2 hnow]

theorem exec_pairBlockFill_of_short (hrows : (s.tile t).pairRows.length < n) : exec (.pairBlockFill t) s = .next s := by
  show execPairBlockFill t s = _
  simp [execPairBlockFill, hwant, Nat.not_le.mpr hrows]

end

/-! ### The period of a fused pair -/

@[simp] theorem Fused.vectorStage_oper (f : Fused) (fn : F32 → F32) (b : Nat) : (f.vectorStage fn b).oper = f.oper := by
  unfold Fused.vectorStage
  split
  · rfl
  · dsimp only
    split
    · rfl
    · rfl

@[simp] theorem Fused.updateStage_oper (f : Fused) (b : Nat) : (f.updateStage b).oper = f.oper := by
  unfold Fused.updateStage
  split
  · rfl
  · rfl

/-- A fused pair at the end of a period: its vector stages have run as far as its blocks have come, and the next period begins (R269). -/
def Fused.turned (f : Fused) (fn : F32 → F32) : Fused :=
  let f1 := if f.period < 1 then f else f.vectorStage fn (f.period - 1)
  { if f.period < 3 then f1 else f1.updateStage (f.period - 3) with period := f.period + 1 }

section
variable {f : Fused} {fn : F32 → F32}

theorem Fused.turned_of_first (h : f.period = 0) : f.turned fn = { f with period := 1 } := by
  simp [Fused.turned, h]

theorem Fused.turned_of_filling (h : f.period = 1 ∨ f.period = 2) :
    f.turned fn = { f.vectorStage fn (f.period - 1) with period := f.period + 1 } := by
  simp [Fused.turned, show ¬ f.period < 1 by omega, show f.period < 3 by omega]

theorem Fused.turned_of_full (h : 3 ≤ f.period) :
    f.turned fn = { (f.vectorStage fn (f.period - 1)).updateStage (f.period - 3) with period := f.period + 1 } := by
  simp [Fused.turned, show ¬ f.period < 1 by omega, Nat.not_lt.mpr h]

theorem Fused.turned_oper : (f.turned fn).oper = f.oper := by
  unfold Fused.turned
  dsimp only
  split
  · split
    · rfl
    · exact f.vectorStage_oper fn _
  · split
    · exact f.updateStage_oper _
    · exact (Fused.updateStage_oper _ _).trans (f.vectorStage_oper fn _)

end

/-- Nothing keeps the fused pair of tile `t` from its next period: its partition admits work, its vector unit is powered, nothing drains
and no array is suspect (R157, R271). -/
def State.PairGoes (s : State) (t : Nat) : Prop :=
  s.admits t .a = true ∧ (s.tile t).vgated = false ∧ (s.tile t).vbusy = false ∧ (s.tile t).a.busy = false ∧ (s.tile t).b.busy = false ∧
  (s.tile t).a.suspect = false ∧ (s.tile t).b.suspect = false

/-- The tile without its fused pair: both arrays are free. -/
def Tile.withoutPair (y : Tile) : Tile :=
  ({ y with fusedRun := none }.updArr .a (fun a => { a with job := none })).updArr .b (fun a => { a with job := none })

/-- A fused pair's output is written and its arrays are free (R267). -/
def State.pairWritten (s : State) (t : Nat) (f : Fused) (job : Job) : State := (s.writeFused t f job).updTile t Tile.withoutPair

/-- The end of a fused pair: then its steps are finished, the next ones begin, and an idle array rests (R156, R269). -/
def State.endPair (s : State) (t : Nat) (f : Fused) (job : Job) : State :=
  ((((s.pairWritten t f job).finishRuns job.runs).kickAll [t]).restArrays [t] .a).restArrays [t] .b

section
variable {s : State} {t : Nat} {f : Fused} {job : Job} (hfused : (s.tile t).fusedRun = some f) (hjob : (s.tile t).b.job = some job)
include hfused hjob

theorem exec_fusedPairPeriod_of_working (hdone : (s.tile t).periodDone f = false) : exec (.fusedPairPeriod t) s = .next s := by
  show execFusedPairPeriod t s = _
  simp [execFusedPairPeriod, hfused, hjob, hdone]

theorem exec_fusedPairPeriod_of_done (hgoes : s.PairGoes t) (hdone : (s.tile t).periodDone f = true) :
    exec (.fusedPairPeriod t) s = .next (
      let g := f.turned ((s.jobPart t).func f.oper.func false)
      if f.period + 1 < f.blocks + 3 then s.updTile t (fun y => { y with fusedRun := some g }) else s.endPair t g job) := by
  obtain ⟨hadmits, hvgated, hvbusy, habusy, hbbusy, hasuspect, hbsuspect⟩ := hgoes
  show execFusedPairPeriod t s = _
  unfold execFusedPairPeriod
  dsimp only
  rw [hfused, hjob]
  dsimp only
  rw [if_neg (by simp [hadmits, hvgated, hvbusy, habusy, hbbusy, hasuspect, hbsuspect, hdone])]
  split
  · rfl
  · rfl

end

/-! ### Outputs leave every tile -/

theorem Fabric.spWrite_tiles (f : Fabric) (t off : Nat) (bs : List Byte) : (f.spWrite t off bs).tiles = f.tiles :=
  congrArg (·.tiles) (f.spWrite_withMemory f t off bs)

theorem putPlain_tiles (f : Fabric) (h : Hist) (t : Nat) (o : OutPlane) (k : SrKey) (r j : Nat) (x : BitVec 32) :
    (putPlain f h t o k r j x).1.tiles = f.tiles :=
  congrArg (·.1.tiles) (putPlain_withMemory f f h t o k r j x)

theorem putBlock_tiles (f : Fabric) (h : Hist) (t : Nat) (o : OutPlane) (k : SrKey) (r b : Nat) (xs : List (BitVec 32)) :
    (putBlock f h t o k r b xs).1.tiles = f.tiles :=
  congrArg (·.1.tiles) (putBlock_withMemory f f h t o k r b xs)

theorem Fabric.putMaskedBlock_tiles (f : Fabric) (h : Hist) (t : Nat) (o : OutPlane) (k : SrKey) (r b : Nat) (xs : List (BitVec 32))
    (keep : List Bool) : (f.putMaskedBlock h t o k r b xs keep).1.tiles = f.tiles := by
  unfold Fabric.putMaskedBlock
  split
  · exact putBlock_tiles _ _ _ _ _ _ _ _
  · split
    · rfl
    · exact (Fabric.spWrite_tiles _ _ _ _).trans (putBlock_tiles _ _ _ _ _ _ _ _)

/-! ### What beginning and ending steps leave of a tile -/

/-- A tile's fused pair is as before or stands in its first period, and every step that the tile lists was listed before, and is finished
if it was. -/
def Tile.GoesOn (y z : Tile) : Prop :=
  (z.fusedRun = y.fusedRun ∨ ∃ f, z.fusedRun = some f ∧ f.period = 0) ∧
  ∀ r ∈ z.seq.issued, ∃ r₀ ∈ y.seq.issued, r₀.id = r.id ∧ (r₀.finished = true → r.finished = true)

theorem Tile.GoesOn.of_same {y z : Tile} (hpair : z.fusedRun = y.fusedRun) (hlisted : z.seq.issued = y.seq.issued) : y.GoesOn z :=
  ⟨.inl hpair, fun r hr => ⟨r, hlisted ▸ hr, rfl, id⟩⟩

theorem Tile.GoesOn.trans {x y z : Tile} (h : x.GoesOn y) (k : y.GoesOn z) : x.GoesOn z := by
  obtain ⟨hpair, hlisted⟩ := h
  obtain ⟨kpair, klisted⟩ := k
  refine ⟨kpair.elim (fun e => e ▸ hpair) .inr, fun r hr => ?_⟩
  obtain ⟨r₁, hr₁, hid₁, hfin₁⟩ := klisted r hr
  obtain ⟨r₀, hr₀, hid₀, hfin₀⟩ := hlisted r₁ hr₁
  exact ⟨r₀, hr₀, hid₀.trans hid₁, hfin₁ ∘ hfin₀⟩

theorem Tile.goesOn_updArr (y : Tile) (x : Side) (g : Arr → Arr) : y.GoesOn (y.updArr x g) := by
  cases x
  · exact .of_same rfl rfl
  · exact .of_same rfl rfl

theorem Tile.goesOn_countOutput (y : Tile) (raw : Bool) (c : PartRoot) : y.GoesOn (y.countOutput raw c) := by
  rw [Tile.countOutput]
  split
  · exact .of_same rfl rfl
  · exact .of_same rfl rfl

theorem Tile.goesOn_finishRun (y : Tile) (i : Nat) : y.GoesOn (y.finishRun i) := by
  refine ⟨.inl rfl, fun r hr => ?_⟩
  obtain ⟨r₀, hr₀, rfl⟩ := List.mem_map.mp hr
  refine ⟨r₀, hr₀, ?_⟩
  split
  · exact ⟨rfl, fun _ => rfl⟩
  · exact ⟨rfl, id⟩

/-- The listed steps of the id are finished. -/
theorem Tile.finishRun_finished {y : Tile} {id : Nat} {r : StepRun} (hr : r ∈ (y.finishRun id).seq.issued) (hid : r.id = id) :
    r.finished = true := by
  obtain ⟨r₀, -, rfl⟩ := List.mem_map.mp hr
  split at hid
  case isTrue h => rw [if_pos h]
  case isFalse h => exact absurd (beq_iff_eq.mpr hid) h

/-- Every tile goes on in this sense, and the steward has done nothing. -/
def State.GoesOn (s s' : State) : Prop := s.SameSteward s' ∧ ∀ u, (s.tile u).GoesOn (s'.tile u)

theorem State.GoesOn.refl (s : State) : s.GoesOn s := ⟨.refl s, fun _ => .of_same rfl rfl⟩

theorem State.GoesOn.trans {a b c : State} (h : a.GoesOn b) (k : b.GoesOn c) : a.GoesOn c :=
  ⟨h.1.trans k.1, fun u => (h.2 u).trans (k.2 u)⟩

theorem State.GoesOn.updTile (s : State) (t : Nat) (g : Tile → Tile) (h : ∀ y : Tile, y.GoesOn (g y)) : s.GoesOn (s.updTile t g) := by
  refine ⟨.updTile s t g, fun u => ?_⟩
  by_cases hu : u = t
  · rw [hu, State.updTile_tile]
    exact h _
  · rw [State.updTile_tile_other _ _ _ _ hu]
    exact .of_same rfl rfl

theorem State.GoesOn.updArr (s : State) (t : Nat) (x : Side) (g : Arr → Arr) : s.GoesOn (s.updTile t (fun y => y.updArr x g)) :=
  .updTile s t _ (fun y => y.goesOn_updArr x g)

theorem State.tile_setFab_of_tiles {s : State} {f : Fabric} (h : f.tiles = s.fab.tiles) (u : Nat) : (s.setFab f).tile u = s.tile u :=
  congrArg (fun l => tabGet Tile.init l u) h

theorem State.GoesOn.setFab (s : State) {f : Fabric} (h : f.tiles = s.fab.tiles) : s.GoesOn (s.setFab f) :=
  ⟨.setFab s f, fun u => State.tile_setFab_of_tiles h u ▸ .of_same rfl rfl⟩

theorem State.GoesOn.foldl {α : Type} (f : State → α → State) (h : ∀ (s : State) a, s.GoesOn (f s a)) (l : List α) (s : State) :
    s.GoesOn (l.foldl f s) := by
  induction l generalizing s with
  | nil => exact .refl s
  | cons a l ih => exact (h s a).trans (ih _)

theorem State.goesOn_foldl_fst {α : Type} (f : State × Job → α → State × Job) (h : ∀ (r : State × Job) a, r.1.GoesOn (f r a).1)
    (l : List α) (r : State × Job) : r.1.GoesOn (l.foldl f r).1 := by
  induction l generalizing r with
  | nil => exact .refl r.1
  | cons a l ih => exact (h r a).trans (ih _)

theorem State.goesOn_putOutput (s : State) (x : Side) (job : Job) (q j : Nat) (v : BitVec 32) (c : PartRoot) :
    s.GoesOn (s.putOutput x job q j v c).1 := by
  have hcount (w : Nat) (b : Bool) (raw : Bool) : s.GoesOn (if b then s.updTile w (fun y => y.countOutput raw c) else s) := by
    split
    · exact .updTile s w _ (fun y => y.goesOn_countOutput raw c)
    · exact .refl s
  unfold State.putOutput
  dsimp only
  split
  · split
    · exact ((hcount _ _ _).trans (.setFab _ (Fabric.putMaskedBlock_tiles _ _ _ _ _ _ _ _ _))).trans
        (.updTile _ _ _ (fun _ => .of_same rfl rfl))
    · exact hcount _ _ _
  · split
    · exact .refl s
    · exact (State.GoesOn.setFab s (putPlain_tiles _ _ _ _ _ _ _ _)).trans
        (.updTile _ _ _ (fun y => (y.goesOn_countOutput _ c).trans (.of_same rfl rfl)))

theorem State.goesOn_emptyOutputs (s : State) (x : Side) (job : Job) (qs js : Nat × Nat) : s.GoesOn (s.emptyOutputs x job qs js) :=
  State.goesOn_foldl_fst _ (fun r _ => State.goesOn_foldl_fst _ (fun r _ => r.1.goesOn_putOutput _ _ _ _ _ _) _ r) _ (s, job)

theorem State.goesOn_finishRuns (s : State) (runs : List (Nat × Nat)) : s.GoesOn (s.finishRuns runs) :=
  .foldl _ (fun s _ => .updTile s _ _ (fun y => y.goesOn_finishRun _)) runs s

theorem State.goesOn_placeJob (s : State) (t : Nat) (x : Side) (job : Job) : s.GoesOn (s.placeJob t x job) :=
  (State.GoesOn.foldl _ (fun s _ => .updArr s _ x _) _ s).trans (.updArr _ _ x _)

theorem State.goesOn_restArrays (s : State) (ts : List Nat) (x : Side) : s.GoesOn (s.restArrays ts x) := by
  refine .foldl _ (fun s t => ?_) _ s
  split
  · exact .updArr s t x _
  · exact .refl s

/-- The only fused pair that a step begins stands in period 0 (R269). -/
theorem State.goesOn_beginOper (s : State) (p : Part) (st : ItinStep) (o : Oper) (r : StepRun) (t : Nat) (x : Side)
    (runs : List (Nat × Nat)) (g : OperGroup) : s.GoesOn (s.beginOper p st o r t x runs g) := by
  have two (j k : Job) : s.GoesOn ((s.placeJob t .a j).placeJob t .b k) := (s.goesOn_placeJob _ _ _).trans (State.goesOn_placeJob _ _ _ _)
  unfold State.beginOper
  dsimp only
  split
  · split
    · exact (s.goesOn_emptyOutputs _ _ _ _).trans (State.goesOn_finishRuns _ _)
    · split
      · exact s.goesOn_finishRuns _
      · exact s.goesOn_placeJob _ _ _
  · split
    · split
      · exact s.goesOn_finishRuns _
      · exact two _ _
    · exact (two _ _).trans (.updTile _ _ _ (fun _ => ⟨.inr ⟨_, rfl, rfl⟩, fun r hr => ⟨r, hr, rfl, id⟩⟩))

theorem State.goesOn_startHead (s : State) (t : Nat) (x : Side) : s.GoesOn (s.startHead t x) := by
  rcases s.startHead_cases t x with h | ⟨id, h⟩ | ⟨p, st, o, r, origin, runs, g, h⟩
  · rw [h]; exact .refl s
  · rw [h]; exact .updTile s t _ (fun y => y.goesOn_finishRun id)
  · rw [h]; exact s.goesOn_beginOper _ _ _ _ _ _ _ _

theorem State.goesOn_kickAll (s : State) (ts : List Nat) : s.GoesOn (s.kickAll ts) :=
  .foldl _ (fun s _ => .foldl _ (fun s t => (s.goesOn_startHead t .a).trans (State.goesOn_startHead _ t .b)) ts s) _ s

/-! ### The end of a fused pair -/

/-- Finishing the runs of a job finishes each of them (R246). -/
theorem State.finishRuns_finished {t i : Nat} {runs : List (Nat × Nat)} (hrun : (t, i) ∈ runs) (s : State) :
    ∀ r ∈ ((s.finishRuns runs).tile t).seq.issued, r.id = i → r.finished = true := by
  intro r hr hid
  induction runs generalizing s with
  | nil => cases hrun
  | cons u runs ih =>
    rcases List.mem_cons.mp hrun with rfl | hrun
    · obtain ⟨r₀, hr₀, hid₀, hfin⟩ := ((State.goesOn_finishRuns (s.updTile t (fun y => y.finishRun i)) runs).2 t).2 r hr
      rw [State.updTile_tile] at hr₀
      exact hfin (Tile.finishRun_finished hr₀ (hid₀.trans hid))
    · exact ih hrun _ hr

theorem State.writeFused_sameSteward (s : State) (t : Nat) (f : Fused) (job : Job) : s.SameSteward (s.writeFused t f job) := by
  unfold State.writeFused
  split
  · exact .refl s
  · exact (State.SameSteward.setFab s _).trans (.updTile _ _ _)

section
variable (s : State) (t : Nat) (f : Fused) (job : Job)

theorem State.pairWritten_sameSteward : s.SameSteward (s.pairWritten t f job) :=
  (s.writeFused_sameSteward t f job).trans (.updTile _ _ _)

theorem State.pairWritten_fusedRun : ((s.pairWritten t f job).tile t).fusedRun = none := by
  rw [State.pairWritten, State.updTile_tile]
  rfl

/-- Once the steps of a fused pair are finished, only the next steps begin. -/
theorem State.goesOn_endPair : ((s.pairWritten t f job).finishRuns job.runs).GoesOn (s.endPair t f job) :=
  ((State.goesOn_kickAll _ _).trans (State.goesOn_restArrays _ _ _)).trans (State.goesOn_restArrays _ _ _)

theorem State.endPair_sameSteward : s.SameSteward (s.endPair t f job) :=
  ((s.pairWritten_sameSteward t f job).trans (State.goesOn_finishRuns _ _).1).trans (s.goesOn_endPair t f job).1

/-- A fused pair of the tile is a new one, in its first period. -/
theorem State.endPair_fusedRun {g : Fused} (hg : ((s.endPair t f job).tile t).fusedRun = some g) : g.period = 0 := by
  obtain ⟨hpair, -⟩ := ((State.goesOn_finishRuns _ job.runs).trans (s.goesOn_endPair t f job)).2 t
  rcases hpair with hsame | ⟨g', hnew, hperiod⟩
  · rw [hg, s.pairWritten_fusedRun t f job] at hsame
    cases hsame
  · rw [hg] at hnew
    cases hnew
    exact hperiod

theorem State.endPair_finished {i : Nat} (hrun : (t, i) ∈ job.runs) :
    ∀ r ∈ ((s.endPair t f job).tile t).seq.issued, r.id = i → r.finished = true := by
  intro r hr hid
  obtain ⟨r₀, hr₀, hid₀, hfin⟩ := ((s.goesOn_endPair t f job).2 t).2 r hr
  exact hfin (State.finishRuns_finished hrun _ r₀ hr₀ (hid₀.trans hid))

end

/-! ### Drains -/

theorem exec_drainComplete (s : State) (t : Nat) (x : Side) : exec (.drainComplete t x) s =
    if (((s.tile t).arr x).busy && (s.drained t x || ((s.tile t).arr x).suspect)) = true then
      .next (s.updTile t (fun y => y.updArr x (fun a => { a with busy := false })))
    else .next s := rfl

theorem State.drained_of_noJob {s : State} {t : Nat} {x : Side} (h : s.jobOf t x = none) : s.drained t x = true := by
  simp [State.drained, h]

theorem State.drained_of_unfused {s : State} {t o : Nat} {x : Side} {j : Job} (hjob : s.jobOf t x = some (o, j))
    (hfused : (s.tile o).fusedRun = none) : s.drained t x = j.flights.isEmpty := by
  simp [State.drained, hjob, hfused]

theorem exec_vectorUnitSafePoint_of_end {s : State} {t : Nat} (hbusy : (s.tile t).vbusy = true)
    (hend : (s.tile t).fusedRun = none ∨ ∃ f, (s.tile t).fusedRun = some f ∧ (s.tile t).periodDone f = true) :
    exec (.vectorUnitSafePoint t) s = .next (s.updTile t (fun y => { y with vbusy := false })) := by
  show execVectorUnitSafePoint t s = _
  unfold execVectorUnitSafePoint
  dsimp only
  rw [if_pos]
  · rfl
  rcases hend with hnone | ⟨f, hfused, hdone⟩
  · simp [hbusy, hnone]
  · simp [hbusy, hfused, hdone]

theorem exec_vectorUnitSafePoint_of_working {s : State} {t : Nat} {f : Fused} (hfused : (s.tile t).fusedRun = some f)
    (hworking : (s.tile t).periodDone f = false) (ha : (s.tile t).a.suspect = false) (hb : (s.tile t).b.suspect = false) :
    exec (.vectorUnitSafePoint t) s = .next s := by
  show execVectorUnitSafePoint t s = _
  simp [execVectorUnitSafePoint, hfused, hworking, ha, hb]

/-! ### The statement -/

/-- Settles O34: a whole block is presented and leaves the buffer; a pair turns or ends, and what begins at its end is new; a drain ends when
nothing is in flight. -/
theorem pairBlocksPeriodsAndDrains : Obligations.PairBlocksPeriodsAndDrains := by
  unfold Obligations.PairBlocksPeriodsAndDrains
  refine ⟨⟨fun s t blk n job hwant => ⟨fun hadmits hrows hfree => ?whole, exec_pairBlockFill_of_short hwant⟩,
      fun s t f job hfused hjob => ⟨exec_fusedPairPeriod_of_working hfused hjob,
        fun hadmits hvgated hvbusy habusy hbbusy hasuspect hbsuspect hdone => ?turns⟩⟩,
    fun s t x hbusy => ⟨fun hdrained => ?clears, fun hflying hsuspect => ?stays, State.drained_of_noJob,
      fun o j => State.drained_of_unfused⟩,
    fun s t hbusy => ⟨exec_vectorUnitSafePoint_of_end hbusy, fun f => exec_vectorUnitSafePoint_of_working⟩⟩
  case whole =>
    refine ⟨_, exec_pairBlockFill_of_whole hwant hadmits hrows hfree, State.fillPair_pairRows, fun u hu => ?_, fun u hu hut => ?_,
      State.fillPair_part, fun k => ?_, State.fillPair_sameSteward⟩
    · rw [State.fillPair_tile_of_mem hu]
      rfl
    · rw [State.fillPair_tile_of_notMem hu, State.updTile_tile_other _ _ _ _ hut]
    · rw [State.fillPair_mem]
  case turns =>
    have hexec := exec_fusedPairPeriod_of_done hfused hjob ⟨hadmits, hvgated, hvbusy, habusy, hbbusy, hasuspect, hbsuspect⟩ hdone
    refine ⟨fun hmore => ?_, fun hover => ?_⟩
    · rw [if_pos hmore] at hexec
      exact ⟨_, hexec, rfl, Fused.turned_oper, Fused.turned_of_first, Fused.turned_of_filling, Fused.turned_of_full⟩
    · rw [if_neg (Nat.not_lt.mpr hover)] at hexec
      exact ⟨_, hexec, fun g hg => .inr (s.endPair_fusedRun t _ job hg), fun i hrun => s.endPair_finished t _ job hrun,
        s.endPair_sameSteward t _ job⟩
  case clears =>
    rw [exec_drainComplete, if_pos (by simp [hbusy, hdrained])]
  case stays =>
    rw [exec_drainComplete, if_neg (by simp [hflying, hsuspect])]

end Sys2Proof.Machine
end

section
/-! SUPPORT. Memory and gather buffer of one state taken over by another, and the small writes of a tile whose scratchpad holds no wrong bit
under that change (R280, R283). -/
namespace Sys2Proof.Machine

/-! ### A scratchpad without wrong bits -/

/-- No cell of tile `t`'s scratchpad holds a wrong bit: `State.CleanPad` of a fabric (R283). -/
def Fabric.Clean (f : Fabric) (t : Nat) : Prop := ∀ e ∈ f.flips, e.1 ≠ t

theorem Fabric.Clean.spWrite {f : Fabric} {t : Nat} (h : f.Clean t) (u off : Nat) (bs : List Byte) : (f.spWrite u off bs).Clean t := by
  unfold Fabric.spWrite
  split
  · exact fun e he => h e (List.mem_filter.mp he).1
  · exact h

/-- Where nothing is wrong, a partly written codeword is no obstacle to the write. -/
theorem Fabric.Clean.spStore {f : Fabric} {t : Nat} (h : f.Clean t) (off : Nat) (bs : List Byte) :
    (f.spStore t off bs).2 = f.spWrite t off bs := by
  have hnone : f.flips.any (fun e => e.1 == t) = false := by
    rw [List.any_eq_false]
    intro e he
    simp [h e he]
  simp [Fabric.spStore, Fabric.readWords, hnone]

/-- What every write to a scratchpad keeps, a row of results keeps. -/
theorem putRow_induct {P : Fabric → Prop} {t : Nat} (hP : ∀ f off bs, P f → P (f.spWrite t off bs)) {f : Fabric} (hf : P f) (h : Hist)
    (o : OutPlane) (k : SrKey) (r : Nat) (xs : List (BitVec 32)) : P (putRow f h t o k r xs).1 := by
  have hplain (g : Fabric) (h : Hist) (j : Nat) (x : BitVec 32) (hg : P g) : P (putPlain g h t o k r j x).1 := by
    unfold putPlain
    dsimp only
    split
    · exact hP _ _ _ hg
    · split
      · exact hP _ _ _ hg
      · split
        · exact hP _ _ _ (hP _ _ _ hg)
        · exact hP _ _ _ hg
  have hblock (g : Fabric) (h : Hist) (b : Nat) (ys : List (BitVec 32)) (hg : P g) : P (putBlock g h t o k r b ys).1 :=
    hP _ _ _ (hP _ _ _ hg)
  have hfold {α : Type} (op : Fabric × Hist → α → Fabric × Hist) (hop : ∀ c a, P c.1 → P (op c a).1) (l : List α) :
      P (l.foldl op (f, h)).1 := List.foldlRecOn l op hf (fun c hc a _ => hop c a hc)
  unfold putRow
  split
  · exact hfold _ (fun c b hc => hblock c.1 c.2 b _ hc) _
  · exact hfold _ (fun c j hc => hplain c.1 c.2 j _ hc) _

/-- A fold commutes with a map between its states, as long as what each step needs is kept. -/
theorem foldl_commutes {α β γ : Type} {φ : β → γ} {P : β → Prop} {op : γ → α → γ} {op' : β → α → β}
    (hop : ∀ b a, P b → op (φ b) a = φ (op' b a) ∧ P (op' b a)) (l : List α) (b : β) (hb : P b) :
    l.foldl op (φ b) = φ (l.foldl op' b) ∧ P (l.foldl op' b) := by
  induction l generalizing b with
  | nil => exact ⟨rfl, hb⟩
  | cons a l ih =>
    obtain ⟨heq, hkept⟩ := hop b a hb
    rw [List.foldl_cons, List.foldl_cons, heq]
    exact ih _ hkept

/-- Writing a gathered entry reads and changes nothing but memory. -/
theorem Fabric.gatherWrite_withMemory {g : Fabric} {t : Nat} (hg : g.Clean t) (f : Fabric) (e : GatherEntry) :
    (f.withMemory g).gatherWrite t e = f.withMemory (g.gatherWrite t e) ∧ (g.gatherWrite t e).Clean t := by
  refine foldl_commutes (φ := f.withMemory) (P := (·.Clean t)) (fun b i hb => ?_) _ g hg
  have hfb : (f.withMemory b).Clean t := hb
  split
  · rw [hfb.spStore, hb.spStore, ite_self, ite_self]
    exact ⟨f.spWrite_withMemory b _ _ _, hb.spWrite _ _ _⟩
  · exact ⟨rfl, hb⟩

/-! ### The scratchpads and the gather buffer of another state -/

theorem State.setFab_withMemory_updTile (s : State) (t : Nat) (g : Fabric) (f : Tile → Tile) :
    (s.updTile t f).setFab ((s.updTile t f).fab.withMemory g) = (s.setFab (s.fab.withMemory g)).updTile t f := rfl

/-- State `s` with the memory and tile `t`'s gather buffer of state `z`. -/
def State.withPad (s z : State) (t : Nat) : State :=
  (s.setFab (s.fab.withMemory z.fab)).updTile t (fun x => { x with gather := (z.tile t).gather })

section
variable (s z : State) (t : Nat)

@[simp] theorem State.withPad_tile : (s.withPad z t).tile t = { s.tile t with gather := (z.tile t).gather } := by
  rw [State.withPad, State.updTile_tile, State.setFab_withMemory_tile]

theorem State.withPad_tile_other {u : Nat} (h : u ≠ t) : (s.withPad z t).tile u = s.tile u := by
  rw [State.withPad, State.updTile_tile_other _ _ _ _ h, State.setFab_withMemory_tile]

@[simp] theorem State.withPad_mem : (s.withPad z t).fab.mem = z.fab.mem := rfl
@[simp] theorem State.withPad_part (n : Nat) : (s.withPad z t).part n = s.part n := rfl
@[simp] theorem State.withPad_link : (s.withPad z t).link = s.link := rfl
@[simp] theorem State.withPad_out : (s.withPad z t).out = s.out := rfl

theorem State.withPad_sameSteward : s.SameSteward (s.withPad z t) := (State.SameSteward.setFab s _).trans (.updTile _ _ _)

theorem State.withPad_updGather (f : List GatherEntry → List GatherEntry) :
    (s.withPad z t).updTile t (fun x => { x with gather := f x.gather }) =
      s.withPad (z.updTile t (fun x => { x with gather := f x.gather })) t := by
  rw [State.withPad, State.updTile_updTile, State.withPad, State.updTile_tile]
  rfl

theorem State.withPad_land (g : Fabric) (es : List GatherEntry) :
    ((s.withPad z t).setFab ((s.withPad z t).fab.withMemory g)).updTile t (fun x => { x with gather := es }) =
      s.withPad ((z.setFab g).updTile t (fun x => { x with gather := es })) t := by
  have hset : (s.withPad z t).setFab ((s.withPad z t).fab.withMemory g) =
    (s.setFab (s.fab.withMemory g)).updTile t (fun x => { x with gather := (z.tile t).gather }) := rfl
  rw [hset, State.updTile_updTile, State.withPad, State.updTile_tile]
  rfl

end

/-- A small write reads and changes nothing but memory and the gather buffer (R280). -/
theorem State.gatherPut_withPad {z : State} {t : Nat} (hz : z.CleanPad t) (s : State) (off : Nat) (bs : List Byte) :
    (s.withPad z t).gatherPut t off bs = s.withPad (z.gatherPut t off bs) t ∧ (z.gatherPut t off bs).CleanPad t := by
  have hland (e : GatherEntry) (es : List GatherEntry) :
      ((s.withPad z t).setFab ((s.withPad z t).fab.gatherWrite t e)).updTile t (fun x => { x with gather := es }) =
        s.withPad ((z.setFab (z.fab.gatherWrite t e)).updTile t (fun x => { x with gather := es })) t := by
    have hfab : (s.withPad z t).fab.gatherWrite t e = (s.withPad z t).fab.withMemory (z.fab.gatherWrite t e) :=
      (Fabric.gatherWrite_withMemory hz (s.withPad z t).fab e).1
    rw [hfab, s.withPad_land z t]
  have hclean (e : GatherEntry) : (z.fab.gatherWrite t e).Clean t := (Fabric.gatherWrite_withMemory hz z.fab e).2
  unfold State.gatherPut
  simp only [State.withPad_tile]
  split
  · exact ⟨hland _ _, hclean _⟩
  · split
    · exact ⟨s.withPad_updGather z t (List.map _), hz⟩
    · split
      · exact ⟨s.withPad_updGather z t (fun _ => _), hz⟩
      · split
        · exact ⟨rfl, hz⟩
        · exact ⟨hland _ _, hclean _⟩

theorem State.smallWrite_withPad {z : State} {t : Nat} (hz : z.CleanPad t) (s : State) (off : Nat) (bs : List Byte) :
    (s.withPad z t).smallWrite t off bs = s.withPad (z.smallWrite t off bs) t ∧ (z.smallWrite t off bs).CleanPad t := by
  obtain ⟨hfirst, hkept⟩ := State.gatherPut_withPad hz s off (bs.take (32 - off % 32))
  unfold State.smallWrite
  dsimp only
  rw [hfirst]
  split
  · exact ⟨rfl, hkept⟩
  · exact State.gatherPut_withPad hkept s _ _

/-- `n` small writes of words, one every four bytes from `dst` on. -/
def State.smallWords (s : State) (t dst n : Nat) (w : Nat → List Byte) : State :=
  (List.range n).foldl (fun z r => z.smallWrite t (dst + 4 * r) (w r)) s

theorem State.smallWords_withPad {z : State} {t : Nat} (hz : z.CleanPad t) (s : State) (dst n : Nat) (w : Nat → List Byte) :
    (s.withPad z t).smallWords t dst n w = s.withPad (z.smallWords t dst n w) t ∧ (z.smallWords t dst n w).CleanPad t :=
  foldl_commutes (φ := fun z => s.withPad z t) (P := (·.CleanPad t)) (fun _ _ hb => State.smallWrite_withPad hb s _ _) _ z hz

end Sys2Proof.Machine
end

section
/-! SUPPORT. How a VEC step enters a free vector unit and what it leaves there, with the statement about element-wise steps (R249, R250, R260,
R314, R368, R373, R581). -/
namespace Sys2Proof.Machine

/-! ### The ring of a step -/

theorem Tile.passRingOf_finishRun_seq (x : Tile) (v : Vec) (id : Nat) : ((x.passRingOf v).finishRun id).seq = (x.finishRun id).seq := by
  unfold Tile.passRingOf
  split
  · rfl
  · rfl

theorem Tile.passRingOf_finishRun_gather (x : Tile) (v : Vec) (id : Nat) : ((x.passRingOf v).finishRun id).gather = x.gather := by
  unfold Tile.passRingOf
  split
  · rfl
  · rfl

/-- The ring that supplied operand A has one full slot less and one free slot more (R313, R314). -/
theorem Tile.passRingOf_queue {v : Vec} {k : Nat} (h : v.ringOf = some k) (x : Tile) (id : Nat) :
    ((x.passRingOf v).finishRun id).queue k =
      { x.queue k with full := (x.queue k).full - 1, free := (x.queue k).free + 1, consN := (x.queue k).consN + 1 } := by
  rw [Tile.passRingOf, h]
  exact x.setQueue_queue k _

theorem Tile.ringFull_of {x : Tile} {v : Vec} (h : ∀ k, v.ringOf = some k → 1 ≤ (x.queue k).full) : x.ringFull v = true := by
  unfold Tile.ringFull
  split
  case h_1 k hring => simpa using h k hring
  case h_2 => rfl

/-! ### A VEC step enters the vector unit

`State.junctIssued` and `State.junctRun` name no operation of the step: they are the state and the run of any step that has entered the unit. -/

theorem State.VectorFree.room {s : State} {t : Nat} {q : Seq} (h : s.VectorFree t q) : Tile.vectorRoom { s.tile t with seq := q } = true := by
  obtain ⟨-, -, -, hidle⟩ := h
  exact Tile.vectorRoom_of_free hidle

section
variable {s : State} {t pn : Nat} {p : Part} {st : ItinStep} {q : Seq} {v : Vec} {c : Nat → Instr}

/-- A VEC step of a shape within its maxima enters a vector unit that has room for it (R249, R368, R385). -/
theorem exec_vec_of_standsAt (hcmd : (v.vop, c) ∈ rowwiseCommands ++ reductionCommands) (hstands : s.StandsAt t pn p st q)
    (hbody : st.body = .vec v) (hskip : q.skip = none) (hrows : 0 < dimValue q.ctx v.rows) (hmaxR : dimValue q.ctx v.rows ≤ v.maxR)
    (hcols : 0 < dimValue q.ctx v.cols) (hmaxC : dimValue q.ctx v.cols ≤ v.maxC)
    (hroom : Tile.vectorRoom { s.tile t with seq := q } = true) :
    exec (c t) s = .next ((s.junctIssued t p st q).vectorStart t) := by
  have hshape : shapeOf [(dimValue q.ctx v.rows, v.maxR), (dimValue q.ctx v.cols, v.maxC)]
      [dimValue q.ctx v.rows, dimValue q.ctx v.cols] = .run := by
    simp [shapeOf, Nat.not_lt.mpr hmaxR, Nat.not_lt.mpr hmaxC, Nat.ne_of_gt hrows, Nat.ne_of_gt hcols]
  rw [exec_vecCommand t s _ hcmd, State.vecStep, State.stepGate_standsAt hstands (by rw [hbody]; exact beq_self_eq_true _)]
  simp [hbody, Tile.inSkip, hskip, hshape, hroom, State.junctIssued]

/-- A powered and idle vector unit runs the VEC step at its head to its end and gives back the tile of its ring (R249, R314). -/
theorem State.vectorStart_vec {r : StepRun} (hhead : (s.tile t).vectorHead = some r) (hfinished : r.finished = false)
    (hskip : r.skip = false) (hpart : s.partAt t = some (pn, p)) (hstep : p.itin[r.step]? = some st) (hbody : st.body = .vec v)
    (hworking : s.working t = true) (hbusy : (s.tile t).vbusy = false) (hgated : (s.tile t).vgated = false)
    (hring : (s.tile t).ringFull v = true) (hreads : s.ReadsWell t (s.vecReads t p st v)) :
    s.vectorStart t = (s.runVec t p st r v).updTile t (fun x => (x.passRingOf v).finishRun r.id) := by
  simp [State.vectorStart, hhead, hfinished, hskip, hpart, hstep, hbody, hworking, hbusy, hgated, hring, State.padReads_of_readsWell hreads]

/-- Behind a finished step, the vector unit waits for that step's completion (R249). -/
theorem State.vectorStart_of_finished {r : StepRun} (hhead : (s.tile t).vectorHead = some r) (hfinished : r.finished = true) :
    s.vectorStart t = s := by
  unfold State.vectorStart
  simp only [hhead]
  split
  case h_1 hrun _ =>
    cases hrun
    simp [hfinished]
  case h_2 => rfl

theorem State.junctIssued_queue (k : Nat) : ((s.junctIssued t p st q).tile t).queue k = (s.tile t).queue k := by
  rw [State.junctIssued_tile, Tile.issue_eq]
  rfl

theorem State.junctIssued_gather : ((s.junctIssued t p st q).tile t).gather = (s.tile t).gather := by
  rw [State.junctIssued_tile, Tile.issue_eq]

theorem State.operandRow_junctIssued : (s.junctIssued t p st q).operandRow = s.operandRow := rfl

/-- The step reads the same ranges whether its sequencer stands at it or has gone on. -/
theorem State.vecReads_junctIssued :
    (s.junctIssued t p st q).vecReads t p st v = (s.updTile t (fun x => { x with seq := q })).vecReads t p st v := by
  simp only [State.vecReads, State.junctIssued_ctx, State.junctIssued_computeBase, State.junctIssued_queue, State.updTile_tile]
  rfl

/-- A VEC step that has come to a free vector unit runs there. -/
theorem State.vectorStart_vecIssued (hstands : s.StandsAt t pn p st q) (hbody : st.body = .vec v) (hskip : q.skip = none)
    (hfree : s.VectorFree t q) (hring : ∀ k, v.ringOf = some k → 1 ≤ ((s.tile t).queue k).full)
    (hreads : s.ReadsWell t ((s.updTile t (fun x => { x with seq := q })).vecReads t p st v)) :
    (s.junctIssued t p st q).vectorStart t =
      ((s.junctIssued t p st q).runVec t p st (s.junctRun t p st q) v).updTile t (fun x => (x.passRingOf v).finishRun q.nextId) := by
  obtain ⟨hpart, -, -, hstep, -⟩ := hstands
  obtain ⟨hworking, hbusy, hgated, hidle⟩ := hfree
  rw [← State.vecReads_junctIssued] at hreads
  refine State.vectorStart_vec (r := s.junctRun t p st q) ?_ rfl ?_ ((s.partAt_updTile_issue t q p st _ _).trans hpart) hstep hbody
    ((s.working_updTile_issue t q p st _ _).trans hworking) ?_ ?_ (Tile.ringFull_of fun k hk => ?_) hreads
  · rw [State.junctIssued_tile]
    exact Tile.vectorHead_issue (x := { s.tile t with seq := q }) hidle p st
  · simp [State.junctRun, Tile.runOf, Tile.inSkip, hskip]
  · rw [State.junctIssued_tile, Tile.issue_eq]
    exact hbusy
  · rw [State.junctIssued_tile, Tile.issue_eq]
    exact hgated
  · rw [State.junctIssued_queue]
    exact hring k hk

/-- A VEC step of a shape within its maxima comes to a free vector unit and runs there to its end (R249, R314). -/
theorem exec_vec_of_free (hcmd : (v.vop, c) ∈ rowwiseCommands ++ reductionCommands) (hstands : s.StandsAt t pn p st q)
    (hbody : st.body = .vec v) (hskip : q.skip = none) (hrows : 0 < dimValue q.ctx v.rows) (hmaxR : dimValue q.ctx v.rows ≤ v.maxR)
    (hcols : 0 < dimValue q.ctx v.cols) (hmaxC : dimValue q.ctx v.cols ≤ v.maxC) (hfree : s.VectorFree t q)
    (hring : ∀ k, v.ringOf = some k → 1 ≤ ((s.tile t).queue k).full)
    (hreads : s.ReadsWell t ((s.updTile t (fun x => { x with seq := q })).vecReads t p st v)) :
    exec (c t) s = .next
      (((s.junctIssued t p st q).runVec t p st (s.junctRun t p st q) v).updTile t (fun x => (x.passRingOf v).finishRun q.nextId)) := by
  rw [exec_vec_of_standsAt hcmd hstands hbody hskip hrows hmaxR hcols hmaxC hfree.room,
    State.vectorStart_vecIssued hstands hbody hskip hfree hring hreads]

/-- Behind a finished step that has not completed, a VEC step only enters the unit's queue (R249, R368; the five steps are log 60). -/
theorem exec_vec_of_behind {r : StepRun} (hcmd : (v.vop, c) ∈ rowwiseCommands ++ reductionCommands) (hstands : s.StandsAt t pn p st q)
    (hbody : st.body = .vec v) (hskip : q.skip = none) (hrows : 0 < dimValue q.ctx v.rows) (hmaxR : dimValue q.ctx v.rows ≤ v.maxR)
    (hcols : 0 < dimValue q.ctx v.cols) (hmaxC : dimValue q.ctx v.cols ≤ v.maxC)
    (hhead : q.issued.find? (fun r => r.unit == .vector) = some r) (hfinished : r.finished = true)
    (hroom : (q.issued.filter (fun r => r.unit == .vector)).length < 5) : exec (c t) s = .next (s.junctIssued t p st q) := by
  have hissued : ((s.junctIssued t p st q).tile t).vectorHead = some r := by
    rw [State.junctIssued_tile, Tile.vectorHead, Tile.issue_seq, (Seq.leaveRank_keeps _).1, Seq.listed, List.find?_append, hhead]
    rfl
  rw [exec_vec_of_standsAt hcmd hstands hbody hskip hrows hmaxR hcols hmaxC (decide_eq_true hroom),
    State.vectorStart_of_finished hissued hfinished]

end

/-! ### What a VEC step leaves -/

/-- The state once a VEC step of sequencer `q` has run: the report holds the counts `h`, the scratchpads and the gather buffer are those of
state `z`, and the step's ring has its slot back. -/
def State.vecDone (s : State) (t : Nat) (p : Part) (st : ItinStep) (q : Seq) (v : Vec) (h : Hist) (z : State) : State :=
  (((s.junctIssued t p st q).updTile t (fun x => x.setHist h)).withPad z t).updTile t (fun x => (x.passRingOf v).finishRun q.nextId)

section
variable (s : State) (t : Nat) (p : Part) (st : ItinStep) (q : Seq) (v : Vec) (h : Hist) (z : State)

theorem State.vecDone_seq : ((s.vecDone t p st q v h z).tile t).seq =
    (({ s.tile t with seq := { q with rep := { q.rep with hist := h } } }.issue p st .vector false).finishRun q.nextId).seq := by
  rw [State.vecDone, State.updTile_tile, Tile.passRingOf_finishRun_seq, State.withPad_tile, State.updTile_tile, State.junctIssued_tile,
    ← Tile.issue_setHist]
  rfl

theorem State.vecDone_queue {k : Nat} (hring : v.ringOf = some k) : ((s.vecDone t p st q v h z).tile t).queue k =
    { (s.tile t).queue k with
      full := ((s.tile t).queue k).full - 1, free := ((s.tile t).queue k).free + 1, consN := ((s.tile t).queue k).consN + 1 } := by
  have hqueue : ((((s.junctIssued t p st q).updTile t (fun x => x.setHist h)).withPad z t).tile t).queue k = (s.tile t).queue k := by
    rw [State.withPad_tile, State.updTile_tile]
    exact State.junctIssued_queue k
  rw [State.vecDone, State.updTile_tile, Tile.passRingOf_queue hring, hqueue]

theorem State.vecDone_mem : (s.vecDone t p st q v h z).fab.mem = z.fab.mem := by
  rw [State.vecDone, State.updTile_mem, State.withPad_mem]

theorem State.vecDone_gather : ((s.vecDone t p st q v h z).tile t).gather = (z.tile t).gather := by
  rw [State.vecDone, State.updTile_tile, Tile.passRingOf_finishRun_gather, State.withPad_tile]

theorem State.vecDone_sameTilesBut : s.SameTilesBut (s.vecDone t p st q v h z) t := by
  refine ⟨fun u hu => ?_, fun n => ?_⟩
  · rw [State.vecDone, State.updTile_tile_other _ _ _ _ hu, State.withPad_tile_other _ _ _ hu, State.updTile_tile_other _ _ _ _ hu,
      State.junctIssued, State.updTile_tile_other _ _ _ _ hu]
  · simp only [State.vecDone, State.junctIssued, State.updTile_part, State.withPad_part]

theorem State.vecDone_link : (s.vecDone t p st q v h z).link = s.link := by
  simp only [State.vecDone, State.junctIssued, State.updTile_link, State.withPad_link]

theorem State.vecDone_out : (s.vecDone t p st q v h z).out = s.out := by
  simp only [State.vecDone, State.junctIssued, State.updTile_out, State.withPad_out]

theorem State.vecDone_sameSteward : s.SameSteward (s.vecDone t p st q v h z) :=
  (((State.SameSteward.updTile s t _).trans (.updTile _ _ _)).trans (State.withPad_sameSteward _ z t)).trans (.updTile _ _ _)

/-- Results that only land in memory leave the gather buffer as it was. -/
theorem State.junctIssued_lands (g : Fabric) :
    ((s.junctIssued t p st q).setFab ((s.junctIssued t p st q).fab.withMemory g)).updTile t (fun x => x.setHist h) =
      ((s.junctIssued t p st q).updTile t (fun x => x.setHist h)).withPad (s.setFab (s.fab.withMemory g)) t := by
  have hgather : ((s.setFab (s.fab.withMemory g)).tile t).gather = ((s.junctIssued t p st q).tile t).gather := by
    rw [State.setFab_withMemory_tile, State.junctIssued_gather]
  rw [State.withPad, State.setFab_fab, State.setFab_withMemory_updTile, State.updTile_updTile, State.updTile_eq, State.updTile_eq,
    State.setFab_withMemory_tile, hgather]
  rfl

end

/-! ### Element-wise operations -/

/-- The start of operand A: in the full slot of the ring that the step names, if it names one (R314, R373). -/
def State.vecSrcA (s : State) (t : Nat) (v : Vec) (base : Nat) : Nat :=
  match v.ringOf with
  | some k => ((s.tile t).queue k).ringBase + ((s.tile t).queue k).consN % 3 * ((s.tile t).queue k).ringSlot + v.srcA
  | none => base + v.srcA

/-- Row `r` of the result of an element-wise step (R249, R250, R581). -/
def State.vecRow (s : State) (t : Nat) (p : Part) (st : ItinStep) (ctx : WorkCtx) (v : Vec) (r : Nat) : List (BitVec 32) :=
  let cols := dimValue ctx v.cols
  let base := if st.wbc then (s.tile t).computeBase p.discipline else 0
  (List.range cols).map (fun i =>
    let a := (s.operandRow t (s.vecSrcA t v base + r * v.pitch) st.ifmtA cols).getD i 0
    let b := (s.operandRow t (base + v.srcB + r * v.pitch) st.ifmtB cols).getD i 0
    let d := (s.operandRow t (base + v.srcC + r * v.pitch) st.ifmtC cols).getD i 0
    if st.ifmtA = fmtINT32 then vecOpInt v.vop v.imm a b d else vecOp v.vop v.imm (p.func v.func) a b d)

/-- `n` rows of results written and counted. -/
def putRows (t : Nat) (o : OutPlane) (k : SrKey) (n : Nat) (row : Nat → List (BitVec 32)) (c : Fabric × Hist) : Fabric × Hist :=
  (List.range n).foldl (fun a r => putRow a.1 a.2 t o k r (row r)) c

theorem putRows_withMemory (t : Nat) (o : OutPlane) (k : SrKey) (n : Nat) (row : Nat → List (BitVec 32)) (f g : Fabric) (h : Hist) :
    putRows t o k n row (f.withMemory g, h) = (f.withMemory (putRows t o k n row (g, h)).1, (putRows t o k n row (g, h)).2) :=
  foldl_withMemory f _ (fun g h r => putRow_withMemory f g h t o k r _) _ (g, h)

/-- What an element-wise step with work context `ctx` writes and counts (R260, R373). -/
def vecWrites (t : Nat) (st : ItinStep) (ctx : WorkCtx) (v : Vec) (step pass : Nat) (row : Nat → List (BitVec 32)) (c : Fabric × Hist) :
    Fabric × Hist :=
  putRows t (outPlane v.dst v.pitch v.dstAux v.conv (dimValue ctx v.cols) st.raw (st.ifmtA == fmtINT32)) ⟨ctx.workId, step, pass⟩
    (dimValue ctx v.rows) row c

/-- A step of an element-wise operation writes its rows and counts them (R249, R260). -/
theorem State.runVec_rowwise (s : State) (t : Nat) (p : Part) (st : ItinStep) (run : StepRun) {v : Vec} (hvop : isReduction v.vop = false) :
    s.runVec t p st run v =
      let w := vecWrites t st (s.tile t).seq.ctx v run.step run.pass (s.vecRow t p st (s.tile t).seq.ctx v) (s.fab, (s.tile t).seq.rep.hist)
      (s.setFab w.1).updTile t (fun x => x.setHist w.2) := by
  simp only [State.runVec, hvop, vecWrites, putRows, State.vecRow, State.vecSrcA, beq_iff_eq]
  rfl

section
variable (s : State) (t : Nat) (p : Part) (st : ItinStep) (q : Seq) (v : Vec)

theorem State.vecSrcA_junctIssued (base : Nat) : (s.junctIssued t p st q).vecSrcA t v base = s.vecSrcA t v base := by
  simp only [State.vecSrcA, State.junctIssued_queue]

theorem State.vecRow_junctIssued (ctx : WorkCtx) : (s.junctIssued t p st q).vecRow t p st ctx v = s.vecRow t p st ctx v := by
  funext r
  simp only [State.vecRow, State.vecSrcA_junctIssued, State.junctIssued_computeBase, State.operandRow_junctIssued]

/-- The run writes and counts what the step at the sequencer's place says (R249, R260). -/
theorem State.runVec_junctIssued_rowwise (hvop : isReduction v.vop = false) :
    let w := vecWrites t st q.ctx v q.pc (tabGet 0 q.passes q.pc) (s.vecRow t p st q.ctx v) (s.fab, q.rep.hist)
    (s.junctIssued t p st q).runVec t p st (s.junctRun t p st q) v =
      ((s.junctIssued t p st q).updTile t (fun x => x.setHist w.2)).withPad (s.setFab (s.fab.withMemory w.1)) t := by
  have hfab : (s.junctIssued t p st q).fab = (s.junctIssued t p st q).fab.withMemory s.fab := rfl
  intro w
  have hwrites : vecWrites t st q.ctx v q.pc (tabGet 0 q.passes q.pc) (s.vecRow t p st q.ctx v) ((s.junctIssued t p st q).fab, q.rep.hist) =
      ((s.junctIssued t p st q).fab.withMemory w.1, w.2) := by
    rw [hfab]
    exact putRows_withMemory _ _ _ _ _ _ _ _
  rw [State.runVec_rowwise _ _ _ _ _ hvop, State.junctIssued_ctx, State.junctIssued_hist, State.vecRow_junctIssued]
  show ((s.junctIssued t p st q).setFab (vecWrites t st q.ctx v q.pc _ _ _).1).updTile t _ = _
  rw [← State.junctIssued_lands]
  simp only [State.junctRun, Tile.runOf, hwrites]

end

theorem isReduction_of_rowwise {vop : Nat} {c : Nat → Instr} (h : (vop, c) ∈ rowwiseCommands) : isReduction vop = false := by
  have hall : ∀ n ∈ rowwiseCommands.map (·.1), isReduction n = false := by decide
  exact hall vop (List.mem_map_of_mem h)

/-! ### The operations on elements -/

theorem vecOpInt_min_max (imm : Nat) (a b c : BitVec 32) :
    (vecOpInt 5 imm a b c).toInt = Min.min a.toInt b.toInt ∧ (vecOpInt 6 imm a b c).toInt = Max.max a.toInt b.toInt := by
  refine ⟨?min, ?max⟩
  case min =>
    show (if a.toInt ≤ b.toInt then a else b).toInt = _
    split
    · omega
    · omega
  case max =>
    show (if b.toInt ≤ a.toInt then a else b).toInt = _
    split
    · omega
    · omega

/-- SELECT reads the compared word as signed (R581). -/
theorem vecOpInt_select (a b c : BitVec 32) :
    vecOpInt 10 0 a b c = (if c.toInt < 0 then a else b) ∧ vecOpInt 10 1 a b c = (if c.toInt ≤ 0 then a else b) ∧
    vecOpInt 10 2 a b c = (if c = 0 then a else b) := by
  have hzero : c.toInt = 0 ↔ c = 0 := BitVec.toInt_inj (y := 0)
  simp [vecOpInt, hzero]

/-! ### The statement -/

/-- Settles O6: a VEC step that enters a free vector unit runs there row by row, and behind a finished step it waits, in a queue of the
model's choice (log 60); the operations are equal to the named ones case by case. -/
theorem elementwiseSteps : Obligations.ElementwiseSteps := by
  unfold Obligations.ElementwiseSteps
  refine ⟨fun s t pn p st q v c hcmd hstands hbody hskip hrows hmaxR hcols hmaxC => ⟨?runs, ?queues⟩, fun imm f a b d => ?fp32,
    fun imm a b d => ?int32⟩
  case runs =>
    intro hfree hring hreads rows cols base srcA row w
    have hexec := exec_vec_of_free (List.mem_append_left _ hcmd) hstands hbody hskip hrows hmaxR hcols hmaxC hfree hring hreads
    rw [State.runVec_junctIssued_rowwise _ _ _ _ _ _ (isReduction_of_rowwise hcmd)] at hexec
    exact ⟨s.vecDone t p st q v w.2 (s.setFab (s.fab.withMemory w.1)), hexec, s.vecDone_seq t p st q v _ _,
      fun k hk => s.vecDone_queue t p st q v _ _ hk, s.vecDone_mem t p st q v _ _, s.vecDone_sameTilesBut t p st q v _ _,
      s.vecDone_link t p st q v _ _, s.vecDone_out t p st q v _ _, s.vecDone_sameSteward t p st q v _ _⟩
  case queues =>
    exact fun r => exec_vec_of_behind (List.mem_append_left _ hcmd) hstands hbody hskip hrows hmaxR hcols hmaxC
  case fp32 => exact ⟨rfl, rfl, rfl, rfl, rfl, rfl, rfl, rfl, rfl, rfl, rfl, rfl, rfl, rfl, rfl⟩
  case int32 =>
    obtain ⟨hmin, hmax⟩ := vecOpInt_min_max imm a b d
    exact ⟨rfl, rfl, rfl, hmin, hmax, (BitVec.zero_sub a).symm, vecOpInt_select a b d⟩

end Sys2Proof.Machine
end

section
/-! SUPPORT. What a row reduction writes, counts and passes through the gather buffer, with the statement about it (R256, R258, R280, R373). -/
namespace Sys2Proof.Machine

/-! ### Results of a reduction -/

/-- The result of row `r` and the index of its winner (R256, R258). -/
def State.vecRes (s : State) (t : Nat) (p : Part) (st : ItinStep) (ctx : WorkCtx) (v : Vec) (r : Nat) : F32 × Nat :=
  let base := if st.wbc then (s.tile t).computeBase p.discipline else 0
  reduceRow v.vop (s.operandRow t (s.vecSrcA t v base + r * v.pitch) st.ifmtA (dimValue ctx v.cols))

/-- What a reduction of `n` rows writes as a converted row, and what it counts (R258, R260). -/
def reduceWrites (t : Nat) (st : ItinStep) (v : Vec) (k : SrKey) (n : Nat) (res : Nat → F32 × Nat) (c : Fabric × Hist) : Fabric × Hist :=
  let o := outPlane v.dst 0 v.dstAux v.conv n st.raw false
  if st.raw = true then c
  else if o.conv.fmt = fmtFP32 then (c.1, (List.range n).foldl (fun h r => histCount h (res r).1 (fp32Class (res r).1)) c.2)
  else putRow c.1 c.2 t o k 0 ((List.range n).map (fun r => (res r).1))

/-- The small writes of a reduction of `n` rows: unconverted results, and the winners' indices of RMAXI and RMINI (R258, R280). -/
def State.reduceSmall (z : State) (t : Nat) (st : ItinStep) (v : Vec) (n : Nat) (res : Nat → F32 × Nat) : State :=
  let o := outPlane v.dst 0 v.dstAux v.conv n st.raw false
  let z := if st.raw = true ∨ o.conv.fmt = fmtFP32 then z.smallWords t v.dst n (fun r => leBytes 4 (res r).1.toNat) else z
  if v.vop = 16 ∨ v.vop = 17 then z.smallWords t v.dstAux n (fun r => leBytes 4 (res r).2) else z

theorem reduceWrites_withMemory (t : Nat) (st : ItinStep) (v : Vec) (k : SrKey) (n : Nat) (res : Nat → F32 × Nat) (f g : Fabric) (h : Hist) :
    reduceWrites t st v k n res (f.withMemory g, h) =
      (f.withMemory (reduceWrites t st v k n res (g, h)).1, (reduceWrites t st v k n res (g, h)).2) := by
  unfold reduceWrites
  dsimp only
  split
  · rfl
  · split
    · rfl
    · exact putRow_withMemory f g h t _ k 0 _

theorem reduceWrites_clean {t : Nat} {f : Fabric} (hf : f.Clean t) (st : ItinStep) (v : Vec) (k : SrKey) (n : Nat) (res : Nat → F32 × Nat)
    (h : Hist) : (reduceWrites t st v k n res (f, h)).1.Clean t := by
  unfold reduceWrites
  dsimp only
  split
  · exact hf
  · split
    · exact hf
    · exact putRow_induct (P := (·.Clean t)) (fun g off bs hg => hg.spWrite t off bs) hf _ _ _ _ _

theorem State.reduceSmall_withPad {z : State} {t : Nat} (hz : z.CleanPad t) (s : State) (st : ItinStep) (v : Vec) (n : Nat)
    (res : Nat → F32 × Nat) : (s.withPad z t).reduceSmall t st v n res = s.withPad (z.reduceSmall t st v n res) t := by
  have hif (P : Prop) [Decidable P] {z : State} (hz : z.CleanPad t) (dst : Nat) (w : Nat → List Byte) :
      (if P then (s.withPad z t).smallWords t dst n w else s.withPad z t) = s.withPad (if P then z.smallWords t dst n w else z) t ∧
      (if P then z.smallWords t dst n w else z).CleanPad t := by
    split
    · exact State.smallWords_withPad hz s dst n w
    · exact ⟨rfl, hz⟩
  obtain ⟨hresults, hkept⟩ := hif (st.raw = true ∨ (outPlane v.dst 0 v.dstAux v.conv n st.raw false).conv.fmt = fmtFP32) hz v.dst
    (fun r => leBytes 4 (res r).1.toNat)
  unfold State.reduceSmall
  dsimp only
  rw [hresults]
  exact (hif _ hkept _ _).1

/-! ### The run of a reduction -/

/-- Only the results of the rows are written. -/
theorem State.reduceSmall_congr (z : State) (t : Nat) (st : ItinStep) (v : Vec) {n : Nat} {res res' : Nat → F32 × Nat}
    (h : ∀ r < n, res r = res' r) : z.reduceSmall t st v n res = z.reduceSmall t st v n res' := by
  have hwords (dst : Nat) (word : F32 × Nat → List Byte) (z : State) :
      z.smallWords t dst n (fun r => word (res r)) = z.smallWords t dst n (fun r => word (res' r)) :=
    List.foldl_rel rfl (fun r hr y y' hy => by simp only [hy, h r (List.mem_range.mp hr)])
  simp only [State.reduceSmall, hwords _ (fun e => leBytes 4 e.1.toNat), hwords _ (fun e => leBytes 4 e.2)]

/-- A reduction writes and counts first, then makes its small writes (R258, R280): unconverted, as FP32, or as a converted row. -/
theorem State.runVec_reduction (s : State) (t : Nat) (p : Part) (st : ItinStep) (run : StepRun) {v : Vec} (hvop : isReduction v.vop = true) :
    s.runVec t p st run v =
      let ctx := (s.tile t).seq.ctx
      let n := dimValue ctx v.rows
      let w := reduceWrites t st v ⟨ctx.workId, run.step, run.pass⟩ n (s.vecRes t p st ctx v) (s.fab, (s.tile t).seq.rep.hist)
      ((s.setFab w.1).updTile t (fun x => x.setHist w.2)).reduceSmall t st v n (s.vecRes t p st ctx v) := by
  have hget (n : Nat) : ∀ r < n, s.vecRes t p st (s.tile t).seq.ctx v r =
      ((List.range n).map (s.vecRes t p st (s.tile t).seq.ctx v)).getD r (0, 0) := fun r hr => by simp [hr]
  dsimp only
  rw [State.reduceSmall_congr _ _ _ _ (hget _)]
  by_cases hraw : st.raw = true
  · simp only [State.runVec, hvop, if_true, outPlane, hraw, Bool.true_or, Bool.not_true, Bool.and_false, Bool.false_eq_true, if_false,
      Bool.or_eq_true, beq_iff_eq, reduceWrites, State.reduceSmall, true_or]
    rfl
  · by_cases hfmt : (convByte v.conv).fmt = fmtFP32
    · simp only [State.runVec, hvop, if_true, outPlane, hraw, hfmt, beq_self_eq_true, Bool.or_true, Bool.not_false, Bool.and_true,
        Bool.or_eq_true, beq_iff_eq, reduceWrites, State.reduceSmall, or_true, List.foldl_map]
      rfl
    · simp only [State.runVec, hvop, if_true, outPlane, hraw, hfmt, Bool.or_eq_true, beq_iff_eq, Bool.and_eq_true, if_false,
        reduceWrites, State.reduceSmall, List.map_map]
      rfl

section
variable (s : State) (t : Nat) (p : Part) (st : ItinStep) (q : Seq) (v : Vec)

theorem State.vecRes_junctIssued (ctx : WorkCtx) : (s.junctIssued t p st q).vecRes t p st ctx v = s.vecRes t p st ctx v := by
  funext r
  simp only [State.vecRes, State.vecSrcA_junctIssued, State.junctIssued_computeBase, State.operandRow_junctIssued]

/-- The run writes, counts and gathers what the step at the sequencer's place says (R256, R258, R280). -/
theorem State.runVec_junctIssued_reduction (hvop : isReduction v.vop = true) (hclean : s.CleanPad t) :
    let n := dimValue q.ctx v.rows
    let w := reduceWrites t st v ⟨q.ctx.workId, q.pc, tabGet 0 q.passes q.pc⟩ n (s.vecRes t p st q.ctx v) (s.fab, q.rep.hist)
    (s.junctIssued t p st q).runVec t p st (s.junctRun t p st q) v =
      ((s.junctIssued t p st q).updTile t (fun x => x.setHist w.2)).withPad
        ((s.setFab w.1).reduceSmall t st v n (s.vecRes t p st q.ctx v)) t := by
  intro n w
  have hwrites (f : Fabric) : reduceWrites t st v ⟨q.ctx.workId, q.pc, tabGet 0 q.passes q.pc⟩ n (s.vecRes t p st q.ctx v)
      (f.withMemory s.fab, q.rep.hist) = (f.withMemory w.1, w.2) := reduceWrites_withMemory _ _ _ _ _ _ _ _ _
  have hown : s.fab.withMemory w.1 = w.1 := congrArg Prod.fst (hwrites s.fab).symm
  have hkept : (s.setFab w.1).CleanPad t := reduceWrites_clean hclean _ _ _ _ _ _
  have hlands : (s.junctIssued t p st q).runVec t p st (s.junctRun t p st q) v =
      (((s.junctIssued t p st q).setFab ((s.junctIssued t p st q).fab.withMemory w.1)).updTile t (fun x => x.setHist w.2)).reduceSmall
        t st v n (s.vecRes t p st q.ctx v) := by
    have hissued : reduceWrites t st v ⟨q.ctx.workId, (s.junctRun t p st q).step, (s.junctRun t p st q).pass⟩ (dimValue q.ctx v.rows)
        (s.vecRes t p st q.ctx v) ((s.junctIssued t p st q).fab, q.rep.hist) = ((s.junctIssued t p st q).fab.withMemory w.1, w.2) :=
      hwrites (s.junctIssued t p st q).fab
    rw [State.runVec_reduction _ _ _ _ _ hvop, State.junctIssued_ctx, State.junctIssued_hist]
    simp only [State.vecRes_junctIssued, hissued, n]
  rw [hlands, State.junctIssued_lands, hown, State.reduceSmall_withPad hkept]

end

theorem isReduction_of_reduction {vop : Nat} {c : Nat → Instr} (h : (vop, c) ∈ reductionCommands) : isReduction vop = true := by
  have hall : ∀ n ∈ reductionCommands.map (·.1), isReduction n = true := by decide
  exact hall vop (List.mem_map_of_mem h)

/-! ### The statement -/

/-- Settles O8: a reduction that enters a free vector unit runs there; its small writes do the same to memory and gather buffer whether the
step has been issued or not, as no codeword of the scratchpad is wrong. Which results go through the gather buffer is log 61. -/
theorem rowReductionCompletes : Obligations.RowReductionCompletes := by
  unfold Obligations.RowReductionCompletes
  intro s t pn p st q v c hcmd hstands hbody hskip hfree hring hreads hrows hmaxR hcols hmaxC rows base srcA res o small w s1 s2 s3
  have hexec := exec_vec_of_free (List.mem_append_right _ hcmd) hstands hbody hskip hrows hmaxR hcols hmaxC hfree hring hreads
  obtain ⟨hclean, -⟩ := hreads
  rw [State.runVec_junctIssued_reduction _ _ _ _ _ _ (isReduction_of_reduction hcmd) hclean] at hexec
  exact ⟨s.vecDone t p st q v w.2 s3, hexec, s.vecDone_seq t p st q v _ _, s.vecDone_mem t p st q v _ _,
    s.vecDone_gather t p st q v _ _, fun k hk => s.vecDone_queue t p st q v _ _ hk, s.vecDone_sameTilesBut t p st q v _ _,
    s.vecDone_link t p st q v _ _, s.vecDone_out t p st q v _ _, s.vecDone_sameSteward t p st q v _ _⟩

end Sys2Proof.Machine
end
